-- ==== Sys2Proof/Word.lean ====
section
/-! DEFINITION. The plain word types of the block: the byte every chip location and operand byte is (20_memory.md R61),
the 16-bit guard operand and 32-bit frequency operand of the command port (30_encoding.md R93), and the clock value
(10_state.md R44, `CLK_BITS` = 32 by 00_scope.md R7). -/

namespace Sys2Proof

/-- `u8`: one byte; read as `i8` by `BitVec.toInt` (00_scope.md R10). -/
abbrev Byte := BitVec 8

/-- `u16`: the guard operand of the command port, in microseconds (30_encoding.md R93). -/
abbrev Word16 := BitVec 16

/-- `u32` or `i32`: the 32-bit operand of formats `U32` and `I32` (30_encoding.md R91). -/
abbrev Word32 := BitVec 32

/-- `CLK_BITS` = 32: a value of the microsecond clock, which wraps (10_state.md R44, 00_scope.md R7). -/
abbrev Clock := BitVec 32

/-- A byte sequence: a frame, a network identifier, the data of a burst. -/
abbrev Bytes := List Byte

end Sys2Proof
end

