-- ==== Sys2Proof/Config.lean ====
section
/-! DEFINITION. The parameters of the block. 00_scope.md R6 (fixed by the document) are constants; R8 (left OPEN) are the
fields of the configuration record `Cfg`, "the model takes each as an argument (a field of its configuration record)";
the constraint column of R8 is the named premise `CfgLawful` of Safety.lean. The free values (what the chip, the clock
and the environment answer where a state scripts nothing) are opaque constants without a body.
A parameter that is a function is carried as a finite table with a default (`Tab`), so that the record is plain data
(log entries 1 and 2, DESIGN CHOICE). -/

namespace Sys2Proof.Config

/-! ## Constants the document fixes (00_scope.md R6) -/

/-- `RSSI_OFFSET` = 74. -/
def rssiOffset : Int := 74

/-- `RSSI_SPLIT` = 128. -/
def rssiSplit : Nat := 128

/-- `OFFSET_MIN` = -128. -/
def offsetMin : Int := -128

/-- `OFFSET_MAX` = 127. -/
def offsetMax : Int := 127

/-- `GUARD_MAX_ISR_US` = 10. -/
def guardMaxIsrUs : Nat := 10

/-- `T_XTAL_SETTLE_US`: the document says about 400 microseconds; the model takes 400 (log entry 18, DESIGN CHOICE). -/
def xtalSettleUs : Nat := 400

/-- `STEP_HI` = 26 MHz, the decided value of 00_scope.md R7. -/
def stepHiExact : Rat := 26

/-- `STEP_MID` = 26/2^8 MHz, the decided value of 00_scope.md R7. -/
def stepMidExact : Rat := 26 / 256

/-- `STEP_LO` = 26/2^16 MHz, the decided value of 00_scope.md R7. -/
def stepLoExact : Rat := 26 / 65536

/-! ## Types of the parameters -/

/-- A pure function given as plain data: the listed values, and one value for every other argument. Every function on
a finite domain is one (log entry 2). -/
structure Tab (α β : Type) where
  entries : List (α × β)
  other : β
deriving DecidableEq, Repr, Inhabited

/-- The operations of 30_encoding.md R92 as names: the argument of `GuardUs` (00_scope.md R8). -/
inductive Op where
  | init | transmit | transmitList | restartRx | setFreqOffset | smSetFreq | smSetBw | trackEnable | trackDisable
  | drvReset | wrReg | wrBurst | strobe | rdReg | rdBurst | rdStatus
  | setFreq | calibrate | setBw | setBitrate | setDev | getRssi | getLqi | lowPower | activePower | isConnected
  | rdRxFifo | wrTxFifo | wrTxFifoBurst | flushRx | flushTx | getRxLvl | getTxLvl | setFifoThr
  | irqRxThr | irqTxThr | irqTxUnf | updFreqOffset | evIrq | evTimer
deriving DecidableEq, Repr, Inhabited

/-- `ChipMap` (20_memory.md R66, 10_state.md R46): every address, strobe code and fixed value, each a `u8`, all open. -/
structure ChipMap where
  aFreqHi : Byte
  aFreqMid : Byte
  aFreqLo : Byte
  aFreqOffset : Byte
  aFreqEst : Byte
  aTest : Byte
  vTestCal : Byte
  aChipStatus : Byte
  aPresence : Byte
  aRssi : Byte
  aLqi : Byte
  aRxLevel : Byte
  aTxLevel : Byte
  aFifo : Byte
  aFifoThr : Byte
  aIrqCfg : Byte
  vIrqRxThr : Byte
  vIrqTxThr : Byte
  vIrqTxUnf : Byte
  aBw : Byte
  aBitrateHi : Byte
  aBitrateLo : Byte
  aDev : Byte
  sCal : Byte
  sRx : Byte
  sTx : Byte
  sFlushRx : Byte
  sFlushTx : Byte
  sPowerDown : Byte
  sWake : Byte
deriving DecidableEq, Repr, Inhabited

/-- One open search of 40_register_driver.md R128: the code chosen for a (clamped) request, the companion valuation from
code to analog value, and the representable bounds. -/
structure Search (w : Nat) where
  codes : Tab Rat (BitVec w)
  values : Tab (BitVec w) Rat
  min : Rat
  max : Rat
deriving DecidableEq, Repr, Inhabited

/-- One step of `ResetSequence` (00_scope.md R8, 40_register_driver.md R118): what is done to the chip, by a code whose
meaning is the platform's, and the microseconds waited afterwards (log entry 21). -/
structure ResetStep where
  action : Byte
  holdUs : Nat
deriving DecidableEq, Repr, Inhabited

/-- `BW_CHOICES_KHZ` (00_scope.md R6). -/
inductive BwChoice where
  | low | medium | high
deriving DecidableEq, Repr, Inhabited

/-- Packet length mode (10_state.md R36). -/
inductive PktLenMode where
  | fixed | variable | infinite
deriving DecidableEq, Repr, Inhabited

/-- `EVENT_PRIORITY` (60_exceptions.md R231). -/
inductive EventPriority where
  | irqFirst | timerFirst | any
deriving DecidableEq, Repr, Inhabited

/-- One entry of the transmit-slot table (10_state.md R28). -/
structure Slot where
  inUse : Bool
  frame : Bytes
deriving DecidableEq, Repr, Inhabited

/-- The transmit-slot table: exactly `N_SLOTS` = 16 entries (10_state.md R28, 00_scope.md R6). -/
abbrev SlotTable := Vector Slot 16

/-- The configuration record: the open parameters of 00_scope.md R8, and the step sizes R122 asks to keep configurable.
Fixed for a run (10_state.md R47): no operation writes it. `pollFuel` is the model's own: the fuel bound of the
calibration poll that 60_exceptions.md R226 offers (log entry 5). -/
structure Cfg where
  /-- `FIFO_CAPACITY` -/
  fifoCapacity : Nat
  /-- `FIFO_THRESHOLD` -/
  fifoThreshold : Byte
  /-- `HEADER_LEN` -/
  headerLen : Nat
  /-- `MAX_FRAME_LEN` -/
  maxFrameLen : Nat
  /-- `TotalLen`, from the header bytes -/
  totalLen : Tab Bytes Nat
  /-- `NetIdOf`, from the header bytes -/
  netIdOf : Tab Bytes (Option Bytes)
  /-- `NETID_BYTES` -/
  netidBytes : Nat
  /-- `T_TURNAROUND_US` -/
  turnaroundUs : Nat
  /-- `GuardUs` -/
  guardUs : Tab Op Nat
  /-- `ChipMap` -/
  chip : ChipMap
  /-- `CalBusy` -/
  calBusy : Tab Byte Bool
  /-- `BwCode`, with `BwValue`, `BW_MIN`, `BW_MAX` (kHz) -/
  bw : Search 8
  /-- `BitrateCode` and its companions (baud) -/
  bitrate : Search 16
  /-- `DevCode` and its companions (kHz) -/
  dev : Search 8
  /-- `LqiMap` -/
  lqiMap : Tab Byte Int
  /-- `BANDS`: closed intervals in MHz (log entry 16) -/
  bands : List (Rat × Rat)
  /-- `F_CARRIER` in MHz -/
  fCarrier : Rat
  /-- `CFG_BITRATE` in baud -/
  cfgBitrate : Rat
  /-- `CFG_DEVIATION` in kHz -/
  cfgDeviation : Rat
  /-- `CFG_BANDWIDTH` -/
  cfgBandwidth : BwChoice
  /-- `CFG_SYNC[2]` -/
  cfgSync : Byte × Byte
  /-- `CFG_PKTLEN_MODE` -/
  cfgPktLenMode : PktLenMode
  /-- `CFG_PREAMBLE_SYNC` -/
  cfgPreambleSync : Bytes
  /-- `BaseConfigWrites` -/
  baseConfigWrites : List (Byte × Byte)
  /-- `ResetSequence` -/
  resetSequence : List ResetStep
  /-- which slot `NextSlot` prefers (log entry 25) -/
  nextPref : Tab SlotTable (Fin 16)
  /-- which slot `FreeSlot` prefers (log entry 25) -/
  freePref : Tab SlotTable (Fin 16)
  /-- `EVENT_PRIORITY` -/
  eventPriority : EventPriority
  /-- `STEP_HI` in MHz -/
  stepHi : Rat
  /-- `STEP_MID` in MHz -/
  stepMid : Rat
  /-- `STEP_LO` in MHz -/
  stepLo : Rat
  /-- the model's fuel bound of the calibration poll -/
  pollFuel : Nat
deriving DecidableEq, Repr, Inhabited

/-! ## What an implementation fixes, and the free values: opaque, no body -/

/-- The open parameters of the platform the block is built into (00_scope.md R8; log entry 1). -/
opaque platform : Cfg

/-- The default of `NextSlot` and `FreeSlot` (00_scope.md R7): slot 0 first, else the lowest index that qualifies. -/
def lowestFirst : Tab SlotTable (Fin 16) := { entries := [], other := 0 }

/-- The configuration of the block after construction: the platform's, with every value 00_scope.md R7 decides (the step
sizes, the lowest-index slot selections) and the default of `EVENT_PRIORITY` (00_scope.md R8). -/
def installed : Cfg :=
  { platform with
    stepHi := stepHiExact
    stepMid := stepMidExact
    stepLo := stepLoExact
    nextPref := lowestFirst
    freePref := lowestFirst
    eventPriority := .any }

/-- The clock at construction (10_state.md R40, R50). -/
opaque nowAtConstruction : Clock

/-- The `n`th byte the chip answers where the state scripts none (20_memory.md R62; log entry 3). -/
opaque freeByte : Nat → Byte

/-- The delay before the guard wait of the `n`th unscripted bus transaction (log entry 4). -/
opaque freeIssue : Nat → Clock

/-- How long the `n`th unscripted ready wait lasts, if it ends (log entry 5). -/
opaque freeReady : Nat → Clock

/-- Which unscripted ready wait never ends, if one does not (20_memory.md R62; log entry 5). -/
opaque freeReadyFails : Option Nat

/-- The time from selection to release of the `n`th unscripted bus transaction (log entry 4). -/
opaque freeTransfer : Nat → Clock

/-- The time before the `n`th unscripted other read of the clock (log entry 4). -/
opaque freeTick : Nat → Clock

/-- The time before the `n`th unscripted arbitration (log entry 6). -/
opaque freeElapsed : Nat → Clock

/-- Whether the interrupt line's active edge came before the `n`th unscripted arbitration (20_memory.md R62; log
entry 6). -/
opaque freeEdge : Nat → Bool

/-- Whether the interrupt line is served before the timer at the `n`th unscripted choice under `Any`
(60_exceptions.md R231; log entry 19). -/
opaque freePick : Nat → Bool

end Sys2Proof.Config
end

