-- ==== Sys2Proof/Syntax.lean ====
section
/-! DEFINITION. The operation set of 30_encoding.md R92: one constructor per row of spec/opcode_table.json, in the
table's order, with the operands of its format (R91, R93). Frequencies, bandwidths and deviations are the 32-bit
operand in hertz, the bitrate in baud. The two events carry no operand (format `E`). -/

namespace Sys2Proof

/-- An operation of the block (30_encoding.md R92). -/
inductive Instr where
  /-- `INIT off` (R200), `off` an `i32` in hertz -/
  | init (off : Word32)
  /-- `TRANSMIT [frame]` (R201) -/
  | transmit (frame : Bytes)
  /-- `TRANSMIT_LIST [frame], ...` (R202) -/
  | transmitList (frames : List Bytes)
  /-- `RESTART_RX` (R203) -/
  | restartRx
  /-- `SET_FREQ_OFFSET off` (R204), `off` an `i32` in hertz -/
  | setFreqOffset (off : Word32)
  /-- `SM_SET_FREQ f` (R205), hertz -/
  | smSetFreq (f : Word32)
  /-- `SM_SET_BW x` (R206), hertz -/
  | smSetBw (x : Word32)
  /-- `TRACK_ENABLE id` (R207) -/
  | trackEnable (id : Bytes)
  /-- `TRACK_DISABLE` (R208) -/
  | trackDisable
  /-- `DRV_RESET` (R118) -/
  | drvReset
  /-- `WR_REG addr, value, guard` (R111) -/
  | wrReg (addr value : Byte) (guard : Word16)
  /-- `WR_BURST addr, guard, [bytes]` (R112) -/
  | wrBurst (addr : Byte) (guard : Word16) (data : Bytes)
  /-- `STROBE cmd, guard` (R113) -/
  | strobe (cmd : Byte) (guard : Word16)
  /-- `RD_REG addr` (R114) -/
  | rdReg (addr : Byte)
  /-- `RD_BURST addr, n` (R115) -/
  | rdBurst (addr n : Byte)
  /-- `RD_STATUS addr` (R116) -/
  | rdStatus (addr : Byte)
  /-- `SET_FREQ f` (R124), hertz -/
  | setFreq (f : Word32)
  /-- `CALIBRATE` (R126) -/
  | calibrate
  /-- `SET_BW x` (R129), hertz -/
  | setBw (x : Word32)
  /-- `SET_BITRATE x` (R130), baud -/
  | setBitrate (x : Word32)
  /-- `SET_DEV x` (R131), hertz -/
  | setDev (x : Word32)
  /-- `GET_RSSI` (R143) -/
  | getRssi
  /-- `GET_LQI` (R144) -/
  | getLqi
  /-- `LOW_POWER` (R145) -/
  | lowPower
  /-- `ACTIVE_POWER` (R146) -/
  | activePower
  /-- `IS_CONNECTED` (R147) -/
  | isConnected
  /-- `RD_RXFIFO n` (R132) -/
  | rdRxFifo (n : Byte)
  /-- `WR_TXFIFO b` (R133) -/
  | wrTxFifo (b : Byte)
  /-- `WR_TXFIFO_BURST [bytes]` (R134) -/
  | wrTxFifoBurst (data : Bytes)
  /-- `FLUSH_RX` (R135) -/
  | flushRx
  /-- `FLUSH_TX` (R136) -/
  | flushTx
  /-- `GET_RXLVL` (R137) -/
  | getRxLvl
  /-- `GET_TXLVL` (R138) -/
  | getTxLvl
  /-- `SET_FIFO_THR level` (R139) -/
  | setFifoThr (level : Byte)
  /-- `IRQ_RX_THR` (R140) -/
  | irqRxThr
  /-- `IRQ_TX_THR` (R141) -/
  | irqTxThr
  /-- `IRQ_TX_UNF` (R142) -/
  | irqTxUnf
  /-- `UPD_FREQ_OFFSET` (R161) -/
  | updFreqOffset
  /-- `EV_IRQ` (R184): the interrupt line's event -/
  | evIrq
  /-- `EV_TIMER` (R177): the turnaround timer's event -/
  | evTimer
deriving DecidableEq, Repr

end Sys2Proof
end

