-- ==== Sys2Proof/Machine/State.lean ====
section
/-! DEFINITION. The state of the block as plain data: every piece 10_state.md names (INVENTORY.md lists them with their
rules), the inputs a deterministic step must find in the state, the model marks and traces of R52, and the machine right
after construction (R50). Nothing here says what an operation does. -/

namespace Sys2Proof.Machine

open Sys2Proof.Config

/-! ## Types of the fields -/

/-- `RadioState` (10_state.md R21): five values, the codes 5 to 7 unrepresentable as R51 asks. -/
inductive RadioState where
  | rxWaitSync | rxHeader | rxPayload | txTransmit | txLastTransmit
deriving DecidableEq, Repr

/-- A frame record, the value pushed to the Frame Queue (10_state.md R25). -/
structure FrameRecord where
  bytes : Bytes
  rssi : Int
  lqi : Int
  timestamp : Clock
  netId : Option Bytes
deriving DecidableEq, Repr

/-- A bus transaction as it stands in the bus trace (20_memory.md R63, R64): its form, its address or code, the bytes
written or read, and its guard in microseconds; and the one entry of the chip's reset sequence
(40_register_driver.md R118). -/
inductive BusTxn where
  /-- `(W, addr, value, guard)` -/
  | write (addr value : Byte) (guard : Nat)
  /-- `(WB, addr, bytes, guard)` -/
  | writeBurst (addr : Byte) (data : Bytes) (guard : Nat)
  /-- `(S, cmd, guard)` -/
  | strobe (cmd : Byte) (guard : Nat)
  /-- `(R, addr) -> u8` -/
  | read (addr answer : Byte) (guard : Nat)
  /-- `(RB, addr, n) -> n × u8` -/
  | readBurst (addr : Byte) (answers : Bytes) (guard : Nat)
  /-- `(RS, addr) -> u8` -/
  | readStatus (addr answer : Byte) (guard : Nat)
  /-- `(RESET)` -/
  | reset
deriving DecidableEq, Repr

/-- One entry of the bus trace: the transaction and the two chip-select edges (20_memory.md R63: "the times of the
chip-select edges, in a timed model"), and the end of its guard wait, where its ready wait begins (40_register_driver.md
R110; log entry 20). -/
structure BusEntry where
  txn : BusTxn
  guardedAt : Clock
  selectAt : Clock
  releaseAt : Clock
deriving DecidableEq, Repr

/-- `config`, the TransceiverConfig (10_state.md R36). -/
structure TransceiverConfig where
  freqHi : Byte
  freqMid : Byte
  freqLo : Byte
  bwCode : Byte
  bitrateCode : Word16
  devCode : Byte
  syncWord : Byte × Byte
  fifoThreshold : Byte
  pktLenMode : PktLenMode
  preambleSync : Bytes
deriving DecidableEq, Repr

/-- Why the block declines an operation (60_exceptions.md R221). -/
inductive RefuseReason where
  | invalidCommand | outOfBand | busBusy | notInitialised
deriving DecidableEq, Repr

/-- The outcome of an operation (60_exceptions.md R221). `Hang` is not among them: an operation that hangs has no next
state (`Fault.hang`). -/
inductive OpOutcome where
  /-- code 0: the operation ran to its end -/
  | ok
  /-- code 1: declined, nothing changed -/
  | refused (reason : RefuseReason)
  /-- code 2, `Undefined(NotIdle)`: the document calls the situation undefined -/
  | undefinedNotIdle
deriving DecidableEq, Repr

/-- The two interrupt sources (60_exceptions.md R227). -/
inductive Source where
  | irq | timer
deriving DecidableEq, Repr

/-- What the arbiter starts next (60_exceptions.md R230). -/
inductive Work where
  /-- an operation, or the service of an event -/
  | run (i : Instr)
  /-- a word of the command port that is no operation (30_encoding.md R98) -/
  | reject
  /-- no latch is set and no word is offered -/
  | idle
deriving DecidableEq, Repr

/-! ## Inputs -/

/-- How the environment times one bus transaction (40_register_driver.md R110): the delay before its guard wait, how
long `chip_ready` stays false (`none`: for ever), and the time from selection to release. -/
structure TxnTiming where
  issue : Clock
  ready : Option Clock
  transfer : Clock
deriving DecidableEq, Repr

/-- What happens while the block is between two operations: time passes, and the interrupt line's active edge may
arrive (60_exceptions.md R229). -/
structure Arrival where
  elapsed : Clock
  irqEdge : Bool
deriving DecidableEq, Repr

/-- A stream of draws as plain data: the values scripted, and how many further ones have been drawn. Past the script the
`n`th draw is a free value of Config applied to `n` (log entries 3 to 6 and 19). -/
structure Script (α : Type) where
  items : List α
  drawn : Nat
deriving DecidableEq, Repr

/-- The inputs of the block (10_state.md R48). -/
structure Inputs where
  /-- operation words waiting on the command port -/
  words : List Bytes
  /-- what arrives before each arbitration -/
  arrivals : Script Arrival
  /-- the chip's answer bytes -/
  answers : Script Byte
  /-- one entry for each bus transaction -/
  timings : Script TxnTiming
  /-- the unscripted bus transaction whose ready wait never ends, if there is one (log entry 5) -/
  readyFails : Option Nat
  /-- time that passes before the other reads of the clock -/
  ticks : Script Clock
  /-- for each choice under `Any`: true when the interrupt line is first -/
  picks : Script Bool
deriving DecidableEq, Repr

/-! ## The state -/

/-- The state of the block. -/
structure State where
  /-- the open parameters, written by nothing (10_state.md R47; log entry 1) -/
  cfg : Cfg
  radioState : RadioState
  rxBuf : Bytes
  rxCount : Nat
  rxTotal : Option Nat
  slots : SlotTable
  cursor : Fin 16
  txOffset : Nat
  window : Vector Byte 32
  winIdx : Fin 32
  appliedOffset : Byte
  trackingEnabled : Bool
  trackedNetId : Bytes
  config : TransceiverConfig
  csNotBefore : Clock
  timerArmed : Bool
  timerDeadline : Clock
  irqEnabled : Bool
  irqPending : Bool
  timerPending : Bool
  /-- the clock input at the block's last look at it (10_state.md R44) -/
  now : Clock
  inp : Inputs
  /-- the sticky model mark of 10_state.md R52 -/
  refused : Bool
  busTrace : List BusEntry
  pushTrace : List FrameRecord
  /-- the words sent on the response port, in order (30_encoding.md R100) -/
  responses : List Bytes
  /-- the outcome of every operation and service, in order (60_exceptions.md R221) -/
  outcomes : List OpOutcome
deriving DecidableEq, Repr

/-- The registers of the block that only its rules write: everything of 10_state.md but the guard deadline and the
timer latch, which every bus transaction may move on as time passes. A view, for saying what an operation leaves
unchanged. -/
structure Regs where
  radioState : RadioState
  rxBuf : Bytes
  rxCount : Nat
  rxTotal : Option Nat
  slots : SlotTable
  cursor : Fin 16
  txOffset : Nat
  window : Vector Byte 32
  winIdx : Fin 32
  appliedOffset : Byte
  trackingEnabled : Bool
  trackedNetId : Bytes
  config : TransceiverConfig
  timerArmed : Bool
  timerDeadline : Clock
  irqEnabled : Bool
  irqPending : Bool
deriving DecidableEq, Repr

/-- The registers of a state. -/
def State.regs (s : State) : Regs where
  radioState := s.radioState
  rxBuf := s.rxBuf
  rxCount := s.rxCount
  rxTotal := s.rxTotal
  slots := s.slots
  cursor := s.cursor
  txOffset := s.txOffset
  window := s.window
  winIdx := s.winIdx
  appliedOffset := s.appliedOffset
  trackingEnabled := s.trackingEnabled
  trackedNetId := s.trackedNetId
  config := s.config
  timerArmed := s.timerArmed
  timerDeadline := s.timerDeadline
  irqEnabled := s.irqEnabled
  irqPending := s.irqPending

/-- Why a step stops. -/
inductive Fault where
  /-- `Hang` (60_exceptions.md R221, R226): a `wait until` never ends, so the operation never completes. Raised by a bus
  transaction or the chip's reset when `chip_ready` never comes, and by the calibration poll when the calibration bit is
  still set after every scripted answer and `pollFuel` further ones. Safe: the model stops where hardware would wait on. -/
  | hang
deriving DecidableEq, Repr

/-- Why an operation has no meaning in the model. The block's own refusals (60_exceptions.md R221) are no refusals in
this sense: they are next states that carry the `refused` mark. -/
inductive Refusal where
  /-- raised by `exec`'s arm of an operation that has no meaning yet; no arm does. Safe: the model stops. -/
  | notModelled (mnemonic : String)
deriving DecidableEq, Repr

/-! ## The machine right after construction -/

/-- `config` before `INIT`: unspecified by 10_state.md R50 (log entry 8, DESIGN CHOICE, unsafe). -/
def TransceiverConfig.reset : TransceiverConfig where
  freqHi := 0
  freqMid := 0
  freqLo := 0
  bwCode := 0
  bitrateCode := 0
  devCode := 0
  syncWord := (0, 0)
  fifoThreshold := 0
  pktLenMode := .fixed
  preambleSync := []

/-- A stream with nothing scripted and nothing drawn. -/
def Script.fresh {α : Type} : Script α := { items := [], drawn := 0 }

/-- No input scripted: no word offered, everything else a free value, whether the chip becomes ready among them (log
entries 3 to 6, DESIGN CHOICE). -/
def Inputs.fresh : Inputs where
  words := []
  arrivals := .fresh
  answers := .fresh
  timings := .fresh
  readyFails := freeReadyFails
  ticks := .fresh
  picks := .fresh

/-- The state after construction with the configuration `c`: the table of 10_state.md R50. The registers R50 leaves
unspecified (`rxBuf`, slot frames, `window`, `trackedNetId`, `config`, `timerDeadline`) hold zeros
(log entry 8, DESIGN CHOICE, unsafe). -/
def State.resetWith (c : Cfg) : State where
  cfg := c
  radioState := .rxWaitSync
  rxBuf := List.replicate c.maxFrameLen 0
  rxCount := 0
  rxTotal := .none
  slots := Vector.replicate 16 { inUse := false, frame := [] }
  cursor := 0
  txOffset := 0
  window := Vector.replicate 32 0
  winIdx := 0
  appliedOffset := 0
  trackingEnabled := false
  trackedNetId := List.replicate c.netidBytes 0
  config := TransceiverConfig.reset
  csNotBefore := nowAtConstruction
  timerArmed := false
  timerDeadline := 0
  irqEnabled := false
  irqPending := false
  timerPending := false
  now := nowAtConstruction
  inp := Inputs.fresh
  refused := false
  busTrace := []
  pushTrace := []
  responses := []
  outcomes := []

/-- The machine right after construction (10_state.md R50, 70_reset_and_hazards.md R250, R251). -/
def State.reset : State := State.resetWith installed

end Sys2Proof.Machine
end

