-- ==== Sys2Proof/Machine/Flags.lean ====
section
/-! DEFINITION. The Boolean flags of 10_state.md R49, each with the operations that write it and the tests that read it.
None is a condition code. The latches are cleared in Ops.lean (`State.enterService`) and set as time passes there. -/

namespace Sys2Proof.Machine

open Sys2Proof.Config

/-- Idle: `radioState` = `RxWaitSync` (43_host_commands.md R210). -/
def State.isIdle (s : State) : Bool := decide (s.radioState = .rxWaitSync)

/-- The slot the sequencer is transmitting (10_state.md R29). -/
def State.activeSlot (s : State) : Slot := s.slots[s.cursor]

/-- `slots[i].frame <- frame; slots[i].inUse <- true` (43_host_commands.md R209). -/
def State.fillSlot (s : State) (i : Fin 16) (frame : Bytes) : State :=
  { s with slots := s.slots.set i { inUse := true, frame := frame } }

/-- `slots[cursor].inUse <- false`; the frame stays (42_rx_tx_sequencer.md R180). -/
def State.releaseActive (s : State) : State :=
  { s with slots := s.slots.set s.cursor { s.slots[s.cursor] with inUse := false } }

/-- `trackedNetId <- id; trackingEnabled <- true` (43_host_commands.md R207). -/
def State.enableTracking (s : State) (id : Bytes) : State :=
  { s with trackedNetId := id, trackingEnabled := true }

/-- `trackingEnabled <- false` (43_host_commands.md R208). -/
def State.disableTracking (s : State) : State := { s with trackingEnabled := false }

/-- The gate of 41_frequency_filter.md R163. -/
def State.tracks (s : State) (nid : Option Bytes) : Bool :=
  s.trackingEnabled && decide (nid = some s.trackedNetId)

/-- `timerArmed <- true; timerDeadline <- now + delay` (10_state.md R41). -/
def State.armTimer (s : State) (delayUs : Nat) : State :=
  { s with timerArmed := true, timerDeadline := s.now + BitVec.ofNat 32 delayUs }

/-- `timerArmed <- false`. -/
def State.disarmTimer (s : State) : State := { s with timerArmed := false }

/-- `irqEnabled <- b` (10_state.md R42). -/
def State.setIrqEnabled (s : State) (b : Bool) : State := { s with irqEnabled := b }

/-- `rxCount <- 0; rxTotal <- none; radioState <- S`: how every reception starts and ends
(42_rx_tx_sequencer.md R171, R174, R175, R181). -/
def State.clearRx (s : State) (target : RadioState) : State :=
  { s with rxCount := 0, rxTotal := none, radioState := target }

/-- `raise Refused` or `raise Undefined` (60_exceptions.md R221): the sticky mark is set, the outcome recorded, and
nothing else changes. -/
def State.markRefused (s : State) (o : OpOutcome) : State :=
  { s with refused := true, outcomes := s.outcomes ++ [o] }

/-- The operation ran to its end: outcome `Ok`. -/
def State.markOk (s : State) : State := { s with outcomes := s.outcomes ++ [.ok] }

end Sys2Proof.Machine
end

