-- ==== Sys2Proof/WellFormed.lean ====
section
/-! DEFINITION. Which operations the command port can carry (30_encoding.md R91): every length fits its length byte, a
list has at most 255 items, and a network identifier has exactly `NETID_BYTES` bytes (R96). -/

namespace Sys2Proof

/-- A byte sequence that fits a `u8` length byte. -/
def fitsLengthByte (bs : Bytes) : Bool := decide (bs.length ≤ 255)

/-- The operands of `i` are encodable when identifiers have `netidBytes` bytes (30_encoding.md R91, R96). -/
def Instr.wellFormed (netidBytes : Nat) : Instr → Bool
  | .transmit frame => fitsLengthByte frame
  | .transmitList frames => decide (frames.length ≤ 255) && frames.all fitsLengthByte
  | .trackEnable id => decide (id.length = netidBytes)
  | .wrBurst _ _ data => fitsLengthByte data
  | .wrTxFifoBurst data => fitsLengthByte data
  | .init _ | .restartRx | .setFreqOffset _ | .smSetFreq _ | .smSetBw _ | .trackDisable | .drvReset
  | .wrReg _ _ _ | .strobe _ _ | .rdReg _ | .rdBurst _ _ | .rdStatus _ | .setFreq _ | .calibrate
  | .setBw _ | .setBitrate _ | .setDev _ | .getRssi | .getLqi | .lowPower | .activePower
  | .isConnected | .rdRxFifo _ | .wrTxFifo _ | .flushRx | .flushTx | .getRxLvl | .getTxLvl
  | .setFifoThr _ | .irqRxThr | .irqTxThr | .irqTxUnf | .updFreqOffset | .evIrq | .evTimer => true

/-- The operation is one of the two events, which are not words of the command port (30_encoding.md R90). -/
def Instr.isEvent : Instr → Bool
  | .evIrq | .evTimer => true
  | .init _ | .transmit _ | .transmitList _ | .restartRx | .setFreqOffset _ | .smSetFreq _ | .smSetBw _
  | .trackEnable _ | .trackDisable | .drvReset | .wrReg _ _ _ | .wrBurst _ _ _ | .strobe _ _ | .rdReg _
  | .rdBurst _ _ | .rdStatus _ | .setFreq _ | .calibrate | .setBw _ | .setBitrate _ | .setDev _ | .getRssi
  | .getLqi | .lowPower | .activePower | .isConnected | .rdRxFifo _ | .wrTxFifo _ | .wrTxFifoBurst _
  | .flushRx | .flushTx | .getRxLvl | .getTxLvl | .setFifoThr _ | .irqRxThr | .irqTxThr | .irqTxUnf
  | .updFreqOffset => false

end Sys2Proof
end

