-- ==== Sys2Proof/Decode.lean ====
section
/-! DEFINITION. The operation word of 30_encoding.md: formats (R91), opcodes (R92), operand assembly (R93), reserved and
short words (R98); then the encoder, written from the same tables. A word is the whole byte sequence of one operation:
its length is fixed by its opcode and its length bytes (R90). A word with bytes left over is refused too, as R98's
short word is (log entry 11, DESIGN CHOICE). -/

namespace Sys2Proof

/-- Why a word is no operation. All of them end as `Refused(InvalidCommand)` on the command port (30_encoding.md R98). -/
inductive DecodeError where
  /-- no opcode byte at all -/
  | emptyWord
  /-- an opcode byte not listed in R92 -/
  | reservedOpcode (op : Byte)
  /-- fewer bytes than the format requires -/
  | shortWord
  /-- more bytes than the format has -/
  | excessBytes
  /-- the codes 0x80 and 0x81 presented on the command port -/
  | eventCode
deriving DecidableEq, Repr

/-- What decoding a word answers. -/
abbrev Decoded := Except DecodeError Instr

/-- A word whose operand bytes are not the `need` its format has. -/
def wrongLength (need : Nat) (bs : Bytes) : Decoded :=
  .error (if bs.length < need then .shortWord else .excessBytes)

/-- `guard`: `byte_hi ++ byte_lo` (30_encoding.md R93). -/
def word16 (lo hi : Byte) : Word16 := hi ++ lo

/-- `v`: `byte4 ++ byte3 ++ byte2 ++ byte1` (30_encoding.md R93). -/
def word32 (b1 b2 b3 b4 : Byte) : Word32 := b4 ++ (b3 ++ (b2 ++ b1))

/-- Format `N`. -/
def formatN (i : Instr) : Bytes → Decoded
  | [] => .ok i
  | bs => wrongLength 0 bs

/-- Formats `B` and `A`: one byte. -/
def formatB (f : Byte → Instr) : Bytes → Decoded
  | [b] => .ok (f b)
  | bs => wrongLength 1 bs

/-- Format `AN`. -/
def formatAN (f : Byte → Byte → Instr) : Bytes → Decoded
  | [a, n] => .ok (f a n)
  | bs => wrongLength 2 bs

/-- Format `AVG`. -/
def formatAVG (f : Byte → Byte → Word16 → Instr) : Bytes → Decoded
  | [a, v, g0, g1] => .ok (f a v (word16 g0 g1))
  | bs => wrongLength 4 bs

/-- Format `CG`. -/
def formatCG (f : Byte → Word16 → Instr) : Bytes → Decoded
  | [c, g0, g1] => .ok (f c (word16 g0 g1))
  | bs => wrongLength 3 bs

/-- Formats `U32` and `I32`: the same four bytes. -/
def format32 (f : Word32 → Instr) : Bytes → Decoded
  | [b1, b2, b3, b4] => .ok (f (word32 b1 b2 b3 b4))
  | bs => wrongLength 4 bs

/-- Format `L`: a length byte and that many data bytes. -/
def formatL (f : Bytes → Instr) : Bytes → Decoded
  | n :: data => if data.length = n.toNat then .ok (f data) else wrongLength n.toNat data
  | [] => .error .shortWord

/-- Format `AGL`. -/
def formatAGL (f : Byte → Word16 → Bytes → Instr) : Bytes → Decoded
  | a :: g0 :: g1 :: n :: data =>
    if data.length = n.toNat then .ok (f a (word16 g0 g1) data) else wrongLength n.toNat data
  | _ => .error .shortWord

/-- The items of format `LL`: `count` items, each a length byte and its data, and nothing after them. -/
def decodeItems : Nat → Bytes → Except DecodeError (List Bytes)
  | 0, [] => .ok []
  | 0, _ :: _ => .error .excessBytes
  | _ + 1, [] => .error .shortWord
  | k + 1, n :: rest =>
    if rest.length < n.toNat then .error .shortWord
    else (decodeItems k (rest.drop n.toNat)).map (rest.take n.toNat :: ·)

/-- Format `LL`: a count byte and that many items. -/
def formatLL (f : List Bytes → Instr) : Bytes → Decoded
  | count :: rest => (decodeItems count.toNat rest).map f
  | [] => .error .shortWord

/-- Format `NID`: `NETID_BYTES` bytes in word order (30_encoding.md R96). -/
def formatNID (netidBytes : Nat) (f : Bytes → Instr) (bs : Bytes) : Decoded :=
  if bs.length = netidBytes then .ok (f bs) else wrongLength netidBytes bs

/-- The operation a word names: the opcode table of 30_encoding.md R92, the two event codes among them. -/
def decode (netidBytes : Nat) : Bytes → Decoded
  | [] => .error .emptyWord
  | op :: ops =>
    match op.toNat with
    | 0x01 => format32 .init ops
    | 0x02 => formatL .transmit ops
    | 0x03 => formatLL .transmitList ops
    | 0x04 => formatN .restartRx ops
    | 0x05 => format32 .setFreqOffset ops
    | 0x06 => format32 .smSetFreq ops
    | 0x07 => format32 .smSetBw ops
    | 0x08 => formatNID netidBytes .trackEnable ops
    | 0x09 => formatN .trackDisable ops
    | 0x10 => formatN .drvReset ops
    | 0x11 => formatAVG .wrReg ops
    | 0x12 => formatAGL .wrBurst ops
    | 0x13 => formatCG .strobe ops
    | 0x14 => formatB .rdReg ops
    | 0x15 => formatAN .rdBurst ops
    | 0x16 => formatB .rdStatus ops
    | 0x20 => format32 .setFreq ops
    | 0x21 => formatN .calibrate ops
    | 0x22 => format32 .setBw ops
    | 0x23 => format32 .setBitrate ops
    | 0x24 => format32 .setDev ops
    | 0x25 => formatN .getRssi ops
    | 0x26 => formatN .getLqi ops
    | 0x27 => formatN .lowPower ops
    | 0x28 => formatN .activePower ops
    | 0x29 => formatN .isConnected ops
    | 0x30 => formatB .rdRxFifo ops
    | 0x31 => formatB .wrTxFifo ops
    | 0x32 => formatL .wrTxFifoBurst ops
    | 0x33 => formatN .flushRx ops
    | 0x34 => formatN .flushTx ops
    | 0x35 => formatN .getRxLvl ops
    | 0x36 => formatN .getTxLvl ops
    | 0x37 => formatB .setFifoThr ops
    | 0x38 => formatN .irqRxThr ops
    | 0x39 => formatN .irqTxThr ops
    | 0x3A => formatN .irqTxUnf ops
    | 0x40 => formatN .updFreqOffset ops
    | 0x80 => formatN .evIrq ops
    | 0x81 => formatN .evTimer ops
    | _ => .error (.reservedOpcode op)

/-- The operation a word of the COMMAND PORT names: the event codes "presented on the command port" are refused like
reserved ones (30_encoding.md R90, R98). -/
def decodeCommand (netidBytes : Nat) (w : Bytes) : Decoded :=
  match decode netidBytes w with
  | .ok i => if i.isEvent then .error .eventCode else .ok i
  | .error e => .error e

/-! ## The encoder -/

/-- A length or count as its byte. -/
def lengthByte (n : Nat) : Byte := BitVec.ofNat 8 n

/-- Two bytes, least significant first (30_encoding.md R91). -/
def le16 (g : Word16) : Bytes := [g.extractLsb' 0 8, g.extractLsb' 8 8]

/-- Four bytes, least significant first (30_encoding.md R91). -/
def le32 (v : Word32) : Bytes :=
  [v.extractLsb' 0 8, v.extractLsb' 8 8, v.extractLsb' 16 8, v.extractLsb' 24 8]

/-- A byte sequence behind its length byte: format `L` without the opcode. -/
def lengthPrefixed (bs : Bytes) : Bytes := lengthByte bs.length :: bs

/-- The word of an operation (30_encoding.md R91, R92). -/
def encode : Instr → Bytes
  | .init v => 0x01 :: le32 v
  | .transmit frame => 0x02 :: lengthPrefixed frame
  | .transmitList frames => 0x03 :: lengthByte frames.length :: frames.flatMap lengthPrefixed
  | .restartRx => [0x04]
  | .setFreqOffset v => 0x05 :: le32 v
  | .smSetFreq v => 0x06 :: le32 v
  | .smSetBw v => 0x07 :: le32 v
  | .trackEnable id => 0x08 :: id
  | .trackDisable => [0x09]
  | .drvReset => [0x10]
  | .wrReg addr value guard => 0x11 :: addr :: value :: le16 guard
  | .wrBurst addr guard data => 0x12 :: addr :: (le16 guard ++ lengthPrefixed data)
  | .strobe cmd guard => 0x13 :: cmd :: le16 guard
  | .rdReg addr => [0x14, addr]
  | .rdBurst addr n => [0x15, addr, n]
  | .rdStatus addr => [0x16, addr]
  | .setFreq v => 0x20 :: le32 v
  | .calibrate => [0x21]
  | .setBw v => 0x22 :: le32 v
  | .setBitrate v => 0x23 :: le32 v
  | .setDev v => 0x24 :: le32 v
  | .getRssi => [0x25]
  | .getLqi => [0x26]
  | .lowPower => [0x27]
  | .activePower => [0x28]
  | .isConnected => [0x29]
  | .rdRxFifo n => [0x30, n]
  | .wrTxFifo b => [0x31, b]
  | .wrTxFifoBurst data => 0x32 :: lengthPrefixed data
  | .flushRx => [0x33]
  | .flushTx => [0x34]
  | .getRxLvl => [0x35]
  | .getTxLvl => [0x36]
  | .setFifoThr level => [0x37, level]
  | .irqRxThr => [0x38]
  | .irqTxThr => [0x39]
  | .irqTxUnf => [0x3A]
  | .updFreqOffset => [0x40]
  | .evIrq => [0x80]
  | .evTimer => [0x81]

/-! ## Words given as numbers -/

/-- Byte `k` of a word, absent bytes read as 0. -/
def byteAt (bs : Bytes) (k : Nat) : Byte := bs.getD k 0

/-- Where the items of a format `LL` word end, `k` items starting at byte `at_`. -/
def itemsEnd (bs : Bytes) : Nat → Nat → Nat
  | 0, at_ => at_
  | k + 1, at_ => itemsEnd bs k (at_ + 1 + (byteAt bs at_).toNat)

/-- The length of the word that begins with `bs`, from its opcode and its length bytes alone (30_encoding.md R90). -/
def wordLength (netidBytes : Nat) (bs : Bytes) : Nat :=
  match (byteAt bs 0).toNat with
  | 0x02 | 0x32 => 2 + (byteAt bs 1).toNat
  | 0x03 => itemsEnd bs (byteAt bs 1).toNat 2
  | 0x08 => 1 + netidBytes
  | 0x12 => 5 + (byteAt bs 4).toNat
  | 0x01 | 0x05 | 0x06 | 0x07 | 0x20 | 0x22 | 0x23 | 0x24 | 0x11 => 5
  | 0x13 => 4
  | 0x15 => 3
  | 0x14 | 0x16 | 0x30 | 0x31 | 0x37 => 2
  | _ => 1

/-- The first `k` bytes of a number, least significant first. -/
def bytesOf (w : Nat) : Nat → Bytes
  | 0 => []
  | k + 1 => BitVec.ofNat 8 (w % 256) :: bytesOf (w / 256) k

/-- The word whose first `nbits` bits are `w`, every later bit 0, as the bytes of one operation. -/
def tableWord (netidBytes nbits w : Nat) : Bytes :=
  let bs := bytesOf w (nbits / 8)
  (List.range (wordLength netidBytes bs)).map (byteAt bs)

/-- The operation the decoder reads from a table row's word (identifiers as wide as the installed platform has them). -/
def decodeTableWord (nbits w : Nat) : Option Instr :=
  (decode Config.installed.netidBytes (tableWord Config.installed.netidBytes nbits w)).toOption

end Sys2Proof
end

