-- ==== Sys2Proof/Machine/Operands.lean ====
section
/-! DEFINITION. Operand values and the pure functions over them: units of the command port (30_encoding.md R93), bytes
as signed numbers (00_scope.md R10), the open functions of the configuration record (00_scope.md R8, R9), the frequency
words (40_register_driver.md R120, R121), the searches (R128), the RSSI mapping (R143), the rounding of the window mean
(41_frequency_filter.md R162), slot selection (42_rx_tx_sequencer.md R183, 43_host_commands.md R209) and the indexed
files (20_memory.md R71). -/

namespace Sys2Proof.Machine

open Sys2Proof.Config

/-! ## Numbers (00_scope.md R10) -/

/-- `asI8(b)`. -/
def asI8 (b : Byte) : Int := b.toInt

/-- `asU8(s)`, for `s` in -128..127. -/
def asU8 (x : Int) : Byte := BitVec.ofInt 8 x

/-- `clamp(x, lo, hi)` over the integers. -/
def clampInt (x lo hi : Int) : Int := if x < lo then lo else if hi < x then hi else x

/-- `clamp(x, lo, hi)` over the rationals. -/
def clampRat (x lo hi : Rat) : Rat := if x < lo then lo else if hi < x then hi else x

/-- A signed 16-bit integer on the response port, little-endian (30_encoding.md R100). A value outside 16 bits keeps its
low 16 bits (log entry 15, DESIGN CHOICE; only an `LqiMap` value can be outside). -/
def i16Bytes (x : Int) : Bytes := le16 (BitVec.ofInt 16 x)

/-! ## Units of the command port (30_encoding.md R93) -/

/-- An unsigned operand in hertz as a rational number of MHz. -/
def mhzOfU32 (v : Word32) : Rat := (v.toNat : Rat) / 1000000

/-- A signed operand in hertz as a rational number of MHz. -/
def mhzOfI32 (v : Word32) : Rat := (v.toInt : Rat) / 1000000

/-- An unsigned operand in hertz as a rational number of kHz. -/
def khzOfU32 (v : Word32) : Rat := (v.toNat : Rat) / 1000

/-- The bitrate operand in baud. -/
def baudOfU32 (v : Word32) : Rat := (v.toNat : Rat)

/-! ## The open functions (00_scope.md R8, R9) -/

/-- The value of a tabulated function. -/
def applyTab {α β : Type} [DecidableEq α] (t : Tab α β) (k : α) : β := (t.entries.lookup k).getD t.other

/-- `GuardUs(op)` in microseconds. -/
def guardOf (c : Cfg) (op : Op) : Nat := applyTab c.guardUs op

/-- `TotalLen(h)`. -/
def totalLenOf (c : Cfg) (header : Bytes) : Nat := applyTab c.totalLen header

/-- `NetIdOf(h)`. -/
def netIdIn (c : Cfg) (header : Bytes) : Option Bytes := applyTab c.netIdOf header

/-- `CalBusy(b)`. -/
def isCalBusy (c : Cfg) (b : Byte) : Bool := applyTab c.calBusy b

/-- `LqiMap(v)` (40_register_driver.md R144). -/
def lqiOf (c : Cfg) (v : Byte) : Int := applyTab c.lqiMap v

/-- `f ∈ BANDS`, the intervals closed (log entry 16). -/
def inBands (c : Cfg) (f : Rat) : Bool := c.bands.any fun b => decide (b.1 ≤ f) && decide (f ≤ b.2)

/-- `CFG_BANDWIDTH` in kHz (00_scope.md R6: about 80, 125, 250; log entry 17). -/
def bandwidthKhz : BwChoice → Rat
  | .low => 80
  | .medium => 125
  | .high => 250

/-- One of the three searches of 40_register_driver.md R128: the request is clamped to the representable range before
searching (P2), and the code depends on nothing else (P1). -/
def searchCode {w : Nat} (q : Search w) (x : Rat) : BitVec w := applyTab q.codes (clampRat x q.min q.max)

/-! ## `radioState` as a register (30_encoding.md R94) -/

/-- The 3-bit code of `radioState`. -/
def RadioState.code : RadioState → BitVec 3
  | .rxWaitSync => 0
  | .rxHeader => 1
  | .rxPayload => 2
  | .txTransmit => 3
  | .txLastTransmit => 4

/-- The state of a code; 5, 6 and 7 are never produced and stand for none. -/
def RadioState.ofCode (b : BitVec 3) : Option RadioState :=
  [RadioState.rxWaitSync, .rxHeader, .rxPayload, .txTransmit, .txLastTransmit][b.toNat]?

/-! ## Frequency words -/

/-- How often `step` can be subtracted from `r` while `r >= step`: the counter of one loop of 40_register_driver.md R120,
in closed form (`stepsIn_loop` in Laws is the loop). -/
def stepsIn (r step : Rat) : Nat := (r / step).floor.toNat

/-- `FreqWords(f)` (40_register_driver.md R120): the counters of the high, middle and low word, without a width. -/
def freqWords (c : Cfg) (f : Rat) : Nat × Nat × Nat :=
  let hi := stepsIn f c.stepHi
  let r1 := f - hi * c.stepHi
  let mid := stepsIn r1 c.stepMid
  let r2 := r1 - mid * c.stepMid
  (hi, mid, stepsIn r2 c.stepLo)

/-- `CarryFix(hi, mid, lo)` (40_register_driver.md R121), with its preserved defect: the middle word's overflow is not
carried into the high word, and each register keeps its low 8 bits. -/
def carryFix : Nat × Nat × Nat → Byte × Byte × Byte
  | (hi, mid, lo) =>
    if 255 < lo then (BitVec.ofNat 8 hi, BitVec.ofNat 8 (mid + 1), BitVec.ofNat 8 (lo - 256))
    else (BitVec.ofNat 8 hi, BitVec.ofNat 8 mid, BitVec.ofNat 8 lo)

/-! ## Signal quality and the window mean -/

/-- `RssiDiv(x)`: `x / 2` rounded toward zero (00_scope.md R7). -/
def rssiDiv (x : Int) : Int := x.tdiv 2

/-- `RssiMap(v)` (40_register_driver.md R143), in dBm. -/
def rssiMap (v : Byte) : Int :=
  if rssiSplit ≤ v.toNat then rssiDiv ((v.toNat : Int) - 256) - rssiOffset else rssiDiv v.toNat - rssiOffset

/-- A function of one byte as a table. -/
def tabOfByte {β : Type} (f : Byte → β) : Tab Byte β where
  entries := (List.range 256).map fun n => (BitVec.ofNat 8 n, f (BitVec.ofNat 8 n))
  other := f 0

/-- The first instantiation of `LqiMap` that 40_register_driver.md R144 offers: `RssiMap`, the literal reading. -/
def lqiAsRssi : Tab Byte Int := tabOfByte rssiMap

/-- The second: `LqiMap(v) = v`, the raw byte. -/
def lqiRaw : Tab Byte Int := tabOfByte fun v => v.toNat

/-- `MeanDiv(sum)`: `sum / 32` rounded toward zero (00_scope.md R7). -/
def meanDiv (sum : Int) : Int := sum.tdiv 32

/-- The sum of the window's 32 signed samples (41_frequency_filter.md R162). -/
def windowSum (w : Vector Byte 32) : Int := (w.toList.map asI8).sum

/-- The clamped new offset of a correction (41_frequency_filter.md R162). -/
def correctedOffset (applied : Byte) (w : Vector Byte 32) : Byte :=
  asU8 (clampInt (asI8 applied + meanDiv (windowSum w)) offsetMin offsetMax)

/-! ## The slot table -/

/-- The lowest index whose slot satisfies `p`. -/
def lowestSlot (p : Slot → Bool) (slots : SlotTable) : Option (Fin 16) :=
  (List.finRange 16).find? fun i => p slots[i]

/-- The preferred index if its slot satisfies `p`, else the lowest index that does: every selection function that
"returns an index when one exists" (log entry 25). -/
def selectSlot (p : Slot → Bool) (pref : Tab SlotTable (Fin 16)) (slots : SlotTable) : Option (Fin 16) :=
  if p slots[applyTab pref slots] then some (applyTab pref slots) else lowestSlot p slots

/-- `NextSlot(slots)` (42_rx_tx_sequencer.md R183). -/
def nextSlot (c : Cfg) (slots : SlotTable) : Option (Fin 16) := selectSlot (·.inUse) c.nextPref slots

/-- `FreeSlot(slots)` (43_host_commands.md R209). -/
def freeSlot (c : Cfg) (slots : SlotTable) : Option (Fin 16) := selectSlot (fun x => !x.inUse) c.freePref slots

/-! ## Byte files -/

/-- `buf[i .. i + bs.length - 1] <- bs`. -/
def overwrite (buf : Bytes) (i : Nat) (bs : Bytes) : Bytes := buf.take i ++ bs ++ buf.drop (i + bs.length)

/-- `frame[a .. a + n - 1]`. -/
def slice (frame : Bytes) (a n : Nat) : Bytes := (frame.drop a).take n

end Sys2Proof.Machine
end

