-- ==== Sys2Proof/Machine/Ops.lean ====
section
/-! DEFINITION. The named operations the meanings are written with: drawing what the chip answers (20_memory.md R62), the
passing of time and the turnaround timer (60_exceptions.md R237, R238), the bus transaction and its six forms
(40_register_driver.md R110, 00_scope.md R12), the Frame Queue and response ports, TAKING AN EVENT (60_exceptions.md
R232, the block's counterpart of taking an exception) and its end (R233), and how an operation ends (R221). -/

namespace Sys2Proof.Machine

open Sys2Proof.Config

/-! ## Draws: the next scripted value, or a free value -/

/-- The next draw of a stream. -/
def Script.head {α : Type} (free : Nat → α) (x : Script α) : α :=
  match x.items with
  | a :: _ => a
  | [] => free x.drawn

/-- The stream after one draw. -/
def Script.tail {α : Type} (x : Script α) : Script α :=
  match x.items with
  | _ :: rest => { x with items := rest }
  | [] => { x with drawn := x.drawn + 1 }

/-- The next `n` draws. -/
def Script.take {α : Type} (free : Nat → α) : Nat → Script α → List α
  | 0, _ => []
  | n + 1, x => x.head free :: Script.take free n x.tail

/-- The stream after `n` draws. -/
def Script.drop {α : Type} : Nat → Script α → Script α
  | 0, x => x
  | n + 1, x => Script.drop n x.tail

/-- The draw after `n` others. -/
def Script.nth {α : Type} (free : Nat → α) (n : Nat) (x : Script α) : α := (x.drop n).head free

/-- The timing of the `n`th unscripted transaction: its durations are free values. The ready wait of transaction `fails`
never ends; nothing happens after it, so one number says all there is to say (20_memory.md R62; log entry 5). -/
def freeTiming (fails : Option Nat) (n : Nat) : TxnTiming where
  issue := freeIssue n
  ready :=
    match fails with
    | none => some (freeReady n)
    | some k => if k = n then none else some (freeReady n)
  transfer := freeTransfer n

/-- An unscripted arrival. -/
def freeArrival (n : Nat) : Arrival := { elapsed := freeElapsed n, irqEdge := freeEdge n }

/-- The next byte the chip answers. -/
def State.answer (s : State) : Byte := s.inp.answers.head freeByte

/-- The next `n` bytes the chip answers. -/
def State.answerBytes (s : State) (n : Nat) : Bytes := s.inp.answers.take freeByte n

/-- The timing of the next bus transaction. -/
def State.timing (s : State) : TxnTiming := s.inp.timings.head (freeTiming s.inp.readyFails)

/-- Draw `n` answer bytes. -/
def State.dropAnswers (s : State) (n : Nat) : State :=
  { s with inp := { s.inp with answers := s.inp.answers.drop n } }

/-- Draw one transaction's timing. -/
def State.dropTiming (s : State) : State := { s with inp := { s.inp with timings := s.inp.timings.tail } }

/-! ## Time -/

/-- The wrap-safe comparison `((now − t) mod 2^32) < 2^31` (60_exceptions.md R237): the clock has reached `t`. -/
def clockReached (now t : Clock) : Bool := decide ((now - t).toNat < 2 ^ 31)

/-- The timer expires while the clock goes on from `now` by `d`: it is already at its deadline, or reaches it on the way
(60_exceptions.md R238: "the first instant"). -/
def deadlineWithin (now deadline d : Clock) : Bool :=
  clockReached now deadline || decide ((deadline - now).toNat ≤ d.toNat)

/-- `d` microseconds pass. An armed timer whose deadline is reached sets `timerPending` (60_exceptions.md R229, R238). -/
def State.elapse (s : State) (d : Clock) : State :=
  { s with
    now := s.now + d
    timerPending := s.timerPending || (s.timerArmed && deadlineWithin s.now s.timerDeadline d) }

/-- How long the guard wait of 40_register_driver.md R110 lasts. -/
def State.guardLeft (s : State) : Clock := if clockReached s.now s.csNotBefore then 0 else s.csNotBefore - s.now

/-- A read of the clock outside a transaction: time has passed since the last one; afterwards `now` is the value read. -/
def State.readClock (s : State) : State :=
  { s.elapse (s.inp.ticks.head freeTick) with inp := { s.inp with ticks := s.inp.ticks.tail } }

/-! ## The bus transaction -/

/-- The state at the end of the next transaction's guard wait (40_register_driver.md R110). -/
def State.atGuard (s : State) : State :=
  let issued := s.dropTiming.elapse s.timing.issue
  issued.elapse issued.guardLeft

/-- The state at the chip-select assertion of the next transaction: the guard wait over, the chip ready
(40_register_driver.md R110: the guard wait first, then the ready wait). -/
def State.atSelect (s : State) : State := s.atGuard.elapse (s.timing.ready.getD 0)

/-- The state after the transaction `txn` with guard `g`: the trace entry appended, the guard deadline set from the clock
at the release (40_register_driver.md R110). -/
def State.afterTxn (s : State) (txn : BusTxn) (g : Nat) : State :=
  let released := s.atSelect.elapse s.timing.transfer
  { released with
    busTrace := released.busTrace ++
      [{ txn := txn, guardedAt := s.atGuard.now, selectAt := s.atSelect.now, releaseAt := released.now }]
    csNotBefore := released.now + BitVec.ofNat 32 g }

/-- `Transaction(t, g)` (40_register_driver.md R110). If `chip_ready` never comes the wait never ends. -/
def transact (txn : BusTxn) (g : Nat) (s : State) : Except Fault State :=
  match s.timing.ready with
  | none => .error .hang
  | some _ => .ok (s.afterTxn txn g)

/-- `BusWrite(a, v, g)`. -/
def busWrite (a v : Byte) (g : Nat) (s : State) : Except Fault State := transact (.write a v g) g s

/-- `BusWriteBurst(a, bs, g)`; a burst of length 0 performs no transaction at all (20_memory.md R68). -/
def busWriteBurst (a : Byte) (bs : Bytes) (g : Nat) (s : State) : Except Fault State :=
  if bs = [] then .ok s else transact (.writeBurst a bs g) g s

/-- `BusStrobe(c, g)`. -/
def busStrobe (c : Byte) (g : Nat) (s : State) : Except Fault State := transact (.strobe c g) g s

/-- `BusRead(a)`: the byte is a draw. -/
def busRead (a : Byte) (g : Nat) (s : State) : Except Fault (Byte × State) :=
  (transact (.read a s.answer g) g (s.dropAnswers 1)).map (s.answer, ·)

/-- `BusReadStatus(a)`: the byte is a draw. -/
def busReadStatus (a : Byte) (g : Nat) (s : State) : Except Fault (Byte × State) :=
  (transact (.readStatus a s.answer g) g (s.dropAnswers 1)).map (s.answer, ·)

/-- `BusReadBurst(a, n)`: each byte is a draw; a burst of length 0 performs no transaction (20_memory.md R68). -/
def busReadBurst (a : Byte) (n : Nat) (g : Nat) (s : State) : Except Fault (Bytes × State) :=
  if n = 0 then .ok ([], s)
  else (transact (.readBurst a (s.answerBytes n) g) g (s.dropAnswers n)).map (s.answerBytes n, ·)

/-- `wait until chip_ready` outside a transaction (40_register_driver.md R118). -/
def waitReady (s : State) : Except Fault State :=
  match s.timing.ready with
  | none => .error .hang
  | some d => .ok ((s.dropTiming.elapse s.timing.issue).elapse d)

/-- How long the waits of `ResetSequence` last together, in microseconds (40_register_driver.md R118: "blocking the caller
for the full reset duration"). -/
def resetDuration (c : Cfg) : Nat := (c.resetSequence.map (·.holdUs)).sum

/-- `perform ResetSequence; append (RESET) to the bus trace` (40_register_driver.md R118): the steps of the sequence act on
the chip alone, so they show as the time they take and as one trace entry, with the times it begins and ends (log
entry 21). -/
def State.afterReset (s : State) : State :=
  let done := s.readClock.elapse (BitVec.ofNat 32 (resetDuration s.cfg))
  { done with
    busTrace := done.busTrace ++ [{ txn := .reset, guardedAt := s.now, selectAt := s.now, releaseAt := done.now }] }

/-! ## The other ports -/

/-- `Respond(v)`: one response word (30_encoding.md R100). -/
def State.respond (s : State) (bs : Bytes) : State := { s with responses := s.responses ++ [bs] }

/-- `Push(f)`: fire and forget (20_memory.md R72). -/
def State.push (s : State) (f : FrameRecord) : State := { s with pushTrace := s.pushTrace ++ [f] }

/-! ## Events -/

/-- TAKING AN EVENT (60_exceptions.md R232): the latch is cleared; no state is saved, no mode changes. The service's own
rule follows. A service ends when its rule ends, and nothing is restored (R233). -/
def State.enterService (s : State) : Source → State
  | .irq => { s with irqPending := false }
  | .timer => { s with timerPending := false }

/-! ## How an operation ends (60_exceptions.md R221) -/

/-- The operation ran to its end, or hung. -/
def complete (r : Except Fault State) : Host.Outcome State Fault Refusal :=
  match r with
  | .ok t => .next t.markOk
  | .error f => .fault f

/-- `raise Refused(reason)`: no state change, the run marked. -/
def refuse (reason : RefuseReason) (s : State) : Host.Outcome State Fault Refusal :=
  .next (s.markRefused (.refused reason))

/-- `raise Undefined(NotIdle)`: no state change, the run marked. -/
def raiseNotIdle (s : State) : Host.Outcome State Fault Refusal := .next (s.markRefused .undefinedNotIdle)

/-- Admission of a host-issued Register Driver operation or filter update (43_host_commands.md R211). -/
def whenBusFree (body : State → Host.Outcome State Fault Refusal) (s : State) : Host.Outcome State Fault Refusal :=
  if s.isIdle then body s else refuse .busBusy s

/-- Admission of a host command other than `INIT` (43_host_commands.md R213). -/
def whenInitialised (body : State → Host.Outcome State Fault Refusal) (s : State) :
    Host.Outcome State Fault Refusal :=
  if s.irqEnabled then body s else refuse .notInitialised s

/-- Admission of a reconfiguration command (43_host_commands.md R210). -/
def whenIdle (body : State → Host.Outcome State Fault Refusal) (s : State) : Host.Outcome State Fault Refusal :=
  if s.isIdle then body s else raiseNotIdle s

/-- The band test in front of `SET_FREQ` (40_register_driver.md R124) and `INIT` (43_host_commands.md R200). -/
def whenInBand (f : Rat) (body : State → Host.Outcome State Fault Refusal) (s : State) :
    Host.Outcome State Fault Refusal :=
  if inBands s.cfg f then body s else refuse .outOfBand s

end Sys2Proof.Machine
end

