-- ==== Sys2Proof/Machine/Arbiter.lean ====
section
/-! DEFINITION. The arbiter (60_exceptions.md R230, R231): what arrives between two operations, and what the block starts
next. Events come before command words; between the two events `EVENT_PRIORITY` decides. Also how a word is placed so
that the next step runs it (log entries 6 and 30). -/

namespace Sys2Proof.Machine

open Sys2Proof.Config

/-- What arrives before the next arbitration: time passes (the timer may expire), and the interrupt line's active edge
sets its latch; a second arrival merges with the first (60_exceptions.md R229, R234). -/
def State.absorb (s : State) : State :=
  let a := s.inp.arrivals.head freeArrival
  let t := State.elapse { s with inp := { s.inp with arrivals := s.inp.arrivals.tail } } a.elapsed
  { t with irqPending := t.irqPending || a.irqEdge }

/-- Which of two pending events is served first (60_exceptions.md R231). -/
def State.firstSource (s : State) : Source :=
  match s.cfg.eventPriority with
  | .irqFirst => .irq
  | .timerFirst => .timer
  | .any => if s.inp.picks.head freePick then .irq else .timer

/-- The inputs after that choice: only `Any` draws. -/
def State.dropFirst (s : State) : State :=
  match s.cfg.eventPriority with
  | .irqFirst => s
  | .timerFirst => s
  | .any => { s with inp := { s.inp with picks := s.inp.picks.tail } }

/-- The event of a source as an operation. -/
def eventOf : Source → Instr
  | .irq => .evIrq
  | .timer => .evTimer

/-- The next command word, if one is offered, taken from the port and decoded. -/
def State.takeWord (s : State) : Work × State :=
  match s.inp.words with
  | [] => (.idle, s)
  | w :: rest =>
    let t := { s with inp := { s.inp with words := rest } }
    match decodeCommand s.cfg.netidBytes w with
    | .ok i => (.run i, t)
    | .error _ => (.reject, t)

/-- What the block starts next, arrivals already taken in (60_exceptions.md R230, R231). -/
def State.nextWork (s : State) : Work × State :=
  match s.irqPending, s.timerPending with
  | true, true => (.run (eventOf s.firstSource), s.dropFirst)
  | true, false => (.run .evIrq, s)
  | false, true => (.run .evTimer, s)
  | false, false => s.takeWord

/-- The timer is armed and its deadline already reached, though its latch is not set: no state the step produces. -/
def State.timerOverdue (s : State) : Bool := s.timerArmed && clockReached s.now s.timerDeadline

/-- The state in which nothing arrives before the next arbitration, no latch is set and every unscripted ready wait ends
(log entry 30). -/
def State.quiet (s : State) : State :=
  { s with
    inp :=
      { s.inp with
        arrivals := { s.inp.arrivals with items := { elapsed := 0, irqEdge := false } :: s.inp.arrivals.items }
        readyFails := none }
    irqPending := false
    timerPending := false
    timerArmed := s.timerArmed && !s.timerOverdue }

/-- Place the operation word `w` so that the next step runs it: an event code sets its latch, any other word is offered
first on the command port. -/
def State.placeWord (s : State) (w : Bytes) : State :=
  if w = [0x80] then { s.quiet with irqPending := true }
  else if w = [0x81] then { s.quiet with timerPending := true }
  else
    let t := s.quiet
    { t with inp := { t.inp with words := w :: t.inp.words } }

end Sys2Proof.Machine
end

