-- ==== Sys2Proof/Machine/Driver.lean ====
section
/-! DEFINITION. The 28 Register Driver operations (40_register_driver.md). `drv...` is the operation as other rules
perform it; `exec...` is the operation issued by the host, admitted only while idle (43_host_commands.md R211). The guard
of a transaction is the operand where there is one, else `GuardUs` of the operation (log entry 10). -/

namespace Sys2Proof.Machine

open Sys2Proof.Config

/-- The end of an operation that answers on the response port: the answer after all its transactions
(30_encoding.md R100). -/
def answering {α : Type} (f : α → Bytes) (r : Except Fault (α × State)) : Except Fault State :=
  r.map fun p => p.2.respond (f p.1)

/-- The chip address and code names of the state's configuration. -/
def State.chip (s : State) : ChipMap := s.cfg.chip

/-! ## Reset (R118) -/

/-- `DRV_RESET` performed inside a rule (R118). -/
def drvReset (s : State) : Except Fault State := do
  let s ← waitReady s
  let s ← waitReady s.afterReset
  .ok { s with csNotBefore := s.now + BitVec.ofNat 32 (guardOf s.cfg .drvReset) }

/-- `DRV_RESET` (R118). -/
def execDrvReset (s : State) : Host.Outcome State Fault Refusal :=
  whenBusFree (fun s => complete (drvReset s)) s

/-! ## Bus primitives (R111 to R116) -/

/-- `WR_REG addr, value, guard` (R111). -/
def execWrReg (addr value : Byte) (guard : Word16) (s : State) : Host.Outcome State Fault Refusal :=
  whenBusFree (fun s => complete (busWrite addr value guard.toNat s)) s

/-- `WR_BURST addr, guard, [bytes]` (R112). -/
def execWrBurst (addr : Byte) (guard : Word16) (data : Bytes) (s : State) : Host.Outcome State Fault Refusal :=
  whenBusFree (fun s => complete (busWriteBurst addr data guard.toNat s)) s

/-- `STROBE cmd, guard` (R113). -/
def execStrobe (cmd : Byte) (guard : Word16) (s : State) : Host.Outcome State Fault Refusal :=
  whenBusFree (fun s => complete (busStrobe cmd guard.toNat s)) s

/-- `RD_REG addr` (R114). -/
def execRdReg (addr : Byte) (s : State) : Host.Outcome State Fault Refusal :=
  whenBusFree (fun s => complete (answering ([·]) (busRead addr (guardOf s.cfg .rdReg) s))) s

/-- `RD_BURST addr, n` (R115). -/
def execRdBurst (addr n : Byte) (s : State) : Host.Outcome State Fault Refusal :=
  whenBusFree (fun s => complete (answering id (busReadBurst addr n.toNat (guardOf s.cfg .rdBurst) s))) s

/-- `RD_STATUS addr` (R116). -/
def execRdStatus (addr : Byte) (s : State) : Host.Outcome State Fault Refusal :=
  whenBusFree (fun s => complete (answering ([·]) (busReadStatus addr (guardOf s.cfg .rdStatus) s))) s

/-! ## Calibration (R126) -/

/-- How many reads after the first the calibration poll may make: every scripted answer and `pollFuel` more (log
entry 5). -/
def State.pollBudget (s : State) : Nat := s.inp.answers.items.length - 1 + s.cfg.pollFuel

/-- `repeat b <- BusReadStatus(A_CHIP_STATUS) until not CalBusy(b)` (R126): at least one read, at most `fuel` more; a bit
still set after them is `Hang` (60_exceptions.md R226; log entry 5). -/
def pollCalibration : Nat → State → Except Fault State
  | fuel, s =>
    match busReadStatus s.chip.aChipStatus (guardOf s.cfg .calibrate) s with
    | .error f => .error f
    | .ok (b, t) =>
      if isCalBusy s.cfg b then
        match fuel with
        | 0 => .error .hang
        | k + 1 => pollCalibration k t
      else .ok t

/-- `appliedOffset <- 0`: the first step of `CALIBRATE` (R126). -/
def State.clearOffset (s : State) : State := { s with appliedOffset := 0 }

/-- `CALIBRATE` performed inside a rule (R126). -/
def drvCalibrate (s : State) : Except Fault State := do
  let s ← busWrite s.chip.aFreqOffset 0x00 (guardOf s.cfg .calibrate) s.clearOffset
  let s ← busWrite s.chip.aTest s.chip.vTestCal (guardOf s.cfg .calibrate) s
  let s ← busStrobe s.chip.sCal (guardOf s.cfg .calibrate) s
  pollCalibration s.pollBudget s

/-- `CALIBRATE` (R126). -/
def execCalibrate (s : State) : Host.Outcome State Fault Refusal :=
  whenBusFree (fun s => complete (drvCalibrate s)) s

/-! ## Frequency synthesis (R124) -/

/-- `s.config.freqHi <- b`. -/
def State.setFreqHi (s : State) (b : Byte) : State := { s with config := { s.config with freqHi := b } }

/-- `s.config.freqMid <- b`. -/
def State.setFreqMid (s : State) (b : Byte) : State := { s with config := { s.config with freqMid := b } }

/-- `s.config.freqLo <- b`. -/
def State.setFreqLo (s : State) (b : Byte) : State := { s with config := { s.config with freqLo := b } }

/-- `SET_FREQ f` performed inside a rule, the band already tested (R124): the three words high, middle, low, each with its
shadow, then `CALIBRATE`. -/
def drvSetFreq (f : Rat) (s : State) : Except Fault State := do
  let w := carryFix (freqWords s.cfg f)
  let s ← busWrite s.chip.aFreqHi w.1 (guardOf s.cfg .setFreq) s
  let s := s.setFreqHi w.1
  let s ← busWrite s.chip.aFreqMid w.2.1 (guardOf s.cfg .setFreq) s
  let s := s.setFreqMid w.2.1
  let s ← busWrite s.chip.aFreqLo w.2.2 (guardOf s.cfg .setFreq) s
  let s := s.setFreqLo w.2.2
  drvCalibrate s

/-- `SET_FREQ f` (R124). -/
def execSetFreq (v : Word32) (s : State) : Host.Outcome State Fault Refusal :=
  whenBusFree (whenInBand (mhzOfU32 v) fun s => complete (drvSetFreq (mhzOfU32 v) s)) s

/-! ## Bandwidth, bitrate, deviation (R128 to R131) -/

/-- `s.config.bwCode <- c`. -/
def State.setBwCode (s : State) (c : Byte) : State := { s with config := { s.config with bwCode := c } }

/-- `s.config.bitrateCode <- c`. -/
def State.setBitrateCode (s : State) (c : Word16) : State := { s with config := { s.config with bitrateCode := c } }

/-- `s.config.devCode <- c`. -/
def State.setDevCode (s : State) (c : Byte) : State := { s with config := { s.config with devCode := c } }

/-- `SET_BW x` performed inside a rule, `x` in kHz (R129). -/
def drvSetBw (x : Rat) (s : State) : Except Fault State := do
  let c := searchCode s.cfg.bw x
  let s ← busWrite s.chip.aBw c (guardOf s.cfg .setBw) s
  .ok (s.setBwCode c)

/-- `SET_BITRATE x` performed inside a rule, `x` in baud (R130): high byte first. -/
def drvSetBitrate (x : Rat) (s : State) : Except Fault State := do
  let c := searchCode s.cfg.bitrate x
  let s ← busWrite s.chip.aBitrateHi (c.extractLsb' 8 8) (guardOf s.cfg .setBitrate) s
  let s ← busWrite s.chip.aBitrateLo (c.extractLsb' 0 8) (guardOf s.cfg .setBitrate) s
  .ok (s.setBitrateCode c)

/-- `SET_DEV x` performed inside a rule, `x` in kHz (R131). -/
def drvSetDev (x : Rat) (s : State) : Except Fault State := do
  let c := searchCode s.cfg.dev x
  let s ← busWrite s.chip.aDev c (guardOf s.cfg .setDev) s
  .ok (s.setDevCode c)

/-- `SET_BW x` (R129). -/
def execSetBw (v : Word32) (s : State) : Host.Outcome State Fault Refusal :=
  whenBusFree (fun s => complete (drvSetBw (khzOfU32 v) s)) s

/-- `SET_BITRATE x` (R130). -/
def execSetBitrate (v : Word32) (s : State) : Host.Outcome State Fault Refusal :=
  whenBusFree (fun s => complete (drvSetBitrate (baudOfU32 v) s)) s

/-- `SET_DEV x` (R131). -/
def execSetDev (v : Word32) (s : State) : Host.Outcome State Fault Refusal :=
  whenBusFree (fun s => complete (drvSetDev (khzOfU32 v) s)) s

/-! ## FIFO and interrupt-source helpers (R132 to R142) -/

/-- `RD_RXFIFO n` performed inside a rule (R132). -/
def drvRdRxFifo (n : Nat) (s : State) : Except Fault (Bytes × State) :=
  busReadBurst s.chip.aFifo n (guardOf s.cfg .rdRxFifo) s

/-- `RD_RXFIFO n` (R132). -/
def execRdRxFifo (n : Byte) (s : State) : Host.Outcome State Fault Refusal :=
  whenBusFree (fun s => complete (answering id (drvRdRxFifo n.toNat s))) s

/-- `WR_TXFIFO b` (R133). -/
def execWrTxFifo (b : Byte) (s : State) : Host.Outcome State Fault Refusal :=
  whenBusFree (fun s => complete (busWrite s.chip.aFifo b (guardOf s.cfg .wrTxFifo) s)) s

/-- `WR_TXFIFO_BURST [bytes]` performed inside a rule (R134). -/
def drvWrTxFifoBurst (data : Bytes) (s : State) : Except Fault State :=
  busWriteBurst s.chip.aFifo data (guardOf s.cfg .wrTxFifoBurst) s

/-- `WR_TXFIFO_BURST [bytes]` (R134). -/
def execWrTxFifoBurst (data : Bytes) (s : State) : Host.Outcome State Fault Refusal :=
  whenBusFree (fun s => complete (drvWrTxFifoBurst data s)) s

/-- `FLUSH_RX` performed inside a rule (R135). -/
def drvFlushRx (s : State) : Except Fault State := busStrobe s.chip.sFlushRx (guardOf s.cfg .flushRx) s

/-- `FLUSH_TX` performed inside a rule (R136). -/
def drvFlushTx (s : State) : Except Fault State := busStrobe s.chip.sFlushTx (guardOf s.cfg .flushTx) s

/-- `FLUSH_RX` (R135). -/
def execFlushRx (s : State) : Host.Outcome State Fault Refusal :=
  whenBusFree (fun s => complete (drvFlushRx s)) s

/-- `FLUSH_TX` (R136). -/
def execFlushTx (s : State) : Host.Outcome State Fault Refusal :=
  whenBusFree (fun s => complete (drvFlushTx s)) s

/-- `GET_RXLVL` performed inside a rule: the whole byte drawn (R137). -/
def drvGetRxLvl (s : State) : Except Fault (Byte × State) :=
  busReadStatus s.chip.aRxLevel (guardOf s.cfg .getRxLvl) s

/-- `GET_TXLVL` performed inside a rule: the whole byte drawn (R138). -/
def drvGetTxLvl (s : State) : Except Fault (Byte × State) :=
  busReadStatus s.chip.aTxLevel (guardOf s.cfg .getTxLvl) s

/-- `GET_RXLVL` (R137). -/
def execGetRxLvl (s : State) : Host.Outcome State Fault Refusal :=
  whenBusFree (fun s => complete (answering ([·]) (drvGetRxLvl s))) s

/-- `GET_TXLVL` (R138). -/
def execGetTxLvl (s : State) : Host.Outcome State Fault Refusal :=
  whenBusFree (fun s => complete (answering ([·]) (drvGetTxLvl s))) s

/-- `s.config.fifoThreshold <- level`. -/
def State.setFifoThreshold (s : State) (level : Byte) : State :=
  { s with config := { s.config with fifoThreshold := level } }

/-- `SET_FIFO_THR level` performed inside a rule (R139). -/
def drvSetFifoThr (level : Byte) (s : State) : Except Fault State := do
  let s ← busWrite s.chip.aFifoThr level (guardOf s.cfg .setFifoThr) s
  .ok (s.setFifoThreshold level)

/-- `SET_FIFO_THR level` (R139). -/
def execSetFifoThr (level : Byte) (s : State) : Host.Outcome State Fault Refusal :=
  whenBusFree (fun s => complete (drvSetFifoThr level s)) s

/-- `IRQ_RX_THR` performed inside a rule (R140). -/
def drvIrqRxThr (s : State) : Except Fault State :=
  busWrite s.chip.aIrqCfg s.chip.vIrqRxThr (guardOf s.cfg .irqRxThr) s

/-- `IRQ_TX_THR` performed inside a rule (R141). -/
def drvIrqTxThr (s : State) : Except Fault State :=
  busWrite s.chip.aIrqCfg s.chip.vIrqTxThr (guardOf s.cfg .irqTxThr) s

/-- `IRQ_TX_UNF` performed inside a rule (R142). -/
def drvIrqTxUnf (s : State) : Except Fault State :=
  busWrite s.chip.aIrqCfg s.chip.vIrqTxUnf (guardOf s.cfg .irqTxUnf) s

/-- `IRQ_RX_THR` (R140). -/
def execIrqRxThr (s : State) : Host.Outcome State Fault Refusal :=
  whenBusFree (fun s => complete (drvIrqRxThr s)) s

/-- `IRQ_TX_THR` (R141). -/
def execIrqTxThr (s : State) : Host.Outcome State Fault Refusal :=
  whenBusFree (fun s => complete (drvIrqTxThr s)) s

/-- `IRQ_TX_UNF` (R142). -/
def execIrqTxUnf (s : State) : Host.Outcome State Fault Refusal :=
  whenBusFree (fun s => complete (drvIrqTxUnf s)) s

/-! ## Signal quality (R143, R144) -/

/-- `GET_RSSI` performed inside a rule: the raw byte (R143). -/
def drvGetRssi (s : State) : Except Fault (Byte × State) :=
  busReadStatus s.chip.aRssi (guardOf s.cfg .getRssi) s

/-- `GET_LQI` performed inside a rule: the raw byte (R144). -/
def drvGetLqi (s : State) : Except Fault (Byte × State) :=
  busReadStatus s.chip.aLqi (guardOf s.cfg .getLqi) s

/-- `GET_RSSI` (R143). -/
def execGetRssi (s : State) : Host.Outcome State Fault Refusal :=
  whenBusFree (fun s => complete (answering (fun v => i16Bytes (rssiMap v)) (drvGetRssi s))) s

/-- `GET_LQI` (R144). -/
def execGetLqi (s : State) : Host.Outcome State Fault Refusal :=
  whenBusFree (fun s => complete (answering (fun v => i16Bytes (lqiOf s.cfg v)) (drvGetLqi s))) s

/-! ## Power (R145, R146) -/

/-- `LOW_POWER` (R145). -/
def execLowPower (s : State) : Host.Outcome State Fault Refusal :=
  whenBusFree (fun s => complete (busStrobe s.chip.sPowerDown (guardOf s.cfg .lowPower) s)) s

/-- `t0 <- now; wait until ((now − t0) mod 2^32) >= T_XTAL_SETTLE_US` (R146): the wait ends at the first instant it may
(log entry 32). -/
def State.settle (s : State) : State := s.readClock.elapse (BitVec.ofNat 32 xtalSettleUs)

/-- `ACTIVE_POWER` performed: wake strobe, settle wait, `CALIBRATE` (R146). -/
def drvActivePower (s : State) : Except Fault State := do
  let s ← busStrobe s.chip.sWake (guardOf s.cfg .activePower) s
  drvCalibrate s.settle

/-- `ACTIVE_POWER` (R146). -/
def execActivePower (s : State) : Host.Outcome State Fault Refusal :=
  whenBusFree (fun s => complete (drvActivePower s)) s

/-! ## Presence (R147) -/

/-- `IS_CONNECTED` performed inside a rule: the presence byte (R147). -/
def drvPresence (s : State) : Except Fault (Byte × State) :=
  busReadStatus s.chip.aPresence (guardOf s.cfg .isConnected) s

/-- A Boolean on the response port: 1 or 0 (30_encoding.md R100). -/
def boolBytes (b : Bool) : Bytes := if b then [1] else [0]

/-- `IS_CONNECTED` (R147): 1 when the presence byte is not zero. -/
def execIsConnected (s : State) : Host.Outcome State Fault Refusal :=
  whenBusFree (fun s => complete (answering (fun v => boolBytes (decide (v ≠ 0))) (drvPresence s))) s

end Sys2Proof.Machine
end

