-- ==== Sys2Proof/Machine/Filter.lean ====
section
/-! DEFINITION. The Frequency Tracking Filter (41_frequency_filter.md). -/

namespace Sys2Proof.Machine

open Sys2Proof.Config

/-- `window[winIdx] <- e; winIdx <- (winIdx + 1) mod 32` (R161). -/
def State.storeSample (s : State) (e : Byte) : State :=
  { s with window := s.window.set s.winIdx e, winIdx := s.winIdx + 1 }

/-- `appliedOffset <- b`. -/
def State.setOffset (s : State) (b : Byte) : State := { s with appliedOffset := b }

/-- `Correct()` (R162): the mean of the whole window is added to the applied offset, clamped, stored and written to the
chip's offset register. -/
def drvCorrect (s : State) : Except Fault State :=
  busWrite s.chip.aFreqOffset (correctedOffset s.appliedOffset s.window) (guardOf s.cfg .updFreqOffset)
    (s.setOffset (correctedOffset s.appliedOffset s.window))

/-- `UPD_FREQ_OFFSET` performed inside a rule (R160, R161): one sample is read and stored; when the index wraps to zero,
the correction follows. -/
def drvUpdFreqOffset (s : State) : Except Fault State := do
  let (e, s) ← busReadStatus s.chip.aFreqEst (guardOf s.cfg .updFreqOffset) s
  let s := s.storeSample e
  if s.winIdx = 0 then drvCorrect s else .ok s

/-- `UPD_FREQ_OFFSET` (R161); a host-issued update always samples. -/
def execUpdFreqOffset (s : State) : Host.Outcome State Fault Refusal :=
  whenBusFree (fun s => complete (drvUpdFreqOffset s)) s

end Sys2Proof.Machine
end

