-- ==== Sys2Proof/Machine/Sequencer.lean ====
section
/-! DEFINITION. The frame sequencer: the two event services and the micro-sequences they share with the host commands
(42_rx_tx_sequencer.md). The receive strobes of the micro-sequences and the transmit strobe record `GuardUs(STROBE)`
(log entry 10). -/

namespace Sys2Proof.Machine

open Sys2Proof.Config

/-- The receive strobe `S_RX` (decision D35). -/
def strobeRx (s : State) : Except Fault State := busStrobe s.chip.sRx (guardOf s.cfg .strobe) s

/-- The transmit strobe `S_TX` (decision D36). -/
def strobeTx (s : State) : Except Fault State := busStrobe s.chip.sTx (guardOf s.cfg .strobe) s

/-! ## Reception -/

/-- `ArmRx()` (R181). -/
def armRx (s : State) : Except Fault State := do
  let s ← drvIrqRxThr s.disarmTimer
  let s ← strobeRx s
  .ok (s.clearRx .rxWaitSync)

/-- `AbortRx()` (R175): nothing is pushed. -/
def abortRx (s : State) : Except Fault State := do
  let s ← drvFlushRx s
  let s ← strobeRx s
  .ok (s.clearRx .rxWaitSync)

/-- The header bytes received. -/
def State.header (s : State) : Bytes := s.rxBuf.take s.cfg.headerLen

/-- The filter behind its gate: `if s.trackingEnabled and nid = some s.trackedNetId then perform UPD_FREQ_OFFSET`
(R174, 41_frequency_filter.md R163). -/
def feedFilter (nid : Option Bytes) (s : State) : Except Fault State :=
  if s.tracks nid then drvUpdFreqOffset s else .ok s

/-- `CompleteRx()` (R174) for a frame of `t` bytes: RSSI, LQI, timestamp; push; the filter behind its gate
(41_frequency_filter.md R163); receive flush; receive strobe; idle. -/
def completeRx (t : Nat) (s : State) : Except Fault State := do
  let (rssi, s) ← drvGetRssi s
  let (lqi, s) ← drvGetLqi s
  let s := s.readClock
  let nid := netIdIn s.cfg s.header
  let s := s.push
    { bytes := s.rxBuf.take t, rssi := rssiMap rssi, lqi := lqiOf s.cfg lqi, timestamp := s.now, netId := nid }
  let s ← feedFilter nid s
  let s ← drvFlushRx s
  let s ← strobeRx s
  .ok (s.clearRx .rxWaitSync)

/-- `rxBuf[rxCount ..] <- bs; rxCount <- rxCount + length` (R172, R173). -/
def State.appendRx (s : State) (bs : Bytes) : State :=
  { s with rxBuf := overwrite s.rxBuf s.rxCount bs, rxCount := s.rxCount + bs.length }

/-- Read `n` bytes of the receive FIFO behind those already in `rxBuf`; nothing at all for `n` = 0 (R172, R173). -/
def drain (n : Nat) (s : State) : Except Fault State := do
  let (bs, s) ← drvRdRxFifo n s
  .ok (s.appendRx bs)

/-- `rxTotal <- some t; radioState <- RxPayload` (R172). -/
def State.enterPayload (s : State) (t : Nat) : State := { s with rxTotal := some t, radioState := .rxPayload }

/-- `ServiceRx()`, third part: payload accumulation with `avail` bytes left (R173). A state in `RxPayload` without a total,
which no rule reaches (10_state.md R24), is left as it is (log entry 13). -/
def rxPayload (avail : Nat) (s : State) : Except Fault State :=
  match s.rxTotal with
  | none => .ok s
  | some t => do
    let s ← drain (min avail (t - s.rxCount)) s
    if s.rxCount = t then completeRx t s else .ok s

/-- The end of `ServiceRx()`'s second part, once the header is complete (R172): the announced total is taken, or the
reception abandoned when it is below `HEADER_LEN` or above `MAX_FRAME_LEN`. -/
def rxHeaderDone (avail : Nat) (s : State) : Except Fault State :=
  let t := totalLenOf s.cfg s.header
  if t < s.cfg.headerLen ∨ s.cfg.maxFrameLen < t then abortRx s
  else rxPayload avail (s.enterPayload t)

/-- `ServiceRx()`, second part: header accumulation with `avail` bytes in the FIFO (R172). -/
def rxHeader (avail : Nat) (s : State) : Except Fault State := do
  let h := min avail (s.cfg.headerLen - s.rxCount)
  let s ← drain h s
  if s.rxCount = s.cfg.headerLen then rxHeaderDone (avail - h) s else .ok s

/-- `ServiceRx()` (R171 to R173): a reception starts in `RxWaitSync`; the FIFO level is read once; then the work of the
state, falling through within the service. -/
def serviceRx (s : State) : Except Fault State := do
  let s := if s.isIdle then s.clearRx .rxHeader else s
  let (level, s) ← drvGetRxLvl s
  if s.radioState = .rxHeader then rxHeader level.toNat s
  else if s.radioState = .rxPayload then rxPayload level.toNat s
  else .ok s

/-! ## Transmission -/

/-- `cursor <- j; txOffset <- 0; radioState <- TxTransmit` (R176). -/
def State.beginTx (s : State) (j : Fin 16) : State :=
  { s with cursor := j, txOffset := 0, radioState := .txTransmit }

/-- `txOffset <- n`. -/
def State.setTxOffset (s : State) (n : Nat) : State := { s with txOffset := n }

/-- `StartTx(j)` (R176): pre-load up to the FIFO's capacity, select the transmit-threshold interrupt, arm the turnaround
timer. -/
def startTx (j : Fin 16) (s : State) : Except Fault State := do
  let s := s.beginTx j
  let frame := s.activeSlot.frame
  let n := min frame.length s.cfg.fifoCapacity
  let s ← drvWrTxFifoBurst (frame.take n) s
  let s ← drvIrqTxThr (s.setTxOffset n)
  let s := s.readClock
  .ok (s.armTimer s.cfg.turnaroundUs)

/-- `radioState <- TxLastTransmit` (R178). -/
def State.enterLast (s : State) : State := { s with radioState := .txLastTransmit }

/-- `ServiceTxFeed()` (R178). -/
def serviceTxFeed (s : State) : Except Fault State := do
  let (lvl, s) ← drvGetTxLvl s
  let frame := s.activeSlot.frame
  let room := s.cfg.fifoCapacity - lvl.toNat
  let rem := frame.length - s.txOffset
  if rem ≤ room then do
    let s ← drvWrTxFifoBurst (slice frame s.txOffset rem) s.enterLast
    drvIrqTxUnf (s.setTxOffset frame.length)
  else do
    let s ← drvWrTxFifoBurst (slice frame s.txOffset room) s
    .ok (s.setTxOffset (s.txOffset + room))

/-- `ServiceTxDone()` (R180). -/
def serviceTxDone (s : State) : Except Fault State :=
  let s := s.releaseActive
  match nextSlot s.cfg s.slots with
  | some j => startTx j s
  | none => armRx s

/-! ## The two events -/

/-- `ServiceIrq()` after the latch is cleared (R184, R170): dispatch by `radioState` alone, nothing when no handler is
registered. -/
def serviceIrq (s : State) : Except Fault State :=
  if s.irqEnabled then
    match s.radioState with
    | .rxWaitSync => serviceRx s
    | .rxHeader => serviceRx s
    | .rxPayload => serviceRx s
    | .txTransmit => serviceTxFeed s
    | .txLastTransmit => serviceTxDone s
  else .ok s

/-- `ServiceTimer()` after the latch is cleared (R177). -/
def serviceTimer (s : State) : Except Fault State :=
  if s.timerArmed then
    match s.radioState with
    | .txTransmit => strobeTx s.disarmTimer
    | .txLastTransmit => strobeTx s.disarmTimer
    | .rxWaitSync => .ok s.disarmTimer
    | .rxHeader => .ok s.disarmTimer
    | .rxPayload => .ok s.disarmTimer
  else .ok s

/-- `EV_IRQ` (R184). -/
def execEvIrq (s : State) : Host.Outcome State Fault Refusal := complete (serviceIrq (s.enterService .irq))

/-- `EV_TIMER` (R177). -/
def execEvTimer (s : State) : Host.Outcome State Fault Refusal := complete (serviceTimer (s.enterService .timer))

end Sys2Proof.Machine
end

