-- ==== Sys2Proof/Machine/HostCommands.lean ====
section
/-! DEFINITION. The nine host commands of the RF State Machine and the scheduler (43_host_commands.md). Each command but
`INIT` is refused before a successful `INIT` (R213); the reconfiguration commands are admitted only while idle (R210). -/

namespace Sys2Proof.Machine

open Sys2Proof.Config

/-! ## Initialisation (R200) -/

/-- The first assignments of `INIT` (R200). -/
def State.beginInit (s : State) : State := ((s.setIrqEnabled false).disarmTimer).clearRx .rxWaitSync

/-- The settings `INIT` stores without a bus transaction of their own (R200). -/
def State.storeSettings (s : State) : State :=
  { s with
    config :=
      { s.config with
        syncWord := s.cfg.cfgSync
        pktLenMode := s.cfg.cfgPktLenMode
        preambleSync := s.cfg.cfgPreambleSync } }

/-- `for (a, x) in BaseConfigWrites, in order: BusWrite(a, x, g)` (R200). -/
def writeBase : List (Byte × Byte) → State → Except Fault State
  | [], s => .ok s
  | (a, x) :: rest, s => do
    let s ← busWrite a x (guardOf s.cfg .init) s
    writeBase rest s

/-- The part of `INIT` after the presence check (R200): the base configuration in order, the handler registered, reception
armed. -/
def configureAndArm (f : Rat) (s : State) : Except Fault State := do
  let s ← drvSetFreq f s
  let s ← drvSetBw (bandwidthKhz s.cfg.cfgBandwidth) s
  let s ← drvSetBitrate s.cfg.cfgBitrate s
  let s ← drvSetDev s.cfg.cfgDeviation s
  let s ← drvSetFifoThr s.cfg.fifoThreshold s
  let s := s.storeSettings
  let s ← writeBase s.cfg.baseConfigWrites s
  let s ← armRx (s.setIrqEnabled true)
  .ok (s.respond (boolBytes true))

/-- `INIT` after the band test, `f` = `F_CARRIER + off` (R200): reset, presence check, then the configuration; an absent
chip is answered with 0 and leaves the block uninitialised (60_exceptions.md R222). -/
def initChip (f : Rat) (s : State) : Except Fault State := do
  let s ← drvReset s.beginInit
  let (v, s) ← drvPresence s
  if v = 0 then .ok (s.respond (boolBytes false)) else configureAndArm f s

/-- `INIT off` (R200). -/
def execInit (off : Word32) (s : State) : Host.Outcome State Fault Refusal :=
  whenInBand (s.cfg.fCarrier + mhzOfI32 off) (fun s => complete (initChip (s.cfg.fCarrier + mhzOfI32 off) s)) s

/-! ## Transmission requests (R201, R202, R209) -/

/-- `Enqueue(frame)` (R209): copied into the free slot chosen, or dropped. -/
def State.enqueue (s : State) (frame : Bytes) : State :=
  if s.cfg.maxFrameLen < frame.length then s
  else
    match freeSlot s.cfg s.slots with
    | none => s
    | some i => s.fillSlot i frame

/-- `Schedule()` (R209): the idle test and the flip are one step (20_memory.md R79). -/
def schedule (s : State) : Except Fault State :=
  if s.isIdle then
    match nextSlot s.cfg s.slots with
    | some j => startTx j s
    | none => .ok s
  else .ok s

/-- `TRANSMIT [frame]` (R201). -/
def execTransmit (frame : Bytes) (s : State) : Host.Outcome State Fault Refusal :=
  whenInitialised (fun s => complete (schedule (s.enqueue frame))) s

/-- `TRANSMIT_LIST [frame], ...` (R202): each frame on its own, in order; one scheduling. -/
def execTransmitList (frames : List Bytes) (s : State) : Host.Outcome State Fault Refusal :=
  whenInitialised (fun s => complete (schedule (frames.foldl State.enqueue s))) s

/-! ## Recovery (R203) -/

/-- `RESTART_RX` performed (R203). -/
def restart (s : State) : Except Fault State := do
  let s ← drvFlushRx s
  let s ← drvFlushTx s
  armRx s

/-- `RESTART_RX` (R203). -/
def execRestartRx (s : State) : Host.Outcome State Fault Refusal :=
  whenInitialised (fun s => complete (restart s)) s

/-! ## Reconfiguration (R204 to R206) -/

/-- `SET_FREQ_OFFSET off` (R204). -/
def execSetFreqOffset (off : Word32) (s : State) : Host.Outcome State Fault Refusal :=
  whenInitialised (whenIdle (whenInBand (s.cfg.fCarrier + mhzOfI32 off)
    fun s => complete (drvSetFreq (s.cfg.fCarrier + mhzOfI32 off) s))) s

/-- `SM_SET_FREQ f` (R205). -/
def execSmSetFreq (v : Word32) (s : State) : Host.Outcome State Fault Refusal :=
  whenInitialised (whenIdle (whenInBand (mhzOfU32 v) fun s => complete (drvSetFreq (mhzOfU32 v) s))) s

/-- `SM_SET_BW x` (R206). -/
def execSmSetBw (v : Word32) (s : State) : Host.Outcome State Fault Refusal :=
  whenInitialised (whenIdle fun s => complete (drvSetBw (khzOfU32 v) s)) s

/-! ## Tracking gate (R207, R208) -/

/-- `TRACK_ENABLE id` (R207). -/
def execTrackEnable (id : Bytes) (s : State) : Host.Outcome State Fault Refusal :=
  whenInitialised (fun s => .next (s.enableTracking id).markOk) s

/-- `TRACK_DISABLE` (R208). -/
def execTrackDisable (s : State) : Host.Outcome State Fault Refusal :=
  whenInitialised (fun s => .next s.disableTracking.markOk) s

end Sys2Proof.Machine
end

