-- ==== Sys2Proof/Machine/Dispatch.lean ====
section
/-! DEFINITION. The meaning of every operation of 30_encoding.md R92, one arm per constructor. -/

namespace Sys2Proof.Machine

def exec (i : Instr) (s : State) : Host.Outcome State Fault Refusal :=
  match i with
  | .init off => Sys2Proof.Machine.execInit off s
  | .transmit frame => Sys2Proof.Machine.execTransmit frame s
  | .transmitList frames => Sys2Proof.Machine.execTransmitList frames s
  | .restartRx => Sys2Proof.Machine.execRestartRx s
  | .setFreqOffset off => Sys2Proof.Machine.execSetFreqOffset off s
  | .smSetFreq f => Sys2Proof.Machine.execSmSetFreq f s
  | .smSetBw x => Sys2Proof.Machine.execSmSetBw x s
  | .trackEnable id => Sys2Proof.Machine.execTrackEnable id s
  | .trackDisable => Sys2Proof.Machine.execTrackDisable s
  | .drvReset => Sys2Proof.Machine.execDrvReset s
  | .wrReg addr value guard => Sys2Proof.Machine.execWrReg addr value guard s
  | .wrBurst addr guard data => Sys2Proof.Machine.execWrBurst addr guard data s
  | .strobe cmd guard => Sys2Proof.Machine.execStrobe cmd guard s
  | .rdReg addr => Sys2Proof.Machine.execRdReg addr s
  | .rdBurst addr n => Sys2Proof.Machine.execRdBurst addr n s
  | .rdStatus addr => Sys2Proof.Machine.execRdStatus addr s
  | .setFreq f => Sys2Proof.Machine.execSetFreq f s
  | .calibrate => Sys2Proof.Machine.execCalibrate s
  | .setBw x => Sys2Proof.Machine.execSetBw x s
  | .setBitrate x => Sys2Proof.Machine.execSetBitrate x s
  | .setDev x => Sys2Proof.Machine.execSetDev x s
  | .getRssi => Sys2Proof.Machine.execGetRssi s
  | .getLqi => Sys2Proof.Machine.execGetLqi s
  | .lowPower => Sys2Proof.Machine.execLowPower s
  | .activePower => Sys2Proof.Machine.execActivePower s
  | .isConnected => Sys2Proof.Machine.execIsConnected s
  | .rdRxFifo n => Sys2Proof.Machine.execRdRxFifo n s
  | .wrTxFifo b => Sys2Proof.Machine.execWrTxFifo b s
  | .wrTxFifoBurst data => Sys2Proof.Machine.execWrTxFifoBurst data s
  | .flushRx => Sys2Proof.Machine.execFlushRx s
  | .flushTx => Sys2Proof.Machine.execFlushTx s
  | .getRxLvl => Sys2Proof.Machine.execGetRxLvl s
  | .getTxLvl => Sys2Proof.Machine.execGetTxLvl s
  | .setFifoThr level => Sys2Proof.Machine.execSetFifoThr level s
  | .irqRxThr => Sys2Proof.Machine.execIrqRxThr s
  | .irqTxThr => Sys2Proof.Machine.execIrqTxThr s
  | .irqTxUnf => Sys2Proof.Machine.execIrqTxUnf s
  | .updFreqOffset => Sys2Proof.Machine.execUpdFreqOffset s
  | .evIrq => Sys2Proof.Machine.execEvIrq s
  | .evTimer => Sys2Proof.Machine.execEvTimer s

end Sys2Proof.Machine
end

