-- ==== Sys2Proof/Machine/Step.lean ====
section
/-! DEFINITION. One step of the block: take in what arrived, arbitrate, and run the operation or service chosen to its end
(20_memory.md R75, R78; 60_exceptions.md R230). -/

namespace Sys2Proof.Machine

/-- One step. -/
def step (s : State) : Host.Outcome State Fault Refusal :=
  match s.absorb.nextWork with
  | (.run i, t) => exec i t
  | (.reject, t) => refuse .invalidCommand t
  | (.idle, t) => .next t

/-- The word whose first `nbits` bits are `w`, placed so that the next step runs it (log entry 30). -/
def State.withFetchWord (s : State) (nbits w : Nat) : State :=
  s.placeWord (tableWord s.cfg.netidBytes nbits w)

end Sys2Proof.Machine
end

