-- ==== Sys2Proof/Safety.lean ====
section
/-! DEFINITION. What the statements speak of: the environment premise of 20_memory.md R62, the constraint column of
00_scope.md R8, the invariants of 42_rx_tx_sequencer.md R185 and 10_state.md R22 to R35, what one operation does seen
from outside (the registers, the transactions, the answers, the pushes), the transition relation R182, and runs of
several operations. -/

namespace Sys2Proof.Machine

open Sys2Proof.Config

/-! ## Premises -/

/-- "all register operations are assumed to always complete" (20_memory.md R62), for the ready waits: no transaction waits
for ever, neither a scripted nor an unscripted one. -/
def State.WaitsEnd (s : State) : Prop := (∀ tm ∈ s.inp.timings.items, tm.ready ≠ none) ∧ s.inp.readyFails = none

/-- The operations an event service performs, by the `GuardUs` entry their transactions record (00_scope.md R8,
70_reset_and_hazards.md R262; log entry 10). -/
def serviceOps : List Op :=
  [.getRxLvl, .rdRxFifo, .getRssi, .getLqi, .updFreqOffset, .flushRx, .strobe, .irqRxThr, .wrTxFifoBurst, .irqTxThr,
    .getTxLvl, .irqTxUnf]

/-- `GuardUs(op)` ≤ 10 for every operation an event service performs (70_reset_and_hazards.md R262). -/
def GuardsBounded (c : Cfg) : Prop := ∀ op ∈ serviceOps, guardOf c op ≤ guardMaxIsrUs

/-- Property P3 of 40_register_driver.md R128 for one request: no other code is closer to the clamped request. -/
def ClosestAt {w : Nat} (q : Search w) (x : Rat) : Prop :=
  ∀ c : BitVec w,
    |applyTab q.values (searchCode q x) - clampRat x q.min q.max| ≤ |applyTab q.values c - clampRat x q.min q.max|

/-- The representable range of a search is not empty: without it clamping, and with it P2 of 40_register_driver.md R128,
would say nothing. -/
def Search.Ordered {w : Nat} (q : Search w) : Prop := q.min ≤ q.max

/-- The frame lengths: 1 ≤ `HEADER_LEN` ≤ `MAX_FRAME_LEN` ≤ 255 (00_scope.md R8). -/
structure LengthsLawful (c : Cfg) : Prop where
  header_pos : 1 ≤ c.headerLen
  header_le : c.headerLen ≤ c.maxFrameLen
  frame_le : c.maxFrameLen ≤ 255

/-- "all distinct within their kind" (00_scope.md R8; the kinds of 10_state.md R46). -/
structure ChipLawful (m : ChipMap) : Prop where
  configuration : [m.aFreqHi, m.aFreqMid, m.aFreqLo, m.aFreqOffset, m.aTest, m.aFifoThr, m.aIrqCfg, m.aBw,
    m.aBitrateHi, m.aBitrateLo, m.aDev].Nodup
  status : [m.aFreqEst, m.aChipStatus, m.aPresence, m.aRssi, m.aLqi, m.aRxLevel, m.aTxLevel].Nodup
  strobes : [m.sCal, m.sRx, m.sTx, m.sFlushRx, m.sFlushTx, m.sPowerDown, m.sWake].Nodup
  selectors : [m.vIrqRxThr, m.vIrqTxThr, m.vIrqTxUnf].Nodup

/-- The constraint column of 00_scope.md R8: what the rules assume of the open parameters. P3 is asked of every request
the command port or the configuration can make (log entry 22). -/
structure CfgLawful (c : Cfg) : Prop where
  lengths : LengthsLawful c
  fifo_pos : 1 ≤ c.fifoCapacity
  fifo_le : c.fifoCapacity ≤ 255
  netid_pos : 1 ≤ c.netidBytes
  netid_width : ∀ h id, netIdIn c h = some id → id.length = c.netidBytes
  turnaround : c.turnaroundUs < 2 ^ 31
  guards : GuardsBounded c
  guard_clock : ∀ op, guardOf c op < 2 ^ 31
  chip : ChipLawful c.chip
  bw_ordered : Search.Ordered c.bw
  bitrate_ordered : Search.Ordered c.bitrate
  dev_ordered : Search.Ordered c.dev
  bw_closest : ∀ v, ClosestAt c.bw (khzOfU32 v)
  bw_init : ClosestAt c.bw (bandwidthKhz c.cfgBandwidth)
  bitrate_closest : ∀ v, ClosestAt c.bitrate (baudOfU32 v)
  bitrate_init : ClosestAt c.bitrate c.cfgBitrate
  dev_closest : ∀ v, ClosestAt c.dev (khzOfU32 v)
  dev_init : ClosestAt c.dev c.cfgDeviation
  bands_nonempty : c.bands ≠ []
  bands_range : ∀ b ∈ c.bands, 0 ≤ b.1 ∧ b.1 ≤ b.2 ∧ b.2 < 6656
  carrier : inBands c c.fCarrier = true
  steps_pos : 0 < c.stepHi ∧ 0 < c.stepMid ∧ 0 < c.stepLo

/-- The step sizes of 00_scope.md R7. -/
def ExactSteps (c : Cfg) : Prop := c.stepHi = stepHiExact ∧ c.stepMid = stepMidExact ∧ c.stepLo = stepLoExact

/-! ## The invariant -/

/-- A transmission state. -/
def RadioState.isTx : RadioState → Bool
  | .txTransmit => true
  | .txLastTransmit => true
  | .rxWaitSync => false
  | .rxHeader => false
  | .rxPayload => false

/-- A reception state, the idle state among them. -/
def RadioState.isRx (r : RadioState) : Bool := !r.isTx

/-- The invariants the rules maintain between operations. -/
structure State.Inv (s : State) : Prop where
  /-- 10_state.md R22 -/
  rxBuf_length : s.rxBuf.length = s.cfg.maxFrameLen
  /-- 10_state.md R23 -/
  rxCount_le : s.rxCount ≤ s.cfg.maxFrameLen
  /-- 10_state.md R28 -/
  frames_fit : ∀ i : Fin 16, s.slots[i].frame.length ≤ s.cfg.maxFrameLen
  /-- 10_state.md R35, 30_encoding.md R96 -/
  netid_length : s.trackedNetId.length = s.cfg.netidBytes
  /-- 42_rx_tx_sequencer.md R185 (a), 10_state.md R24 -/
  tx : s.radioState.isTx = true →
    s.activeSlot.inUse = true ∧ s.txOffset ≤ s.activeSlot.frame.length ∧ s.rxTotal = none
  /-- R185 (b) -/
  last : s.radioState = .txLastTransmit → s.txOffset = s.activeSlot.frame.length
  /-- R185 (c) -/
  timer : s.timerArmed = true → s.radioState.isTx = true
  /-- R185 (d) -/
  idle : s.radioState = .rxWaitSync → s.rxCount = 0 ∧ s.rxTotal = none
  /-- R185 (e) -/
  header : s.radioState = .rxHeader → s.rxCount < s.cfg.headerLen ∧ s.rxTotal = none
  /-- R185 (f) -/
  payload : s.radioState = .rxPayload →
    ∃ t, s.rxTotal = some t ∧ s.cfg.headerLen ≤ s.rxCount ∧ s.rxCount < t ∧ t ≤ s.cfg.maxFrameLen

/-! ## What an operation did -/

/-- The guard a trace entry records; the reset sequence records none. -/
def BusTxn.guard : BusTxn → Nat
  | .write _ _ g => g
  | .writeBurst _ _ g => g
  | .strobe _ g => g
  | .read _ _ g => g
  | .readBurst _ _ g => g
  | .readStatus _ _ g => g
  | .reset => 0

/-- The bytes the chip gave in a transaction. -/
def BusTxn.bytesRead : BusTxn → Bytes
  | .read _ b _ => [b]
  | .readBurst _ bs _ => bs
  | .readStatus _ b _ => [b]
  | .write _ _ _ => []
  | .writeBurst _ _ _ => []
  | .strobe _ _ => []
  | .reset => []

/-- The bytes the chip gave in a list of transactions, in order. -/
def bytesRead (txns : List BusTxn) : Bytes := txns.flatMap BusTxn.bytesRead

/-- The transactions of a run, in order. -/
def State.txns (s : State) : List BusTxn := s.busTrace.map (·.txn)

/-- The guard deadline after some new trace entries: unchanged when there is none, else the release of the last one plus
its guard (40_register_driver.md R110). The reset sequence is not a transaction in this sense. -/
def deadlineAfter (s t : State) (es : List BusEntry) : Prop :=
  (es = [] → t.csNotBefore = s.csNotBefore) ∧
  ∀ e, es.getLast? = some e → e.txn ≠ .reset → t.csNotBefore = e.releaseAt + BitVec.ofNat 32 e.txn.guard

/-- Of two consecutive transactions, the guard wait of the second found the first's deadline passed, by the wrap-safe
comparison of 40_register_driver.md R110. The reset sequence is not a transaction in this sense. -/
def BusEntry.Guarded (e f : BusEntry) : Prop :=
  e.txn ≠ .reset → f.txn ≠ .reset →
    clockReached f.guardedAt (e.releaseAt + BitVec.ofNat 32 e.txn.guard) = true

/-- New trace entries keep the guards: the first waited for the deadline of `s`, each other one for that of the entry
before it (40_register_driver.md R110). -/
def guardsKept (s : State) (es : List BusEntry) : Prop :=
  (∀ f, es.head? = some f → f.txn ≠ .reset → clockReached f.guardedAt s.csNotBefore = true) ∧
  es.IsChain BusEntry.Guarded

/-- The guard-time invariant of 40_register_driver.md R117 over the whole trace: the guard deadline is the last
transaction's, and every transaction waited for the deadline of the one before it, whichever operations they belong
to. -/
structure State.Paced (s : State) : Prop where
  deadline : ∀ e, s.busTrace.getLast? = some e → e.txn ≠ .reset →
    s.csNotBefore = e.releaseAt + BitVec.ofNat 32 e.txn.guard
  guarded : s.busTrace.IsChain BusEntry.Guarded

/-- R117 in microseconds, for two consecutive transactions whose first has a guard the clock can count (R110: below
2^31): the second's guard wait ends no sooner than the guard after the first's release, and so does its chip-select,
provided the clock does not wrap unseen in between. -/
def BusEntry.Apart (e f : BusEntry) : Prop :=
  e.txn ≠ .reset → f.txn ≠ .reset → e.txn.guard < 2 ^ 31 →
    e.txn.guard ≤ (f.guardedAt - e.releaseAt).toNat ∧
    ((f.guardedAt - e.releaseAt).toNat + (f.selectAt - f.guardedAt).toNat < 2 ^ 32 →
      e.txn.guard ≤ (f.selectAt - e.releaseAt).toNat)

/-- The frame timestamp `ts` of 42_rx_tx_sequencer.md R174 (decision D42) among the entries a run from `s` to `t` added:
the clock as read next after the release of the `k`th of them, the LQI read, no transaction in between. The time between
release and reading is a draw (log entry 28). -/
def StampedAfter (s t : State) (k : Nat) (ts : Clock) : Prop :=
  ∃ e, t.busTrace[s.busTrace.length + k]? = some e ∧ ts = e.releaseAt + s.inp.ticks.head freeTick

/-- All that happened between `s` and `t`: the registers are now `regs`; exactly the transactions `txns` were made, the
words `answers` sent, the frames `pushed` pushed, the outcomes `outs` recorded; nothing else moved but the clock and the
streams of draws, and the timer latch could only be set, by an armed timer. The guard deadline and the guard waits follow
R110. -/
structure Did (s t : State) (regs : Regs) (txns : List BusTxn) (answers : List Bytes) (pushed : List FrameRecord)
    (outs : List OpOutcome) : Prop where
  cfg_eq : t.cfg = s.cfg
  regs_eq : t.regs = regs
  trace_eq : ∃ es, t.busTrace = s.busTrace ++ es ∧ es.map (·.txn) = txns ∧ deadlineAfter s t es ∧ guardsKept s es
  responses_eq : t.responses = s.responses ++ answers
  pushes_eq : t.pushTrace = s.pushTrace ++ pushed
  outcomes_eq : t.outcomes = s.outcomes ++ outs
  refused_eq : t.refused = s.refused
  bytes_drawn : bytesRead txns = s.answerBytes (bytesRead txns).length
  answers_drawn : t.inp.answers = s.inp.answers.drop (bytesRead txns).length
  words_eq : t.inp.words = s.inp.words
  arrivals_eq : t.inp.arrivals = s.inp.arrivals
  picks_eq : t.inp.picks = s.inp.picks
  fails_eq : t.inp.readyFails = s.inp.readyFails
  waits_kept : s.WaitsEnd → t.WaitsEnd
  latch_kept : s.timerPending = true → t.timerPending = true
  latch_from : t.timerPending = true → s.timerPending = true ∨ s.timerArmed = true

/-- Operation `i` completes from `s` with outcome `Ok`, having done exactly what is listed. -/
def CompletesAs (i : Instr) (s : State) (regs : Regs) (txns : List BusTxn) (answers : List Bytes)
    (pushed : List FrameRecord) : Prop :=
  ∃ t, exec i s = .next t ∧ Did s t regs txns answers pushed [.ok]

/-- A burst read as it stands in the trace: nothing at all for no bytes (20_memory.md R68). -/
def burstRead (a : Byte) (bs : Bytes) (g : Nat) : List BusTxn := if bs = [] then [] else [.readBurst a bs g]

/-- A burst write as it stands in the trace: nothing at all for no bytes (20_memory.md R68). -/
def burstWrite (a : Byte) (bs : Bytes) (g : Nat) : List BusTxn := if bs = [] then [] else [.writeBurst a bs g]

/-- The part of the stream of answer bytes after `n` of them. -/
def State.answersFrom (s : State) (n m : Nat) : Bytes := (s.inp.answers.drop n).take freeByte m

/-- The `n`th answer byte from now on, counted from 0. -/
def State.answerAt (s : State) (n : Nat) : Byte := s.inp.answers.nth freeByte n

/-! ## The transactions of the shared pieces, as the rules list them -/

/-- The status reads of a calibration poll: `n` answers starting at answer `k` (40_register_driver.md R126). -/
def pollReads (s : State) (k n : Nat) : List BusTxn :=
  (s.answersFrom k n).map fun b => .readStatus s.cfg.chip.aChipStatus b (guardOf s.cfg .calibrate)

/-- The poll that starts at answer `k` reads `n` bytes: all but the last busy, the last clear; the model's bound on the
poll is not reached (log entry 5). -/
structure PollEnds (s : State) (k n : Nat) : Prop where
  pos : 1 ≤ n
  busy : ∀ b ∈ (s.answersFrom k n).dropLast, isCalBusy s.cfg b = true
  clear : ∀ b, (s.answersFrom k n).getLast? = some b → isCalBusy s.cfg b = false
  bound : k + n ≤ max (k + 1) s.inp.answers.items.length + s.cfg.pollFuel

/-- The transactions of `CALIBRATE` (40_register_driver.md R126). -/
def calibrateTxns (s : State) (k n : Nat) : List BusTxn :=
  [.write s.cfg.chip.aFreqOffset 0x00 (guardOf s.cfg .calibrate),
   .write s.cfg.chip.aTest s.cfg.chip.vTestCal (guardOf s.cfg .calibrate),
   .strobe s.cfg.chip.sCal (guardOf s.cfg .calibrate)] ++ pollReads s k n

/-- The three frequency words of `SET_FREQ f` (40_register_driver.md R124). -/
def freqCodes (c : Cfg) (f : Rat) : Byte × Byte × Byte := carryFix (freqWords c f)

/-- The transactions of `SET_FREQ f` (40_register_driver.md R124). -/
def setFreqTxns (s : State) (f : Rat) (k n : Nat) : List BusTxn :=
  [.write s.cfg.chip.aFreqHi (freqCodes s.cfg f).1 (guardOf s.cfg .setFreq),
   .write s.cfg.chip.aFreqMid (freqCodes s.cfg f).2.1 (guardOf s.cfg .setFreq),
   .write s.cfg.chip.aFreqLo (freqCodes s.cfg f).2.2 (guardOf s.cfg .setFreq)] ++ calibrateTxns s k n

/-- The shadow after `SET_FREQ f`. -/
def TransceiverConfig.withFreq (x : TransceiverConfig) (w : Byte × Byte × Byte) : TransceiverConfig :=
  { x with freqHi := w.1, freqMid := w.2.1, freqLo := w.2.2 }

/-- The transactions of `ArmRx()` (42_rx_tx_sequencer.md R181). -/
def armRxTxns (c : Cfg) : List BusTxn :=
  [.write c.chip.aIrqCfg c.chip.vIrqRxThr (guardOf c .irqRxThr), .strobe c.chip.sRx (guardOf c .strobe)]

/-- The registers when reception is idle again: `rxCount <- 0; rxTotal <- none; radioState <- RxWaitSync`. -/
def Regs.idle (r : Regs) : Regs := { r with rxCount := 0, rxTotal := none, radioState := .rxWaitSync }

/-- The receive flush and the receive strobe that end a reception (42_rx_tx_sequencer.md R174, R175). -/
def endRxTxns (c : Cfg) : List BusTxn :=
  [.strobe c.chip.sFlushRx (guardOf c .flushRx), .strobe c.chip.sRx (guardOf c .strobe)]

/-- The bytes a transmission pre-loads (42_rx_tx_sequencer.md R176). -/
def preload (c : Cfg) (frame : Bytes) : Bytes := frame.take (min frame.length c.fifoCapacity)

/-- The transactions of `StartTx` for a frame (42_rx_tx_sequencer.md R176). -/
def startTxTxns (c : Cfg) (frame : Bytes) : List BusTxn :=
  burstWrite c.chip.aFifo (preload c frame) (guardOf c .wrTxFifoBurst) ++
    [.write c.chip.aIrqCfg c.chip.vIrqTxThr (guardOf c .irqTxThr)]

/-- The registers after `StartTx(j)`, the deadline as given (42_rx_tx_sequencer.md R176). -/
def Regs.started (r : Regs) (c : Cfg) (j : Fin 16) (deadline : Clock) : Regs :=
  { r with
    cursor := j
    txOffset := min r.slots[j].frame.length c.fifoCapacity
    radioState := .txTransmit
    timerArmed := true
    timerDeadline := deadline }

/-- The slot table after `Enqueue(frame)` (43_host_commands.md R209). -/
def accept (c : Cfg) (slots : SlotTable) (frame : Bytes) : SlotTable :=
  if c.maxFrameLen < frame.length then slots
  else
    match freeSlot c slots with
    | none => slots
    | some i => slots.set i { inUse := true, frame := frame }

/-- The window after one sample, and the new index (41_frequency_filter.md R161). -/
def Regs.sampled (r : Regs) (e : Byte) : Regs := { r with window := r.window.set r.winIdx e, winIdx := r.winIdx + 1 }

/-- The registers after `UPD_FREQ_OFFSET` with sample `e` (41_frequency_filter.md R161, R162). -/
def Regs.updated (r : Regs) (e : Byte) : Regs :=
  let q := r.sampled e
  if q.winIdx = 0 then { q with appliedOffset := correctedOffset q.appliedOffset q.window } else q

/-- The transactions of `UPD_FREQ_OFFSET` with sample `e` (41_frequency_filter.md R161, R162). -/
def updateTxns (c : Cfg) (r : Regs) (e : Byte) : List BusTxn :=
  .readStatus c.chip.aFreqEst e (guardOf c .updFreqOffset) ::
    if (r.sampled e).winIdx = 0 then
      [.write c.chip.aFreqOffset (r.updated e).appliedOffset (guardOf c .updFreqOffset)]
    else []

/-! ## One service of the receive side, by its numbers (42_rx_tx_sequencer.md R171 to R173) -/

/-- Bytes of the frame already there when the service starts to read. -/
def State.rxHave (s : State) : Nat := if s.isIdle then 0 else s.rxCount

/-- Header bytes still missing when the service starts to read; none once the header is complete. -/
def State.headerLack (s : State) : Nat := if s.radioState = .rxPayload then 0 else s.cfg.headerLen - s.rxHave

/-- The FIFO level this service reads. -/
def State.rxAvail (s : State) : Nat := s.answer.toNat

/-- Header bytes this service reads. -/
def State.headerTake (s : State) : Nat := min s.rxAvail s.headerLack

/-- The receive buffer after `n` bytes of this service. -/
def State.bufAfter (s : State) (n : Nat) : Bytes := overwrite s.rxBuf s.rxHave (s.answersFrom 1 n)

/-- The header of the frame once this service has completed it. -/
def State.headerAfter (s : State) : Bytes := (s.bufAfter s.headerTake).take s.cfg.headerLen

/-- The header is complete after this service's header bytes. -/
def State.headerComplete (s : State) : Prop := s.headerLack ≤ s.rxAvail

/-- The total length of the frame: the one parsed, or the one this service parses. -/
def State.frameTotal (s : State) : Nat :=
  if s.radioState = .rxPayload then s.rxTotal.getD 0 else totalLenOf s.cfg s.headerAfter

/-- The announced length is one the block can receive (42_rx_tx_sequencer.md R172). -/
def State.totalLegal (s : State) : Prop := s.cfg.headerLen ≤ s.frameTotal ∧ s.frameTotal ≤ s.cfg.maxFrameLen

/-- Payload bytes this service reads. -/
def State.payloadTake (s : State) : Nat :=
  min (s.rxAvail - s.headerTake) (s.frameTotal - (s.rxHave + s.headerTake))

/-- All frame bytes this service reads. -/
def State.rxTake (s : State) : Nat := s.headerTake + s.payloadTake

/-- The level read of a receive service, and its burst of header bytes. -/
def headerTxns (s : State) : List BusTxn :=
  .readStatus s.cfg.chip.aRxLevel s.answer (guardOf s.cfg .getRxLvl) ::
    burstRead s.cfg.chip.aFifo (s.answersFrom 1 s.headerTake) (guardOf s.cfg .rdRxFifo)

/-- The transactions of a receive service up to its payload bytes. -/
def payloadTxns (s : State) : List BusTxn :=
  headerTxns s ++
    burstRead s.cfg.chip.aFifo (s.answersFrom (1 + s.headerTake) s.payloadTake) (guardOf s.cfg .rdRxFifo)

/-- The RSSI and LQI reads of a completion, the bytes as given (42_rx_tx_sequencer.md R174). -/
def qualityTxns (c : Cfg) (rssi lqi : Byte) : List BusTxn :=
  [.readStatus c.chip.aRssi rssi (guardOf c .getRssi), .readStatus c.chip.aLqi lqi (guardOf c .getLqi)]

/-- The transactions after the payload of a completed reception, the quality bytes starting at answer `k`. -/
def finishTxns (s : State) (track : Bool) (k : Nat) : List BusTxn :=
  qualityTxns s.cfg (s.answerAt k) (s.answerAt (k + 1)) ++
    (if track then updateTxns s.cfg s.regs (s.answerAt (k + 2)) else []) ++ endRxTxns s.cfg

/-- The frame record of a completed reception, from the raw quality bytes (42_rx_tx_sequencer.md R174). -/
def frameRecord (c : Cfg) (bytes header : Bytes) (rssi lqi : Byte) (ts : Clock) : FrameRecord where
  bytes := bytes
  rssi := rssiMap rssi
  lqi := lqiOf c lqi
  timestamp := ts
  netId := netIdIn c header

/-! ## One refill of the transmit side (42_rx_tx_sequencer.md R178) -/

/-- The transactions of a refill when `lvl` bytes are still in the FIFO (42_rx_tx_sequencer.md R178). -/
def feedTxns (s : State) (lvl : Nat) : List BusTxn :=
  let frame := s.activeSlot.frame
  let room := s.cfg.fifoCapacity - lvl
  let rem := frame.length - s.txOffset
  .readStatus s.cfg.chip.aTxLevel s.answer (guardOf s.cfg .getTxLvl) ::
    if rem ≤ room then
      burstWrite s.cfg.chip.aFifo (slice frame s.txOffset rem) (guardOf s.cfg .wrTxFifoBurst) ++
        [.write s.cfg.chip.aIrqCfg s.cfg.chip.vIrqTxUnf (guardOf s.cfg .irqTxUnf)]
    else burstWrite s.cfg.chip.aFifo (slice frame s.txOffset room) (guardOf s.cfg .wrTxFifoBurst)

/-- The registers after a refill. -/
def feedRegs (s : State) (lvl : Nat) : Regs :=
  let frame := s.activeSlot.frame
  let room := s.cfg.fifoCapacity - lvl
  if frame.length - s.txOffset ≤ room then { s.regs with radioState := .txLastTransmit, txOffset := frame.length }
  else { s.regs with txOffset := s.txOffset + room }

/-! ## `INIT` (43_host_commands.md R200) -/

/-- The presence read of `INIT` and `IS_CONNECTED` (40_register_driver.md R147). -/
def presenceTxn (c : Cfg) (v : Byte) : BusTxn := .readStatus c.chip.aPresence v (guardOf c .isConnected)

/-- The whole of `config` after a successful `INIT` at frequency `f`. -/
def initConfig (c : Cfg) (f : Rat) : TransceiverConfig where
  freqHi := (freqCodes c f).1
  freqMid := (freqCodes c f).2.1
  freqLo := (freqCodes c f).2.2
  bwCode := searchCode c.bw (bandwidthKhz c.cfgBandwidth)
  bitrateCode := searchCode c.bitrate c.cfgBitrate
  devCode := searchCode c.dev c.cfgDeviation
  syncWord := c.cfgSync
  fifoThreshold := c.fifoThreshold
  pktLenMode := c.cfgPktLenMode
  preambleSync := c.cfgPreambleSync

/-- The modem settings of `INIT`, in its order. -/
def modemTxns (c : Cfg) : List BusTxn :=
  [.write c.chip.aBw (searchCode c.bw (bandwidthKhz c.cfgBandwidth)) (guardOf c .setBw),
   .write c.chip.aBitrateHi ((searchCode c.bitrate c.cfgBitrate).extractLsb' 8 8) (guardOf c .setBitrate),
   .write c.chip.aBitrateLo ((searchCode c.bitrate c.cfgBitrate).extractLsb' 0 8) (guardOf c .setBitrate),
   .write c.chip.aDev (searchCode c.dev c.cfgDeviation) (guardOf c .setDev),
   .write c.chip.aFifoThr c.fifoThreshold (guardOf c .setFifoThr)]

/-- The base writes of `INIT`. -/
def baseTxns (c : Cfg) : List BusTxn := c.baseConfigWrites.map fun w => .write w.1 w.2 (guardOf c .init)

/-- All transactions of a successful `INIT` whose calibration poll reads `n` bytes. -/
def initTxns (s : State) (f : Rat) (n : Nat) : List BusTxn :=
  [.reset, presenceTxn s.cfg (s.answerAt 0)] ++ setFreqTxns s f 1 n ++ modemTxns s.cfg ++ baseTxns s.cfg ++
    armRxTxns s.cfg

/-! ## The transition relation (42_rx_tx_sequencer.md R182) -/

/-- The table of R182, conditions left out: which `radioState` may follow which under which operation. -/
inductive Transition : RadioState → Instr → RadioState → Prop where
  | keep (r : RadioState) (i : Instr) : Transition r i r
  | startRx : Transition .rxWaitSync .evIrq .rxHeader
  | startRxThrough : Transition .rxWaitSync .evIrq .rxPayload
  | headerDone : Transition .rxHeader .evIrq .rxPayload
  | headerEnds : Transition .rxHeader .evIrq .rxWaitSync
  | payloadEnds : Transition .rxPayload .evIrq .rxWaitSync
  | startTx (frame : Bytes) : Transition .rxWaitSync (.transmit frame) .txTransmit
  | startTxList (frames : List Bytes) : Transition .rxWaitSync (.transmitList frames) .txTransmit
  | lastFill : Transition .txTransmit .evIrq .txLastTransmit
  | nextTx : Transition .txLastTransmit .evIrq .txTransmit
  | txEnds : Transition .txLastTransmit .evIrq .rxWaitSync
  | restart (r : RadioState) : Transition r .restartRx .rxWaitSync
  | init (r : RadioState) (off : Word32) : Transition r (.init off) .rxWaitSync

end Sys2Proof.Machine

namespace Sys2Proof

/-! ## Which operations are which (43_host_commands.md R210, R211, R213) -/

/-- A Register Driver operation or the filter update: admitted only while idle (R211). -/
def Instr.isDriver : Instr → Bool
  | .drvReset | .wrReg _ _ _ | .wrBurst _ _ _ | .strobe _ _ | .rdReg _ | .rdBurst _ _ | .rdStatus _ | .setFreq _
  | .calibrate | .setBw _ | .setBitrate _ | .setDev _ | .getRssi | .getLqi | .lowPower | .activePower
  | .isConnected | .rdRxFifo _ | .wrTxFifo _ | .wrTxFifoBurst _ | .flushRx | .flushTx | .getRxLvl | .getTxLvl
  | .setFifoThr _ | .irqRxThr | .irqTxThr | .irqTxUnf | .updFreqOffset => true
  | .init _ | .transmit _ | .transmitList _ | .restartRx | .setFreqOffset _ | .smSetFreq _ | .smSetBw _
  | .trackEnable _ | .trackDisable | .evIrq | .evTimer => false

/-- A host command other than `INIT`: refused before initialisation (R213). -/
def Instr.needsInit : Instr → Bool
  | .transmit _ | .transmitList _ | .restartRx | .setFreqOffset _ | .smSetFreq _ | .smSetBw _ | .trackEnable _
  | .trackDisable => true
  | .init _ | .drvReset | .wrReg _ _ _ | .wrBurst _ _ _ | .strobe _ _ | .rdReg _ | .rdBurst _ _ | .rdStatus _
  | .setFreq _ | .calibrate | .setBw _ | .setBitrate _ | .setDev _ | .getRssi | .getLqi | .lowPower | .activePower
  | .isConnected | .rdRxFifo _ | .wrTxFifo _ | .wrTxFifoBurst _ | .flushRx | .flushTx | .getRxLvl | .getTxLvl
  | .setFifoThr _ | .irqRxThr | .irqTxThr | .irqTxUnf | .updFreqOffset | .evIrq | .evTimer => false

/-- An operation that performs `CALIBRATE` (70_reset_and_hazards.md R268). -/
def Instr.calibrates : Instr → Bool
  | .init _ | .setFreqOffset _ | .smSetFreq _ | .setFreq _ | .calibrate | .activePower => true
  | .transmit _ | .transmitList _ | .restartRx | .smSetBw _ | .trackEnable _ | .trackDisable | .drvReset
  | .wrReg _ _ _ | .wrBurst _ _ _ | .strobe _ _ | .rdReg _ | .rdBurst _ _ | .rdStatus _ | .setBw _ | .setBitrate _
  | .setDev _ | .getRssi | .getLqi | .lowPower | .isConnected | .rdRxFifo _ | .wrTxFifo _ | .wrTxFifoBurst _
  | .flushRx | .flushTx | .getRxLvl | .getTxLvl | .setFifoThr _ | .irqRxThr | .irqTxThr | .irqTxUnf
  | .updFreqOffset | .evIrq | .evTimer => false

open Sys2Proof.Machine Sys2Proof.Config

/-! ## How far an operation gets -/

/-- The operation, issued in `s`, gets as far as its first wait for `chip_ready`: it is admitted, and it makes a bus
transaction or resets the chip (40_register_driver.md R110, R118). -/
def Instr.reachesWait (s : State) : Instr → Bool
  | .init off => inBands s.cfg (s.cfg.fCarrier + mhzOfI32 off)
  | .transmit frame => s.irqEnabled && s.isIdle && (nextSlot s.cfg (accept s.cfg s.slots frame)).isSome
  | .transmitList frames =>
    s.irqEnabled && s.isIdle && (nextSlot s.cfg (frames.foldl (accept s.cfg) s.slots)).isSome
  | .restartRx => s.irqEnabled
  | .setFreqOffset off => s.irqEnabled && s.isIdle && inBands s.cfg (s.cfg.fCarrier + mhzOfI32 off)
  | .smSetFreq f => s.irqEnabled && s.isIdle && inBands s.cfg (mhzOfU32 f)
  | .smSetBw _ => s.irqEnabled && s.isIdle
  | .trackEnable _ | .trackDisable => false
  | .wrBurst _ _ data | .wrTxFifoBurst data => s.isIdle && decide (data ≠ [])
  | .rdBurst _ n | .rdRxFifo n => s.isIdle && decide (n ≠ 0)
  | .setFreq f => s.isIdle && inBands s.cfg (mhzOfU32 f)
  | .drvReset | .wrReg _ _ _ | .strobe _ _ | .rdReg _ | .rdStatus _ | .calibrate | .setBw _ | .setBitrate _
  | .setDev _ | .getRssi | .getLqi | .lowPower | .activePower | .isConnected | .wrTxFifo _ | .flushRx | .flushTx
  | .getRxLvl | .getTxLvl | .setFifoThr _ | .irqRxThr | .irqTxThr | .irqTxUnf | .updFreqOffset => s.isIdle
  | .evIrq => s.irqEnabled
  | .evTimer => s.timerArmed && s.radioState.isTx

end Sys2Proof

namespace Sys2Proof.Machine

open Sys2Proof.Config

/-! ## Who writes the configuration -/

/-- Which operations write which field of `config` (10_state.md R36), `SET_FREQ` and `SET_BW` also where
43_host_commands.md R200, R204, R205 and R206 perform them: a field that differs was written by one of them. -/
structure ConfigWriters (i : Instr) (old new : TransceiverConfig) : Prop where
  freq : (new.freqHi, new.freqMid, new.freqLo) ≠ (old.freqHi, old.freqMid, old.freqLo) →
    ∃ v, i = .init v ∨ i = .setFreqOffset v ∨ i = .smSetFreq v ∨ i = .setFreq v
  bw : new.bwCode ≠ old.bwCode → ∃ v, i = .init v ∨ i = .smSetBw v ∨ i = .setBw v
  bitrate : new.bitrateCode ≠ old.bitrateCode → ∃ v, i = .init v ∨ i = .setBitrate v
  dev : new.devCode ≠ old.devCode → ∃ v, i = .init v ∨ i = .setDev v
  fifo : new.fifoThreshold ≠ old.fifoThreshold → (∃ v, i = .init v) ∨ ∃ l, i = .setFifoThr l
  settings : (new.syncWord, new.pktLenMode, new.preambleSync) ≠ (old.syncWord, old.pktLenMode, old.preambleSync) →
    ∃ v, i = .init v

/-! ## Words that are no operation -/

/-- The opcode bytes 30_encoding.md R98 reserves. -/
def reservedOpcode (op : Byte) : Bool :=
  let n := op.toNat
  n = 0 || (0x0A ≤ n && n ≤ 0x0F) || (0x17 ≤ n && n ≤ 0x1F) || (0x2A ≤ n && n ≤ 0x2F) || (0x3B ≤ n && n ≤ 0x3F)
    || (0x41 ≤ n && n ≤ 0x7F) || 0x82 ≤ n

/-- A word R98 refuses: a reserved opcode, one of the two event codes, or less than a whole word. -/
inductive InvalidWord (netidBytes : Nat) : Bytes → Prop where
  | reserved (op : Byte) (rest : Bytes) : reservedOpcode op = true → InvalidWord netidBytes (op :: rest)
  | event (op : Byte) (rest : Bytes) : op = 0x80 ∨ op = 0x81 → InvalidWord netidBytes (op :: rest)
  | short (i : Instr) (w : Bytes) : i.wellFormed netidBytes = true → w <+: encode i → w ≠ encode i →
      InvalidWord netidBytes w

/-! ## One step -/

/-- The state in which the command word at the head of the port is taken: what arrived is taken in, the word is gone. -/
def State.afterWord (s : State) (rest : List Bytes) : State :=
  { s.absorb with inp := { s.absorb.inp with words := rest } }

/-- What the next step takes in before it arbitrates. -/
def State.arrival (s : State) : Arrival := s.inp.arrivals.head freeArrival

/-! ## Runs -/

/-- Several operations one after another, stopping at the first fault. -/
def execAll : List Instr → State → Host.Outcome State Fault Refusal
  | [], s => .next s
  | i :: rest, s =>
    match exec i s with
    | .next t => execAll rest t
    | .fault f => .fault f
    | .refused r => .refused r

/-- What the chip answers while a frame arrives: at each interrupt its FIFO level, then as many of the frame's bytes as
the level allows (42_rx_tx_sequencer.md R186). -/
def rxScript : List Byte → Bytes → Bytes
  | [], _ => []
  | l :: rest, frame => l :: (frame.take l.toNat ++ rxScript rest (frame.drop l.toNat))

end Sys2Proof.Machine
end

