-- ==== Sys2Proof/Certificates/Slice0/Obligations.lean ====
section
/-! DEFINITION. The statements for the provers. `CompletesAs`, `Did` and the transaction lists are those of Safety.lean:
a statement `CompletesAs i s regs txns answers pushed` says that the operation answers a next state, what every register
then holds, which bus transactions were made, which words answered and which frames pushed, and that nothing else moved. -/

open Sys2Proof Sys2Proof.Config Sys2Proof.Machine

/-! ## Encoding -/

/-- 30_encoding.md R91, R92, R93, R96: the word of every operation the port can carry decodes to that operation. -/
def Obligations.DecodeOfEncodeIsTheOperation : Prop :=
  ∀ (n : Nat) (i : Instr), i.wellFormed n = true → decode n (encode i) = .ok i

/-- 30_encoding.md R90: each word has one meaning; a word that decodes is the word of what it decodes to. -/
def Obligations.DecodedWordIsTheEncoding : Prop :=
  ∀ (n : Nat) (w : Bytes) (i : Instr), decode n w = .ok i → encode i = w ∧ i.wellFormed n = true

/-- Words of 95_test_vectors.md and of the formats of 30_encoding.md R91, written out byte by byte. -/
def Obligations.SampleWordsDecode : Prop :=
  decode 1 [0x11, 0x0C, 0x05, 0x0A, 0x00] = .ok (.wrReg 0x0C 0x05 10) ∧
  decode 1 [0x12, 0x3F, 0x05, 0x00, 0x02, 0xAA, 0xBB] = .ok (.wrBurst 0x3F 5 [0xAA, 0xBB]) ∧
  decode 1 [0x20, 0x00, 0xA1, 0xBC, 0x33] = .ok (.setFreq 868000000) ∧
  decode 1 [0x03, 0x02, 0x01, 0xAA, 0x02, 0xBB, 0xBB] = .ok (.transmitList [[0xAA], [0xBB, 0xBB]]) ∧
  decode 1 [0x40] = .ok .updFreqOffset ∧
  decode 1 [0x80] = .ok .evIrq

/-- 30_encoding.md R98: a reserved opcode, an event code and a short word end as `Refused(InvalidCommand)`; the word is
consumed and nothing else changes. -/
def Obligations.InvalidWordIsRefused : Prop :=
  ∀ (s : State) (w : Bytes) (rest : List Bytes), s.absorb.irqPending = false → s.absorb.timerPending = false →
    s.inp.words = w :: rest → InvalidWord s.cfg.netidBytes w →
    step s = .next ((s.afterWord rest).markRefused (.refused .invalidCommand))

/-! ## One step -/

/-- 60_exceptions.md R230, 30_encoding.md R90: with no event latched, a step takes the word offered and runs exactly the
operation it names, in the state after the arrivals are taken in. -/
def Obligations.StepRunsTheDecodedWord : Prop :=
  ∀ (s : State) (w : Bytes) (rest : List Bytes) (i : Instr), s.absorb.irqPending = false →
    s.absorb.timerPending = false → s.inp.words = w :: rest → decodeCommand s.cfg.netidBytes w = .ok i →
    step s = exec i (s.afterWord rest)

/-- 60_exceptions.md R229, R230, R231, R234: what arrived is taken in first: time passes, the line's active edge sets
`irqPending` (merging with a pending one), the timer may latch, and nothing else changes. Then a latched event is served
before any word; two latched events in the order `EVENT_PRIORITY` gives; with neither event nor word the step only takes
in the arrivals. R231 leaves the order under `Any` open: that clause, the order of the next draw of `inp.picks`, is the
model's choice (log entry 19, DESIGN CHOICE). -/
def Obligations.StepServesEventsFirst : Prop :=
  ∀ s : State,
    (s.absorb.now = s.now + s.arrival.elapsed ∧
      s.absorb.irqPending = (s.irqPending || s.arrival.irqEdge) ∧
      s.absorb.timerPending = (s.elapse s.arrival.elapsed).timerPending ∧
      s.absorb.inp = { s.inp with arrivals := s.inp.arrivals.tail } ∧
      { s.absorb with now := s.now, irqPending := s.irqPending, timerPending := s.timerPending, inp := s.inp } = s) ∧
    (s.absorb.irqPending = true → s.absorb.timerPending = false → step s = exec .evIrq s.absorb) ∧
    (s.absorb.irqPending = false → s.absorb.timerPending = true → step s = exec .evTimer s.absorb) ∧
    (s.absorb.irqPending = true → s.absorb.timerPending = true →
      (s.cfg.eventPriority = .irqFirst → step s = exec .evIrq s.absorb) ∧
      (s.cfg.eventPriority = .timerFirst → step s = exec .evTimer s.absorb) ∧
      (s.cfg.eventPriority = .any →
        step s = exec (if s.inp.picks.head freePick then .evIrq else .evTimer)
          { s.absorb with inp := { s.absorb.inp with picks := s.inp.picks.tail } })) ∧
    (s.absorb.irqPending = false → s.absorb.timerPending = false → s.inp.words = [] → step s = .next s.absorb)

/-- 60_exceptions.md R238: an armed timer whose deadline lies `d` ahead latches its event exactly when the clock goes
on by at least `d`, across the clock's wrap. -/
def Obligations.TimerLatchesAtItsDeadline : Prop :=
  ∀ (s : State) (d e : Clock), d.toNat < 2 ^ 31 → s.timerArmed = true → s.timerDeadline = s.now + d →
    s.timerPending = false → ((s.elapse e).timerPending = true ↔ d.toNat ≤ e.toNat)

/-! ## Admission -/

/-- 43_host_commands.md R211: outside `RxWaitSync` every host-issued Register Driver operation and filter update is
refused, with no state change but the mark. -/
def Obligations.DriverOperationsRefusedWhileBusy : Prop :=
  ∀ (i : Instr) (s : State), i.isDriver = true → s.radioState ≠ .rxWaitSync →
    exec i s = .next (s.markRefused (.refused .busBusy))

/-- 43_host_commands.md R213: before a successful `INIT` every other host command is refused. -/
def Obligations.CommandsRefusedBeforeInit : Prop :=
  ∀ (i : Instr) (s : State), i.needsInit = true → s.irqEnabled = false →
    exec i s = .next (s.markRefused (.refused .notInitialised))

/-- 43_host_commands.md R210: reconfiguration outside `RxWaitSync` is `Undefined(NotIdle)`, with no state change but the
mark. -/
def Obligations.ReconfigurationUndefinedWhileBusy : Prop :=
  ∀ (i : Instr) (v : Word32) (s : State), i = .setFreqOffset v ∨ i = .smSetFreq v ∨ i = .smSetBw v →
    s.irqEnabled = true → s.radioState ≠ .rxWaitSync → exec i s = .next (s.markRefused .undefinedNotIdle)

/-- 40_register_driver.md R124, 43_host_commands.md R200, R204, R205: a frequency outside `BANDS` is refused before
anything is done. -/
def Obligations.OutOfBandIsRefused : Prop :=
  ∀ (v : Word32) (s : State),
    (inBands s.cfg (s.cfg.fCarrier + mhzOfI32 v) = false →
      exec (.init v) s = .next (s.markRefused (.refused .outOfBand)) ∧
      (s.irqEnabled = true → s.radioState = .rxWaitSync →
        exec (.setFreqOffset v) s = .next (s.markRefused (.refused .outOfBand)))) ∧
    (inBands s.cfg (mhzOfU32 v) = false → s.radioState = .rxWaitSync →
      exec (.setFreq v) s = .next (s.markRefused (.refused .outOfBand)) ∧
      (s.irqEnabled = true → exec (.smSetFreq v) s = .next (s.markRefused (.refused .outOfBand))))

/-! ## Register Driver operations -/

/-- 40_register_driver.md R111, R112, R113: the raw writes make exactly the transaction of their operands, an empty burst
none, and touch no register. -/
def Obligations.RawWritesComplete : Prop :=
  ∀ (s : State) (a v : Byte) (g : Word16) (data : Bytes), s.radioState = .rxWaitSync → s.WaitsEnd →
    CompletesAs (.wrReg a v g) s s.regs [.write a v g.toNat] [] [] ∧
    CompletesAs (.wrBurst a g data) s s.regs (burstWrite a data g.toNat) [] [] ∧
    CompletesAs (.strobe a g) s s.regs [.strobe a g.toNat] [] []

/-- 40_register_driver.md R133 to R136, R140 to R142, R145: the FIFO writes, flushes, interrupt-source selectors and the
power-down strobe. -/
def Obligations.HelperWritesComplete : Prop :=
  ∀ (s : State) (b : Byte) (data : Bytes), s.radioState = .rxWaitSync → s.WaitsEnd →
    CompletesAs (.wrTxFifo b) s s.regs [.write s.cfg.chip.aFifo b (guardOf s.cfg .wrTxFifo)] [] [] ∧
    CompletesAs (.wrTxFifoBurst data) s s.regs (burstWrite s.cfg.chip.aFifo data (guardOf s.cfg .wrTxFifoBurst))
      [] [] ∧
    CompletesAs .flushRx s s.regs [.strobe s.cfg.chip.sFlushRx (guardOf s.cfg .flushRx)] [] [] ∧
    CompletesAs .flushTx s s.regs [.strobe s.cfg.chip.sFlushTx (guardOf s.cfg .flushTx)] [] [] ∧
    CompletesAs .irqRxThr s s.regs
      [.write s.cfg.chip.aIrqCfg s.cfg.chip.vIrqRxThr (guardOf s.cfg .irqRxThr)] [] [] ∧
    CompletesAs .irqTxThr s s.regs
      [.write s.cfg.chip.aIrqCfg s.cfg.chip.vIrqTxThr (guardOf s.cfg .irqTxThr)] [] [] ∧
    CompletesAs .irqTxUnf s s.regs
      [.write s.cfg.chip.aIrqCfg s.cfg.chip.vIrqTxUnf (guardOf s.cfg .irqTxUnf)] [] [] ∧
    CompletesAs .lowPower s s.regs [.strobe s.cfg.chip.sPowerDown (guardOf s.cfg .lowPower)] [] []

/-- 40_register_driver.md R114 to R116, R132, R137, R138, 30_encoding.md R100: the reads answer the bytes drawn, in
order, in one response word; a burst of length 0 makes no transaction and answers the empty word. -/
def Obligations.ReadsAnswerTheBytesDrawn : Prop :=
  ∀ (s : State) (a n : Byte), s.radioState = .rxWaitSync → s.WaitsEnd →
    CompletesAs (.rdReg a) s s.regs [.read a (s.answerAt 0) (guardOf s.cfg .rdReg)] [[s.answerAt 0]] [] ∧
    CompletesAs (.rdStatus a) s s.regs [.readStatus a (s.answerAt 0) (guardOf s.cfg .rdStatus)]
      [[s.answerAt 0]] [] ∧
    CompletesAs (.rdBurst a n) s s.regs (burstRead a (s.answersFrom 0 n.toNat) (guardOf s.cfg .rdBurst))
      [s.answersFrom 0 n.toNat] [] ∧
    CompletesAs (.rdRxFifo n) s s.regs
      (burstRead s.cfg.chip.aFifo (s.answersFrom 0 n.toNat) (guardOf s.cfg .rdRxFifo))
      [s.answersFrom 0 n.toNat] [] ∧
    CompletesAs .getRxLvl s s.regs [.readStatus s.cfg.chip.aRxLevel (s.answerAt 0) (guardOf s.cfg .getRxLvl)]
      [[s.answerAt 0]] [] ∧
    CompletesAs .getTxLvl s s.regs [.readStatus s.cfg.chip.aTxLevel (s.answerAt 0) (guardOf s.cfg .getTxLvl)]
      [[s.answerAt 0]] []

/-- 40_register_driver.md R143, R144, R147, 30_encoding.md R100: the quality reads answer 16-bit little-endian mapped
values, the presence check 1 or 0. For an `LqiMap` value outside 16 bits the clause of `GET_LQI` states the model's
choice, the low 16 bits (log entry 15, DESIGN CHOICE). -/
def Obligations.QualityReadsAnswerTheMappedByte : Prop :=
  ∀ s : State, s.radioState = .rxWaitSync → s.WaitsEnd →
    CompletesAs .getRssi s s.regs [.readStatus s.cfg.chip.aRssi (s.answerAt 0) (guardOf s.cfg .getRssi)]
      [i16Bytes (rssiMap (s.answerAt 0))] [] ∧
    CompletesAs .getLqi s s.regs [.readStatus s.cfg.chip.aLqi (s.answerAt 0) (guardOf s.cfg .getLqi)]
      [i16Bytes (lqiOf s.cfg (s.answerAt 0))] [] ∧
    CompletesAs .isConnected s s.regs [presenceTxn s.cfg (s.answerAt 0)]
      [[if s.answerAt 0 = 0 then 0 else 1]] []

/-- 40_register_driver.md R143: the two-region mapping, halves rounded toward zero, on every byte, and its range; and R144:
the two instantiations offered for `LqiMap` are this mapping and the raw byte. -/
def Obligations.RssiMappingIsTwoRegion : Prop :=
  ∀ v : Byte, -138 ≤ rssiMap v ∧ rssiMap v ≤ -11 ∧
    (128 ≤ v.toNat → rssiMap v = -(((256 - v.toNat) / 2 : Nat) : Int) - 74) ∧
    (v.toNat < 128 → rssiMap v = ((v.toNat / 2 : Nat) : Int) - 74) ∧
    (∀ c : Cfg, lqiOf { c with lqiMap := lqiAsRssi } v = rssiMap v ∧ lqiOf { c with lqiMap := lqiRaw } v = v.toNat)

/-- 40_register_driver.md R129, R130, R131, R139, 43_host_commands.md R206: the code goes to its chip registers and to
its shadow, and to nothing else; `SM_SET_BW` does the same for any value, once the block is initialised. -/
def Obligations.ShadowedWritesComplete : Prop :=
  ∀ (s : State) (v : Word32) (l : Byte), s.radioState = .rxWaitSync → s.WaitsEnd →
    CompletesAs (.setBw v) s { s.regs with config := { s.config with bwCode := searchCode s.cfg.bw (khzOfU32 v) } }
      [.write s.cfg.chip.aBw (searchCode s.cfg.bw (khzOfU32 v)) (guardOf s.cfg .setBw)] [] [] ∧
    CompletesAs (.setBitrate v) s
      { s.regs with config := { s.config with bitrateCode := searchCode s.cfg.bitrate (baudOfU32 v) } }
      [.write s.cfg.chip.aBitrateHi ((searchCode s.cfg.bitrate (baudOfU32 v)).extractLsb' 8 8)
         (guardOf s.cfg .setBitrate),
       .write s.cfg.chip.aBitrateLo ((searchCode s.cfg.bitrate (baudOfU32 v)).extractLsb' 0 8)
         (guardOf s.cfg .setBitrate)] [] [] ∧
    CompletesAs (.setDev v) s
      { s.regs with config := { s.config with devCode := searchCode s.cfg.dev (khzOfU32 v) } }
      [.write s.cfg.chip.aDev (searchCode s.cfg.dev (khzOfU32 v)) (guardOf s.cfg .setDev)] [] [] ∧
    CompletesAs (.setFifoThr l) s { s.regs with config := { s.config with fifoThreshold := l } }
      [.write s.cfg.chip.aFifoThr l (guardOf s.cfg .setFifoThr)] [] [] ∧
    (s.irqEnabled = true →
      CompletesAs (.smSetBw v) s
        { s.regs with config := { s.config with bwCode := searchCode s.cfg.bw (khzOfU32 v) } }
        [.write s.cfg.chip.aBw (searchCode s.cfg.bw (khzOfU32 v)) (guardOf s.cfg .setBw)] [] [])

/-- 40_register_driver.md R128 (P2): a request outside the representable range has the code of the bound it passes. -/
def Obligations.SearchesClampTheRequest : Prop :=
  ∀ (w : Nat) (q : Search w) (x : Rat), q.min ≤ q.max →
    searchCode q x = searchCode q (clampRat x q.min q.max) ∧
    (x ≤ q.min → searchCode q x = searchCode q q.min) ∧ (q.max ≤ x → searchCode q x = searchCode q q.max)

/-- 40_register_driver.md R118: the reset sequence stands in the trace as one entry, no register but the guard deadline
changes, and that counts from the end. -/
def Obligations.DrvResetCompletes : Prop :=
  ∀ s : State, s.radioState = .rxWaitSync → s.WaitsEnd →
    ∃ t, exec .drvReset s = .next t ∧ Did s t s.regs [.reset] [] [] [.ok] ∧
      t.csNotBefore = t.now + BitVec.ofNat 32 (guardOf s.cfg .drvReset)

/-- 40_register_driver.md R126: offset cleared and written, test register, calibration strobe, then status reads up to
the first whose busy bit is clear; the window and its index stay. -/
def Obligations.CalibrateCompletes : Prop :=
  ∀ (s : State) (n : Nat), s.radioState = .rxWaitSync → s.WaitsEnd → PollEnds s 0 n →
    CompletesAs .calibrate s { s.regs with appliedOffset := 0 } (calibrateTxns s 0 n) [] []

/-- 60_exceptions.md R226 with the model's fuel bound (log entry 5, DESIGN CHOICE): a calibration bit that stays set
through every poll the bound allows is `Hang`. -/
def Obligations.CalibrateHangsWhileBusy : Prop :=
  ∀ s : State, s.radioState = .rxWaitSync → s.WaitsEnd →
    (∀ b ∈ s.answersFrom 0 (max 1 s.inp.answers.items.length + s.cfg.pollFuel), isCalBusy s.cfg b = true) →
    exec .calibrate s = .fault .hang

/-- 60_exceptions.md R226: every operation and service that gets as far as a wait for `chip_ready` never completes when
that wait never ends; one that does not get there completes whatever the chip does. -/
def Obligations.UnreadyChipHangs : Prop :=
  ∀ (i : Instr) (s : State),
    (i.reachesWait s = true → s.timing.ready = none → exec i s = .fault .hang) ∧
    (i.reachesWait s = false → ∃ t, exec i s = .next t)

/-- 40_register_driver.md R124: the three words high, middle, low with their shadows, then the calibration. -/
def Obligations.SetFreqCompletes : Prop :=
  ∀ (s : State) (v : Word32) (n : Nat), s.radioState = .rxWaitSync → s.WaitsEnd →
    inBands s.cfg (mhzOfU32 v) = true → PollEnds s 0 n →
    CompletesAs (.setFreq v) s
      { s.regs with config := s.config.withFreq (freqCodes s.cfg (mhzOfU32 v)), appliedOffset := 0 }
      (setFreqTxns s (mhzOfU32 v) 0 n) [] []

/-- 40_register_driver.md R146: wake strobe, then the calibration; no register but the applied offset. The settle wait is
time only. -/
def Obligations.ActivePowerCompletes : Prop :=
  ∀ (s : State) (n : Nat), s.radioState = .rxWaitSync → s.WaitsEnd → PollEnds s 0 n →
    CompletesAs .activePower s { s.regs with appliedOffset := 0 }
      (.strobe s.cfg.chip.sWake (guardOf s.cfg .activePower) :: calibrateTxns s 0 n) [] []

/-- 40_register_driver.md R117: over the whole trace, of any two consecutive transactions, whichever operations they
belong to, the second's guard wait ends, and its chip-select is asserted, no sooner than the first's guard after the first
released chip-select, across the clock's wrap. `State.Paced` is the invariant behind it: it holds after construction,
every step keeps it, and every step ends with the guards kept. The last clause is the document's own property, two
register writes in a row; the bounds on its two waits keep the clock from wrapping unseen. -/
def Obligations.GuardTimeIsKept : Prop :=
  (∀ c : Cfg, (State.resetWith c).Paced) ∧
  (∀ s t : State, s.Paced → step s = .next t → t.Paced ∧ t.busTrace.IsChain BusEntry.Apart) ∧
  ∀ (s t u : State) (a v b w : Byte) (g h : Word16) (r : Clock), s.radioState = .rxWaitSync →
    exec (.wrReg a v g) s = .next t → exec (.wrReg b w h) t = .next u → t.timing.ready = some r →
    t.timing.issue.toNat < 2 ^ 31 → r.toNat < 2 ^ 31 →
    ∃ e f, u.busTrace = s.busTrace ++ [e, f] ∧ e.txn = .write a v g.toNat ∧ f.txn = .write b w h.toNat ∧
      g.toNat ≤ (f.selectAt - e.releaseAt).toNat ∧ u.csNotBefore = f.releaseAt + h.setWidth 32

/-! ## Frequency words -/

/-- 40_register_driver.md R120: repeated subtraction of the three steps, the remainder below the last. -/
def Obligations.FreqWordsCountTheSteps : Prop :=
  ∀ (c : Cfg) (f : Rat), 0 < c.stepHi → 0 < c.stepMid → 0 < c.stepLo → 0 ≤ f →
    let w := freqWords c f
    let r₁ := f - w.1 * c.stepHi
    let r₂ := r₁ - w.2.1 * c.stepMid
    let r₃ := r₂ - w.2.2 * c.stepLo
    0 ≤ r₁ ∧ r₁ < c.stepHi ∧ 0 ≤ r₂ ∧ r₂ < c.stepMid ∧ 0 ≤ r₃ ∧ r₃ < c.stepLo

/-- 40_register_driver.md R122: with the exact steps the words are the 24-bit quotient, each lower word fits its
register, and the carry never fires. -/
def Obligations.ExactStepsGiveTheQuotient : Prop :=
  ∀ (c : Cfg) (f : Rat), ExactSteps c → 0 ≤ f →
    let w := freqWords c f
    ((w.1 * 65536 + w.2.1 * 256 + w.2.2 : Nat) : Int) = (f * 65536 / 26).floor ∧ w.2.1 ≤ 255 ∧ w.2.2 ≤ 255 ∧
      carryFix w = (BitVec.ofNat 8 w.1, BitVec.ofNat 8 w.2.1, BitVec.ofNat 8 w.2.2)

/-- 40_register_driver.md R121: only the lowest word's overflow is carried, into the middle word; a middle word that
then overflows is written as 0 and the 24-bit word is 2^16 too low. -/
def Obligations.CarryStopsAtTheMiddleWord : Prop :=
  ∀ hi mid lo : Nat,
    (carryFix (hi, mid, lo)).1 = BitVec.ofNat 8 hi ∧
    (lo ≤ 255 → (carryFix (hi, mid, lo)).2 = (BitVec.ofNat 8 mid, BitVec.ofNat 8 lo)) ∧
    (255 < lo → (carryFix (hi, mid, lo)).2 = (BitVec.ofNat 8 (mid + 1), BitVec.ofNat 8 (lo - 256))) ∧
    (hi ≤ 255 → mid = 255 → 255 < lo → lo < 512 →
      (carryFix (hi, mid, lo)).2.1 = 0 ∧
      (carryFix (hi, mid, lo)).1.toNat * 65536 + (carryFix (hi, mid, lo)).2.1.toNat * 256 +
        (carryFix (hi, mid, lo)).2.2.toNat + 65536 = hi * 65536 + mid * 256 + lo)

/-! ## The filter -/

/-- 41_frequency_filter.md R160, R161, R162: one estimate is read and stored; when the index wraps to zero the clamped
new offset is stored and written to the chip. -/
def Obligations.UpdFreqOffsetCompletes : Prop :=
  ∀ s : State, s.radioState = .rxWaitSync → s.WaitsEnd →
    CompletesAs .updFreqOffset s (s.regs.updated (s.answerAt 0)) (updateTxns s.cfg s.regs (s.answerAt 0)) [] []

/-- 41_frequency_filter.md R165 (a) and the document's property S2: 31 updates write no register; the 32nd moves the
applied offset by the constant sample, clamped, and writes it. -/
def Obligations.ThirtyTwoUpdatesMoveTheOffset : Prop :=
  ∀ (s : State) (e : Byte), s.radioState = .rxWaitSync → s.WaitsEnd → s.winIdx = 0 →
    s.answersFrom 0 32 = List.replicate 32 e →
    ∃ t u, execAll (List.replicate 31 .updFreqOffset) s = .next t ∧ exec .updFreqOffset t = .next u ∧
      t.appliedOffset = s.appliedOffset ∧
      t.txns = s.txns ++ List.replicate 31 (.readStatus s.cfg.chip.aFreqEst e (guardOf s.cfg .updFreqOffset)) ∧
      u.winIdx = 0 ∧
      asI8 u.appliedOffset = clampInt (asI8 s.appliedOffset + asI8 e) (-128) 127 ∧
      u.txns = t.txns ++ [.readStatus s.cfg.chip.aFreqEst e (guardOf s.cfg .updFreqOffset),
        .write s.cfg.chip.aFreqOffset u.appliedOffset (guardOf s.cfg .updFreqOffset)]

/-- 41_frequency_filter.md R162, R165 (d): the mean is rounded toward zero (00_scope.md R10: magnitude and sign) and
bounded by the largest sample, and the new offset is the clamped sum. -/
def Obligations.CorrectionIsTheClampedMean : Prop :=
  ∀ (a : Byte) (w : Vector Byte 32) (m : Nat), (∀ i : Fin 32, (asI8 w[i]).natAbs ≤ m) →
    (meanDiv (windowSum w)).natAbs ≤ m ∧
    (meanDiv (windowSum w)).natAbs = (windowSum w).natAbs / 32 ∧
    (0 ≤ windowSum w → 0 ≤ meanDiv (windowSum w)) ∧ (windowSum w ≤ 0 → meanDiv (windowSum w) ≤ 0) ∧
    asI8 (correctedOffset a w) = clampInt (asI8 a + meanDiv (windowSum w)) (-128) 127

/-! ## The interrupt service: reception -/

/-- 42_rx_tx_sequencer.md R170, R184: without a registered handler the service clears the latch and does nothing else. -/
def Obligations.IrqIgnoredWithoutHandler : Prop :=
  ∀ s : State, s.irqEnabled = false → CompletesAs .evIrq s { s.regs with irqPending := false } [] [] []

/-- 42_rx_tx_sequencer.md R171, R172: while the header stays incomplete the service appends what the FIFO holds. -/
def Obligations.HeaderAccumulates : Prop :=
  ∀ s : State, s.Inv → LengthsLawful s.cfg → s.WaitsEnd → s.irqEnabled = true → s.radioState.isRx = true →
    ¬ s.headerComplete →
    CompletesAs .evIrq s
      { s.regs with
        irqPending := false, radioState := .rxHeader, rxTotal := none
        rxBuf := s.bufAfter s.headerTake, rxCount := s.rxHave + s.headerTake }
      (headerTxns s) [] []

/-- 42_rx_tx_sequencer.md R172, R175: a header that announces an impossible length is abandoned without a push. That the
receive strobe's guard is `GuardUs(STROBE)` is the model's choice (log entry 10, DEDUCED). -/
def Obligations.BadLengthIsAbandoned : Prop :=
  ∀ s : State, s.Inv → LengthsLawful s.cfg → s.WaitsEnd → s.irqEnabled = true → s.radioState.isRx = true →
    s.headerComplete → ¬ s.totalLegal →
    CompletesAs .evIrq s { s.regs with irqPending := false, rxBuf := s.bufAfter s.headerTake }.idle
      (headerTxns s ++ endRxTxns s.cfg) [] []

/-- 42_rx_tx_sequencer.md R172, R173: with the header complete the service appends payload bytes, never more than the
frame still needs, and waits while bytes are missing. -/
def Obligations.PayloadAccumulates : Prop :=
  ∀ s : State, s.Inv → LengthsLawful s.cfg → s.WaitsEnd → s.irqEnabled = true → s.radioState.isRx = true →
    s.headerComplete → s.totalLegal → s.rxHave + s.rxTake < s.frameTotal →
    CompletesAs .evIrq s
      { s.regs with
        irqPending := false, radioState := .rxPayload, rxTotal := some s.frameTotal
        rxBuf := s.bufAfter s.rxTake, rxCount := s.rxHave + s.rxTake }
      (payloadTxns s) [] []

/-- 42_rx_tx_sequencer.md R173, R174, 41_frequency_filter.md R163: the last byte completes the frame: RSSI, LQI, one
push of the first `t` bytes, the filter behind its gate, flush, receive strobe, idle. The timestamp is the clock as read
next after the LQI read's release (decision D42; the time in between is a draw, log entry 28). That the receive strobe's
guard is `GuardUs(STROBE)` is the model's choice (log entry 10, DEDUCED). -/
def Obligations.FrameCompletes : Prop :=
  ∀ s : State, s.Inv → LengthsLawful s.cfg → s.WaitsEnd → s.irqEnabled = true → s.radioState.isRx = true →
    s.headerComplete → s.totalLegal → s.rxHave + s.rxTake = s.frameTotal →
    let buf := s.bufAfter s.rxTake
    let head := buf.take s.cfg.headerLen
    let track := s.trackingEnabled && decide (netIdIn s.cfg head = some s.trackedNetId)
    let regs := { s.regs with irqPending := false, rxBuf := buf }.idle
    ∃ t ts, exec .evIrq s = .next t ∧
      Did s t (if track then regs.updated (s.answerAt (s.rxTake + 3)) else regs)
        (payloadTxns s ++ finishTxns s track (s.rxTake + 1)) []
        [frameRecord s.cfg (buf.take s.frameTotal) head (s.answerAt (s.rxTake + 1)) (s.answerAt (s.rxTake + 2)) ts]
        [.ok] ∧
      StampedAfter s t ((payloadTxns s).length + 1) ts

/-- 42_rx_tx_sequencer.md R186 and the document's property S4: however the bytes of a frame are spread over interrupts,
the one that brings the last byte ends in `RxWaitSync` with exactly one frame pushed, the bytes in order, and no earlier
one pushes anything. The timestamp is the clock as read next after the release of the LQI read `e` (the time in between
is a draw, log entry 28), after which only the filter's transactions, where its gate is open, the flush and the receive
strobe follow. That the strobe's guard is `GuardUs(STROBE)` is the model's choice (log entry 10, DEDUCED). -/
def Obligations.ReceptionRoundTrip : Prop :=
  ∀ (s : State) (levels : List Byte) (frame : Bytes) (rssi lqi : Byte) (rest : Bytes),
    s.Inv → LengthsLawful s.cfg → s.WaitsEnd → s.irqEnabled = true → s.radioState = .rxWaitSync →
    s.cfg.headerLen ≤ frame.length → frame.length ≤ s.cfg.maxFrameLen →
    totalLenOf s.cfg (frame.take s.cfg.headerLen) = frame.length →
    s.inp.answers.items = rxScript levels frame ++ rssi :: lqi :: rest →
    (levels.dropLast.map BitVec.toNat).sum < frame.length → frame.length ≤ (levels.map BitVec.toNat).sum →
    (∀ k, k < levels.length →
      ∃ t, execAll (List.replicate k .evIrq) s = .next t ∧ t.pushTrace = s.pushTrace) ∧
    let track := s.trackingEnabled && decide (netIdIn s.cfg (frame.take s.cfg.headerLen) = some s.trackedNetId)
    ∃ t pre e post, execAll (List.replicate levels.length .evIrq) s = .next t ∧ t.radioState = .rxWaitSync ∧
      t.rxCount = 0 ∧ t.rxTotal = none ∧
      t.pushTrace = s.pushTrace ++ [frameRecord s.cfg frame (frame.take s.cfg.headerLen) rssi lqi
        (e.releaseAt + s.inp.ticks.head freeTick)] ∧
      t.busTrace = s.busTrace ++ pre ++ e :: post ∧
      e.txn = .readStatus s.cfg.chip.aLqi lqi (guardOf s.cfg .getLqi) ∧
      post.map (·.txn) =
        (if track then updateTxns s.cfg s.regs (s.answerAt ((rxScript levels frame).length + 2)) else []) ++
          endRxTxns s.cfg

/-! ## The interrupt service: transmission -/

/-- 42_rx_tx_sequencer.md R178: in `TxTransmit` the service refills the FIFO's free room; when the rest fits it enters
`TxLastTransmit` and selects the underflow interrupt. -/
def Obligations.TransmitFifoIsFed : Prop :=
  ∀ s : State, s.WaitsEnd → s.irqEnabled = true → s.radioState = .txTransmit →
    CompletesAs .evIrq s { feedRegs s (s.answerAt 0).toNat with irqPending := false }
      (feedTxns s (s.answerAt 0).toNat) [] []

/-- 42_rx_tx_sequencer.md R180, R176: in `TxLastTransmit` the active slot is released and the next in-use slot, if there
is one, is started. -/
def Obligations.NextSlotStartsAfterCompletion : Prop :=
  ∀ (s : State) (j : Fin 16), s.WaitsEnd → s.irqEnabled = true → s.radioState = .txLastTransmit →
    let slots := s.slots.set s.cursor { s.slots[s.cursor] with inUse := false }
    nextSlot s.cfg slots = some j →
    ∃ t, exec .evIrq s = .next t ∧
      Did s t (Regs.started { s.regs with irqPending := false, slots := slots } s.cfg j
          (t.now + BitVec.ofNat 32 s.cfg.turnaroundUs))
        (startTxTxns s.cfg slots[j].frame) [] [] [.ok]

/-- 42_rx_tx_sequencer.md R180, R181: with no slot left in use, reception is armed and the timer disarmed. That the
receive strobe's guard is `GuardUs(STROBE)` is the model's choice (log entry 10, DEDUCED). -/
def Obligations.ReceptionArmedAfterLastSlot : Prop :=
  ∀ s : State, s.WaitsEnd → s.irqEnabled = true → s.radioState = .txLastTransmit →
    let slots := s.slots.set s.cursor { s.slots[s.cursor] with inUse := false }
    (∀ j : Fin 16, slots[j].inUse = false) →
    CompletesAs .evIrq s (Regs.idle { s.regs with irqPending := false, slots := slots, timerArmed := false })
      (armRxTxns s.cfg) [] []

/-! ## The timer service -/

/-- 42_rx_tx_sequencer.md R177: an armed timer is disarmed, and in a transmission state the transmit strobe is sent; an
unarmed one does nothing but clear its latch. That the strobe's guard is `GuardUs(STROBE)` is the model's choice (log
entry 10, DEDUCED). -/
def Obligations.TimerServiceStrobesOnce : Prop :=
  ∀ s : State, s.WaitsEnd →
    (s.timerArmed = true → s.radioState.isTx = true →
      ∃ t, exec .evTimer s = .next t ∧ Did { s with timerPending := false } t { s.regs with timerArmed := false }
        [.strobe s.cfg.chip.sTx (guardOf s.cfg .strobe)] [] [] [.ok] ∧ t.timerPending = false) ∧
    (s.timerArmed = true → s.radioState.isTx = false →
      exec .evTimer s = .next { s with
        timerPending := false, timerArmed := false, outcomes := s.outcomes ++ [.ok] }) ∧
    (s.timerArmed = false →
      exec .evTimer s = .next { s with timerPending := false, outcomes := s.outcomes ++ [.ok] })

/-! ## Host commands -/

/-- 43_host_commands.md R201, R202, R209, 42_rx_tx_sequencer.md R176: submitted frames are taken or dropped one by one;
an idle block then starts the slot `NextSlot` chooses. -/
def Obligations.SubmissionStartsWhenIdle : Prop :=
  ∀ (s : State) (frame : Bytes) (frames : List Bytes) (j : Fin 16), s.irqEnabled = true → s.WaitsEnd →
    s.radioState = .rxWaitSync →
    (nextSlot s.cfg (accept s.cfg s.slots frame) = some j →
      ∃ t, exec (.transmit frame) s = .next t ∧
        Did s t (Regs.started { s.regs with slots := accept s.cfg s.slots frame } s.cfg j
            (t.now + BitVec.ofNat 32 s.cfg.turnaroundUs))
          (startTxTxns s.cfg (accept s.cfg s.slots frame)[j].frame) [] [] [.ok]) ∧
    (nextSlot s.cfg (frames.foldl (accept s.cfg) s.slots) = some j →
      ∃ t, exec (.transmitList frames) s = .next t ∧
        Did s t (Regs.started { s.regs with slots := frames.foldl (accept s.cfg) s.slots } s.cfg j
            (t.now + BitVec.ofNat 32 s.cfg.turnaroundUs))
          (startTxTxns s.cfg (frames.foldl (accept s.cfg) s.slots)[j].frame) [] [] [.ok])

/-- 43_host_commands.md R201, R202, R209: while not idle, or with no slot in use afterwards, a submission only fills
slots. -/
def Obligations.SubmissionOnlyEnqueuesOtherwise : Prop :=
  ∀ (s : State) (frame : Bytes) (frames : List Bytes), s.irqEnabled = true →
    (s.radioState ≠ .rxWaitSync ∨ nextSlot s.cfg (accept s.cfg s.slots frame) = none →
      exec (.transmit frame) s = .next { s with
        slots := accept s.cfg s.slots frame, outcomes := s.outcomes ++ [.ok] }) ∧
    (s.radioState ≠ .rxWaitSync ∨ nextSlot s.cfg (frames.foldl (accept s.cfg) s.slots) = none →
      exec (.transmitList frames) s = .next { s with
        slots := frames.foldl (accept s.cfg) s.slots, outcomes := s.outcomes ++ [.ok] })

/-- 43_host_commands.md R209, 60_exceptions.md R223: a frame goes into a slot that was free, all others staying; it is
dropped exactly when it is too long or no slot is free. -/
def Obligations.EnqueueTakesAFreeSlot : Prop :=
  ∀ (c : Cfg) (slots : SlotTable) (frame : Bytes),
    (frame.length ≤ c.maxFrameLen → (∃ k : Fin 16, slots[k].inUse = false) →
      ∃ i : Fin 16, slots[i].inUse = false ∧ (accept c slots frame)[i] = { inUse := true, frame := frame } ∧
        ∀ k : Fin 16, k ≠ i → (accept c slots frame)[k] = slots[k]) ∧
    (c.maxFrameLen < frame.length ∨ (∀ k : Fin 16, slots[k].inUse = true) → accept c slots frame = slots)

/-- 43_host_commands.md R201 and the document's property S3: of 17 frames submitted to an idle block with all slots free,
the first 16 are accepted and the 17th dropped; only the first one's transmission is begun; nothing else changes. -/
def Obligations.SeventeenthFrameIsDropped : Prop :=
  ∀ (s : State) (frames : List Bytes), frames.length = 17 → (∀ f ∈ frames, f.length ≤ s.cfg.maxFrameLen) →
    s.irqEnabled = true → s.radioState = .rxWaitSync → s.WaitsEnd → (∀ k : Fin 16, s.slots[k].inUse = false) →
    ∃ (t : State) (j : Fin 16) (d : Clock), execAll (frames.map .transmit) s = .next t ∧
      (∀ k : Fin 16, t.slots[k].inUse = true) ∧
      (t.slots.toList.map (·.frame)).Perm (frames.take 16) ∧ some t.slots[j].frame = frames.head? ∧
      t.regs = Regs.started { s.regs with slots := t.slots } s.cfg j d ∧
      t.txns = s.txns ++ startTxTxns s.cfg t.slots[j].frame ∧
      t.pushTrace = s.pushTrace ∧ t.responses = s.responses ∧ t.refused = s.refused

/-- 43_host_commands.md R203: from any state, both flushes and the re-arming, back to `RxWaitSync`; slots, cursor and
offsets stay. That the receive strobe's guard is `GuardUs(STROBE)` is the model's choice (log entry 10, DEDUCED). -/
def Obligations.RestartRxCompletes : Prop :=
  ∀ s : State, s.irqEnabled = true → s.WaitsEnd →
    CompletesAs .restartRx s { s.regs with timerArmed := false }.idle
      ([.strobe s.cfg.chip.sFlushRx (guardOf s.cfg .flushRx), .strobe s.cfg.chip.sFlushTx (guardOf s.cfg .flushTx)] ++
        armRxTxns s.cfg) [] []

/-- 43_host_commands.md R204, R205: while idle and in band, the retuning of `SET_FREQ`, relative to `F_CARRIER` or
absolute. -/
def Obligations.RetuningCompletes : Prop :=
  ∀ (s : State) (v : Word32) (n : Nat), s.irqEnabled = true → s.radioState = .rxWaitSync → s.WaitsEnd →
    PollEnds s 0 n →
    (inBands s.cfg (s.cfg.fCarrier + mhzOfI32 v) = true →
      CompletesAs (.setFreqOffset v) s
        { s.regs with
          config := s.config.withFreq (freqCodes s.cfg (s.cfg.fCarrier + mhzOfI32 v)), appliedOffset := 0 }
        (setFreqTxns s (s.cfg.fCarrier + mhzOfI32 v) 0 n) [] []) ∧
    (inBands s.cfg (mhzOfU32 v) = true →
      CompletesAs (.smSetFreq v) s
        { s.regs with config := s.config.withFreq (freqCodes s.cfg (mhzOfU32 v)), appliedOffset := 0 }
        (setFreqTxns s (mhzOfU32 v) 0 n) [] [])

/-- 43_host_commands.md R207, R208: the gate is set and cleared in any `radioState`, without a bus transaction. -/
def Obligations.TrackingGateCompletes : Prop :=
  ∀ (s : State) (id : Bytes), s.irqEnabled = true →
    CompletesAs (.trackEnable id) s { s.regs with trackingEnabled := true, trackedNetId := id } [] [] [] ∧
    CompletesAs .trackDisable s { s.regs with trackingEnabled := false } [] [] []

/-- 43_host_commands.md R200: a present chip is reset, checked, configured in order and armed; `INIT` answers 1; slots,
window and tracking gate stay. That the base writes have guard `GuardUs(INIT)` and the receive strobe `GuardUs(STROBE)`
(log entry 10, DEDUCED), and that the bandwidths are exactly 80, 125 and 250 kHz (log entry 17, DESIGN CHOICE), is the
model's choice. -/
def Obligations.InitOfPresentChipCompletes : Prop :=
  ∀ (s : State) (off : Word32) (n : Nat), inBands s.cfg (s.cfg.fCarrier + mhzOfI32 off) = true → s.WaitsEnd →
    s.answerAt 0 ≠ 0 → PollEnds s 1 n →
    CompletesAs (.init off) s
      { s.regs with
        irqEnabled := true, timerArmed := false, appliedOffset := 0
        config := initConfig s.cfg (s.cfg.fCarrier + mhzOfI32 off) }.idle
      (initTxns s (s.cfg.fCarrier + mhzOfI32 off) n) [[1]] []

/-- 43_host_commands.md R200, 60_exceptions.md R222: an absent chip is answered with 0 after the presence read; the block
is left uninitialised and idle. -/
def Obligations.InitOfAbsentChipCompletes : Prop :=
  ∀ (s : State) (off : Word32), inBands s.cfg (s.cfg.fCarrier + mhzOfI32 off) = true → s.WaitsEnd →
    s.answerAt 0 = 0 →
    CompletesAs (.init off) s { s.regs with irqEnabled := false, timerArmed := false }.idle
      [.reset, presenceTxn s.cfg 0] [[0]] []

/-! ## The whole machine -/

/-- 42_rx_tx_sequencer.md R185, 10_state.md R22 to R35: every step keeps the invariants. -/
def Obligations.StepKeepsInvariants : Prop :=
  ∀ s t : State, LengthsLawful s.cfg → s.Inv → step s = .next t → t.Inv

/-- 42_rx_tx_sequencer.md R185: "These hold from reset", for every configuration the platform may have; and the
configuration of `State.reset` has the values 00_scope.md R7 decides (exact steps, lowest-index slots) and the default
priority of R8. -/
def Obligations.ResetHasInvariants : Prop :=
  (∀ c : Cfg, (State.resetWith c).Inv) ∧ State.reset = State.resetWith installed ∧ ExactSteps installed ∧
  installed.eventPriority = .any ∧
  ∀ slots : SlotTable, nextSlot installed slots = lowestSlot (·.inUse) slots ∧
    freeSlot installed slots = lowestSlot (fun x => !x.inUse) slots

/-- 10_state.md R50: the values its table gives; but for `radioState` they are the spec's own choice, decision D48. -/
def Obligations.ResetValues : Prop :=
  State.reset.radioState = .rxWaitSync ∧ State.reset.rxCount = 0 ∧ State.reset.rxTotal = none ∧
  (∀ i : Fin 16, State.reset.slots[i].inUse = false) ∧ State.reset.cursor = 0 ∧ State.reset.txOffset = 0 ∧
  State.reset.winIdx = 0 ∧ State.reset.appliedOffset = 0 ∧ State.reset.trackingEnabled = false ∧
  State.reset.csNotBefore = State.reset.now ∧ State.reset.timerArmed = false ∧ State.reset.irqEnabled = false ∧
  State.reset.irqPending = false ∧ State.reset.timerPending = false ∧ State.reset.refused = false ∧
  State.reset.busTrace = [] ∧ State.reset.pushTrace = []

/-- 42_rx_tx_sequencer.md R182: no operation moves `radioState` other than along the table; 30_encoding.md R94: its code
is one of 0 to 4 and tells the state. -/
def Obligations.RadioStateFollowsTheTable : Prop :=
  ∀ (i : Instr) (s t : State), exec i s = .next t →
    Transition s.radioState i t.radioState ∧ t.radioState.code.toNat ≤ 4 ∧
      RadioState.ofCode t.radioState.code = some t.radioState

/-- 10_state.md R31, 42_rx_tx_sequencer.md R185 (h), 43_host_commands.md R212: an in-use slot keeps its frame, and is
released only by the interrupt service of `TxLastTransmit`, and only the active one. -/
def Obligations.SlotsAreReleasedOnlyWhenSent : Prop :=
  ∀ (i : Instr) (s t : State) (k : Fin 16), exec i s = .next t → s.slots[k].inUse = true →
    t.slots[k].frame = s.slots[k].frame ∧
    (t.slots[k].inUse = false →
      i = .evIrq ∧ s.irqEnabled = true ∧ s.radioState = .txLastTransmit ∧ k = s.cursor)

/-- 10_state.md R47, R52, 20_memory.md R63: over a step the configuration is constant, the traces only grow, and the
`refused` mark is never cleared. -/
def Obligations.TracesOnlyGrow : Prop :=
  ∀ s t : State, step s = .next t →
    t.cfg = s.cfg ∧ s.busTrace <+: t.busTrace ∧ s.pushTrace <+: t.pushTrace ∧ s.responses <+: t.responses ∧
      s.outcomes <+: t.outcomes ∧ (s.refused = true → t.refused = true)

/-- 10_state.md R25, 42_rx_tx_sequencer.md R174: only the interrupt service of a receive state pushes, at most one
frame. -/
def Obligations.OnlyReceptionPushes : Prop :=
  ∀ (i : Instr) (s t : State), exec i s = .next t → t.pushTrace ≠ s.pushTrace →
    i = .evIrq ∧ s.irqEnabled = true ∧ s.radioState.isRx = true ∧ ∃ f, t.pushTrace = s.pushTrace ++ [f]

/-- 10_state.md R33, R34, R36, R37, R42, 70_reset_and_hazards.md R266, R268: who writes the applied offset, the window
index, `irqEnabled` and each field of the configuration; the configuration never while the radio is not idle, but by
`INIT`, which ends every transfer. -/
def Obligations.WritersOfOffsetIndexEnableAndConfig : Prop :=
  ∀ (i : Instr) (s t : State), exec i s = .next t →
    (t.appliedOffset ≠ s.appliedOffset →
      (i.calibrates = true ∧ t.appliedOffset = 0) ∨ i = .updFreqOffset ∨ i = .evIrq) ∧
    (t.winIdx ≠ s.winIdx → (i = .updFreqOffset ∨ i = .evIrq) ∧ t.winIdx = s.winIdx + 1) ∧
    (t.irqEnabled ≠ s.irqEnabled → ∃ off, i = .init off) ∧
    (t.config ≠ s.config → s.radioState = .rxWaitSync ∨ ∃ off, i = .init off) ∧
    ConfigWriters i s.config t.config

/-- 70_reset_and_hazards.md R262, 00_scope.md R8: every transaction an event service makes has a guard of at most 10
microseconds. -/
def Obligations.ServiceGuardsAreBounded : Prop :=
  ∀ (i : Instr) (s t : State) (es : List BusEntry), i = .evIrq ∨ i = .evTimer → GuardsBounded s.cfg →
    exec i s = .next t → t.busTrace = s.busTrace ++ es → ∀ e ∈ es, e.txn.guard ≤ 10

/-- 60_exceptions.md R236, 70_reset_and_hazards.md R261: no event service resets, calibrates, wakes or powers down the
chip, or answers the host. -/
def Obligations.ServicesNeverResetCalibrateWakeOrAnswer : Prop :=
  ∀ (i : Instr) (s t : State) (es : List BusEntry), i = .evIrq ∨ i = .evTimer → ChipLawful s.cfg.chip →
    exec i s = .next t → t.busTrace = s.busTrace ++ es →
    t.responses = s.responses ∧
    ∀ e ∈ es, e.txn ≠ .reset ∧ ∀ g, e.txn ≠ .strobe s.cfg.chip.sCal g ∧ e.txn ≠ .strobe s.cfg.chip.sWake g ∧
      e.txn ≠ .strobe s.cfg.chip.sPowerDown g
end

