-- ==== Sys2Proof/Laws/State.lean ====
section
/-! SUPPORT. One lemma per field per state update, all true by unfolding, so that no proof unfolds a record update; and
the register view of the updates that leave the registers alone. -/

namespace Sys2Proof.Machine

open Sys2Proof.Config

/-! ### `markRefused` -/

@[simp] theorem State.markRefused_radioState (s : State) (o : OpOutcome) :
    (s.markRefused o).radioState = s.radioState := rfl
@[simp] theorem State.markRefused_rxBuf (s : State) (o : OpOutcome) : (s.markRefused o).rxBuf = s.rxBuf := rfl
@[simp] theorem State.markRefused_rxCount (s : State) (o : OpOutcome) : (s.markRefused o).rxCount = s.rxCount := rfl
@[simp] theorem State.markRefused_rxTotal (s : State) (o : OpOutcome) : (s.markRefused o).rxTotal = s.rxTotal := rfl
@[simp] theorem State.markRefused_slots (s : State) (o : OpOutcome) : (s.markRefused o).slots = s.slots := rfl
@[simp] theorem State.markRefused_cursor (s : State) (o : OpOutcome) : (s.markRefused o).cursor = s.cursor := rfl
@[simp] theorem State.markRefused_txOffset (s : State) (o : OpOutcome) : (s.markRefused o).txOffset = s.txOffset := rfl
@[simp] theorem State.markRefused_window (s : State) (o : OpOutcome) : (s.markRefused o).window = s.window := rfl
@[simp] theorem State.markRefused_winIdx (s : State) (o : OpOutcome) : (s.markRefused o).winIdx = s.winIdx := rfl
@[simp] theorem State.markRefused_appliedOffset (s : State) (o : OpOutcome) :
    (s.markRefused o).appliedOffset = s.appliedOffset := rfl
@[simp] theorem State.markRefused_trackingEnabled (s : State) (o : OpOutcome) :
    (s.markRefused o).trackingEnabled = s.trackingEnabled := rfl
@[simp] theorem State.markRefused_trackedNetId (s : State) (o : OpOutcome) :
    (s.markRefused o).trackedNetId = s.trackedNetId := rfl
@[simp] theorem State.markRefused_config (s : State) (o : OpOutcome) : (s.markRefused o).config = s.config := rfl
@[simp] theorem State.markRefused_timerArmed (s : State) (o : OpOutcome) :
    (s.markRefused o).timerArmed = s.timerArmed := rfl
@[simp] theorem State.markRefused_timerDeadline (s : State) (o : OpOutcome) :
    (s.markRefused o).timerDeadline = s.timerDeadline := rfl
@[simp] theorem State.markRefused_irqEnabled (s : State) (o : OpOutcome) :
    (s.markRefused o).irqEnabled = s.irqEnabled := rfl
@[simp] theorem State.markRefused_irqPending (s : State) (o : OpOutcome) :
    (s.markRefused o).irqPending = s.irqPending := rfl
@[simp] theorem State.markRefused_cfg (s : State) (o : OpOutcome) : (s.markRefused o).cfg = s.cfg := rfl
@[simp] theorem State.markRefused_csNotBefore (s : State) (o : OpOutcome) :
    (s.markRefused o).csNotBefore = s.csNotBefore := rfl
@[simp] theorem State.markRefused_timerPending (s : State) (o : OpOutcome) :
    (s.markRefused o).timerPending = s.timerPending := rfl
@[simp] theorem State.markRefused_now (s : State) (o : OpOutcome) : (s.markRefused o).now = s.now := rfl
@[simp] theorem State.markRefused_inp (s : State) (o : OpOutcome) : (s.markRefused o).inp = s.inp := rfl
@[simp] theorem State.markRefused_refused (s : State) (o : OpOutcome) : (s.markRefused o).refused = true := rfl
@[simp] theorem State.markRefused_busTrace (s : State) (o : OpOutcome) : (s.markRefused o).busTrace = s.busTrace := rfl
@[simp] theorem State.markRefused_pushTrace (s : State) (o : OpOutcome) :
    (s.markRefused o).pushTrace = s.pushTrace := rfl
@[simp] theorem State.markRefused_responses (s : State) (o : OpOutcome) :
    (s.markRefused o).responses = s.responses := rfl
@[simp] theorem State.markRefused_outcomes (s : State) (o : OpOutcome) :
    (s.markRefused o).outcomes = s.outcomes ++ [o] := rfl
@[simp] theorem State.markRefused_regs (s : State) (o : OpOutcome) : (s.markRefused o).regs = s.regs := rfl

/-! ### `markOk` -/

@[simp] theorem State.markOk_radioState (s : State) : s.markOk.radioState = s.radioState := rfl
@[simp] theorem State.markOk_rxBuf (s : State) : s.markOk.rxBuf = s.rxBuf := rfl
@[simp] theorem State.markOk_rxCount (s : State) : s.markOk.rxCount = s.rxCount := rfl
@[simp] theorem State.markOk_rxTotal (s : State) : s.markOk.rxTotal = s.rxTotal := rfl
@[simp] theorem State.markOk_slots (s : State) : s.markOk.slots = s.slots := rfl
@[simp] theorem State.markOk_cursor (s : State) : s.markOk.cursor = s.cursor := rfl
@[simp] theorem State.markOk_txOffset (s : State) : s.markOk.txOffset = s.txOffset := rfl
@[simp] theorem State.markOk_window (s : State) : s.markOk.window = s.window := rfl
@[simp] theorem State.markOk_winIdx (s : State) : s.markOk.winIdx = s.winIdx := rfl
@[simp] theorem State.markOk_appliedOffset (s : State) : s.markOk.appliedOffset = s.appliedOffset := rfl
@[simp] theorem State.markOk_trackingEnabled (s : State) : s.markOk.trackingEnabled = s.trackingEnabled := rfl
@[simp] theorem State.markOk_trackedNetId (s : State) : s.markOk.trackedNetId = s.trackedNetId := rfl
@[simp] theorem State.markOk_config (s : State) : s.markOk.config = s.config := rfl
@[simp] theorem State.markOk_timerArmed (s : State) : s.markOk.timerArmed = s.timerArmed := rfl
@[simp] theorem State.markOk_timerDeadline (s : State) : s.markOk.timerDeadline = s.timerDeadline := rfl
@[simp] theorem State.markOk_irqEnabled (s : State) : s.markOk.irqEnabled = s.irqEnabled := rfl
@[simp] theorem State.markOk_irqPending (s : State) : s.markOk.irqPending = s.irqPending := rfl
@[simp] theorem State.markOk_cfg (s : State) : s.markOk.cfg = s.cfg := rfl
@[simp] theorem State.markOk_csNotBefore (s : State) : s.markOk.csNotBefore = s.csNotBefore := rfl
@[simp] theorem State.markOk_timerPending (s : State) : s.markOk.timerPending = s.timerPending := rfl
@[simp] theorem State.markOk_now (s : State) : s.markOk.now = s.now := rfl
@[simp] theorem State.markOk_inp (s : State) : s.markOk.inp = s.inp := rfl
@[simp] theorem State.markOk_refused (s : State) : s.markOk.refused = s.refused := rfl
@[simp] theorem State.markOk_busTrace (s : State) : s.markOk.busTrace = s.busTrace := rfl
@[simp] theorem State.markOk_pushTrace (s : State) : s.markOk.pushTrace = s.pushTrace := rfl
@[simp] theorem State.markOk_responses (s : State) : s.markOk.responses = s.responses := rfl
@[simp] theorem State.markOk_outcomes (s : State) : s.markOk.outcomes = s.outcomes ++ [.ok] := rfl
@[simp] theorem State.markOk_regs (s : State) : s.markOk.regs = s.regs := rfl

/-! ### `fillSlot` -/

@[simp] theorem State.fillSlot_radioState (s : State) (i : Fin 16) (frame : Bytes) :
    (s.fillSlot i frame).radioState = s.radioState := rfl
@[simp] theorem State.fillSlot_rxBuf (s : State) (i : Fin 16) (frame : Bytes) :
    (s.fillSlot i frame).rxBuf = s.rxBuf := rfl
@[simp] theorem State.fillSlot_rxCount (s : State) (i : Fin 16) (frame : Bytes) :
    (s.fillSlot i frame).rxCount = s.rxCount := rfl
@[simp] theorem State.fillSlot_rxTotal (s : State) (i : Fin 16) (frame : Bytes) :
    (s.fillSlot i frame).rxTotal = s.rxTotal := rfl
@[simp] theorem State.fillSlot_slots (s : State) (i : Fin 16) (frame : Bytes) :
    (s.fillSlot i frame).slots = s.slots.set i { inUse := true, frame := frame } := rfl
@[simp] theorem State.fillSlot_cursor (s : State) (i : Fin 16) (frame : Bytes) :
    (s.fillSlot i frame).cursor = s.cursor := rfl
@[simp] theorem State.fillSlot_txOffset (s : State) (i : Fin 16) (frame : Bytes) :
    (s.fillSlot i frame).txOffset = s.txOffset := rfl
@[simp] theorem State.fillSlot_window (s : State) (i : Fin 16) (frame : Bytes) :
    (s.fillSlot i frame).window = s.window := rfl
@[simp] theorem State.fillSlot_winIdx (s : State) (i : Fin 16) (frame : Bytes) :
    (s.fillSlot i frame).winIdx = s.winIdx := rfl
@[simp] theorem State.fillSlot_appliedOffset (s : State) (i : Fin 16) (frame : Bytes) :
    (s.fillSlot i frame).appliedOffset = s.appliedOffset := rfl
@[simp] theorem State.fillSlot_trackingEnabled (s : State) (i : Fin 16) (frame : Bytes) :
    (s.fillSlot i frame).trackingEnabled = s.trackingEnabled := rfl
@[simp] theorem State.fillSlot_trackedNetId (s : State) (i : Fin 16) (frame : Bytes) :
    (s.fillSlot i frame).trackedNetId = s.trackedNetId := rfl
@[simp] theorem State.fillSlot_config (s : State) (i : Fin 16) (frame : Bytes) :
    (s.fillSlot i frame).config = s.config := rfl
@[simp] theorem State.fillSlot_timerArmed (s : State) (i : Fin 16) (frame : Bytes) :
    (s.fillSlot i frame).timerArmed = s.timerArmed := rfl
@[simp] theorem State.fillSlot_timerDeadline (s : State) (i : Fin 16) (frame : Bytes) :
    (s.fillSlot i frame).timerDeadline = s.timerDeadline := rfl
@[simp] theorem State.fillSlot_irqEnabled (s : State) (i : Fin 16) (frame : Bytes) :
    (s.fillSlot i frame).irqEnabled = s.irqEnabled := rfl
@[simp] theorem State.fillSlot_irqPending (s : State) (i : Fin 16) (frame : Bytes) :
    (s.fillSlot i frame).irqPending = s.irqPending := rfl
@[simp] theorem State.fillSlot_cfg (s : State) (i : Fin 16) (frame : Bytes) : (s.fillSlot i frame).cfg = s.cfg := rfl
@[simp] theorem State.fillSlot_csNotBefore (s : State) (i : Fin 16) (frame : Bytes) :
    (s.fillSlot i frame).csNotBefore = s.csNotBefore := rfl
@[simp] theorem State.fillSlot_timerPending (s : State) (i : Fin 16) (frame : Bytes) :
    (s.fillSlot i frame).timerPending = s.timerPending := rfl
@[simp] theorem State.fillSlot_now (s : State) (i : Fin 16) (frame : Bytes) : (s.fillSlot i frame).now = s.now := rfl
@[simp] theorem State.fillSlot_inp (s : State) (i : Fin 16) (frame : Bytes) : (s.fillSlot i frame).inp = s.inp := rfl
@[simp] theorem State.fillSlot_refused (s : State) (i : Fin 16) (frame : Bytes) :
    (s.fillSlot i frame).refused = s.refused := rfl
@[simp] theorem State.fillSlot_busTrace (s : State) (i : Fin 16) (frame : Bytes) :
    (s.fillSlot i frame).busTrace = s.busTrace := rfl
@[simp] theorem State.fillSlot_pushTrace (s : State) (i : Fin 16) (frame : Bytes) :
    (s.fillSlot i frame).pushTrace = s.pushTrace := rfl
@[simp] theorem State.fillSlot_responses (s : State) (i : Fin 16) (frame : Bytes) :
    (s.fillSlot i frame).responses = s.responses := rfl
@[simp] theorem State.fillSlot_outcomes (s : State) (i : Fin 16) (frame : Bytes) :
    (s.fillSlot i frame).outcomes = s.outcomes := rfl

/-! ### `releaseActive` -/

@[simp] theorem State.releaseActive_radioState (s : State) : s.releaseActive.radioState = s.radioState := rfl
@[simp] theorem State.releaseActive_rxBuf (s : State) : s.releaseActive.rxBuf = s.rxBuf := rfl
@[simp] theorem State.releaseActive_rxCount (s : State) : s.releaseActive.rxCount = s.rxCount := rfl
@[simp] theorem State.releaseActive_rxTotal (s : State) : s.releaseActive.rxTotal = s.rxTotal := rfl
@[simp] theorem State.releaseActive_slots (s : State) :
    s.releaseActive.slots = s.slots.set s.cursor { s.slots[s.cursor] with inUse := false } := rfl
@[simp] theorem State.releaseActive_cursor (s : State) : s.releaseActive.cursor = s.cursor := rfl
@[simp] theorem State.releaseActive_txOffset (s : State) : s.releaseActive.txOffset = s.txOffset := rfl
@[simp] theorem State.releaseActive_window (s : State) : s.releaseActive.window = s.window := rfl
@[simp] theorem State.releaseActive_winIdx (s : State) : s.releaseActive.winIdx = s.winIdx := rfl
@[simp] theorem State.releaseActive_appliedOffset (s : State) : s.releaseActive.appliedOffset = s.appliedOffset := rfl
@[simp] theorem State.releaseActive_trackingEnabled (s : State) :
    s.releaseActive.trackingEnabled = s.trackingEnabled := rfl
@[simp] theorem State.releaseActive_trackedNetId (s : State) : s.releaseActive.trackedNetId = s.trackedNetId := rfl
@[simp] theorem State.releaseActive_config (s : State) : s.releaseActive.config = s.config := rfl
@[simp] theorem State.releaseActive_timerArmed (s : State) : s.releaseActive.timerArmed = s.timerArmed := rfl
@[simp] theorem State.releaseActive_timerDeadline (s : State) : s.releaseActive.timerDeadline = s.timerDeadline := rfl
@[simp] theorem State.releaseActive_irqEnabled (s : State) : s.releaseActive.irqEnabled = s.irqEnabled := rfl
@[simp] theorem State.releaseActive_irqPending (s : State) : s.releaseActive.irqPending = s.irqPending := rfl
@[simp] theorem State.releaseActive_cfg (s : State) : s.releaseActive.cfg = s.cfg := rfl
@[simp] theorem State.releaseActive_csNotBefore (s : State) : s.releaseActive.csNotBefore = s.csNotBefore := rfl
@[simp] theorem State.releaseActive_timerPending (s : State) : s.releaseActive.timerPending = s.timerPending := rfl
@[simp] theorem State.releaseActive_now (s : State) : s.releaseActive.now = s.now := rfl
@[simp] theorem State.releaseActive_inp (s : State) : s.releaseActive.inp = s.inp := rfl
@[simp] theorem State.releaseActive_refused (s : State) : s.releaseActive.refused = s.refused := rfl
@[simp] theorem State.releaseActive_busTrace (s : State) : s.releaseActive.busTrace = s.busTrace := rfl
@[simp] theorem State.releaseActive_pushTrace (s : State) : s.releaseActive.pushTrace = s.pushTrace := rfl
@[simp] theorem State.releaseActive_responses (s : State) : s.releaseActive.responses = s.responses := rfl
@[simp] theorem State.releaseActive_outcomes (s : State) : s.releaseActive.outcomes = s.outcomes := rfl

/-! ### `enableTracking` -/

@[simp] theorem State.enableTracking_radioState (s : State) (id : Bytes) :
    (s.enableTracking id).radioState = s.radioState := rfl
@[simp] theorem State.enableTracking_rxBuf (s : State) (id : Bytes) : (s.enableTracking id).rxBuf = s.rxBuf := rfl
@[simp] theorem State.enableTracking_rxCount (s : State) (id : Bytes) : (s.enableTracking id).rxCount = s.rxCount := rfl
@[simp] theorem State.enableTracking_rxTotal (s : State) (id : Bytes) : (s.enableTracking id).rxTotal = s.rxTotal := rfl
@[simp] theorem State.enableTracking_slots (s : State) (id : Bytes) : (s.enableTracking id).slots = s.slots := rfl
@[simp] theorem State.enableTracking_cursor (s : State) (id : Bytes) : (s.enableTracking id).cursor = s.cursor := rfl
@[simp] theorem State.enableTracking_txOffset (s : State) (id : Bytes) :
    (s.enableTracking id).txOffset = s.txOffset := rfl
@[simp] theorem State.enableTracking_window (s : State) (id : Bytes) : (s.enableTracking id).window = s.window := rfl
@[simp] theorem State.enableTracking_winIdx (s : State) (id : Bytes) : (s.enableTracking id).winIdx = s.winIdx := rfl
@[simp] theorem State.enableTracking_appliedOffset (s : State) (id : Bytes) :
    (s.enableTracking id).appliedOffset = s.appliedOffset := rfl
@[simp] theorem State.enableTracking_trackingEnabled (s : State) (id : Bytes) :
    (s.enableTracking id).trackingEnabled = true := rfl
@[simp] theorem State.enableTracking_trackedNetId (s : State) (id : Bytes) :
    (s.enableTracking id).trackedNetId = id := rfl
@[simp] theorem State.enableTracking_config (s : State) (id : Bytes) : (s.enableTracking id).config = s.config := rfl
@[simp] theorem State.enableTracking_timerArmed (s : State) (id : Bytes) :
    (s.enableTracking id).timerArmed = s.timerArmed := rfl
@[simp] theorem State.enableTracking_timerDeadline (s : State) (id : Bytes) :
    (s.enableTracking id).timerDeadline = s.timerDeadline := rfl
@[simp] theorem State.enableTracking_irqEnabled (s : State) (id : Bytes) :
    (s.enableTracking id).irqEnabled = s.irqEnabled := rfl
@[simp] theorem State.enableTracking_irqPending (s : State) (id : Bytes) :
    (s.enableTracking id).irqPending = s.irqPending := rfl
@[simp] theorem State.enableTracking_cfg (s : State) (id : Bytes) : (s.enableTracking id).cfg = s.cfg := rfl
@[simp] theorem State.enableTracking_csNotBefore (s : State) (id : Bytes) :
    (s.enableTracking id).csNotBefore = s.csNotBefore := rfl
@[simp] theorem State.enableTracking_timerPending (s : State) (id : Bytes) :
    (s.enableTracking id).timerPending = s.timerPending := rfl
@[simp] theorem State.enableTracking_now (s : State) (id : Bytes) : (s.enableTracking id).now = s.now := rfl
@[simp] theorem State.enableTracking_inp (s : State) (id : Bytes) : (s.enableTracking id).inp = s.inp := rfl
@[simp] theorem State.enableTracking_refused (s : State) (id : Bytes) : (s.enableTracking id).refused = s.refused := rfl
@[simp] theorem State.enableTracking_busTrace (s : State) (id : Bytes) :
    (s.enableTracking id).busTrace = s.busTrace := rfl
@[simp] theorem State.enableTracking_pushTrace (s : State) (id : Bytes) :
    (s.enableTracking id).pushTrace = s.pushTrace := rfl
@[simp] theorem State.enableTracking_responses (s : State) (id : Bytes) :
    (s.enableTracking id).responses = s.responses := rfl
@[simp] theorem State.enableTracking_outcomes (s : State) (id : Bytes) :
    (s.enableTracking id).outcomes = s.outcomes := rfl

/-! ### `disableTracking` -/

@[simp] theorem State.disableTracking_radioState (s : State) : s.disableTracking.radioState = s.radioState := rfl
@[simp] theorem State.disableTracking_rxBuf (s : State) : s.disableTracking.rxBuf = s.rxBuf := rfl
@[simp] theorem State.disableTracking_rxCount (s : State) : s.disableTracking.rxCount = s.rxCount := rfl
@[simp] theorem State.disableTracking_rxTotal (s : State) : s.disableTracking.rxTotal = s.rxTotal := rfl
@[simp] theorem State.disableTracking_slots (s : State) : s.disableTracking.slots = s.slots := rfl
@[simp] theorem State.disableTracking_cursor (s : State) : s.disableTracking.cursor = s.cursor := rfl
@[simp] theorem State.disableTracking_txOffset (s : State) : s.disableTracking.txOffset = s.txOffset := rfl
@[simp] theorem State.disableTracking_window (s : State) : s.disableTracking.window = s.window := rfl
@[simp] theorem State.disableTracking_winIdx (s : State) : s.disableTracking.winIdx = s.winIdx := rfl
@[simp] theorem State.disableTracking_appliedOffset (s : State) :
    s.disableTracking.appliedOffset = s.appliedOffset := rfl
@[simp] theorem State.disableTracking_trackingEnabled (s : State) : s.disableTracking.trackingEnabled = false := rfl
@[simp] theorem State.disableTracking_trackedNetId (s : State) : s.disableTracking.trackedNetId = s.trackedNetId := rfl
@[simp] theorem State.disableTracking_config (s : State) : s.disableTracking.config = s.config := rfl
@[simp] theorem State.disableTracking_timerArmed (s : State) : s.disableTracking.timerArmed = s.timerArmed := rfl
@[simp] theorem State.disableTracking_timerDeadline (s : State) :
    s.disableTracking.timerDeadline = s.timerDeadline := rfl
@[simp] theorem State.disableTracking_irqEnabled (s : State) : s.disableTracking.irqEnabled = s.irqEnabled := rfl
@[simp] theorem State.disableTracking_irqPending (s : State) : s.disableTracking.irqPending = s.irqPending := rfl
@[simp] theorem State.disableTracking_cfg (s : State) : s.disableTracking.cfg = s.cfg := rfl
@[simp] theorem State.disableTracking_csNotBefore (s : State) : s.disableTracking.csNotBefore = s.csNotBefore := rfl
@[simp] theorem State.disableTracking_timerPending (s : State) : s.disableTracking.timerPending = s.timerPending := rfl
@[simp] theorem State.disableTracking_now (s : State) : s.disableTracking.now = s.now := rfl
@[simp] theorem State.disableTracking_inp (s : State) : s.disableTracking.inp = s.inp := rfl
@[simp] theorem State.disableTracking_refused (s : State) : s.disableTracking.refused = s.refused := rfl
@[simp] theorem State.disableTracking_busTrace (s : State) : s.disableTracking.busTrace = s.busTrace := rfl
@[simp] theorem State.disableTracking_pushTrace (s : State) : s.disableTracking.pushTrace = s.pushTrace := rfl
@[simp] theorem State.disableTracking_responses (s : State) : s.disableTracking.responses = s.responses := rfl
@[simp] theorem State.disableTracking_outcomes (s : State) : s.disableTracking.outcomes = s.outcomes := rfl

/-! ### `armTimer` -/

@[simp] theorem State.armTimer_radioState (s : State) (d : Nat) : (s.armTimer d).radioState = s.radioState := rfl
@[simp] theorem State.armTimer_rxBuf (s : State) (d : Nat) : (s.armTimer d).rxBuf = s.rxBuf := rfl
@[simp] theorem State.armTimer_rxCount (s : State) (d : Nat) : (s.armTimer d).rxCount = s.rxCount := rfl
@[simp] theorem State.armTimer_rxTotal (s : State) (d : Nat) : (s.armTimer d).rxTotal = s.rxTotal := rfl
@[simp] theorem State.armTimer_slots (s : State) (d : Nat) : (s.armTimer d).slots = s.slots := rfl
@[simp] theorem State.armTimer_cursor (s : State) (d : Nat) : (s.armTimer d).cursor = s.cursor := rfl
@[simp] theorem State.armTimer_txOffset (s : State) (d : Nat) : (s.armTimer d).txOffset = s.txOffset := rfl
@[simp] theorem State.armTimer_window (s : State) (d : Nat) : (s.armTimer d).window = s.window := rfl
@[simp] theorem State.armTimer_winIdx (s : State) (d : Nat) : (s.armTimer d).winIdx = s.winIdx := rfl
@[simp] theorem State.armTimer_appliedOffset (s : State) (d : Nat) :
    (s.armTimer d).appliedOffset = s.appliedOffset := rfl
@[simp] theorem State.armTimer_trackingEnabled (s : State) (d : Nat) :
    (s.armTimer d).trackingEnabled = s.trackingEnabled := rfl
@[simp] theorem State.armTimer_trackedNetId (s : State) (d : Nat) : (s.armTimer d).trackedNetId = s.trackedNetId := rfl
@[simp] theorem State.armTimer_config (s : State) (d : Nat) : (s.armTimer d).config = s.config := rfl
@[simp] theorem State.armTimer_timerArmed (s : State) (d : Nat) : (s.armTimer d).timerArmed = true := rfl
@[simp] theorem State.armTimer_timerDeadline (s : State) (d : Nat) :
    (s.armTimer d).timerDeadline = s.now + BitVec.ofNat 32 d := rfl
@[simp] theorem State.armTimer_irqEnabled (s : State) (d : Nat) : (s.armTimer d).irqEnabled = s.irqEnabled := rfl
@[simp] theorem State.armTimer_irqPending (s : State) (d : Nat) : (s.armTimer d).irqPending = s.irqPending := rfl
@[simp] theorem State.armTimer_cfg (s : State) (d : Nat) : (s.armTimer d).cfg = s.cfg := rfl
@[simp] theorem State.armTimer_csNotBefore (s : State) (d : Nat) : (s.armTimer d).csNotBefore = s.csNotBefore := rfl
@[simp] theorem State.armTimer_timerPending (s : State) (d : Nat) : (s.armTimer d).timerPending = s.timerPending := rfl
@[simp] theorem State.armTimer_now (s : State) (d : Nat) : (s.armTimer d).now = s.now := rfl
@[simp] theorem State.armTimer_inp (s : State) (d : Nat) : (s.armTimer d).inp = s.inp := rfl
@[simp] theorem State.armTimer_refused (s : State) (d : Nat) : (s.armTimer d).refused = s.refused := rfl
@[simp] theorem State.armTimer_busTrace (s : State) (d : Nat) : (s.armTimer d).busTrace = s.busTrace := rfl
@[simp] theorem State.armTimer_pushTrace (s : State) (d : Nat) : (s.armTimer d).pushTrace = s.pushTrace := rfl
@[simp] theorem State.armTimer_responses (s : State) (d : Nat) : (s.armTimer d).responses = s.responses := rfl
@[simp] theorem State.armTimer_outcomes (s : State) (d : Nat) : (s.armTimer d).outcomes = s.outcomes := rfl

/-! ### `disarmTimer` -/

@[simp] theorem State.disarmTimer_radioState (s : State) : s.disarmTimer.radioState = s.radioState := rfl
@[simp] theorem State.disarmTimer_rxBuf (s : State) : s.disarmTimer.rxBuf = s.rxBuf := rfl
@[simp] theorem State.disarmTimer_rxCount (s : State) : s.disarmTimer.rxCount = s.rxCount := rfl
@[simp] theorem State.disarmTimer_rxTotal (s : State) : s.disarmTimer.rxTotal = s.rxTotal := rfl
@[simp] theorem State.disarmTimer_slots (s : State) : s.disarmTimer.slots = s.slots := rfl
@[simp] theorem State.disarmTimer_cursor (s : State) : s.disarmTimer.cursor = s.cursor := rfl
@[simp] theorem State.disarmTimer_txOffset (s : State) : s.disarmTimer.txOffset = s.txOffset := rfl
@[simp] theorem State.disarmTimer_window (s : State) : s.disarmTimer.window = s.window := rfl
@[simp] theorem State.disarmTimer_winIdx (s : State) : s.disarmTimer.winIdx = s.winIdx := rfl
@[simp] theorem State.disarmTimer_appliedOffset (s : State) : s.disarmTimer.appliedOffset = s.appliedOffset := rfl
@[simp] theorem State.disarmTimer_trackingEnabled (s : State) : s.disarmTimer.trackingEnabled = s.trackingEnabled := rfl
@[simp] theorem State.disarmTimer_trackedNetId (s : State) : s.disarmTimer.trackedNetId = s.trackedNetId := rfl
@[simp] theorem State.disarmTimer_config (s : State) : s.disarmTimer.config = s.config := rfl
@[simp] theorem State.disarmTimer_timerArmed (s : State) : s.disarmTimer.timerArmed = false := rfl
@[simp] theorem State.disarmTimer_timerDeadline (s : State) : s.disarmTimer.timerDeadline = s.timerDeadline := rfl
@[simp] theorem State.disarmTimer_irqEnabled (s : State) : s.disarmTimer.irqEnabled = s.irqEnabled := rfl
@[simp] theorem State.disarmTimer_irqPending (s : State) : s.disarmTimer.irqPending = s.irqPending := rfl
@[simp] theorem State.disarmTimer_cfg (s : State) : s.disarmTimer.cfg = s.cfg := rfl
@[simp] theorem State.disarmTimer_csNotBefore (s : State) : s.disarmTimer.csNotBefore = s.csNotBefore := rfl
@[simp] theorem State.disarmTimer_timerPending (s : State) : s.disarmTimer.timerPending = s.timerPending := rfl
@[simp] theorem State.disarmTimer_now (s : State) : s.disarmTimer.now = s.now := rfl
@[simp] theorem State.disarmTimer_inp (s : State) : s.disarmTimer.inp = s.inp := rfl
@[simp] theorem State.disarmTimer_refused (s : State) : s.disarmTimer.refused = s.refused := rfl
@[simp] theorem State.disarmTimer_busTrace (s : State) : s.disarmTimer.busTrace = s.busTrace := rfl
@[simp] theorem State.disarmTimer_pushTrace (s : State) : s.disarmTimer.pushTrace = s.pushTrace := rfl
@[simp] theorem State.disarmTimer_responses (s : State) : s.disarmTimer.responses = s.responses := rfl
@[simp] theorem State.disarmTimer_outcomes (s : State) : s.disarmTimer.outcomes = s.outcomes := rfl

/-! ### `setIrqEnabled` -/

@[simp] theorem State.setIrqEnabled_radioState (s : State) (b : Bool) :
    (s.setIrqEnabled b).radioState = s.radioState := rfl
@[simp] theorem State.setIrqEnabled_rxBuf (s : State) (b : Bool) : (s.setIrqEnabled b).rxBuf = s.rxBuf := rfl
@[simp] theorem State.setIrqEnabled_rxCount (s : State) (b : Bool) : (s.setIrqEnabled b).rxCount = s.rxCount := rfl
@[simp] theorem State.setIrqEnabled_rxTotal (s : State) (b : Bool) : (s.setIrqEnabled b).rxTotal = s.rxTotal := rfl
@[simp] theorem State.setIrqEnabled_slots (s : State) (b : Bool) : (s.setIrqEnabled b).slots = s.slots := rfl
@[simp] theorem State.setIrqEnabled_cursor (s : State) (b : Bool) : (s.setIrqEnabled b).cursor = s.cursor := rfl
@[simp] theorem State.setIrqEnabled_txOffset (s : State) (b : Bool) : (s.setIrqEnabled b).txOffset = s.txOffset := rfl
@[simp] theorem State.setIrqEnabled_window (s : State) (b : Bool) : (s.setIrqEnabled b).window = s.window := rfl
@[simp] theorem State.setIrqEnabled_winIdx (s : State) (b : Bool) : (s.setIrqEnabled b).winIdx = s.winIdx := rfl
@[simp] theorem State.setIrqEnabled_appliedOffset (s : State) (b : Bool) :
    (s.setIrqEnabled b).appliedOffset = s.appliedOffset := rfl
@[simp] theorem State.setIrqEnabled_trackingEnabled (s : State) (b : Bool) :
    (s.setIrqEnabled b).trackingEnabled = s.trackingEnabled := rfl
@[simp] theorem State.setIrqEnabled_trackedNetId (s : State) (b : Bool) :
    (s.setIrqEnabled b).trackedNetId = s.trackedNetId := rfl
@[simp] theorem State.setIrqEnabled_config (s : State) (b : Bool) : (s.setIrqEnabled b).config = s.config := rfl
@[simp] theorem State.setIrqEnabled_timerArmed (s : State) (b : Bool) :
    (s.setIrqEnabled b).timerArmed = s.timerArmed := rfl
@[simp] theorem State.setIrqEnabled_timerDeadline (s : State) (b : Bool) :
    (s.setIrqEnabled b).timerDeadline = s.timerDeadline := rfl
@[simp] theorem State.setIrqEnabled_irqEnabled (s : State) (b : Bool) : (s.setIrqEnabled b).irqEnabled = b := rfl
@[simp] theorem State.setIrqEnabled_irqPending (s : State) (b : Bool) :
    (s.setIrqEnabled b).irqPending = s.irqPending := rfl
@[simp] theorem State.setIrqEnabled_cfg (s : State) (b : Bool) : (s.setIrqEnabled b).cfg = s.cfg := rfl
@[simp] theorem State.setIrqEnabled_csNotBefore (s : State) (b : Bool) :
    (s.setIrqEnabled b).csNotBefore = s.csNotBefore := rfl
@[simp] theorem State.setIrqEnabled_timerPending (s : State) (b : Bool) :
    (s.setIrqEnabled b).timerPending = s.timerPending := rfl
@[simp] theorem State.setIrqEnabled_now (s : State) (b : Bool) : (s.setIrqEnabled b).now = s.now := rfl
@[simp] theorem State.setIrqEnabled_inp (s : State) (b : Bool) : (s.setIrqEnabled b).inp = s.inp := rfl
@[simp] theorem State.setIrqEnabled_refused (s : State) (b : Bool) : (s.setIrqEnabled b).refused = s.refused := rfl
@[simp] theorem State.setIrqEnabled_busTrace (s : State) (b : Bool) : (s.setIrqEnabled b).busTrace = s.busTrace := rfl
@[simp] theorem State.setIrqEnabled_pushTrace (s : State) (b : Bool) :
    (s.setIrqEnabled b).pushTrace = s.pushTrace := rfl
@[simp] theorem State.setIrqEnabled_responses (s : State) (b : Bool) :
    (s.setIrqEnabled b).responses = s.responses := rfl
@[simp] theorem State.setIrqEnabled_outcomes (s : State) (b : Bool) : (s.setIrqEnabled b).outcomes = s.outcomes := rfl

/-! ### `clearRx` -/

@[simp] theorem State.clearRx_radioState (s : State) (r : RadioState) : (s.clearRx r).radioState = r := rfl
@[simp] theorem State.clearRx_rxBuf (s : State) (r : RadioState) : (s.clearRx r).rxBuf = s.rxBuf := rfl
@[simp] theorem State.clearRx_rxCount (s : State) (r : RadioState) : (s.clearRx r).rxCount = 0 := rfl
@[simp] theorem State.clearRx_rxTotal (s : State) (r : RadioState) : (s.clearRx r).rxTotal = none := rfl
@[simp] theorem State.clearRx_slots (s : State) (r : RadioState) : (s.clearRx r).slots = s.slots := rfl
@[simp] theorem State.clearRx_cursor (s : State) (r : RadioState) : (s.clearRx r).cursor = s.cursor := rfl
@[simp] theorem State.clearRx_txOffset (s : State) (r : RadioState) : (s.clearRx r).txOffset = s.txOffset := rfl
@[simp] theorem State.clearRx_window (s : State) (r : RadioState) : (s.clearRx r).window = s.window := rfl
@[simp] theorem State.clearRx_winIdx (s : State) (r : RadioState) : (s.clearRx r).winIdx = s.winIdx := rfl
@[simp] theorem State.clearRx_appliedOffset (s : State) (r : RadioState) :
    (s.clearRx r).appliedOffset = s.appliedOffset := rfl
@[simp] theorem State.clearRx_trackingEnabled (s : State) (r : RadioState) :
    (s.clearRx r).trackingEnabled = s.trackingEnabled := rfl
@[simp] theorem State.clearRx_trackedNetId (s : State) (r : RadioState) :
    (s.clearRx r).trackedNetId = s.trackedNetId := rfl
@[simp] theorem State.clearRx_config (s : State) (r : RadioState) : (s.clearRx r).config = s.config := rfl
@[simp] theorem State.clearRx_timerArmed (s : State) (r : RadioState) : (s.clearRx r).timerArmed = s.timerArmed := rfl
@[simp] theorem State.clearRx_timerDeadline (s : State) (r : RadioState) :
    (s.clearRx r).timerDeadline = s.timerDeadline := rfl
@[simp] theorem State.clearRx_irqEnabled (s : State) (r : RadioState) : (s.clearRx r).irqEnabled = s.irqEnabled := rfl
@[simp] theorem State.clearRx_irqPending (s : State) (r : RadioState) : (s.clearRx r).irqPending = s.irqPending := rfl
@[simp] theorem State.clearRx_cfg (s : State) (r : RadioState) : (s.clearRx r).cfg = s.cfg := rfl
@[simp] theorem State.clearRx_csNotBefore (s : State) (r : RadioState) :
    (s.clearRx r).csNotBefore = s.csNotBefore := rfl
@[simp] theorem State.clearRx_timerPending (s : State) (r : RadioState) :
    (s.clearRx r).timerPending = s.timerPending := rfl
@[simp] theorem State.clearRx_now (s : State) (r : RadioState) : (s.clearRx r).now = s.now := rfl
@[simp] theorem State.clearRx_inp (s : State) (r : RadioState) : (s.clearRx r).inp = s.inp := rfl
@[simp] theorem State.clearRx_refused (s : State) (r : RadioState) : (s.clearRx r).refused = s.refused := rfl
@[simp] theorem State.clearRx_busTrace (s : State) (r : RadioState) : (s.clearRx r).busTrace = s.busTrace := rfl
@[simp] theorem State.clearRx_pushTrace (s : State) (r : RadioState) : (s.clearRx r).pushTrace = s.pushTrace := rfl
@[simp] theorem State.clearRx_responses (s : State) (r : RadioState) : (s.clearRx r).responses = s.responses := rfl
@[simp] theorem State.clearRx_outcomes (s : State) (r : RadioState) : (s.clearRx r).outcomes = s.outcomes := rfl

/-! ### `dropAnswers` -/

@[simp] theorem State.dropAnswers_radioState (s : State) (n : Nat) : (s.dropAnswers n).radioState = s.radioState := rfl
@[simp] theorem State.dropAnswers_rxBuf (s : State) (n : Nat) : (s.dropAnswers n).rxBuf = s.rxBuf := rfl
@[simp] theorem State.dropAnswers_rxCount (s : State) (n : Nat) : (s.dropAnswers n).rxCount = s.rxCount := rfl
@[simp] theorem State.dropAnswers_rxTotal (s : State) (n : Nat) : (s.dropAnswers n).rxTotal = s.rxTotal := rfl
@[simp] theorem State.dropAnswers_slots (s : State) (n : Nat) : (s.dropAnswers n).slots = s.slots := rfl
@[simp] theorem State.dropAnswers_cursor (s : State) (n : Nat) : (s.dropAnswers n).cursor = s.cursor := rfl
@[simp] theorem State.dropAnswers_txOffset (s : State) (n : Nat) : (s.dropAnswers n).txOffset = s.txOffset := rfl
@[simp] theorem State.dropAnswers_window (s : State) (n : Nat) : (s.dropAnswers n).window = s.window := rfl
@[simp] theorem State.dropAnswers_winIdx (s : State) (n : Nat) : (s.dropAnswers n).winIdx = s.winIdx := rfl
@[simp] theorem State.dropAnswers_appliedOffset (s : State) (n : Nat) :
    (s.dropAnswers n).appliedOffset = s.appliedOffset := rfl
@[simp] theorem State.dropAnswers_trackingEnabled (s : State) (n : Nat) :
    (s.dropAnswers n).trackingEnabled = s.trackingEnabled := rfl
@[simp] theorem State.dropAnswers_trackedNetId (s : State) (n : Nat) :
    (s.dropAnswers n).trackedNetId = s.trackedNetId := rfl
@[simp] theorem State.dropAnswers_config (s : State) (n : Nat) : (s.dropAnswers n).config = s.config := rfl
@[simp] theorem State.dropAnswers_timerArmed (s : State) (n : Nat) : (s.dropAnswers n).timerArmed = s.timerArmed := rfl
@[simp] theorem State.dropAnswers_timerDeadline (s : State) (n : Nat) :
    (s.dropAnswers n).timerDeadline = s.timerDeadline := rfl
@[simp] theorem State.dropAnswers_irqEnabled (s : State) (n : Nat) : (s.dropAnswers n).irqEnabled = s.irqEnabled := rfl
@[simp] theorem State.dropAnswers_irqPending (s : State) (n : Nat) : (s.dropAnswers n).irqPending = s.irqPending := rfl
@[simp] theorem State.dropAnswers_cfg (s : State) (n : Nat) : (s.dropAnswers n).cfg = s.cfg := rfl
@[simp] theorem State.dropAnswers_csNotBefore (s : State) (n : Nat) :
    (s.dropAnswers n).csNotBefore = s.csNotBefore := rfl
@[simp] theorem State.dropAnswers_timerPending (s : State) (n : Nat) :
    (s.dropAnswers n).timerPending = s.timerPending := rfl
@[simp] theorem State.dropAnswers_now (s : State) (n : Nat) : (s.dropAnswers n).now = s.now := rfl
@[simp] theorem State.dropAnswers_inp (s : State) (n : Nat) :
    (s.dropAnswers n).inp = { s.inp with answers := s.inp.answers.drop n } := rfl
@[simp] theorem State.dropAnswers_refused (s : State) (n : Nat) : (s.dropAnswers n).refused = s.refused := rfl
@[simp] theorem State.dropAnswers_busTrace (s : State) (n : Nat) : (s.dropAnswers n).busTrace = s.busTrace := rfl
@[simp] theorem State.dropAnswers_pushTrace (s : State) (n : Nat) : (s.dropAnswers n).pushTrace = s.pushTrace := rfl
@[simp] theorem State.dropAnswers_responses (s : State) (n : Nat) : (s.dropAnswers n).responses = s.responses := rfl
@[simp] theorem State.dropAnswers_outcomes (s : State) (n : Nat) : (s.dropAnswers n).outcomes = s.outcomes := rfl
@[simp] theorem State.dropAnswers_regs (s : State) (n : Nat) : (s.dropAnswers n).regs = s.regs := rfl

/-! ### `dropTiming` -/

@[simp] theorem State.dropTiming_radioState (s : State) : s.dropTiming.radioState = s.radioState := rfl
@[simp] theorem State.dropTiming_rxBuf (s : State) : s.dropTiming.rxBuf = s.rxBuf := rfl
@[simp] theorem State.dropTiming_rxCount (s : State) : s.dropTiming.rxCount = s.rxCount := rfl
@[simp] theorem State.dropTiming_rxTotal (s : State) : s.dropTiming.rxTotal = s.rxTotal := rfl
@[simp] theorem State.dropTiming_slots (s : State) : s.dropTiming.slots = s.slots := rfl
@[simp] theorem State.dropTiming_cursor (s : State) : s.dropTiming.cursor = s.cursor := rfl
@[simp] theorem State.dropTiming_txOffset (s : State) : s.dropTiming.txOffset = s.txOffset := rfl
@[simp] theorem State.dropTiming_window (s : State) : s.dropTiming.window = s.window := rfl
@[simp] theorem State.dropTiming_winIdx (s : State) : s.dropTiming.winIdx = s.winIdx := rfl
@[simp] theorem State.dropTiming_appliedOffset (s : State) : s.dropTiming.appliedOffset = s.appliedOffset := rfl
@[simp] theorem State.dropTiming_trackingEnabled (s : State) : s.dropTiming.trackingEnabled = s.trackingEnabled := rfl
@[simp] theorem State.dropTiming_trackedNetId (s : State) : s.dropTiming.trackedNetId = s.trackedNetId := rfl
@[simp] theorem State.dropTiming_config (s : State) : s.dropTiming.config = s.config := rfl
@[simp] theorem State.dropTiming_timerArmed (s : State) : s.dropTiming.timerArmed = s.timerArmed := rfl
@[simp] theorem State.dropTiming_timerDeadline (s : State) : s.dropTiming.timerDeadline = s.timerDeadline := rfl
@[simp] theorem State.dropTiming_irqEnabled (s : State) : s.dropTiming.irqEnabled = s.irqEnabled := rfl
@[simp] theorem State.dropTiming_irqPending (s : State) : s.dropTiming.irqPending = s.irqPending := rfl
@[simp] theorem State.dropTiming_cfg (s : State) : s.dropTiming.cfg = s.cfg := rfl
@[simp] theorem State.dropTiming_csNotBefore (s : State) : s.dropTiming.csNotBefore = s.csNotBefore := rfl
@[simp] theorem State.dropTiming_timerPending (s : State) : s.dropTiming.timerPending = s.timerPending := rfl
@[simp] theorem State.dropTiming_now (s : State) : s.dropTiming.now = s.now := rfl
@[simp] theorem State.dropTiming_inp (s : State) :
    s.dropTiming.inp = { s.inp with timings := s.inp.timings.tail } := rfl
@[simp] theorem State.dropTiming_refused (s : State) : s.dropTiming.refused = s.refused := rfl
@[simp] theorem State.dropTiming_busTrace (s : State) : s.dropTiming.busTrace = s.busTrace := rfl
@[simp] theorem State.dropTiming_pushTrace (s : State) : s.dropTiming.pushTrace = s.pushTrace := rfl
@[simp] theorem State.dropTiming_responses (s : State) : s.dropTiming.responses = s.responses := rfl
@[simp] theorem State.dropTiming_outcomes (s : State) : s.dropTiming.outcomes = s.outcomes := rfl
@[simp] theorem State.dropTiming_regs (s : State) : s.dropTiming.regs = s.regs := rfl

/-! ### `elapse` -/

@[simp] theorem State.elapse_radioState (s : State) (d : Clock) : (s.elapse d).radioState = s.radioState := rfl
@[simp] theorem State.elapse_rxBuf (s : State) (d : Clock) : (s.elapse d).rxBuf = s.rxBuf := rfl
@[simp] theorem State.elapse_rxCount (s : State) (d : Clock) : (s.elapse d).rxCount = s.rxCount := rfl
@[simp] theorem State.elapse_rxTotal (s : State) (d : Clock) : (s.elapse d).rxTotal = s.rxTotal := rfl
@[simp] theorem State.elapse_slots (s : State) (d : Clock) : (s.elapse d).slots = s.slots := rfl
@[simp] theorem State.elapse_cursor (s : State) (d : Clock) : (s.elapse d).cursor = s.cursor := rfl
@[simp] theorem State.elapse_txOffset (s : State) (d : Clock) : (s.elapse d).txOffset = s.txOffset := rfl
@[simp] theorem State.elapse_window (s : State) (d : Clock) : (s.elapse d).window = s.window := rfl
@[simp] theorem State.elapse_winIdx (s : State) (d : Clock) : (s.elapse d).winIdx = s.winIdx := rfl
@[simp] theorem State.elapse_appliedOffset (s : State) (d : Clock) : (s.elapse d).appliedOffset = s.appliedOffset := rfl
@[simp] theorem State.elapse_trackingEnabled (s : State) (d : Clock) :
    (s.elapse d).trackingEnabled = s.trackingEnabled := rfl
@[simp] theorem State.elapse_trackedNetId (s : State) (d : Clock) : (s.elapse d).trackedNetId = s.trackedNetId := rfl
@[simp] theorem State.elapse_config (s : State) (d : Clock) : (s.elapse d).config = s.config := rfl
@[simp] theorem State.elapse_timerArmed (s : State) (d : Clock) : (s.elapse d).timerArmed = s.timerArmed := rfl
@[simp] theorem State.elapse_timerDeadline (s : State) (d : Clock) : (s.elapse d).timerDeadline = s.timerDeadline := rfl
@[simp] theorem State.elapse_irqEnabled (s : State) (d : Clock) : (s.elapse d).irqEnabled = s.irqEnabled := rfl
@[simp] theorem State.elapse_irqPending (s : State) (d : Clock) : (s.elapse d).irqPending = s.irqPending := rfl
@[simp] theorem State.elapse_cfg (s : State) (d : Clock) : (s.elapse d).cfg = s.cfg := rfl
@[simp] theorem State.elapse_csNotBefore (s : State) (d : Clock) : (s.elapse d).csNotBefore = s.csNotBefore := rfl
@[simp] theorem State.elapse_timerPending (s : State) (d : Clock) :
    (s.elapse d).timerPending = (s.timerPending || (s.timerArmed && deadlineWithin s.now s.timerDeadline d)) := rfl
@[simp] theorem State.elapse_now (s : State) (d : Clock) : (s.elapse d).now = s.now + d := rfl
@[simp] theorem State.elapse_inp (s : State) (d : Clock) : (s.elapse d).inp = s.inp := rfl
@[simp] theorem State.elapse_refused (s : State) (d : Clock) : (s.elapse d).refused = s.refused := rfl
@[simp] theorem State.elapse_busTrace (s : State) (d : Clock) : (s.elapse d).busTrace = s.busTrace := rfl
@[simp] theorem State.elapse_pushTrace (s : State) (d : Clock) : (s.elapse d).pushTrace = s.pushTrace := rfl
@[simp] theorem State.elapse_responses (s : State) (d : Clock) : (s.elapse d).responses = s.responses := rfl
@[simp] theorem State.elapse_outcomes (s : State) (d : Clock) : (s.elapse d).outcomes = s.outcomes := rfl
@[simp] theorem State.elapse_regs (s : State) (d : Clock) : (s.elapse d).regs = s.regs := rfl

/-! ### `readClock` -/

@[simp] theorem State.readClock_radioState (s : State) :
    s.readClock.radioState = s.radioState := by simp [State.readClock]
@[simp] theorem State.readClock_rxBuf (s : State) : s.readClock.rxBuf = s.rxBuf := by simp [State.readClock]
@[simp] theorem State.readClock_rxCount (s : State) : s.readClock.rxCount = s.rxCount := by simp [State.readClock]
@[simp] theorem State.readClock_rxTotal (s : State) : s.readClock.rxTotal = s.rxTotal := by simp [State.readClock]
@[simp] theorem State.readClock_slots (s : State) : s.readClock.slots = s.slots := by simp [State.readClock]
@[simp] theorem State.readClock_cursor (s : State) : s.readClock.cursor = s.cursor := by simp [State.readClock]
@[simp] theorem State.readClock_txOffset (s : State) : s.readClock.txOffset = s.txOffset := by simp [State.readClock]
@[simp] theorem State.readClock_window (s : State) : s.readClock.window = s.window := by simp [State.readClock]
@[simp] theorem State.readClock_winIdx (s : State) : s.readClock.winIdx = s.winIdx := by simp [State.readClock]
@[simp] theorem State.readClock_appliedOffset (s : State) :
    s.readClock.appliedOffset = s.appliedOffset := by simp [State.readClock]
@[simp] theorem State.readClock_trackingEnabled (s : State) :
    s.readClock.trackingEnabled = s.trackingEnabled := by simp [State.readClock]
@[simp] theorem State.readClock_trackedNetId (s : State) :
    s.readClock.trackedNetId = s.trackedNetId := by simp [State.readClock]
@[simp] theorem State.readClock_config (s : State) : s.readClock.config = s.config := by simp [State.readClock]
@[simp] theorem State.readClock_timerArmed (s : State) :
    s.readClock.timerArmed = s.timerArmed := by simp [State.readClock]
@[simp] theorem State.readClock_timerDeadline (s : State) :
    s.readClock.timerDeadline = s.timerDeadline := by simp [State.readClock]
@[simp] theorem State.readClock_irqEnabled (s : State) :
    s.readClock.irqEnabled = s.irqEnabled := by simp [State.readClock]
@[simp] theorem State.readClock_irqPending (s : State) :
    s.readClock.irqPending = s.irqPending := by simp [State.readClock]
@[simp] theorem State.readClock_cfg (s : State) : s.readClock.cfg = s.cfg := by simp [State.readClock]
@[simp] theorem State.readClock_csNotBefore (s : State) :
    s.readClock.csNotBefore = s.csNotBefore := by simp [State.readClock]
@[simp] theorem State.readClock_now (s : State) :
    s.readClock.now = s.now + s.inp.ticks.head freeTick := by simp [State.readClock]
@[simp] theorem State.readClock_inp (s : State) :
    s.readClock.inp = { s.inp with ticks := s.inp.ticks.tail } := by simp [State.readClock]
@[simp] theorem State.readClock_refused (s : State) : s.readClock.refused = s.refused := by simp [State.readClock]
@[simp] theorem State.readClock_busTrace (s : State) : s.readClock.busTrace = s.busTrace := by simp [State.readClock]
@[simp] theorem State.readClock_pushTrace (s : State) : s.readClock.pushTrace = s.pushTrace := by simp [State.readClock]
@[simp] theorem State.readClock_responses (s : State) : s.readClock.responses = s.responses := by simp [State.readClock]
@[simp] theorem State.readClock_outcomes (s : State) : s.readClock.outcomes = s.outcomes := by simp [State.readClock]
@[simp] theorem State.readClock_regs (s : State) : s.readClock.regs = s.regs := by simp [State.regs]

/-! ### `atGuard` -/

@[simp] theorem State.atGuard_radioState (s : State) : s.atGuard.radioState = s.radioState := by simp [State.atGuard]
@[simp] theorem State.atGuard_rxBuf (s : State) : s.atGuard.rxBuf = s.rxBuf := by simp [State.atGuard]
@[simp] theorem State.atGuard_rxCount (s : State) : s.atGuard.rxCount = s.rxCount := by simp [State.atGuard]
@[simp] theorem State.atGuard_rxTotal (s : State) : s.atGuard.rxTotal = s.rxTotal := by simp [State.atGuard]
@[simp] theorem State.atGuard_slots (s : State) : s.atGuard.slots = s.slots := by simp [State.atGuard]
@[simp] theorem State.atGuard_cursor (s : State) : s.atGuard.cursor = s.cursor := by simp [State.atGuard]
@[simp] theorem State.atGuard_txOffset (s : State) : s.atGuard.txOffset = s.txOffset := by simp [State.atGuard]
@[simp] theorem State.atGuard_window (s : State) : s.atGuard.window = s.window := by simp [State.atGuard]
@[simp] theorem State.atGuard_winIdx (s : State) : s.atGuard.winIdx = s.winIdx := by simp [State.atGuard]
@[simp] theorem State.atGuard_appliedOffset (s : State) :
    s.atGuard.appliedOffset = s.appliedOffset := by simp [State.atGuard]
@[simp] theorem State.atGuard_trackingEnabled (s : State) :
    s.atGuard.trackingEnabled = s.trackingEnabled := by simp [State.atGuard]
@[simp] theorem State.atGuard_trackedNetId (s : State) :
    s.atGuard.trackedNetId = s.trackedNetId := by simp [State.atGuard]
@[simp] theorem State.atGuard_config (s : State) : s.atGuard.config = s.config := by simp [State.atGuard]
@[simp] theorem State.atGuard_timerArmed (s : State) : s.atGuard.timerArmed = s.timerArmed := by simp [State.atGuard]
@[simp] theorem State.atGuard_timerDeadline (s : State) :
    s.atGuard.timerDeadline = s.timerDeadline := by simp [State.atGuard]
@[simp] theorem State.atGuard_irqEnabled (s : State) : s.atGuard.irqEnabled = s.irqEnabled := by simp [State.atGuard]
@[simp] theorem State.atGuard_irqPending (s : State) : s.atGuard.irqPending = s.irqPending := by simp [State.atGuard]
@[simp] theorem State.atGuard_cfg (s : State) : s.atGuard.cfg = s.cfg := by simp [State.atGuard]
@[simp] theorem State.atGuard_csNotBefore (s : State) : s.atGuard.csNotBefore = s.csNotBefore := by simp [State.atGuard]
@[simp] theorem State.atGuard_inp (s : State) :
    s.atGuard.inp = { s.inp with timings := s.inp.timings.tail } := by simp [State.atGuard]
@[simp] theorem State.atGuard_refused (s : State) : s.atGuard.refused = s.refused := by simp [State.atGuard]
@[simp] theorem State.atGuard_busTrace (s : State) : s.atGuard.busTrace = s.busTrace := by simp [State.atGuard]
@[simp] theorem State.atGuard_pushTrace (s : State) : s.atGuard.pushTrace = s.pushTrace := by simp [State.atGuard]
@[simp] theorem State.atGuard_responses (s : State) : s.atGuard.responses = s.responses := by simp [State.atGuard]
@[simp] theorem State.atGuard_outcomes (s : State) : s.atGuard.outcomes = s.outcomes := by simp [State.atGuard]
@[simp] theorem State.atGuard_regs (s : State) : s.atGuard.regs = s.regs := by simp [State.regs]

/-! ### `atSelect` -/

@[simp] theorem State.atSelect_radioState (s : State) : s.atSelect.radioState = s.radioState := by simp [State.atSelect]
@[simp] theorem State.atSelect_rxBuf (s : State) : s.atSelect.rxBuf = s.rxBuf := by simp [State.atSelect]
@[simp] theorem State.atSelect_rxCount (s : State) : s.atSelect.rxCount = s.rxCount := by simp [State.atSelect]
@[simp] theorem State.atSelect_rxTotal (s : State) : s.atSelect.rxTotal = s.rxTotal := by simp [State.atSelect]
@[simp] theorem State.atSelect_slots (s : State) : s.atSelect.slots = s.slots := by simp [State.atSelect]
@[simp] theorem State.atSelect_cursor (s : State) : s.atSelect.cursor = s.cursor := by simp [State.atSelect]
@[simp] theorem State.atSelect_txOffset (s : State) : s.atSelect.txOffset = s.txOffset := by simp [State.atSelect]
@[simp] theorem State.atSelect_window (s : State) : s.atSelect.window = s.window := by simp [State.atSelect]
@[simp] theorem State.atSelect_winIdx (s : State) : s.atSelect.winIdx = s.winIdx := by simp [State.atSelect]
@[simp] theorem State.atSelect_appliedOffset (s : State) :
    s.atSelect.appliedOffset = s.appliedOffset := by simp [State.atSelect]
@[simp] theorem State.atSelect_trackingEnabled (s : State) :
    s.atSelect.trackingEnabled = s.trackingEnabled := by simp [State.atSelect]
@[simp] theorem State.atSelect_trackedNetId (s : State) :
    s.atSelect.trackedNetId = s.trackedNetId := by simp [State.atSelect]
@[simp] theorem State.atSelect_config (s : State) : s.atSelect.config = s.config := by simp [State.atSelect]
@[simp] theorem State.atSelect_timerArmed (s : State) : s.atSelect.timerArmed = s.timerArmed := by simp [State.atSelect]
@[simp] theorem State.atSelect_timerDeadline (s : State) :
    s.atSelect.timerDeadline = s.timerDeadline := by simp [State.atSelect]
@[simp] theorem State.atSelect_irqEnabled (s : State) : s.atSelect.irqEnabled = s.irqEnabled := by simp [State.atSelect]
@[simp] theorem State.atSelect_irqPending (s : State) : s.atSelect.irqPending = s.irqPending := by simp [State.atSelect]
@[simp] theorem State.atSelect_cfg (s : State) : s.atSelect.cfg = s.cfg := by simp [State.atSelect]
@[simp] theorem State.atSelect_csNotBefore (s : State) :
    s.atSelect.csNotBefore = s.csNotBefore := by simp [State.atSelect]
@[simp] theorem State.atSelect_inp (s : State) :
    s.atSelect.inp = { s.inp with timings := s.inp.timings.tail } := by simp [State.atSelect]
@[simp] theorem State.atSelect_refused (s : State) : s.atSelect.refused = s.refused := by simp [State.atSelect]
@[simp] theorem State.atSelect_busTrace (s : State) : s.atSelect.busTrace = s.busTrace := by simp [State.atSelect]
@[simp] theorem State.atSelect_pushTrace (s : State) : s.atSelect.pushTrace = s.pushTrace := by simp [State.atSelect]
@[simp] theorem State.atSelect_responses (s : State) : s.atSelect.responses = s.responses := by simp [State.atSelect]
@[simp] theorem State.atSelect_outcomes (s : State) : s.atSelect.outcomes = s.outcomes := by simp [State.atSelect]
@[simp] theorem State.atSelect_regs (s : State) : s.atSelect.regs = s.regs := by simp [State.regs]

/-! ### `afterTxn` -/

@[simp] theorem State.afterTxn_radioState (s : State) (txn : BusTxn) (g : Nat) :
    (s.afterTxn txn g).radioState = s.radioState := by simp [State.afterTxn]
@[simp] theorem State.afterTxn_rxBuf (s : State) (txn : BusTxn) (g : Nat) :
    (s.afterTxn txn g).rxBuf = s.rxBuf := by simp [State.afterTxn]
@[simp] theorem State.afterTxn_rxCount (s : State) (txn : BusTxn) (g : Nat) :
    (s.afterTxn txn g).rxCount = s.rxCount := by simp [State.afterTxn]
@[simp] theorem State.afterTxn_rxTotal (s : State) (txn : BusTxn) (g : Nat) :
    (s.afterTxn txn g).rxTotal = s.rxTotal := by simp [State.afterTxn]
@[simp] theorem State.afterTxn_slots (s : State) (txn : BusTxn) (g : Nat) :
    (s.afterTxn txn g).slots = s.slots := by simp [State.afterTxn]
@[simp] theorem State.afterTxn_cursor (s : State) (txn : BusTxn) (g : Nat) :
    (s.afterTxn txn g).cursor = s.cursor := by simp [State.afterTxn]
@[simp] theorem State.afterTxn_txOffset (s : State) (txn : BusTxn) (g : Nat) :
    (s.afterTxn txn g).txOffset = s.txOffset := by simp [State.afterTxn]
@[simp] theorem State.afterTxn_window (s : State) (txn : BusTxn) (g : Nat) :
    (s.afterTxn txn g).window = s.window := by simp [State.afterTxn]
@[simp] theorem State.afterTxn_winIdx (s : State) (txn : BusTxn) (g : Nat) :
    (s.afterTxn txn g).winIdx = s.winIdx := by simp [State.afterTxn]
@[simp] theorem State.afterTxn_appliedOffset (s : State) (txn : BusTxn) (g : Nat) :
    (s.afterTxn txn g).appliedOffset = s.appliedOffset := by simp [State.afterTxn]
@[simp] theorem State.afterTxn_trackingEnabled (s : State) (txn : BusTxn) (g : Nat) :
    (s.afterTxn txn g).trackingEnabled = s.trackingEnabled := by simp [State.afterTxn]
@[simp] theorem State.afterTxn_trackedNetId (s : State) (txn : BusTxn) (g : Nat) :
    (s.afterTxn txn g).trackedNetId = s.trackedNetId := by simp [State.afterTxn]
@[simp] theorem State.afterTxn_config (s : State) (txn : BusTxn) (g : Nat) :
    (s.afterTxn txn g).config = s.config := by simp [State.afterTxn]
@[simp] theorem State.afterTxn_timerArmed (s : State) (txn : BusTxn) (g : Nat) :
    (s.afterTxn txn g).timerArmed = s.timerArmed := by simp [State.afterTxn]
@[simp] theorem State.afterTxn_timerDeadline (s : State) (txn : BusTxn) (g : Nat) :
    (s.afterTxn txn g).timerDeadline = s.timerDeadline := by simp [State.afterTxn]
@[simp] theorem State.afterTxn_irqEnabled (s : State) (txn : BusTxn) (g : Nat) :
    (s.afterTxn txn g).irqEnabled = s.irqEnabled := by simp [State.afterTxn]
@[simp] theorem State.afterTxn_irqPending (s : State) (txn : BusTxn) (g : Nat) :
    (s.afterTxn txn g).irqPending = s.irqPending := by simp [State.afterTxn]
@[simp] theorem State.afterTxn_cfg (s : State) (txn : BusTxn) (g : Nat) :
    (s.afterTxn txn g).cfg = s.cfg := by simp [State.afterTxn]
@[simp] theorem State.afterTxn_csNotBefore (s : State) (txn : BusTxn) (g : Nat) :
    (s.afterTxn txn g).csNotBefore = (s.afterTxn txn g).now + BitVec.ofNat 32 g := by simp [State.afterTxn]
@[simp] theorem State.afterTxn_now (s : State) (txn : BusTxn) (g : Nat) :
    (s.afterTxn txn g).now = s.atSelect.now + s.timing.transfer := by simp [State.afterTxn]
@[simp] theorem State.afterTxn_inp (s : State) (txn : BusTxn) (g : Nat) :
    (s.afterTxn txn g).inp = { s.inp with timings := s.inp.timings.tail } := by simp [State.afterTxn]
@[simp] theorem State.afterTxn_refused (s : State) (txn : BusTxn) (g : Nat) :
    (s.afterTxn txn g).refused = s.refused := by simp [State.afterTxn]
@[simp] theorem State.afterTxn_busTrace (s : State) (txn : BusTxn) (g : Nat) :
    (s.afterTxn txn g).busTrace =
      s.busTrace ++ [{ txn := txn, guardedAt := s.atGuard.now, selectAt := s.atSelect.now, releaseAt := (s.afterTxn txn g).now }] := by simp [State.afterTxn]
@[simp] theorem State.afterTxn_pushTrace (s : State) (txn : BusTxn) (g : Nat) :
    (s.afterTxn txn g).pushTrace = s.pushTrace := by simp [State.afterTxn]
@[simp] theorem State.afterTxn_responses (s : State) (txn : BusTxn) (g : Nat) :
    (s.afterTxn txn g).responses = s.responses := by simp [State.afterTxn]
@[simp] theorem State.afterTxn_outcomes (s : State) (txn : BusTxn) (g : Nat) :
    (s.afterTxn txn g).outcomes = s.outcomes := by simp [State.afterTxn]
@[simp] theorem State.afterTxn_regs (s : State) (txn : BusTxn) (g : Nat) :
    (s.afterTxn txn g).regs = s.regs := by simp [State.regs]

/-! ### `afterReset` -/

@[simp] theorem State.afterReset_radioState (s : State) :
    s.afterReset.radioState = s.radioState := by simp [State.afterReset]
@[simp] theorem State.afterReset_rxBuf (s : State) : s.afterReset.rxBuf = s.rxBuf := by simp [State.afterReset]
@[simp] theorem State.afterReset_rxCount (s : State) : s.afterReset.rxCount = s.rxCount := by simp [State.afterReset]
@[simp] theorem State.afterReset_rxTotal (s : State) : s.afterReset.rxTotal = s.rxTotal := by simp [State.afterReset]
@[simp] theorem State.afterReset_slots (s : State) : s.afterReset.slots = s.slots := by simp [State.afterReset]
@[simp] theorem State.afterReset_cursor (s : State) : s.afterReset.cursor = s.cursor := by simp [State.afterReset]
@[simp] theorem State.afterReset_txOffset (s : State) : s.afterReset.txOffset = s.txOffset := by simp [State.afterReset]
@[simp] theorem State.afterReset_window (s : State) : s.afterReset.window = s.window := by simp [State.afterReset]
@[simp] theorem State.afterReset_winIdx (s : State) : s.afterReset.winIdx = s.winIdx := by simp [State.afterReset]
@[simp] theorem State.afterReset_appliedOffset (s : State) :
    s.afterReset.appliedOffset = s.appliedOffset := by simp [State.afterReset]
@[simp] theorem State.afterReset_trackingEnabled (s : State) :
    s.afterReset.trackingEnabled = s.trackingEnabled := by simp [State.afterReset]
@[simp] theorem State.afterReset_trackedNetId (s : State) :
    s.afterReset.trackedNetId = s.trackedNetId := by simp [State.afterReset]
@[simp] theorem State.afterReset_config (s : State) : s.afterReset.config = s.config := by simp [State.afterReset]
@[simp] theorem State.afterReset_timerArmed (s : State) :
    s.afterReset.timerArmed = s.timerArmed := by simp [State.afterReset]
@[simp] theorem State.afterReset_timerDeadline (s : State) :
    s.afterReset.timerDeadline = s.timerDeadline := by simp [State.afterReset]
@[simp] theorem State.afterReset_irqEnabled (s : State) :
    s.afterReset.irqEnabled = s.irqEnabled := by simp [State.afterReset]
@[simp] theorem State.afterReset_irqPending (s : State) :
    s.afterReset.irqPending = s.irqPending := by simp [State.afterReset]
@[simp] theorem State.afterReset_cfg (s : State) : s.afterReset.cfg = s.cfg := by simp [State.afterReset]
@[simp] theorem State.afterReset_csNotBefore (s : State) :
    s.afterReset.csNotBefore = s.csNotBefore := by simp [State.afterReset]
@[simp] theorem State.afterReset_now (s : State) :
    s.afterReset.now = s.readClock.now + BitVec.ofNat 32 (resetDuration s.cfg) := by simp [State.afterReset]
@[simp] theorem State.afterReset_inp (s : State) :
    s.afterReset.inp = { s.inp with ticks := s.inp.ticks.tail } := by simp [State.afterReset]
@[simp] theorem State.afterReset_refused (s : State) : s.afterReset.refused = s.refused := by simp [State.afterReset]
@[simp] theorem State.afterReset_busTrace (s : State) :
    s.afterReset.busTrace =
      s.busTrace ++ [{ txn := .reset, guardedAt := s.now, selectAt := s.now, releaseAt := s.afterReset.now }] := by simp [State.afterReset]
@[simp] theorem State.afterReset_pushTrace (s : State) :
    s.afterReset.pushTrace = s.pushTrace := by simp [State.afterReset]
@[simp] theorem State.afterReset_responses (s : State) :
    s.afterReset.responses = s.responses := by simp [State.afterReset]
@[simp] theorem State.afterReset_outcomes (s : State) : s.afterReset.outcomes = s.outcomes := by simp [State.afterReset]
@[simp] theorem State.afterReset_regs (s : State) : s.afterReset.regs = s.regs := by simp [State.regs]

/-! ### `respond` -/

@[simp] theorem State.respond_radioState (s : State) (bs : Bytes) : (s.respond bs).radioState = s.radioState := rfl
@[simp] theorem State.respond_rxBuf (s : State) (bs : Bytes) : (s.respond bs).rxBuf = s.rxBuf := rfl
@[simp] theorem State.respond_rxCount (s : State) (bs : Bytes) : (s.respond bs).rxCount = s.rxCount := rfl
@[simp] theorem State.respond_rxTotal (s : State) (bs : Bytes) : (s.respond bs).rxTotal = s.rxTotal := rfl
@[simp] theorem State.respond_slots (s : State) (bs : Bytes) : (s.respond bs).slots = s.slots := rfl
@[simp] theorem State.respond_cursor (s : State) (bs : Bytes) : (s.respond bs).cursor = s.cursor := rfl
@[simp] theorem State.respond_txOffset (s : State) (bs : Bytes) : (s.respond bs).txOffset = s.txOffset := rfl
@[simp] theorem State.respond_window (s : State) (bs : Bytes) : (s.respond bs).window = s.window := rfl
@[simp] theorem State.respond_winIdx (s : State) (bs : Bytes) : (s.respond bs).winIdx = s.winIdx := rfl
@[simp] theorem State.respond_appliedOffset (s : State) (bs : Bytes) :
    (s.respond bs).appliedOffset = s.appliedOffset := rfl
@[simp] theorem State.respond_trackingEnabled (s : State) (bs : Bytes) :
    (s.respond bs).trackingEnabled = s.trackingEnabled := rfl
@[simp] theorem State.respond_trackedNetId (s : State) (bs : Bytes) :
    (s.respond bs).trackedNetId = s.trackedNetId := rfl
@[simp] theorem State.respond_config (s : State) (bs : Bytes) : (s.respond bs).config = s.config := rfl
@[simp] theorem State.respond_timerArmed (s : State) (bs : Bytes) : (s.respond bs).timerArmed = s.timerArmed := rfl
@[simp] theorem State.respond_timerDeadline (s : State) (bs : Bytes) :
    (s.respond bs).timerDeadline = s.timerDeadline := rfl
@[simp] theorem State.respond_irqEnabled (s : State) (bs : Bytes) : (s.respond bs).irqEnabled = s.irqEnabled := rfl
@[simp] theorem State.respond_irqPending (s : State) (bs : Bytes) : (s.respond bs).irqPending = s.irqPending := rfl
@[simp] theorem State.respond_cfg (s : State) (bs : Bytes) : (s.respond bs).cfg = s.cfg := rfl
@[simp] theorem State.respond_csNotBefore (s : State) (bs : Bytes) : (s.respond bs).csNotBefore = s.csNotBefore := rfl
@[simp] theorem State.respond_timerPending (s : State) (bs : Bytes) :
    (s.respond bs).timerPending = s.timerPending := rfl
@[simp] theorem State.respond_now (s : State) (bs : Bytes) : (s.respond bs).now = s.now := rfl
@[simp] theorem State.respond_inp (s : State) (bs : Bytes) : (s.respond bs).inp = s.inp := rfl
@[simp] theorem State.respond_refused (s : State) (bs : Bytes) : (s.respond bs).refused = s.refused := rfl
@[simp] theorem State.respond_busTrace (s : State) (bs : Bytes) : (s.respond bs).busTrace = s.busTrace := rfl
@[simp] theorem State.respond_pushTrace (s : State) (bs : Bytes) : (s.respond bs).pushTrace = s.pushTrace := rfl
@[simp] theorem State.respond_responses (s : State) (bs : Bytes) : (s.respond bs).responses = s.responses ++ [bs] := rfl
@[simp] theorem State.respond_outcomes (s : State) (bs : Bytes) : (s.respond bs).outcomes = s.outcomes := rfl
@[simp] theorem State.respond_regs (s : State) (bs : Bytes) : (s.respond bs).regs = s.regs := rfl

/-! ### `push` -/

@[simp] theorem State.push_radioState (s : State) (f : FrameRecord) : (s.push f).radioState = s.radioState := rfl
@[simp] theorem State.push_rxBuf (s : State) (f : FrameRecord) : (s.push f).rxBuf = s.rxBuf := rfl
@[simp] theorem State.push_rxCount (s : State) (f : FrameRecord) : (s.push f).rxCount = s.rxCount := rfl
@[simp] theorem State.push_rxTotal (s : State) (f : FrameRecord) : (s.push f).rxTotal = s.rxTotal := rfl
@[simp] theorem State.push_slots (s : State) (f : FrameRecord) : (s.push f).slots = s.slots := rfl
@[simp] theorem State.push_cursor (s : State) (f : FrameRecord) : (s.push f).cursor = s.cursor := rfl
@[simp] theorem State.push_txOffset (s : State) (f : FrameRecord) : (s.push f).txOffset = s.txOffset := rfl
@[simp] theorem State.push_window (s : State) (f : FrameRecord) : (s.push f).window = s.window := rfl
@[simp] theorem State.push_winIdx (s : State) (f : FrameRecord) : (s.push f).winIdx = s.winIdx := rfl
@[simp] theorem State.push_appliedOffset (s : State) (f : FrameRecord) :
    (s.push f).appliedOffset = s.appliedOffset := rfl
@[simp] theorem State.push_trackingEnabled (s : State) (f : FrameRecord) :
    (s.push f).trackingEnabled = s.trackingEnabled := rfl
@[simp] theorem State.push_trackedNetId (s : State) (f : FrameRecord) : (s.push f).trackedNetId = s.trackedNetId := rfl
@[simp] theorem State.push_config (s : State) (f : FrameRecord) : (s.push f).config = s.config := rfl
@[simp] theorem State.push_timerArmed (s : State) (f : FrameRecord) : (s.push f).timerArmed = s.timerArmed := rfl
@[simp] theorem State.push_timerDeadline (s : State) (f : FrameRecord) :
    (s.push f).timerDeadline = s.timerDeadline := rfl
@[simp] theorem State.push_irqEnabled (s : State) (f : FrameRecord) : (s.push f).irqEnabled = s.irqEnabled := rfl
@[simp] theorem State.push_irqPending (s : State) (f : FrameRecord) : (s.push f).irqPending = s.irqPending := rfl
@[simp] theorem State.push_cfg (s : State) (f : FrameRecord) : (s.push f).cfg = s.cfg := rfl
@[simp] theorem State.push_csNotBefore (s : State) (f : FrameRecord) : (s.push f).csNotBefore = s.csNotBefore := rfl
@[simp] theorem State.push_timerPending (s : State) (f : FrameRecord) : (s.push f).timerPending = s.timerPending := rfl
@[simp] theorem State.push_now (s : State) (f : FrameRecord) : (s.push f).now = s.now := rfl
@[simp] theorem State.push_inp (s : State) (f : FrameRecord) : (s.push f).inp = s.inp := rfl
@[simp] theorem State.push_refused (s : State) (f : FrameRecord) : (s.push f).refused = s.refused := rfl
@[simp] theorem State.push_busTrace (s : State) (f : FrameRecord) : (s.push f).busTrace = s.busTrace := rfl
@[simp] theorem State.push_pushTrace (s : State) (f : FrameRecord) : (s.push f).pushTrace = s.pushTrace ++ [f] := rfl
@[simp] theorem State.push_responses (s : State) (f : FrameRecord) : (s.push f).responses = s.responses := rfl
@[simp] theorem State.push_outcomes (s : State) (f : FrameRecord) : (s.push f).outcomes = s.outcomes := rfl
@[simp] theorem State.push_regs (s : State) (f : FrameRecord) : (s.push f).regs = s.regs := rfl

/-! ### `clearOffset` -/

@[simp] theorem State.clearOffset_radioState (s : State) : s.clearOffset.radioState = s.radioState := rfl
@[simp] theorem State.clearOffset_rxBuf (s : State) : s.clearOffset.rxBuf = s.rxBuf := rfl
@[simp] theorem State.clearOffset_rxCount (s : State) : s.clearOffset.rxCount = s.rxCount := rfl
@[simp] theorem State.clearOffset_rxTotal (s : State) : s.clearOffset.rxTotal = s.rxTotal := rfl
@[simp] theorem State.clearOffset_slots (s : State) : s.clearOffset.slots = s.slots := rfl
@[simp] theorem State.clearOffset_cursor (s : State) : s.clearOffset.cursor = s.cursor := rfl
@[simp] theorem State.clearOffset_txOffset (s : State) : s.clearOffset.txOffset = s.txOffset := rfl
@[simp] theorem State.clearOffset_window (s : State) : s.clearOffset.window = s.window := rfl
@[simp] theorem State.clearOffset_winIdx (s : State) : s.clearOffset.winIdx = s.winIdx := rfl
@[simp] theorem State.clearOffset_appliedOffset (s : State) : s.clearOffset.appliedOffset = 0 := rfl
@[simp] theorem State.clearOffset_trackingEnabled (s : State) : s.clearOffset.trackingEnabled = s.trackingEnabled := rfl
@[simp] theorem State.clearOffset_trackedNetId (s : State) : s.clearOffset.trackedNetId = s.trackedNetId := rfl
@[simp] theorem State.clearOffset_config (s : State) : s.clearOffset.config = s.config := rfl
@[simp] theorem State.clearOffset_timerArmed (s : State) : s.clearOffset.timerArmed = s.timerArmed := rfl
@[simp] theorem State.clearOffset_timerDeadline (s : State) : s.clearOffset.timerDeadline = s.timerDeadline := rfl
@[simp] theorem State.clearOffset_irqEnabled (s : State) : s.clearOffset.irqEnabled = s.irqEnabled := rfl
@[simp] theorem State.clearOffset_irqPending (s : State) : s.clearOffset.irqPending = s.irqPending := rfl
@[simp] theorem State.clearOffset_cfg (s : State) : s.clearOffset.cfg = s.cfg := rfl
@[simp] theorem State.clearOffset_csNotBefore (s : State) : s.clearOffset.csNotBefore = s.csNotBefore := rfl
@[simp] theorem State.clearOffset_timerPending (s : State) : s.clearOffset.timerPending = s.timerPending := rfl
@[simp] theorem State.clearOffset_now (s : State) : s.clearOffset.now = s.now := rfl
@[simp] theorem State.clearOffset_inp (s : State) : s.clearOffset.inp = s.inp := rfl
@[simp] theorem State.clearOffset_refused (s : State) : s.clearOffset.refused = s.refused := rfl
@[simp] theorem State.clearOffset_busTrace (s : State) : s.clearOffset.busTrace = s.busTrace := rfl
@[simp] theorem State.clearOffset_pushTrace (s : State) : s.clearOffset.pushTrace = s.pushTrace := rfl
@[simp] theorem State.clearOffset_responses (s : State) : s.clearOffset.responses = s.responses := rfl
@[simp] theorem State.clearOffset_outcomes (s : State) : s.clearOffset.outcomes = s.outcomes := rfl

/-! ### `setFreqHi` -/

@[simp] theorem State.setFreqHi_radioState (s : State) (b : Byte) : (s.setFreqHi b).radioState = s.radioState := rfl
@[simp] theorem State.setFreqHi_rxBuf (s : State) (b : Byte) : (s.setFreqHi b).rxBuf = s.rxBuf := rfl
@[simp] theorem State.setFreqHi_rxCount (s : State) (b : Byte) : (s.setFreqHi b).rxCount = s.rxCount := rfl
@[simp] theorem State.setFreqHi_rxTotal (s : State) (b : Byte) : (s.setFreqHi b).rxTotal = s.rxTotal := rfl
@[simp] theorem State.setFreqHi_slots (s : State) (b : Byte) : (s.setFreqHi b).slots = s.slots := rfl
@[simp] theorem State.setFreqHi_cursor (s : State) (b : Byte) : (s.setFreqHi b).cursor = s.cursor := rfl
@[simp] theorem State.setFreqHi_txOffset (s : State) (b : Byte) : (s.setFreqHi b).txOffset = s.txOffset := rfl
@[simp] theorem State.setFreqHi_window (s : State) (b : Byte) : (s.setFreqHi b).window = s.window := rfl
@[simp] theorem State.setFreqHi_winIdx (s : State) (b : Byte) : (s.setFreqHi b).winIdx = s.winIdx := rfl
@[simp] theorem State.setFreqHi_appliedOffset (s : State) (b : Byte) :
    (s.setFreqHi b).appliedOffset = s.appliedOffset := rfl
@[simp] theorem State.setFreqHi_trackingEnabled (s : State) (b : Byte) :
    (s.setFreqHi b).trackingEnabled = s.trackingEnabled := rfl
@[simp] theorem State.setFreqHi_trackedNetId (s : State) (b : Byte) :
    (s.setFreqHi b).trackedNetId = s.trackedNetId := rfl
@[simp] theorem State.setFreqHi_config (s : State) (b : Byte) :
    (s.setFreqHi b).config = { s.config with freqHi := b } := rfl
@[simp] theorem State.setFreqHi_timerArmed (s : State) (b : Byte) : (s.setFreqHi b).timerArmed = s.timerArmed := rfl
@[simp] theorem State.setFreqHi_timerDeadline (s : State) (b : Byte) :
    (s.setFreqHi b).timerDeadline = s.timerDeadline := rfl
@[simp] theorem State.setFreqHi_irqEnabled (s : State) (b : Byte) : (s.setFreqHi b).irqEnabled = s.irqEnabled := rfl
@[simp] theorem State.setFreqHi_irqPending (s : State) (b : Byte) : (s.setFreqHi b).irqPending = s.irqPending := rfl
@[simp] theorem State.setFreqHi_cfg (s : State) (b : Byte) : (s.setFreqHi b).cfg = s.cfg := rfl
@[simp] theorem State.setFreqHi_csNotBefore (s : State) (b : Byte) : (s.setFreqHi b).csNotBefore = s.csNotBefore := rfl
@[simp] theorem State.setFreqHi_timerPending (s : State) (b : Byte) :
    (s.setFreqHi b).timerPending = s.timerPending := rfl
@[simp] theorem State.setFreqHi_now (s : State) (b : Byte) : (s.setFreqHi b).now = s.now := rfl
@[simp] theorem State.setFreqHi_inp (s : State) (b : Byte) : (s.setFreqHi b).inp = s.inp := rfl
@[simp] theorem State.setFreqHi_refused (s : State) (b : Byte) : (s.setFreqHi b).refused = s.refused := rfl
@[simp] theorem State.setFreqHi_busTrace (s : State) (b : Byte) : (s.setFreqHi b).busTrace = s.busTrace := rfl
@[simp] theorem State.setFreqHi_pushTrace (s : State) (b : Byte) : (s.setFreqHi b).pushTrace = s.pushTrace := rfl
@[simp] theorem State.setFreqHi_responses (s : State) (b : Byte) : (s.setFreqHi b).responses = s.responses := rfl
@[simp] theorem State.setFreqHi_outcomes (s : State) (b : Byte) : (s.setFreqHi b).outcomes = s.outcomes := rfl

/-! ### `setFreqMid` -/

@[simp] theorem State.setFreqMid_radioState (s : State) (b : Byte) : (s.setFreqMid b).radioState = s.radioState := rfl
@[simp] theorem State.setFreqMid_rxBuf (s : State) (b : Byte) : (s.setFreqMid b).rxBuf = s.rxBuf := rfl
@[simp] theorem State.setFreqMid_rxCount (s : State) (b : Byte) : (s.setFreqMid b).rxCount = s.rxCount := rfl
@[simp] theorem State.setFreqMid_rxTotal (s : State) (b : Byte) : (s.setFreqMid b).rxTotal = s.rxTotal := rfl
@[simp] theorem State.setFreqMid_slots (s : State) (b : Byte) : (s.setFreqMid b).slots = s.slots := rfl
@[simp] theorem State.setFreqMid_cursor (s : State) (b : Byte) : (s.setFreqMid b).cursor = s.cursor := rfl
@[simp] theorem State.setFreqMid_txOffset (s : State) (b : Byte) : (s.setFreqMid b).txOffset = s.txOffset := rfl
@[simp] theorem State.setFreqMid_window (s : State) (b : Byte) : (s.setFreqMid b).window = s.window := rfl
@[simp] theorem State.setFreqMid_winIdx (s : State) (b : Byte) : (s.setFreqMid b).winIdx = s.winIdx := rfl
@[simp] theorem State.setFreqMid_appliedOffset (s : State) (b : Byte) :
    (s.setFreqMid b).appliedOffset = s.appliedOffset := rfl
@[simp] theorem State.setFreqMid_trackingEnabled (s : State) (b : Byte) :
    (s.setFreqMid b).trackingEnabled = s.trackingEnabled := rfl
@[simp] theorem State.setFreqMid_trackedNetId (s : State) (b : Byte) :
    (s.setFreqMid b).trackedNetId = s.trackedNetId := rfl
@[simp] theorem State.setFreqMid_config (s : State) (b : Byte) :
    (s.setFreqMid b).config = { s.config with freqMid := b } := rfl
@[simp] theorem State.setFreqMid_timerArmed (s : State) (b : Byte) : (s.setFreqMid b).timerArmed = s.timerArmed := rfl
@[simp] theorem State.setFreqMid_timerDeadline (s : State) (b : Byte) :
    (s.setFreqMid b).timerDeadline = s.timerDeadline := rfl
@[simp] theorem State.setFreqMid_irqEnabled (s : State) (b : Byte) : (s.setFreqMid b).irqEnabled = s.irqEnabled := rfl
@[simp] theorem State.setFreqMid_irqPending (s : State) (b : Byte) : (s.setFreqMid b).irqPending = s.irqPending := rfl
@[simp] theorem State.setFreqMid_cfg (s : State) (b : Byte) : (s.setFreqMid b).cfg = s.cfg := rfl
@[simp] theorem State.setFreqMid_csNotBefore (s : State) (b : Byte) :
    (s.setFreqMid b).csNotBefore = s.csNotBefore := rfl
@[simp] theorem State.setFreqMid_timerPending (s : State) (b : Byte) :
    (s.setFreqMid b).timerPending = s.timerPending := rfl
@[simp] theorem State.setFreqMid_now (s : State) (b : Byte) : (s.setFreqMid b).now = s.now := rfl
@[simp] theorem State.setFreqMid_inp (s : State) (b : Byte) : (s.setFreqMid b).inp = s.inp := rfl
@[simp] theorem State.setFreqMid_refused (s : State) (b : Byte) : (s.setFreqMid b).refused = s.refused := rfl
@[simp] theorem State.setFreqMid_busTrace (s : State) (b : Byte) : (s.setFreqMid b).busTrace = s.busTrace := rfl
@[simp] theorem State.setFreqMid_pushTrace (s : State) (b : Byte) : (s.setFreqMid b).pushTrace = s.pushTrace := rfl
@[simp] theorem State.setFreqMid_responses (s : State) (b : Byte) : (s.setFreqMid b).responses = s.responses := rfl
@[simp] theorem State.setFreqMid_outcomes (s : State) (b : Byte) : (s.setFreqMid b).outcomes = s.outcomes := rfl

/-! ### `setFreqLo` -/

@[simp] theorem State.setFreqLo_radioState (s : State) (b : Byte) : (s.setFreqLo b).radioState = s.radioState := rfl
@[simp] theorem State.setFreqLo_rxBuf (s : State) (b : Byte) : (s.setFreqLo b).rxBuf = s.rxBuf := rfl
@[simp] theorem State.setFreqLo_rxCount (s : State) (b : Byte) : (s.setFreqLo b).rxCount = s.rxCount := rfl
@[simp] theorem State.setFreqLo_rxTotal (s : State) (b : Byte) : (s.setFreqLo b).rxTotal = s.rxTotal := rfl
@[simp] theorem State.setFreqLo_slots (s : State) (b : Byte) : (s.setFreqLo b).slots = s.slots := rfl
@[simp] theorem State.setFreqLo_cursor (s : State) (b : Byte) : (s.setFreqLo b).cursor = s.cursor := rfl
@[simp] theorem State.setFreqLo_txOffset (s : State) (b : Byte) : (s.setFreqLo b).txOffset = s.txOffset := rfl
@[simp] theorem State.setFreqLo_window (s : State) (b : Byte) : (s.setFreqLo b).window = s.window := rfl
@[simp] theorem State.setFreqLo_winIdx (s : State) (b : Byte) : (s.setFreqLo b).winIdx = s.winIdx := rfl
@[simp] theorem State.setFreqLo_appliedOffset (s : State) (b : Byte) :
    (s.setFreqLo b).appliedOffset = s.appliedOffset := rfl
@[simp] theorem State.setFreqLo_trackingEnabled (s : State) (b : Byte) :
    (s.setFreqLo b).trackingEnabled = s.trackingEnabled := rfl
@[simp] theorem State.setFreqLo_trackedNetId (s : State) (b : Byte) :
    (s.setFreqLo b).trackedNetId = s.trackedNetId := rfl
@[simp] theorem State.setFreqLo_config (s : State) (b : Byte) :
    (s.setFreqLo b).config = { s.config with freqLo := b } := rfl
@[simp] theorem State.setFreqLo_timerArmed (s : State) (b : Byte) : (s.setFreqLo b).timerArmed = s.timerArmed := rfl
@[simp] theorem State.setFreqLo_timerDeadline (s : State) (b : Byte) :
    (s.setFreqLo b).timerDeadline = s.timerDeadline := rfl
@[simp] theorem State.setFreqLo_irqEnabled (s : State) (b : Byte) : (s.setFreqLo b).irqEnabled = s.irqEnabled := rfl
@[simp] theorem State.setFreqLo_irqPending (s : State) (b : Byte) : (s.setFreqLo b).irqPending = s.irqPending := rfl
@[simp] theorem State.setFreqLo_cfg (s : State) (b : Byte) : (s.setFreqLo b).cfg = s.cfg := rfl
@[simp] theorem State.setFreqLo_csNotBefore (s : State) (b : Byte) : (s.setFreqLo b).csNotBefore = s.csNotBefore := rfl
@[simp] theorem State.setFreqLo_timerPending (s : State) (b : Byte) :
    (s.setFreqLo b).timerPending = s.timerPending := rfl
@[simp] theorem State.setFreqLo_now (s : State) (b : Byte) : (s.setFreqLo b).now = s.now := rfl
@[simp] theorem State.setFreqLo_inp (s : State) (b : Byte) : (s.setFreqLo b).inp = s.inp := rfl
@[simp] theorem State.setFreqLo_refused (s : State) (b : Byte) : (s.setFreqLo b).refused = s.refused := rfl
@[simp] theorem State.setFreqLo_busTrace (s : State) (b : Byte) : (s.setFreqLo b).busTrace = s.busTrace := rfl
@[simp] theorem State.setFreqLo_pushTrace (s : State) (b : Byte) : (s.setFreqLo b).pushTrace = s.pushTrace := rfl
@[simp] theorem State.setFreqLo_responses (s : State) (b : Byte) : (s.setFreqLo b).responses = s.responses := rfl
@[simp] theorem State.setFreqLo_outcomes (s : State) (b : Byte) : (s.setFreqLo b).outcomes = s.outcomes := rfl

/-! ### `setBwCode` -/

@[simp] theorem State.setBwCode_radioState (s : State) (c : Byte) : (s.setBwCode c).radioState = s.radioState := rfl
@[simp] theorem State.setBwCode_rxBuf (s : State) (c : Byte) : (s.setBwCode c).rxBuf = s.rxBuf := rfl
@[simp] theorem State.setBwCode_rxCount (s : State) (c : Byte) : (s.setBwCode c).rxCount = s.rxCount := rfl
@[simp] theorem State.setBwCode_rxTotal (s : State) (c : Byte) : (s.setBwCode c).rxTotal = s.rxTotal := rfl
@[simp] theorem State.setBwCode_slots (s : State) (c : Byte) : (s.setBwCode c).slots = s.slots := rfl
@[simp] theorem State.setBwCode_cursor (s : State) (c : Byte) : (s.setBwCode c).cursor = s.cursor := rfl
@[simp] theorem State.setBwCode_txOffset (s : State) (c : Byte) : (s.setBwCode c).txOffset = s.txOffset := rfl
@[simp] theorem State.setBwCode_window (s : State) (c : Byte) : (s.setBwCode c).window = s.window := rfl
@[simp] theorem State.setBwCode_winIdx (s : State) (c : Byte) : (s.setBwCode c).winIdx = s.winIdx := rfl
@[simp] theorem State.setBwCode_appliedOffset (s : State) (c : Byte) :
    (s.setBwCode c).appliedOffset = s.appliedOffset := rfl
@[simp] theorem State.setBwCode_trackingEnabled (s : State) (c : Byte) :
    (s.setBwCode c).trackingEnabled = s.trackingEnabled := rfl
@[simp] theorem State.setBwCode_trackedNetId (s : State) (c : Byte) :
    (s.setBwCode c).trackedNetId = s.trackedNetId := rfl
@[simp] theorem State.setBwCode_config (s : State) (c : Byte) :
    (s.setBwCode c).config = { s.config with bwCode := c } := rfl
@[simp] theorem State.setBwCode_timerArmed (s : State) (c : Byte) : (s.setBwCode c).timerArmed = s.timerArmed := rfl
@[simp] theorem State.setBwCode_timerDeadline (s : State) (c : Byte) :
    (s.setBwCode c).timerDeadline = s.timerDeadline := rfl
@[simp] theorem State.setBwCode_irqEnabled (s : State) (c : Byte) : (s.setBwCode c).irqEnabled = s.irqEnabled := rfl
@[simp] theorem State.setBwCode_irqPending (s : State) (c : Byte) : (s.setBwCode c).irqPending = s.irqPending := rfl
@[simp] theorem State.setBwCode_cfg (s : State) (c : Byte) : (s.setBwCode c).cfg = s.cfg := rfl
@[simp] theorem State.setBwCode_csNotBefore (s : State) (c : Byte) : (s.setBwCode c).csNotBefore = s.csNotBefore := rfl
@[simp] theorem State.setBwCode_timerPending (s : State) (c : Byte) :
    (s.setBwCode c).timerPending = s.timerPending := rfl
@[simp] theorem State.setBwCode_now (s : State) (c : Byte) : (s.setBwCode c).now = s.now := rfl
@[simp] theorem State.setBwCode_inp (s : State) (c : Byte) : (s.setBwCode c).inp = s.inp := rfl
@[simp] theorem State.setBwCode_refused (s : State) (c : Byte) : (s.setBwCode c).refused = s.refused := rfl
@[simp] theorem State.setBwCode_busTrace (s : State) (c : Byte) : (s.setBwCode c).busTrace = s.busTrace := rfl
@[simp] theorem State.setBwCode_pushTrace (s : State) (c : Byte) : (s.setBwCode c).pushTrace = s.pushTrace := rfl
@[simp] theorem State.setBwCode_responses (s : State) (c : Byte) : (s.setBwCode c).responses = s.responses := rfl
@[simp] theorem State.setBwCode_outcomes (s : State) (c : Byte) : (s.setBwCode c).outcomes = s.outcomes := rfl

/-! ### `setBitrateCode` -/

@[simp] theorem State.setBitrateCode_radioState (s : State) (c : Word16) :
    (s.setBitrateCode c).radioState = s.radioState := rfl
@[simp] theorem State.setBitrateCode_rxBuf (s : State) (c : Word16) : (s.setBitrateCode c).rxBuf = s.rxBuf := rfl
@[simp] theorem State.setBitrateCode_rxCount (s : State) (c : Word16) : (s.setBitrateCode c).rxCount = s.rxCount := rfl
@[simp] theorem State.setBitrateCode_rxTotal (s : State) (c : Word16) : (s.setBitrateCode c).rxTotal = s.rxTotal := rfl
@[simp] theorem State.setBitrateCode_slots (s : State) (c : Word16) : (s.setBitrateCode c).slots = s.slots := rfl
@[simp] theorem State.setBitrateCode_cursor (s : State) (c : Word16) : (s.setBitrateCode c).cursor = s.cursor := rfl
@[simp] theorem State.setBitrateCode_txOffset (s : State) (c : Word16) :
    (s.setBitrateCode c).txOffset = s.txOffset := rfl
@[simp] theorem State.setBitrateCode_window (s : State) (c : Word16) : (s.setBitrateCode c).window = s.window := rfl
@[simp] theorem State.setBitrateCode_winIdx (s : State) (c : Word16) : (s.setBitrateCode c).winIdx = s.winIdx := rfl
@[simp] theorem State.setBitrateCode_appliedOffset (s : State) (c : Word16) :
    (s.setBitrateCode c).appliedOffset = s.appliedOffset := rfl
@[simp] theorem State.setBitrateCode_trackingEnabled (s : State) (c : Word16) :
    (s.setBitrateCode c).trackingEnabled = s.trackingEnabled := rfl
@[simp] theorem State.setBitrateCode_trackedNetId (s : State) (c : Word16) :
    (s.setBitrateCode c).trackedNetId = s.trackedNetId := rfl
@[simp] theorem State.setBitrateCode_config (s : State) (c : Word16) :
    (s.setBitrateCode c).config = { s.config with bitrateCode := c } := rfl
@[simp] theorem State.setBitrateCode_timerArmed (s : State) (c : Word16) :
    (s.setBitrateCode c).timerArmed = s.timerArmed := rfl
@[simp] theorem State.setBitrateCode_timerDeadline (s : State) (c : Word16) :
    (s.setBitrateCode c).timerDeadline = s.timerDeadline := rfl
@[simp] theorem State.setBitrateCode_irqEnabled (s : State) (c : Word16) :
    (s.setBitrateCode c).irqEnabled = s.irqEnabled := rfl
@[simp] theorem State.setBitrateCode_irqPending (s : State) (c : Word16) :
    (s.setBitrateCode c).irqPending = s.irqPending := rfl
@[simp] theorem State.setBitrateCode_cfg (s : State) (c : Word16) : (s.setBitrateCode c).cfg = s.cfg := rfl
@[simp] theorem State.setBitrateCode_csNotBefore (s : State) (c : Word16) :
    (s.setBitrateCode c).csNotBefore = s.csNotBefore := rfl
@[simp] theorem State.setBitrateCode_timerPending (s : State) (c : Word16) :
    (s.setBitrateCode c).timerPending = s.timerPending := rfl
@[simp] theorem State.setBitrateCode_now (s : State) (c : Word16) : (s.setBitrateCode c).now = s.now := rfl
@[simp] theorem State.setBitrateCode_inp (s : State) (c : Word16) : (s.setBitrateCode c).inp = s.inp := rfl
@[simp] theorem State.setBitrateCode_refused (s : State) (c : Word16) : (s.setBitrateCode c).refused = s.refused := rfl
@[simp] theorem State.setBitrateCode_busTrace (s : State) (c : Word16) :
    (s.setBitrateCode c).busTrace = s.busTrace := rfl
@[simp] theorem State.setBitrateCode_pushTrace (s : State) (c : Word16) :
    (s.setBitrateCode c).pushTrace = s.pushTrace := rfl
@[simp] theorem State.setBitrateCode_responses (s : State) (c : Word16) :
    (s.setBitrateCode c).responses = s.responses := rfl
@[simp] theorem State.setBitrateCode_outcomes (s : State) (c : Word16) :
    (s.setBitrateCode c).outcomes = s.outcomes := rfl

/-! ### `setDevCode` -/

@[simp] theorem State.setDevCode_radioState (s : State) (c : Byte) : (s.setDevCode c).radioState = s.radioState := rfl
@[simp] theorem State.setDevCode_rxBuf (s : State) (c : Byte) : (s.setDevCode c).rxBuf = s.rxBuf := rfl
@[simp] theorem State.setDevCode_rxCount (s : State) (c : Byte) : (s.setDevCode c).rxCount = s.rxCount := rfl
@[simp] theorem State.setDevCode_rxTotal (s : State) (c : Byte) : (s.setDevCode c).rxTotal = s.rxTotal := rfl
@[simp] theorem State.setDevCode_slots (s : State) (c : Byte) : (s.setDevCode c).slots = s.slots := rfl
@[simp] theorem State.setDevCode_cursor (s : State) (c : Byte) : (s.setDevCode c).cursor = s.cursor := rfl
@[simp] theorem State.setDevCode_txOffset (s : State) (c : Byte) : (s.setDevCode c).txOffset = s.txOffset := rfl
@[simp] theorem State.setDevCode_window (s : State) (c : Byte) : (s.setDevCode c).window = s.window := rfl
@[simp] theorem State.setDevCode_winIdx (s : State) (c : Byte) : (s.setDevCode c).winIdx = s.winIdx := rfl
@[simp] theorem State.setDevCode_appliedOffset (s : State) (c : Byte) :
    (s.setDevCode c).appliedOffset = s.appliedOffset := rfl
@[simp] theorem State.setDevCode_trackingEnabled (s : State) (c : Byte) :
    (s.setDevCode c).trackingEnabled = s.trackingEnabled := rfl
@[simp] theorem State.setDevCode_trackedNetId (s : State) (c : Byte) :
    (s.setDevCode c).trackedNetId = s.trackedNetId := rfl
@[simp] theorem State.setDevCode_config (s : State) (c : Byte) :
    (s.setDevCode c).config = { s.config with devCode := c } := rfl
@[simp] theorem State.setDevCode_timerArmed (s : State) (c : Byte) : (s.setDevCode c).timerArmed = s.timerArmed := rfl
@[simp] theorem State.setDevCode_timerDeadline (s : State) (c : Byte) :
    (s.setDevCode c).timerDeadline = s.timerDeadline := rfl
@[simp] theorem State.setDevCode_irqEnabled (s : State) (c : Byte) : (s.setDevCode c).irqEnabled = s.irqEnabled := rfl
@[simp] theorem State.setDevCode_irqPending (s : State) (c : Byte) : (s.setDevCode c).irqPending = s.irqPending := rfl
@[simp] theorem State.setDevCode_cfg (s : State) (c : Byte) : (s.setDevCode c).cfg = s.cfg := rfl
@[simp] theorem State.setDevCode_csNotBefore (s : State) (c : Byte) :
    (s.setDevCode c).csNotBefore = s.csNotBefore := rfl
@[simp] theorem State.setDevCode_timerPending (s : State) (c : Byte) :
    (s.setDevCode c).timerPending = s.timerPending := rfl
@[simp] theorem State.setDevCode_now (s : State) (c : Byte) : (s.setDevCode c).now = s.now := rfl
@[simp] theorem State.setDevCode_inp (s : State) (c : Byte) : (s.setDevCode c).inp = s.inp := rfl
@[simp] theorem State.setDevCode_refused (s : State) (c : Byte) : (s.setDevCode c).refused = s.refused := rfl
@[simp] theorem State.setDevCode_busTrace (s : State) (c : Byte) : (s.setDevCode c).busTrace = s.busTrace := rfl
@[simp] theorem State.setDevCode_pushTrace (s : State) (c : Byte) : (s.setDevCode c).pushTrace = s.pushTrace := rfl
@[simp] theorem State.setDevCode_responses (s : State) (c : Byte) : (s.setDevCode c).responses = s.responses := rfl
@[simp] theorem State.setDevCode_outcomes (s : State) (c : Byte) : (s.setDevCode c).outcomes = s.outcomes := rfl

/-! ### `setFifoThreshold` -/

@[simp] theorem State.setFifoThreshold_radioState (s : State) (c : Byte) :
    (s.setFifoThreshold c).radioState = s.radioState := rfl
@[simp] theorem State.setFifoThreshold_rxBuf (s : State) (c : Byte) : (s.setFifoThreshold c).rxBuf = s.rxBuf := rfl
@[simp] theorem State.setFifoThreshold_rxCount (s : State) (c : Byte) :
    (s.setFifoThreshold c).rxCount = s.rxCount := rfl
@[simp] theorem State.setFifoThreshold_rxTotal (s : State) (c : Byte) :
    (s.setFifoThreshold c).rxTotal = s.rxTotal := rfl
@[simp] theorem State.setFifoThreshold_slots (s : State) (c : Byte) : (s.setFifoThreshold c).slots = s.slots := rfl
@[simp] theorem State.setFifoThreshold_cursor (s : State) (c : Byte) : (s.setFifoThreshold c).cursor = s.cursor := rfl
@[simp] theorem State.setFifoThreshold_txOffset (s : State) (c : Byte) :
    (s.setFifoThreshold c).txOffset = s.txOffset := rfl
@[simp] theorem State.setFifoThreshold_window (s : State) (c : Byte) : (s.setFifoThreshold c).window = s.window := rfl
@[simp] theorem State.setFifoThreshold_winIdx (s : State) (c : Byte) : (s.setFifoThreshold c).winIdx = s.winIdx := rfl
@[simp] theorem State.setFifoThreshold_appliedOffset (s : State) (c : Byte) :
    (s.setFifoThreshold c).appliedOffset = s.appliedOffset := rfl
@[simp] theorem State.setFifoThreshold_trackingEnabled (s : State) (c : Byte) :
    (s.setFifoThreshold c).trackingEnabled = s.trackingEnabled := rfl
@[simp] theorem State.setFifoThreshold_trackedNetId (s : State) (c : Byte) :
    (s.setFifoThreshold c).trackedNetId = s.trackedNetId := rfl
@[simp] theorem State.setFifoThreshold_config (s : State) (c : Byte) :
    (s.setFifoThreshold c).config = { s.config with fifoThreshold := c } := rfl
@[simp] theorem State.setFifoThreshold_timerArmed (s : State) (c : Byte) :
    (s.setFifoThreshold c).timerArmed = s.timerArmed := rfl
@[simp] theorem State.setFifoThreshold_timerDeadline (s : State) (c : Byte) :
    (s.setFifoThreshold c).timerDeadline = s.timerDeadline := rfl
@[simp] theorem State.setFifoThreshold_irqEnabled (s : State) (c : Byte) :
    (s.setFifoThreshold c).irqEnabled = s.irqEnabled := rfl
@[simp] theorem State.setFifoThreshold_irqPending (s : State) (c : Byte) :
    (s.setFifoThreshold c).irqPending = s.irqPending := rfl
@[simp] theorem State.setFifoThreshold_cfg (s : State) (c : Byte) : (s.setFifoThreshold c).cfg = s.cfg := rfl
@[simp] theorem State.setFifoThreshold_csNotBefore (s : State) (c : Byte) :
    (s.setFifoThreshold c).csNotBefore = s.csNotBefore := rfl
@[simp] theorem State.setFifoThreshold_timerPending (s : State) (c : Byte) :
    (s.setFifoThreshold c).timerPending = s.timerPending := rfl
@[simp] theorem State.setFifoThreshold_now (s : State) (c : Byte) : (s.setFifoThreshold c).now = s.now := rfl
@[simp] theorem State.setFifoThreshold_inp (s : State) (c : Byte) : (s.setFifoThreshold c).inp = s.inp := rfl
@[simp] theorem State.setFifoThreshold_refused (s : State) (c : Byte) :
    (s.setFifoThreshold c).refused = s.refused := rfl
@[simp] theorem State.setFifoThreshold_busTrace (s : State) (c : Byte) :
    (s.setFifoThreshold c).busTrace = s.busTrace := rfl
@[simp] theorem State.setFifoThreshold_pushTrace (s : State) (c : Byte) :
    (s.setFifoThreshold c).pushTrace = s.pushTrace := rfl
@[simp] theorem State.setFifoThreshold_responses (s : State) (c : Byte) :
    (s.setFifoThreshold c).responses = s.responses := rfl
@[simp] theorem State.setFifoThreshold_outcomes (s : State) (c : Byte) :
    (s.setFifoThreshold c).outcomes = s.outcomes := rfl

/-! ### `settle` -/

@[simp] theorem State.settle_radioState (s : State) : s.settle.radioState = s.radioState := by simp [State.settle]
@[simp] theorem State.settle_rxBuf (s : State) : s.settle.rxBuf = s.rxBuf := by simp [State.settle]
@[simp] theorem State.settle_rxCount (s : State) : s.settle.rxCount = s.rxCount := by simp [State.settle]
@[simp] theorem State.settle_rxTotal (s : State) : s.settle.rxTotal = s.rxTotal := by simp [State.settle]
@[simp] theorem State.settle_slots (s : State) : s.settle.slots = s.slots := by simp [State.settle]
@[simp] theorem State.settle_cursor (s : State) : s.settle.cursor = s.cursor := by simp [State.settle]
@[simp] theorem State.settle_txOffset (s : State) : s.settle.txOffset = s.txOffset := by simp [State.settle]
@[simp] theorem State.settle_window (s : State) : s.settle.window = s.window := by simp [State.settle]
@[simp] theorem State.settle_winIdx (s : State) : s.settle.winIdx = s.winIdx := by simp [State.settle]
@[simp] theorem State.settle_appliedOffset (s : State) :
    s.settle.appliedOffset = s.appliedOffset := by simp [State.settle]
@[simp] theorem State.settle_trackingEnabled (s : State) :
    s.settle.trackingEnabled = s.trackingEnabled := by simp [State.settle]
@[simp] theorem State.settle_trackedNetId (s : State) : s.settle.trackedNetId = s.trackedNetId := by simp [State.settle]
@[simp] theorem State.settle_config (s : State) : s.settle.config = s.config := by simp [State.settle]
@[simp] theorem State.settle_timerArmed (s : State) : s.settle.timerArmed = s.timerArmed := by simp [State.settle]
@[simp] theorem State.settle_timerDeadline (s : State) :
    s.settle.timerDeadline = s.timerDeadline := by simp [State.settle]
@[simp] theorem State.settle_irqEnabled (s : State) : s.settle.irqEnabled = s.irqEnabled := by simp [State.settle]
@[simp] theorem State.settle_irqPending (s : State) : s.settle.irqPending = s.irqPending := by simp [State.settle]
@[simp] theorem State.settle_cfg (s : State) : s.settle.cfg = s.cfg := by simp [State.settle]
@[simp] theorem State.settle_csNotBefore (s : State) : s.settle.csNotBefore = s.csNotBefore := by simp [State.settle]
@[simp] theorem State.settle_now (s : State) :
    s.settle.now = s.readClock.now + BitVec.ofNat 32 xtalSettleUs := by simp [State.settle]
@[simp] theorem State.settle_inp (s : State) :
    s.settle.inp = { s.inp with ticks := s.inp.ticks.tail } := by simp [State.settle]
@[simp] theorem State.settle_refused (s : State) : s.settle.refused = s.refused := by simp [State.settle]
@[simp] theorem State.settle_busTrace (s : State) : s.settle.busTrace = s.busTrace := by simp [State.settle]
@[simp] theorem State.settle_pushTrace (s : State) : s.settle.pushTrace = s.pushTrace := by simp [State.settle]
@[simp] theorem State.settle_responses (s : State) : s.settle.responses = s.responses := by simp [State.settle]
@[simp] theorem State.settle_outcomes (s : State) : s.settle.outcomes = s.outcomes := by simp [State.settle]
@[simp] theorem State.settle_regs (s : State) : s.settle.regs = s.regs := by simp [State.regs]

/-! ### `storeSample` -/

@[simp] theorem State.storeSample_radioState (s : State) (e : Byte) : (s.storeSample e).radioState = s.radioState := rfl
@[simp] theorem State.storeSample_rxBuf (s : State) (e : Byte) : (s.storeSample e).rxBuf = s.rxBuf := rfl
@[simp] theorem State.storeSample_rxCount (s : State) (e : Byte) : (s.storeSample e).rxCount = s.rxCount := rfl
@[simp] theorem State.storeSample_rxTotal (s : State) (e : Byte) : (s.storeSample e).rxTotal = s.rxTotal := rfl
@[simp] theorem State.storeSample_slots (s : State) (e : Byte) : (s.storeSample e).slots = s.slots := rfl
@[simp] theorem State.storeSample_cursor (s : State) (e : Byte) : (s.storeSample e).cursor = s.cursor := rfl
@[simp] theorem State.storeSample_txOffset (s : State) (e : Byte) : (s.storeSample e).txOffset = s.txOffset := rfl
@[simp] theorem State.storeSample_window (s : State) (e : Byte) :
    (s.storeSample e).window = s.window.set s.winIdx e := rfl
@[simp] theorem State.storeSample_winIdx (s : State) (e : Byte) : (s.storeSample e).winIdx = s.winIdx + 1 := rfl
@[simp] theorem State.storeSample_appliedOffset (s : State) (e : Byte) :
    (s.storeSample e).appliedOffset = s.appliedOffset := rfl
@[simp] theorem State.storeSample_trackingEnabled (s : State) (e : Byte) :
    (s.storeSample e).trackingEnabled = s.trackingEnabled := rfl
@[simp] theorem State.storeSample_trackedNetId (s : State) (e : Byte) :
    (s.storeSample e).trackedNetId = s.trackedNetId := rfl
@[simp] theorem State.storeSample_config (s : State) (e : Byte) : (s.storeSample e).config = s.config := rfl
@[simp] theorem State.storeSample_timerArmed (s : State) (e : Byte) : (s.storeSample e).timerArmed = s.timerArmed := rfl
@[simp] theorem State.storeSample_timerDeadline (s : State) (e : Byte) :
    (s.storeSample e).timerDeadline = s.timerDeadline := rfl
@[simp] theorem State.storeSample_irqEnabled (s : State) (e : Byte) : (s.storeSample e).irqEnabled = s.irqEnabled := rfl
@[simp] theorem State.storeSample_irqPending (s : State) (e : Byte) : (s.storeSample e).irqPending = s.irqPending := rfl
@[simp] theorem State.storeSample_cfg (s : State) (e : Byte) : (s.storeSample e).cfg = s.cfg := rfl
@[simp] theorem State.storeSample_csNotBefore (s : State) (e : Byte) :
    (s.storeSample e).csNotBefore = s.csNotBefore := rfl
@[simp] theorem State.storeSample_timerPending (s : State) (e : Byte) :
    (s.storeSample e).timerPending = s.timerPending := rfl
@[simp] theorem State.storeSample_now (s : State) (e : Byte) : (s.storeSample e).now = s.now := rfl
@[simp] theorem State.storeSample_inp (s : State) (e : Byte) : (s.storeSample e).inp = s.inp := rfl
@[simp] theorem State.storeSample_refused (s : State) (e : Byte) : (s.storeSample e).refused = s.refused := rfl
@[simp] theorem State.storeSample_busTrace (s : State) (e : Byte) : (s.storeSample e).busTrace = s.busTrace := rfl
@[simp] theorem State.storeSample_pushTrace (s : State) (e : Byte) : (s.storeSample e).pushTrace = s.pushTrace := rfl
@[simp] theorem State.storeSample_responses (s : State) (e : Byte) : (s.storeSample e).responses = s.responses := rfl
@[simp] theorem State.storeSample_outcomes (s : State) (e : Byte) : (s.storeSample e).outcomes = s.outcomes := rfl

/-! ### `setOffset` -/

@[simp] theorem State.setOffset_radioState (s : State) (b : Byte) : (s.setOffset b).radioState = s.radioState := rfl
@[simp] theorem State.setOffset_rxBuf (s : State) (b : Byte) : (s.setOffset b).rxBuf = s.rxBuf := rfl
@[simp] theorem State.setOffset_rxCount (s : State) (b : Byte) : (s.setOffset b).rxCount = s.rxCount := rfl
@[simp] theorem State.setOffset_rxTotal (s : State) (b : Byte) : (s.setOffset b).rxTotal = s.rxTotal := rfl
@[simp] theorem State.setOffset_slots (s : State) (b : Byte) : (s.setOffset b).slots = s.slots := rfl
@[simp] theorem State.setOffset_cursor (s : State) (b : Byte) : (s.setOffset b).cursor = s.cursor := rfl
@[simp] theorem State.setOffset_txOffset (s : State) (b : Byte) : (s.setOffset b).txOffset = s.txOffset := rfl
@[simp] theorem State.setOffset_window (s : State) (b : Byte) : (s.setOffset b).window = s.window := rfl
@[simp] theorem State.setOffset_winIdx (s : State) (b : Byte) : (s.setOffset b).winIdx = s.winIdx := rfl
@[simp] theorem State.setOffset_appliedOffset (s : State) (b : Byte) : (s.setOffset b).appliedOffset = b := rfl
@[simp] theorem State.setOffset_trackingEnabled (s : State) (b : Byte) :
    (s.setOffset b).trackingEnabled = s.trackingEnabled := rfl
@[simp] theorem State.setOffset_trackedNetId (s : State) (b : Byte) :
    (s.setOffset b).trackedNetId = s.trackedNetId := rfl
@[simp] theorem State.setOffset_config (s : State) (b : Byte) : (s.setOffset b).config = s.config := rfl
@[simp] theorem State.setOffset_timerArmed (s : State) (b : Byte) : (s.setOffset b).timerArmed = s.timerArmed := rfl
@[simp] theorem State.setOffset_timerDeadline (s : State) (b : Byte) :
    (s.setOffset b).timerDeadline = s.timerDeadline := rfl
@[simp] theorem State.setOffset_irqEnabled (s : State) (b : Byte) : (s.setOffset b).irqEnabled = s.irqEnabled := rfl
@[simp] theorem State.setOffset_irqPending (s : State) (b : Byte) : (s.setOffset b).irqPending = s.irqPending := rfl
@[simp] theorem State.setOffset_cfg (s : State) (b : Byte) : (s.setOffset b).cfg = s.cfg := rfl
@[simp] theorem State.setOffset_csNotBefore (s : State) (b : Byte) : (s.setOffset b).csNotBefore = s.csNotBefore := rfl
@[simp] theorem State.setOffset_timerPending (s : State) (b : Byte) :
    (s.setOffset b).timerPending = s.timerPending := rfl
@[simp] theorem State.setOffset_now (s : State) (b : Byte) : (s.setOffset b).now = s.now := rfl
@[simp] theorem State.setOffset_inp (s : State) (b : Byte) : (s.setOffset b).inp = s.inp := rfl
@[simp] theorem State.setOffset_refused (s : State) (b : Byte) : (s.setOffset b).refused = s.refused := rfl
@[simp] theorem State.setOffset_busTrace (s : State) (b : Byte) : (s.setOffset b).busTrace = s.busTrace := rfl
@[simp] theorem State.setOffset_pushTrace (s : State) (b : Byte) : (s.setOffset b).pushTrace = s.pushTrace := rfl
@[simp] theorem State.setOffset_responses (s : State) (b : Byte) : (s.setOffset b).responses = s.responses := rfl
@[simp] theorem State.setOffset_outcomes (s : State) (b : Byte) : (s.setOffset b).outcomes = s.outcomes := rfl

/-! ### `appendRx` -/

@[simp] theorem State.appendRx_radioState (s : State) (bs : Bytes) : (s.appendRx bs).radioState = s.radioState := rfl
@[simp] theorem State.appendRx_rxBuf (s : State) (bs : Bytes) :
    (s.appendRx bs).rxBuf = overwrite s.rxBuf s.rxCount bs := rfl
@[simp] theorem State.appendRx_rxCount (s : State) (bs : Bytes) : (s.appendRx bs).rxCount = s.rxCount + bs.length := rfl
@[simp] theorem State.appendRx_rxTotal (s : State) (bs : Bytes) : (s.appendRx bs).rxTotal = s.rxTotal := rfl
@[simp] theorem State.appendRx_slots (s : State) (bs : Bytes) : (s.appendRx bs).slots = s.slots := rfl
@[simp] theorem State.appendRx_cursor (s : State) (bs : Bytes) : (s.appendRx bs).cursor = s.cursor := rfl
@[simp] theorem State.appendRx_txOffset (s : State) (bs : Bytes) : (s.appendRx bs).txOffset = s.txOffset := rfl
@[simp] theorem State.appendRx_window (s : State) (bs : Bytes) : (s.appendRx bs).window = s.window := rfl
@[simp] theorem State.appendRx_winIdx (s : State) (bs : Bytes) : (s.appendRx bs).winIdx = s.winIdx := rfl
@[simp] theorem State.appendRx_appliedOffset (s : State) (bs : Bytes) :
    (s.appendRx bs).appliedOffset = s.appliedOffset := rfl
@[simp] theorem State.appendRx_trackingEnabled (s : State) (bs : Bytes) :
    (s.appendRx bs).trackingEnabled = s.trackingEnabled := rfl
@[simp] theorem State.appendRx_trackedNetId (s : State) (bs : Bytes) :
    (s.appendRx bs).trackedNetId = s.trackedNetId := rfl
@[simp] theorem State.appendRx_config (s : State) (bs : Bytes) : (s.appendRx bs).config = s.config := rfl
@[simp] theorem State.appendRx_timerArmed (s : State) (bs : Bytes) : (s.appendRx bs).timerArmed = s.timerArmed := rfl
@[simp] theorem State.appendRx_timerDeadline (s : State) (bs : Bytes) :
    (s.appendRx bs).timerDeadline = s.timerDeadline := rfl
@[simp] theorem State.appendRx_irqEnabled (s : State) (bs : Bytes) : (s.appendRx bs).irqEnabled = s.irqEnabled := rfl
@[simp] theorem State.appendRx_irqPending (s : State) (bs : Bytes) : (s.appendRx bs).irqPending = s.irqPending := rfl
@[simp] theorem State.appendRx_cfg (s : State) (bs : Bytes) : (s.appendRx bs).cfg = s.cfg := rfl
@[simp] theorem State.appendRx_csNotBefore (s : State) (bs : Bytes) : (s.appendRx bs).csNotBefore = s.csNotBefore := rfl
@[simp] theorem State.appendRx_timerPending (s : State) (bs : Bytes) :
    (s.appendRx bs).timerPending = s.timerPending := rfl
@[simp] theorem State.appendRx_now (s : State) (bs : Bytes) : (s.appendRx bs).now = s.now := rfl
@[simp] theorem State.appendRx_inp (s : State) (bs : Bytes) : (s.appendRx bs).inp = s.inp := rfl
@[simp] theorem State.appendRx_refused (s : State) (bs : Bytes) : (s.appendRx bs).refused = s.refused := rfl
@[simp] theorem State.appendRx_busTrace (s : State) (bs : Bytes) : (s.appendRx bs).busTrace = s.busTrace := rfl
@[simp] theorem State.appendRx_pushTrace (s : State) (bs : Bytes) : (s.appendRx bs).pushTrace = s.pushTrace := rfl
@[simp] theorem State.appendRx_responses (s : State) (bs : Bytes) : (s.appendRx bs).responses = s.responses := rfl
@[simp] theorem State.appendRx_outcomes (s : State) (bs : Bytes) : (s.appendRx bs).outcomes = s.outcomes := rfl

/-! ### `enterPayload` -/

@[simp] theorem State.enterPayload_radioState (s : State) (t : Nat) : (s.enterPayload t).radioState = .rxPayload := rfl
@[simp] theorem State.enterPayload_rxBuf (s : State) (t : Nat) : (s.enterPayload t).rxBuf = s.rxBuf := rfl
@[simp] theorem State.enterPayload_rxCount (s : State) (t : Nat) : (s.enterPayload t).rxCount = s.rxCount := rfl
@[simp] theorem State.enterPayload_rxTotal (s : State) (t : Nat) : (s.enterPayload t).rxTotal = some t := rfl
@[simp] theorem State.enterPayload_slots (s : State) (t : Nat) : (s.enterPayload t).slots = s.slots := rfl
@[simp] theorem State.enterPayload_cursor (s : State) (t : Nat) : (s.enterPayload t).cursor = s.cursor := rfl
@[simp] theorem State.enterPayload_txOffset (s : State) (t : Nat) : (s.enterPayload t).txOffset = s.txOffset := rfl
@[simp] theorem State.enterPayload_window (s : State) (t : Nat) : (s.enterPayload t).window = s.window := rfl
@[simp] theorem State.enterPayload_winIdx (s : State) (t : Nat) : (s.enterPayload t).winIdx = s.winIdx := rfl
@[simp] theorem State.enterPayload_appliedOffset (s : State) (t : Nat) :
    (s.enterPayload t).appliedOffset = s.appliedOffset := rfl
@[simp] theorem State.enterPayload_trackingEnabled (s : State) (t : Nat) :
    (s.enterPayload t).trackingEnabled = s.trackingEnabled := rfl
@[simp] theorem State.enterPayload_trackedNetId (s : State) (t : Nat) :
    (s.enterPayload t).trackedNetId = s.trackedNetId := rfl
@[simp] theorem State.enterPayload_config (s : State) (t : Nat) : (s.enterPayload t).config = s.config := rfl
@[simp] theorem State.enterPayload_timerArmed (s : State) (t : Nat) :
    (s.enterPayload t).timerArmed = s.timerArmed := rfl
@[simp] theorem State.enterPayload_timerDeadline (s : State) (t : Nat) :
    (s.enterPayload t).timerDeadline = s.timerDeadline := rfl
@[simp] theorem State.enterPayload_irqEnabled (s : State) (t : Nat) :
    (s.enterPayload t).irqEnabled = s.irqEnabled := rfl
@[simp] theorem State.enterPayload_irqPending (s : State) (t : Nat) :
    (s.enterPayload t).irqPending = s.irqPending := rfl
@[simp] theorem State.enterPayload_cfg (s : State) (t : Nat) : (s.enterPayload t).cfg = s.cfg := rfl
@[simp] theorem State.enterPayload_csNotBefore (s : State) (t : Nat) :
    (s.enterPayload t).csNotBefore = s.csNotBefore := rfl
@[simp] theorem State.enterPayload_timerPending (s : State) (t : Nat) :
    (s.enterPayload t).timerPending = s.timerPending := rfl
@[simp] theorem State.enterPayload_now (s : State) (t : Nat) : (s.enterPayload t).now = s.now := rfl
@[simp] theorem State.enterPayload_inp (s : State) (t : Nat) : (s.enterPayload t).inp = s.inp := rfl
@[simp] theorem State.enterPayload_refused (s : State) (t : Nat) : (s.enterPayload t).refused = s.refused := rfl
@[simp] theorem State.enterPayload_busTrace (s : State) (t : Nat) : (s.enterPayload t).busTrace = s.busTrace := rfl
@[simp] theorem State.enterPayload_pushTrace (s : State) (t : Nat) : (s.enterPayload t).pushTrace = s.pushTrace := rfl
@[simp] theorem State.enterPayload_responses (s : State) (t : Nat) : (s.enterPayload t).responses = s.responses := rfl
@[simp] theorem State.enterPayload_outcomes (s : State) (t : Nat) : (s.enterPayload t).outcomes = s.outcomes := rfl

/-! ### `beginTx` -/

@[simp] theorem State.beginTx_radioState (s : State) (j : Fin 16) : (s.beginTx j).radioState = .txTransmit := rfl
@[simp] theorem State.beginTx_rxBuf (s : State) (j : Fin 16) : (s.beginTx j).rxBuf = s.rxBuf := rfl
@[simp] theorem State.beginTx_rxCount (s : State) (j : Fin 16) : (s.beginTx j).rxCount = s.rxCount := rfl
@[simp] theorem State.beginTx_rxTotal (s : State) (j : Fin 16) : (s.beginTx j).rxTotal = s.rxTotal := rfl
@[simp] theorem State.beginTx_slots (s : State) (j : Fin 16) : (s.beginTx j).slots = s.slots := rfl
@[simp] theorem State.beginTx_cursor (s : State) (j : Fin 16) : (s.beginTx j).cursor = j := rfl
@[simp] theorem State.beginTx_txOffset (s : State) (j : Fin 16) : (s.beginTx j).txOffset = 0 := rfl
@[simp] theorem State.beginTx_window (s : State) (j : Fin 16) : (s.beginTx j).window = s.window := rfl
@[simp] theorem State.beginTx_winIdx (s : State) (j : Fin 16) : (s.beginTx j).winIdx = s.winIdx := rfl
@[simp] theorem State.beginTx_appliedOffset (s : State) (j : Fin 16) :
    (s.beginTx j).appliedOffset = s.appliedOffset := rfl
@[simp] theorem State.beginTx_trackingEnabled (s : State) (j : Fin 16) :
    (s.beginTx j).trackingEnabled = s.trackingEnabled := rfl
@[simp] theorem State.beginTx_trackedNetId (s : State) (j : Fin 16) : (s.beginTx j).trackedNetId = s.trackedNetId := rfl
@[simp] theorem State.beginTx_config (s : State) (j : Fin 16) : (s.beginTx j).config = s.config := rfl
@[simp] theorem State.beginTx_timerArmed (s : State) (j : Fin 16) : (s.beginTx j).timerArmed = s.timerArmed := rfl
@[simp] theorem State.beginTx_timerDeadline (s : State) (j : Fin 16) :
    (s.beginTx j).timerDeadline = s.timerDeadline := rfl
@[simp] theorem State.beginTx_irqEnabled (s : State) (j : Fin 16) : (s.beginTx j).irqEnabled = s.irqEnabled := rfl
@[simp] theorem State.beginTx_irqPending (s : State) (j : Fin 16) : (s.beginTx j).irqPending = s.irqPending := rfl
@[simp] theorem State.beginTx_cfg (s : State) (j : Fin 16) : (s.beginTx j).cfg = s.cfg := rfl
@[simp] theorem State.beginTx_csNotBefore (s : State) (j : Fin 16) : (s.beginTx j).csNotBefore = s.csNotBefore := rfl
@[simp] theorem State.beginTx_timerPending (s : State) (j : Fin 16) : (s.beginTx j).timerPending = s.timerPending := rfl
@[simp] theorem State.beginTx_now (s : State) (j : Fin 16) : (s.beginTx j).now = s.now := rfl
@[simp] theorem State.beginTx_inp (s : State) (j : Fin 16) : (s.beginTx j).inp = s.inp := rfl
@[simp] theorem State.beginTx_refused (s : State) (j : Fin 16) : (s.beginTx j).refused = s.refused := rfl
@[simp] theorem State.beginTx_busTrace (s : State) (j : Fin 16) : (s.beginTx j).busTrace = s.busTrace := rfl
@[simp] theorem State.beginTx_pushTrace (s : State) (j : Fin 16) : (s.beginTx j).pushTrace = s.pushTrace := rfl
@[simp] theorem State.beginTx_responses (s : State) (j : Fin 16) : (s.beginTx j).responses = s.responses := rfl
@[simp] theorem State.beginTx_outcomes (s : State) (j : Fin 16) : (s.beginTx j).outcomes = s.outcomes := rfl

/-! ### `setTxOffset` -/

@[simp] theorem State.setTxOffset_radioState (s : State) (n : Nat) : (s.setTxOffset n).radioState = s.radioState := rfl
@[simp] theorem State.setTxOffset_rxBuf (s : State) (n : Nat) : (s.setTxOffset n).rxBuf = s.rxBuf := rfl
@[simp] theorem State.setTxOffset_rxCount (s : State) (n : Nat) : (s.setTxOffset n).rxCount = s.rxCount := rfl
@[simp] theorem State.setTxOffset_rxTotal (s : State) (n : Nat) : (s.setTxOffset n).rxTotal = s.rxTotal := rfl
@[simp] theorem State.setTxOffset_slots (s : State) (n : Nat) : (s.setTxOffset n).slots = s.slots := rfl
@[simp] theorem State.setTxOffset_cursor (s : State) (n : Nat) : (s.setTxOffset n).cursor = s.cursor := rfl
@[simp] theorem State.setTxOffset_txOffset (s : State) (n : Nat) : (s.setTxOffset n).txOffset = n := rfl
@[simp] theorem State.setTxOffset_window (s : State) (n : Nat) : (s.setTxOffset n).window = s.window := rfl
@[simp] theorem State.setTxOffset_winIdx (s : State) (n : Nat) : (s.setTxOffset n).winIdx = s.winIdx := rfl
@[simp] theorem State.setTxOffset_appliedOffset (s : State) (n : Nat) :
    (s.setTxOffset n).appliedOffset = s.appliedOffset := rfl
@[simp] theorem State.setTxOffset_trackingEnabled (s : State) (n : Nat) :
    (s.setTxOffset n).trackingEnabled = s.trackingEnabled := rfl
@[simp] theorem State.setTxOffset_trackedNetId (s : State) (n : Nat) :
    (s.setTxOffset n).trackedNetId = s.trackedNetId := rfl
@[simp] theorem State.setTxOffset_config (s : State) (n : Nat) : (s.setTxOffset n).config = s.config := rfl
@[simp] theorem State.setTxOffset_timerArmed (s : State) (n : Nat) : (s.setTxOffset n).timerArmed = s.timerArmed := rfl
@[simp] theorem State.setTxOffset_timerDeadline (s : State) (n : Nat) :
    (s.setTxOffset n).timerDeadline = s.timerDeadline := rfl
@[simp] theorem State.setTxOffset_irqEnabled (s : State) (n : Nat) : (s.setTxOffset n).irqEnabled = s.irqEnabled := rfl
@[simp] theorem State.setTxOffset_irqPending (s : State) (n : Nat) : (s.setTxOffset n).irqPending = s.irqPending := rfl
@[simp] theorem State.setTxOffset_cfg (s : State) (n : Nat) : (s.setTxOffset n).cfg = s.cfg := rfl
@[simp] theorem State.setTxOffset_csNotBefore (s : State) (n : Nat) :
    (s.setTxOffset n).csNotBefore = s.csNotBefore := rfl
@[simp] theorem State.setTxOffset_timerPending (s : State) (n : Nat) :
    (s.setTxOffset n).timerPending = s.timerPending := rfl
@[simp] theorem State.setTxOffset_now (s : State) (n : Nat) : (s.setTxOffset n).now = s.now := rfl
@[simp] theorem State.setTxOffset_inp (s : State) (n : Nat) : (s.setTxOffset n).inp = s.inp := rfl
@[simp] theorem State.setTxOffset_refused (s : State) (n : Nat) : (s.setTxOffset n).refused = s.refused := rfl
@[simp] theorem State.setTxOffset_busTrace (s : State) (n : Nat) : (s.setTxOffset n).busTrace = s.busTrace := rfl
@[simp] theorem State.setTxOffset_pushTrace (s : State) (n : Nat) : (s.setTxOffset n).pushTrace = s.pushTrace := rfl
@[simp] theorem State.setTxOffset_responses (s : State) (n : Nat) : (s.setTxOffset n).responses = s.responses := rfl
@[simp] theorem State.setTxOffset_outcomes (s : State) (n : Nat) : (s.setTxOffset n).outcomes = s.outcomes := rfl

/-! ### `enterLast` -/

@[simp] theorem State.enterLast_radioState (s : State) : s.enterLast.radioState = .txLastTransmit := rfl
@[simp] theorem State.enterLast_rxBuf (s : State) : s.enterLast.rxBuf = s.rxBuf := rfl
@[simp] theorem State.enterLast_rxCount (s : State) : s.enterLast.rxCount = s.rxCount := rfl
@[simp] theorem State.enterLast_rxTotal (s : State) : s.enterLast.rxTotal = s.rxTotal := rfl
@[simp] theorem State.enterLast_slots (s : State) : s.enterLast.slots = s.slots := rfl
@[simp] theorem State.enterLast_cursor (s : State) : s.enterLast.cursor = s.cursor := rfl
@[simp] theorem State.enterLast_txOffset (s : State) : s.enterLast.txOffset = s.txOffset := rfl
@[simp] theorem State.enterLast_window (s : State) : s.enterLast.window = s.window := rfl
@[simp] theorem State.enterLast_winIdx (s : State) : s.enterLast.winIdx = s.winIdx := rfl
@[simp] theorem State.enterLast_appliedOffset (s : State) : s.enterLast.appliedOffset = s.appliedOffset := rfl
@[simp] theorem State.enterLast_trackingEnabled (s : State) : s.enterLast.trackingEnabled = s.trackingEnabled := rfl
@[simp] theorem State.enterLast_trackedNetId (s : State) : s.enterLast.trackedNetId = s.trackedNetId := rfl
@[simp] theorem State.enterLast_config (s : State) : s.enterLast.config = s.config := rfl
@[simp] theorem State.enterLast_timerArmed (s : State) : s.enterLast.timerArmed = s.timerArmed := rfl
@[simp] theorem State.enterLast_timerDeadline (s : State) : s.enterLast.timerDeadline = s.timerDeadline := rfl
@[simp] theorem State.enterLast_irqEnabled (s : State) : s.enterLast.irqEnabled = s.irqEnabled := rfl
@[simp] theorem State.enterLast_irqPending (s : State) : s.enterLast.irqPending = s.irqPending := rfl
@[simp] theorem State.enterLast_cfg (s : State) : s.enterLast.cfg = s.cfg := rfl
@[simp] theorem State.enterLast_csNotBefore (s : State) : s.enterLast.csNotBefore = s.csNotBefore := rfl
@[simp] theorem State.enterLast_timerPending (s : State) : s.enterLast.timerPending = s.timerPending := rfl
@[simp] theorem State.enterLast_now (s : State) : s.enterLast.now = s.now := rfl
@[simp] theorem State.enterLast_inp (s : State) : s.enterLast.inp = s.inp := rfl
@[simp] theorem State.enterLast_refused (s : State) : s.enterLast.refused = s.refused := rfl
@[simp] theorem State.enterLast_busTrace (s : State) : s.enterLast.busTrace = s.busTrace := rfl
@[simp] theorem State.enterLast_pushTrace (s : State) : s.enterLast.pushTrace = s.pushTrace := rfl
@[simp] theorem State.enterLast_responses (s : State) : s.enterLast.responses = s.responses := rfl
@[simp] theorem State.enterLast_outcomes (s : State) : s.enterLast.outcomes = s.outcomes := rfl

/-! ### `beginInit` -/

@[simp] theorem State.beginInit_radioState (s : State) : s.beginInit.radioState = .rxWaitSync := rfl
@[simp] theorem State.beginInit_rxBuf (s : State) : s.beginInit.rxBuf = s.rxBuf := rfl
@[simp] theorem State.beginInit_rxCount (s : State) : s.beginInit.rxCount = 0 := rfl
@[simp] theorem State.beginInit_rxTotal (s : State) : s.beginInit.rxTotal = none := rfl
@[simp] theorem State.beginInit_slots (s : State) : s.beginInit.slots = s.slots := rfl
@[simp] theorem State.beginInit_cursor (s : State) : s.beginInit.cursor = s.cursor := rfl
@[simp] theorem State.beginInit_txOffset (s : State) : s.beginInit.txOffset = s.txOffset := rfl
@[simp] theorem State.beginInit_window (s : State) : s.beginInit.window = s.window := rfl
@[simp] theorem State.beginInit_winIdx (s : State) : s.beginInit.winIdx = s.winIdx := rfl
@[simp] theorem State.beginInit_appliedOffset (s : State) : s.beginInit.appliedOffset = s.appliedOffset := rfl
@[simp] theorem State.beginInit_trackingEnabled (s : State) : s.beginInit.trackingEnabled = s.trackingEnabled := rfl
@[simp] theorem State.beginInit_trackedNetId (s : State) : s.beginInit.trackedNetId = s.trackedNetId := rfl
@[simp] theorem State.beginInit_config (s : State) : s.beginInit.config = s.config := rfl
@[simp] theorem State.beginInit_timerArmed (s : State) : s.beginInit.timerArmed = false := rfl
@[simp] theorem State.beginInit_timerDeadline (s : State) : s.beginInit.timerDeadline = s.timerDeadline := rfl
@[simp] theorem State.beginInit_irqEnabled (s : State) : s.beginInit.irqEnabled = false := rfl
@[simp] theorem State.beginInit_irqPending (s : State) : s.beginInit.irqPending = s.irqPending := rfl
@[simp] theorem State.beginInit_cfg (s : State) : s.beginInit.cfg = s.cfg := rfl
@[simp] theorem State.beginInit_csNotBefore (s : State) : s.beginInit.csNotBefore = s.csNotBefore := rfl
@[simp] theorem State.beginInit_timerPending (s : State) : s.beginInit.timerPending = s.timerPending := rfl
@[simp] theorem State.beginInit_now (s : State) : s.beginInit.now = s.now := rfl
@[simp] theorem State.beginInit_inp (s : State) : s.beginInit.inp = s.inp := rfl
@[simp] theorem State.beginInit_refused (s : State) : s.beginInit.refused = s.refused := rfl
@[simp] theorem State.beginInit_busTrace (s : State) : s.beginInit.busTrace = s.busTrace := rfl
@[simp] theorem State.beginInit_pushTrace (s : State) : s.beginInit.pushTrace = s.pushTrace := rfl
@[simp] theorem State.beginInit_responses (s : State) : s.beginInit.responses = s.responses := rfl
@[simp] theorem State.beginInit_outcomes (s : State) : s.beginInit.outcomes = s.outcomes := rfl

/-! ### `storeSettings` -/

@[simp] theorem State.storeSettings_radioState (s : State) : s.storeSettings.radioState = s.radioState := rfl
@[simp] theorem State.storeSettings_rxBuf (s : State) : s.storeSettings.rxBuf = s.rxBuf := rfl
@[simp] theorem State.storeSettings_rxCount (s : State) : s.storeSettings.rxCount = s.rxCount := rfl
@[simp] theorem State.storeSettings_rxTotal (s : State) : s.storeSettings.rxTotal = s.rxTotal := rfl
@[simp] theorem State.storeSettings_slots (s : State) : s.storeSettings.slots = s.slots := rfl
@[simp] theorem State.storeSettings_cursor (s : State) : s.storeSettings.cursor = s.cursor := rfl
@[simp] theorem State.storeSettings_txOffset (s : State) : s.storeSettings.txOffset = s.txOffset := rfl
@[simp] theorem State.storeSettings_window (s : State) : s.storeSettings.window = s.window := rfl
@[simp] theorem State.storeSettings_winIdx (s : State) : s.storeSettings.winIdx = s.winIdx := rfl
@[simp] theorem State.storeSettings_appliedOffset (s : State) : s.storeSettings.appliedOffset = s.appliedOffset := rfl
@[simp] theorem State.storeSettings_trackingEnabled (s : State) :
    s.storeSettings.trackingEnabled = s.trackingEnabled := rfl
@[simp] theorem State.storeSettings_trackedNetId (s : State) : s.storeSettings.trackedNetId = s.trackedNetId := rfl
@[simp] theorem State.storeSettings_config (s : State) :
    s.storeSettings.config =
      { s.config with syncWord := s.cfg.cfgSync, pktLenMode := s.cfg.cfgPktLenMode, preambleSync := s.cfg.cfgPreambleSync } := rfl
@[simp] theorem State.storeSettings_timerArmed (s : State) : s.storeSettings.timerArmed = s.timerArmed := rfl
@[simp] theorem State.storeSettings_timerDeadline (s : State) : s.storeSettings.timerDeadline = s.timerDeadline := rfl
@[simp] theorem State.storeSettings_irqEnabled (s : State) : s.storeSettings.irqEnabled = s.irqEnabled := rfl
@[simp] theorem State.storeSettings_irqPending (s : State) : s.storeSettings.irqPending = s.irqPending := rfl
@[simp] theorem State.storeSettings_cfg (s : State) : s.storeSettings.cfg = s.cfg := rfl
@[simp] theorem State.storeSettings_csNotBefore (s : State) : s.storeSettings.csNotBefore = s.csNotBefore := rfl
@[simp] theorem State.storeSettings_timerPending (s : State) : s.storeSettings.timerPending = s.timerPending := rfl
@[simp] theorem State.storeSettings_now (s : State) : s.storeSettings.now = s.now := rfl
@[simp] theorem State.storeSettings_inp (s : State) : s.storeSettings.inp = s.inp := rfl
@[simp] theorem State.storeSettings_refused (s : State) : s.storeSettings.refused = s.refused := rfl
@[simp] theorem State.storeSettings_busTrace (s : State) : s.storeSettings.busTrace = s.busTrace := rfl
@[simp] theorem State.storeSettings_pushTrace (s : State) : s.storeSettings.pushTrace = s.pushTrace := rfl
@[simp] theorem State.storeSettings_responses (s : State) : s.storeSettings.responses = s.responses := rfl
@[simp] theorem State.storeSettings_outcomes (s : State) : s.storeSettings.outcomes = s.outcomes := rfl

/-! ### `absorb` -/

@[simp] theorem State.absorb_radioState (s : State) : s.absorb.radioState = s.radioState := rfl
@[simp] theorem State.absorb_rxBuf (s : State) : s.absorb.rxBuf = s.rxBuf := rfl
@[simp] theorem State.absorb_rxCount (s : State) : s.absorb.rxCount = s.rxCount := rfl
@[simp] theorem State.absorb_rxTotal (s : State) : s.absorb.rxTotal = s.rxTotal := rfl
@[simp] theorem State.absorb_slots (s : State) : s.absorb.slots = s.slots := rfl
@[simp] theorem State.absorb_cursor (s : State) : s.absorb.cursor = s.cursor := rfl
@[simp] theorem State.absorb_txOffset (s : State) : s.absorb.txOffset = s.txOffset := rfl
@[simp] theorem State.absorb_window (s : State) : s.absorb.window = s.window := rfl
@[simp] theorem State.absorb_winIdx (s : State) : s.absorb.winIdx = s.winIdx := rfl
@[simp] theorem State.absorb_appliedOffset (s : State) : s.absorb.appliedOffset = s.appliedOffset := rfl
@[simp] theorem State.absorb_trackingEnabled (s : State) : s.absorb.trackingEnabled = s.trackingEnabled := rfl
@[simp] theorem State.absorb_trackedNetId (s : State) : s.absorb.trackedNetId = s.trackedNetId := rfl
@[simp] theorem State.absorb_config (s : State) : s.absorb.config = s.config := rfl
@[simp] theorem State.absorb_timerArmed (s : State) : s.absorb.timerArmed = s.timerArmed := rfl
@[simp] theorem State.absorb_timerDeadline (s : State) : s.absorb.timerDeadline = s.timerDeadline := rfl
@[simp] theorem State.absorb_irqEnabled (s : State) : s.absorb.irqEnabled = s.irqEnabled := rfl
@[simp] theorem State.absorb_irqPending (s : State) : s.absorb.irqPending = (s.irqPending || s.arrival.irqEdge) := rfl
@[simp] theorem State.absorb_cfg (s : State) : s.absorb.cfg = s.cfg := rfl
@[simp] theorem State.absorb_csNotBefore (s : State) : s.absorb.csNotBefore = s.csNotBefore := rfl
@[simp] theorem State.absorb_timerPending (s : State) :
    s.absorb.timerPending = (s.elapse s.arrival.elapsed).timerPending := rfl
@[simp] theorem State.absorb_now (s : State) : s.absorb.now = s.now + s.arrival.elapsed := rfl
@[simp] theorem State.absorb_inp (s : State) : s.absorb.inp = { s.inp with arrivals := s.inp.arrivals.tail } := rfl
@[simp] theorem State.absorb_refused (s : State) : s.absorb.refused = s.refused := rfl
@[simp] theorem State.absorb_busTrace (s : State) : s.absorb.busTrace = s.busTrace := rfl
@[simp] theorem State.absorb_pushTrace (s : State) : s.absorb.pushTrace = s.pushTrace := rfl
@[simp] theorem State.absorb_responses (s : State) : s.absorb.responses = s.responses := rfl
@[simp] theorem State.absorb_outcomes (s : State) : s.absorb.outcomes = s.outcomes := rfl

/-! ### `enterService .irq` -/

@[simp] theorem State.enterService_irq_radioState (s : State) : (s.enterService .irq).radioState = s.radioState := rfl
@[simp] theorem State.enterService_irq_rxBuf (s : State) : (s.enterService .irq).rxBuf = s.rxBuf := rfl
@[simp] theorem State.enterService_irq_rxCount (s : State) : (s.enterService .irq).rxCount = s.rxCount := rfl
@[simp] theorem State.enterService_irq_rxTotal (s : State) : (s.enterService .irq).rxTotal = s.rxTotal := rfl
@[simp] theorem State.enterService_irq_slots (s : State) : (s.enterService .irq).slots = s.slots := rfl
@[simp] theorem State.enterService_irq_cursor (s : State) : (s.enterService .irq).cursor = s.cursor := rfl
@[simp] theorem State.enterService_irq_txOffset (s : State) : (s.enterService .irq).txOffset = s.txOffset := rfl
@[simp] theorem State.enterService_irq_window (s : State) : (s.enterService .irq).window = s.window := rfl
@[simp] theorem State.enterService_irq_winIdx (s : State) : (s.enterService .irq).winIdx = s.winIdx := rfl
@[simp] theorem State.enterService_irq_appliedOffset (s : State) :
    (s.enterService .irq).appliedOffset = s.appliedOffset := rfl
@[simp] theorem State.enterService_irq_trackingEnabled (s : State) :
    (s.enterService .irq).trackingEnabled = s.trackingEnabled := rfl
@[simp] theorem State.enterService_irq_trackedNetId (s : State) :
    (s.enterService .irq).trackedNetId = s.trackedNetId := rfl
@[simp] theorem State.enterService_irq_config (s : State) : (s.enterService .irq).config = s.config := rfl
@[simp] theorem State.enterService_irq_timerArmed (s : State) : (s.enterService .irq).timerArmed = s.timerArmed := rfl
@[simp] theorem State.enterService_irq_timerDeadline (s : State) :
    (s.enterService .irq).timerDeadline = s.timerDeadline := rfl
@[simp] theorem State.enterService_irq_irqEnabled (s : State) : (s.enterService .irq).irqEnabled = s.irqEnabled := rfl
@[simp] theorem State.enterService_irq_irqPending (s : State) : (s.enterService .irq).irqPending = false := rfl
@[simp] theorem State.enterService_irq_cfg (s : State) : (s.enterService .irq).cfg = s.cfg := rfl
@[simp] theorem State.enterService_irq_csNotBefore (s : State) :
    (s.enterService .irq).csNotBefore = s.csNotBefore := rfl
@[simp] theorem State.enterService_irq_timerPending (s : State) :
    (s.enterService .irq).timerPending = s.timerPending := rfl
@[simp] theorem State.enterService_irq_now (s : State) : (s.enterService .irq).now = s.now := rfl
@[simp] theorem State.enterService_irq_inp (s : State) : (s.enterService .irq).inp = s.inp := rfl
@[simp] theorem State.enterService_irq_refused (s : State) : (s.enterService .irq).refused = s.refused := rfl
@[simp] theorem State.enterService_irq_busTrace (s : State) : (s.enterService .irq).busTrace = s.busTrace := rfl
@[simp] theorem State.enterService_irq_pushTrace (s : State) : (s.enterService .irq).pushTrace = s.pushTrace := rfl
@[simp] theorem State.enterService_irq_responses (s : State) : (s.enterService .irq).responses = s.responses := rfl
@[simp] theorem State.enterService_irq_outcomes (s : State) : (s.enterService .irq).outcomes = s.outcomes := rfl

/-! ### `enterService .timer` -/

@[simp] theorem State.enterService_timer_radioState (s : State) :
    (s.enterService .timer).radioState = s.radioState := rfl
@[simp] theorem State.enterService_timer_rxBuf (s : State) : (s.enterService .timer).rxBuf = s.rxBuf := rfl
@[simp] theorem State.enterService_timer_rxCount (s : State) : (s.enterService .timer).rxCount = s.rxCount := rfl
@[simp] theorem State.enterService_timer_rxTotal (s : State) : (s.enterService .timer).rxTotal = s.rxTotal := rfl
@[simp] theorem State.enterService_timer_slots (s : State) : (s.enterService .timer).slots = s.slots := rfl
@[simp] theorem State.enterService_timer_cursor (s : State) : (s.enterService .timer).cursor = s.cursor := rfl
@[simp] theorem State.enterService_timer_txOffset (s : State) : (s.enterService .timer).txOffset = s.txOffset := rfl
@[simp] theorem State.enterService_timer_window (s : State) : (s.enterService .timer).window = s.window := rfl
@[simp] theorem State.enterService_timer_winIdx (s : State) : (s.enterService .timer).winIdx = s.winIdx := rfl
@[simp] theorem State.enterService_timer_appliedOffset (s : State) :
    (s.enterService .timer).appliedOffset = s.appliedOffset := rfl
@[simp] theorem State.enterService_timer_trackingEnabled (s : State) :
    (s.enterService .timer).trackingEnabled = s.trackingEnabled := rfl
@[simp] theorem State.enterService_timer_trackedNetId (s : State) :
    (s.enterService .timer).trackedNetId = s.trackedNetId := rfl
@[simp] theorem State.enterService_timer_config (s : State) : (s.enterService .timer).config = s.config := rfl
@[simp] theorem State.enterService_timer_timerArmed (s : State) :
    (s.enterService .timer).timerArmed = s.timerArmed := rfl
@[simp] theorem State.enterService_timer_timerDeadline (s : State) :
    (s.enterService .timer).timerDeadline = s.timerDeadline := rfl
@[simp] theorem State.enterService_timer_irqEnabled (s : State) :
    (s.enterService .timer).irqEnabled = s.irqEnabled := rfl
@[simp] theorem State.enterService_timer_irqPending (s : State) :
    (s.enterService .timer).irqPending = s.irqPending := rfl
@[simp] theorem State.enterService_timer_cfg (s : State) : (s.enterService .timer).cfg = s.cfg := rfl
@[simp] theorem State.enterService_timer_csNotBefore (s : State) :
    (s.enterService .timer).csNotBefore = s.csNotBefore := rfl
@[simp] theorem State.enterService_timer_timerPending (s : State) : (s.enterService .timer).timerPending = false := rfl
@[simp] theorem State.enterService_timer_now (s : State) : (s.enterService .timer).now = s.now := rfl
@[simp] theorem State.enterService_timer_inp (s : State) : (s.enterService .timer).inp = s.inp := rfl
@[simp] theorem State.enterService_timer_refused (s : State) : (s.enterService .timer).refused = s.refused := rfl
@[simp] theorem State.enterService_timer_busTrace (s : State) : (s.enterService .timer).busTrace = s.busTrace := rfl
@[simp] theorem State.enterService_timer_pushTrace (s : State) : (s.enterService .timer).pushTrace = s.pushTrace := rfl
@[simp] theorem State.enterService_timer_responses (s : State) : (s.enterService .timer).responses = s.responses := rfl
@[simp] theorem State.enterService_timer_outcomes (s : State) : (s.enterService .timer).outcomes = s.outcomes := rfl

/-! ### The register view -/

@[simp] theorem State.regs_radioState (s : State) : s.regs.radioState = s.radioState := rfl
@[simp] theorem State.regs_rxBuf (s : State) : s.regs.rxBuf = s.rxBuf := rfl
@[simp] theorem State.regs_rxCount (s : State) : s.regs.rxCount = s.rxCount := rfl
@[simp] theorem State.regs_rxTotal (s : State) : s.regs.rxTotal = s.rxTotal := rfl
@[simp] theorem State.regs_slots (s : State) : s.regs.slots = s.slots := rfl
@[simp] theorem State.regs_cursor (s : State) : s.regs.cursor = s.cursor := rfl
@[simp] theorem State.regs_txOffset (s : State) : s.regs.txOffset = s.txOffset := rfl
@[simp] theorem State.regs_window (s : State) : s.regs.window = s.window := rfl
@[simp] theorem State.regs_winIdx (s : State) : s.regs.winIdx = s.winIdx := rfl
@[simp] theorem State.regs_appliedOffset (s : State) : s.regs.appliedOffset = s.appliedOffset := rfl
@[simp] theorem State.regs_trackingEnabled (s : State) : s.regs.trackingEnabled = s.trackingEnabled := rfl
@[simp] theorem State.regs_trackedNetId (s : State) : s.regs.trackedNetId = s.trackedNetId := rfl
@[simp] theorem State.regs_config (s : State) : s.regs.config = s.config := rfl
@[simp] theorem State.regs_timerArmed (s : State) : s.regs.timerArmed = s.timerArmed := rfl
@[simp] theorem State.regs_timerDeadline (s : State) : s.regs.timerDeadline = s.timerDeadline := rfl
@[simp] theorem State.regs_irqEnabled (s : State) : s.regs.irqEnabled = s.irqEnabled := rfl
@[simp] theorem State.regs_irqPending (s : State) : s.regs.irqPending = s.irqPending := rfl

end Sys2Proof.Machine
end

