-- ==== Sys2Proof/Laws/Admission.lean ====
section
/-! SUPPORT. The admission tests in front of an operation (43_host_commands.md R210, R211, R213, 40_register_driver.md
R124): what each answers when it admits, and when it does not. -/

namespace Sys2Proof.Machine

open Sys2Proof.Config

variable {body : State → Host.Outcome State Fault Refusal} {s : State}

theorem State.isIdle_iff : s.isIdle = true ↔ s.radioState = .rxWaitSync := by simp [State.isIdle]

theorem whenBusFree_idle (h : s.radioState = .rxWaitSync) : whenBusFree body s = body s := by
  simp [whenBusFree, State.isIdle, h]

theorem whenBusFree_busy (h : s.radioState ≠ .rxWaitSync) :
    whenBusFree body s = .next (s.markRefused (.refused .busBusy)) := by
  simp [whenBusFree, State.isIdle, h, refuse]

theorem whenInitialised_enabled (h : s.irqEnabled = true) : whenInitialised body s = body s := by
  simp [whenInitialised, h]

theorem whenInitialised_disabled (h : s.irqEnabled = false) :
    whenInitialised body s = .next (s.markRefused (.refused .notInitialised)) := by
  simp [whenInitialised, h, refuse]

theorem whenIdle_idle (h : s.radioState = .rxWaitSync) : whenIdle body s = body s := by
  simp [whenIdle, State.isIdle, h]

theorem whenIdle_busy (h : s.radioState ≠ .rxWaitSync) :
    whenIdle body s = .next (s.markRefused .undefinedNotIdle) := by
  simp [whenIdle, State.isIdle, h, raiseNotIdle]

theorem whenInBand_inside {f : Rat} (h : inBands s.cfg f = true) : whenInBand f body s = body s := by
  simp [whenInBand, h]

theorem whenInBand_outside {f : Rat} (h : inBands s.cfg f = false) :
    whenInBand f body s = .next (s.markRefused (.refused .outOfBand)) := by
  simp [whenInBand, h, refuse]

end Sys2Proof.Machine
end

