-- ==== Sys2Proof/Laws/Decode.lean ====
section
/-! SUPPORT. The small lemmas of the encoding (30_encoding.md R91, R93): bytes put together and taken apart, length bytes,
and the items of format `LL`. -/

namespace Sys2Proof

theorem toNat_append {m n : Nat} (x : BitVec m) (y : BitVec n) : (x ++ y).toNat = x.toNat * 2 ^ n + y.toNat := by
  rw [BitVec.toNat_append, ← Nat.shiftLeft_add_eq_or_of_lt y.isLt, Nat.shiftLeft_eq]

theorem word16_toNat (lo hi : Byte) : (word16 lo hi).toNat = hi.toNat * 256 + lo.toNat := toNat_append hi lo

theorem word32_toNat (b1 b2 b3 b4 : Byte) :
    (word32 b1 b2 b3 b4).toNat = b4.toNat * 16777216 + b3.toNat * 65536 + b2.toNat * 256 + b1.toNat := by
  show (b4 ++ (b3 ++ (b2 ++ b1))).toNat = _
  rw [toNat_append, toNat_append, toNat_append]
  omega

theorem extract_toNat {w : Nat} (v : BitVec w) (k : Nat) : (v.extractLsb' k 8).toNat = v.toNat / 2 ^ k % 256 := by
  simp [Nat.shiftRight_eq_div_pow]

theorem word16_le16 (g : Word16) : word16 (g.extractLsb' 0 8) (g.extractLsb' 8 8) = g := by
  apply BitVec.eq_of_toNat_eq
  rw [word16_toNat, extract_toNat, extract_toNat]
  have := g.isLt
  omega

theorem le16_word16 (lo hi : Byte) : le16 (word16 lo hi) = [lo, hi] := by
  have h1 := lo.isLt
  have h2 := hi.isLt
  unfold le16
  congr 1
  · apply BitVec.eq_of_toNat_eq; rw [extract_toNat, word16_toNat]; omega
  · congr 1
    apply BitVec.eq_of_toNat_eq; rw [extract_toNat, word16_toNat]; omega

theorem word32_le32 (v : Word32) :
    word32 (v.extractLsb' 0 8) (v.extractLsb' 8 8) (v.extractLsb' 16 8) (v.extractLsb' 24 8) = v := by
  apply BitVec.eq_of_toNat_eq
  rw [word32_toNat, extract_toNat, extract_toNat, extract_toNat, extract_toNat]
  have := v.isLt
  omega

theorem le32_word32 (b1 b2 b3 b4 : Byte) : le32 (word32 b1 b2 b3 b4) = [b1, b2, b3, b4] := by
  have h1 := b1.isLt
  have h2 := b2.isLt
  have h3 := b3.isLt
  have h4 := b4.isLt
  unfold le32
  congr 1
  · apply BitVec.eq_of_toNat_eq; rw [extract_toNat, word32_toNat]; omega
  · congr 1
    · apply BitVec.eq_of_toNat_eq; rw [extract_toNat, word32_toNat]; omega
    · congr 1
      · apply BitVec.eq_of_toNat_eq; rw [extract_toNat, word32_toNat]; omega
      · congr 1
        apply BitVec.eq_of_toNat_eq; rw [extract_toNat, word32_toNat]; omega

theorem lengthByte_toNat {n : Nat} (h : n ≤ 255) : (lengthByte n).toNat = n := by
  simp [lengthByte]; omega

theorem lengthByte_of_toNat (b : Byte) : lengthByte b.toNat = b := by simp [lengthByte]

/-- The items of a list whose items all fit their length bytes are read back, and nothing is left over. -/
theorem decodeItems_encode : ∀ frames : List Bytes, (∀ f ∈ frames, f.length ≤ 255) →
    decodeItems frames.length (frames.flatMap lengthPrefixed) = .ok frames
  | [], _ => rfl
  | f :: rest, h => by
    have hf := lengthByte_toNat (h f List.mem_cons_self)
    have ih := decodeItems_encode rest fun g hg => h g (List.mem_cons_of_mem _ hg)
    simp [decodeItems, lengthPrefixed, hf, ih, Except.map]

/-- What format `LL` reads is what was written. -/
theorem encode_decodeItems : ∀ (k : Nat) (bs : Bytes) (frames : List Bytes), decodeItems k bs = .ok frames →
    frames.length = k ∧ (∀ f ∈ frames, f.length ≤ 255) ∧ frames.flatMap lengthPrefixed = bs
  | 0, [], frames, h => by
    obtain rfl : [] = frames := by simpa [decodeItems] using h
    simp
  | 0, _ :: _, _, h => by simp [decodeItems] at h
  | _ + 1, [], _, h => by simp [decodeItems] at h
  | k + 1, n :: rest, frames, h => by
    simp only [decodeItems] at h
    split at h
    · cases h
    · next hl =>
      cases hd : decodeItems k (rest.drop n.toNat) with
      | error e => rw [hd] at h; cases h
      | ok fs =>
        rw [hd] at h
        obtain rfl : rest.take n.toNat :: fs = frames := by simpa [Except.map] using h
        obtain ⟨h1, h2, h3⟩ := encode_decodeItems k _ fs hd
        have hn := n.isLt
        have hlen : (rest.take n.toNat).length = n.toNat := by rw [List.length_take]; omega
        refine ⟨by simp [h1], ?_, ?_⟩
        · intro f hf
          rcases List.mem_cons.1 hf with rfl | hf
          · omega
          · exact h2 f hf
        · rw [List.flatMap_cons, h3, lengthPrefixed, hlen, lengthByte_of_toNat]
          simp

/-! ## The formats: which operand bytes each accepts, and what it makes of them -/

theorem formatN_eq_ok {i j : Instr} {ops : Bytes} : formatN i ops = .ok j ↔ ops = [] ∧ j = i := by
  rcases ops with _ | ⟨a, r⟩
  · simp [formatN, eq_comm (a := i)]
  · simp [formatN, wrongLength]

theorem formatB_eq_ok {f : Byte → Instr} {j : Instr} {ops : Bytes} :
    formatB f ops = .ok j ↔ ∃ b, ops = [b] ∧ j = f b := by
  rcases ops with _ | ⟨a, _ | ⟨b, r⟩⟩ <;> simp [formatB, wrongLength, eq_comm (a := j)]

theorem formatAN_eq_ok {f : Byte → Byte → Instr} {j : Instr} {ops : Bytes} :
    formatAN f ops = .ok j ↔ ∃ a b, ops = [a, b] ∧ j = f a b := by
  rcases ops with _ | ⟨a, _ | ⟨b, _ | ⟨c, r⟩⟩⟩ <;> simp [formatAN, wrongLength, eq_comm (a := j)]

theorem format32_eq_ok {f : Word32 → Instr} {j : Instr} {ops : Bytes} :
    format32 f ops = .ok j ↔ ∃ v, ops = le32 v ∧ j = f v := by
  constructor
  · intro h
    rcases ops with _ | ⟨a, _ | ⟨b, _ | ⟨c, _ | ⟨d, _ | ⟨x, r⟩⟩⟩⟩⟩ <;> simp [format32, wrongLength] at h
    exact ⟨_, (le32_word32 ..).symm, h.symm⟩
  · rintro ⟨v, rfl, rfl⟩
    simp [le32, format32, word32_le32]

theorem formatAVG_eq_ok {f : Byte → Byte → Word16 → Instr} {j : Instr} {ops : Bytes} :
    formatAVG f ops = .ok j ↔ ∃ a v g, ops = a :: v :: le16 g ∧ j = f a v g := by
  constructor
  · intro h
    rcases ops with _ | ⟨a, _ | ⟨b, _ | ⟨c, _ | ⟨d, _ | ⟨x, r⟩⟩⟩⟩⟩ <;> simp [formatAVG, wrongLength] at h
    exact ⟨_, _, _, by rw [le16_word16], h.symm⟩
  · rintro ⟨a, v, g, rfl, rfl⟩
    simp [le16, formatAVG, word16_le16]

theorem formatCG_eq_ok {f : Byte → Word16 → Instr} {j : Instr} {ops : Bytes} :
    formatCG f ops = .ok j ↔ ∃ c g, ops = c :: le16 g ∧ j = f c g := by
  constructor
  · intro h
    rcases ops with _ | ⟨a, _ | ⟨b, _ | ⟨c, _ | ⟨d, r⟩⟩⟩⟩ <;> simp [formatCG, wrongLength] at h
    exact ⟨_, _, by rw [le16_word16], h.symm⟩
  · rintro ⟨c, g, rfl, rfl⟩
    simp [le16, formatCG, word16_le16]

theorem formatL_eq_ok {f : Bytes → Instr} {j : Instr} {ops : Bytes} :
    formatL f ops = .ok j ↔ ∃ bs, bs.length ≤ 255 ∧ ops = lengthPrefixed bs ∧ j = f bs := by
  constructor
  · intro h
    rcases ops with _ | ⟨k, d⟩
    · simp [formatL] at h
    · simp only [formatL] at h
      split at h
      · next hl =>
        have := k.isLt
        refine ⟨d, by omega, ?_, by simpa [eq_comm (b := j)] using h⟩
        rw [lengthPrefixed, hl, lengthByte_of_toNat]
      · simp [wrongLength] at h
  · rintro ⟨bs, hl, rfl, rfl⟩
    simp [formatL, lengthPrefixed, lengthByte_toNat hl]

theorem formatAGL_eq_ok {f : Byte → Word16 → Bytes → Instr} {j : Instr} {ops : Bytes} :
    formatAGL f ops = .ok j ↔
      ∃ a g bs, bs.length ≤ 255 ∧ ops = a :: (le16 g ++ lengthPrefixed bs) ∧ j = f a g bs := by
  constructor
  · intro h
    rcases ops with _ | ⟨a, _ | ⟨b, _ | ⟨c, _ | ⟨k, d⟩⟩⟩⟩ <;> simp [formatAGL] at h
    split at h
    · next hl =>
      have := k.isLt
      refine ⟨a, word16 b c, d, by omega, ?_, by simpa [eq_comm (b := j)] using h⟩
      rw [le16_word16, lengthPrefixed, hl, lengthByte_of_toNat]; rfl
    · simp [wrongLength] at h
  · rintro ⟨a, g, bs, hl, rfl, rfl⟩
    simp [formatAGL, lengthPrefixed, le16, word16_le16, lengthByte_toNat hl]

theorem formatNID_eq_ok {n : Nat} {f : Bytes → Instr} {j : Instr} {ops : Bytes} :
    formatNID n f ops = .ok j ↔ ops.length = n ∧ j = f ops := by
  unfold formatNID
  split
  · next h => simp [h, eq_comm (a := j)]
  · next h => simp [h, wrongLength]

theorem formatLL_eq_ok {f : List Bytes → Instr} {j : Instr} {ops : Bytes} :
    formatLL f ops = .ok j ↔
      ∃ frames : List Bytes, frames.length ≤ 255 ∧ (∀ x ∈ frames, x.length ≤ 255) ∧
        ops = lengthByte frames.length :: frames.flatMap lengthPrefixed ∧ j = f frames := by
  constructor
  · intro h
    rcases ops with _ | ⟨k, d⟩
    · simp [formatLL] at h
    · simp only [formatLL] at h
      cases hd : decodeItems k.toNat d with
      | error e => rw [hd] at h; cases h
      | ok fs =>
        rw [hd] at h
        obtain ⟨h1, h2, h3⟩ := encode_decodeItems _ _ _ hd
        have := k.isLt
        refine ⟨fs, by omega, h2, ?_, by simpa [Except.map, eq_comm (b := j)] using h⟩
        rw [h1, lengthByte_of_toNat, h3]
  · rintro ⟨fs, h1, h2, rfl, rfl⟩
    simp [formatLL, lengthByte_toNat h1, decodeItems_encode fs h2, Except.map]

end Sys2Proof
end

