-- ==== Sys2Proof/Laws/Ops.lean ====
section
/-! SUPPORT. What each shared operation of Machine/Ops.lean can do, once each: a transaction, the six forms, the waits,
the pure register updates, and how these compose (`Did.trans`). Proofs cite these and never unfold the operations. -/

namespace Sys2Proof.Machine

open Sys2Proof.Config

/-! ## Streams of draws -/

theorem Script.take_length {α : Type} (free : Nat → α) (n : Nat) (x : Script α) :
    (Script.take free n x).length = n := by
  induction n generalizing x with
  | zero => rfl
  | succ n ih => simp [Script.take, ih]

theorem Script.drop_add {α : Type} (m n : Nat) (x : Script α) :
    Script.drop (m + n) x = Script.drop n (Script.drop m x) := by
  induction m generalizing x with
  | zero => simp [Script.drop]
  | succ m ih => rw [Nat.succ_add]; exact ih x.tail

theorem Script.take_add {α : Type} (free : Nat → α) (m n : Nat) (x : Script α) :
    Script.take free (m + n) x = Script.take free m x ++ Script.take free n (Script.drop m x) := by
  induction m generalizing x with
  | zero => simp [Script.take, Script.drop]
  | succ m ih => rw [Nat.succ_add]; simp [Script.take, Script.drop, ih]

theorem Script.take_one {α : Type} (free : Nat → α) (x : Script α) : Script.take free 1 x = [x.head free] := rfl

/-- While the script lasts, draws are its items. -/
theorem Script.take_items {α : Type} (free : Nat → α) (n : Nat) (x : Script α) (h : n ≤ x.items.length) :
    Script.take free n x = x.items.take n := by
  induction n generalizing x with
  | zero => simp [Script.take]
  | succ n ih =>
    rcases x with ⟨_ | ⟨a, rest⟩, d⟩
    · simp at h
    · simp at h; simp [Script.take, Script.head, Script.tail, ih ⟨rest, d⟩ h]

theorem Script.drop_items {α : Type} (n : Nat) (x : Script α) (h : n ≤ x.items.length) :
    Script.drop n x = { x with items := x.items.drop n } := by
  induction n generalizing x with
  | zero => simp [Script.drop]
  | succ n ih =>
    rcases x with ⟨_ | ⟨a, rest⟩, d⟩
    · simp at h
    · simp at h; simp [Script.drop, Script.tail, ih ⟨rest, d⟩ h]

theorem Script.drop_items_length {α : Type} (n : Nat) (x : Script α) :
    (Script.drop n x).items.length = x.items.length - n := by
  induction n generalizing x with
  | zero => simp [Script.drop]
  | succ n ih =>
    rcases x with ⟨_ | ⟨a, rest⟩, d⟩ <;> simp [Script.drop, Script.tail, ih]

theorem State.answerBytes_length (s : State) (n : Nat) : (s.answerBytes n).length = n := Script.take_length ..

theorem State.answersFrom_length (s : State) (n m : Nat) : (s.answersFrom n m).length = m := Script.take_length ..

theorem State.answersFrom_eq (s : State) (n m : Nat) : s.answersFrom n m = (s.dropAnswers n).answerBytes m := rfl

theorem State.answersFrom_add (s : State) (n a b : Nat) :
    s.answersFrom n (a + b) = s.answersFrom n a ++ s.answersFrom (n + a) b := by
  simp [State.answersFrom, Script.take_add, Script.drop_add]

/-! ## Waits -/

theorem State.WaitsEnd.timing_ready {s : State} (h : s.WaitsEnd) : s.timing.ready ≠ none := by
  unfold State.timing Script.head
  split
  · next a rest e => exact h.1 a (by simp [e])
  · simp [freeTiming, h.2]

theorem State.WaitsEnd.of_tail {s t : State} (h : s.WaitsEnd) (e : t.inp.timings = s.inp.timings.tail)
    (f : t.inp.readyFails = s.inp.readyFails) : t.WaitsEnd := by
  refine ⟨fun tm hm => h.1 tm ?_, f.trans h.2⟩
  rw [e] at hm
  unfold Script.tail at hm
  split at hm
  · next a rest e' => rw [e']; exact List.mem_cons_of_mem _ hm
  · exact hm

theorem State.WaitsEnd.of_same {s t : State} (h : s.WaitsEnd) (e : t.inp.timings = s.inp.timings)
    (f : t.inp.readyFails = s.inp.readyFails) : t.WaitsEnd :=
  ⟨fun tm hm => h.1 tm (e ▸ hm), f.trans h.2⟩

/-! ## Composition -/

theorem deadlineAfter.append {s t u : State} {es fs : List BusEntry} (h : deadlineAfter s t es)
    (k : deadlineAfter t u fs) : deadlineAfter s u (es ++ fs) := by
  constructor
  · intro e
    rw [k.1 (List.append_eq_nil_iff.mp e).2, h.1 (List.append_eq_nil_iff.mp e).1]
  · intro e he hr
    rcases List.eq_nil_or_concat fs with rfl | ⟨gs, f, rfl⟩
    · rw [k.1 rfl]; simp at he; exact h.2 e he hr
    · refine k.2 e ?_ hr
      simpa using he

theorem guardsKept.nil (s : State) : guardsKept s [] := ⟨by simp, .nil⟩

theorem guardsKept.append {s t : State} {es fs : List BusEntry} (h : guardsKept s es) (d : deadlineAfter s t es)
    (k : guardsKept t fs) : guardsKept s (es ++ fs) := by
  constructor
  · intro f hf hr
    rcases es with _ | ⟨e, es⟩
    · rw [← d.1 rfl]; exact k.1 f hf hr
    · exact h.1 f hf hr
  · rw [List.isChain_append]
    refine ⟨h.2, k.2, fun e he f hf he' hf' => ?_⟩
    rw [← d.2 e he he']
    exact k.1 f hf hf'

/-- Two stretches one after the other; the first must not arm the timer. -/
theorem Did.trans {s t u : State} {r₁ r₂ : Regs} {x₁ x₂ : List BusTxn} {a₁ a₂ : List Bytes}
    {p₁ p₂ : List FrameRecord} {o₁ o₂ : List OpOutcome} (h : Did s t r₁ x₁ a₁ p₁ o₁) (k : Did t u r₂ x₂ a₂ p₂ o₂)
    (armed : r₁.timerArmed = true → s.timerArmed = true) :
    Did s u r₂ (x₁ ++ x₂) (a₁ ++ a₂) (p₁ ++ p₂) (o₁ ++ o₂) where
  cfg_eq := k.cfg_eq.trans h.cfg_eq
  regs_eq := k.regs_eq
  trace_eq := by
    obtain ⟨es, e1, e2, e3, e4⟩ := h.trace_eq
    obtain ⟨fs, f1, f2, f3, f4⟩ := k.trace_eq
    exact ⟨es ++ fs, by rw [f1, e1, List.append_assoc], by simp [e2, f2], e3.append f3, e4.append e3 f4⟩
  responses_eq := by rw [k.responses_eq, h.responses_eq, List.append_assoc]
  pushes_eq := by rw [k.pushes_eq, h.pushes_eq, List.append_assoc]
  outcomes_eq := by rw [k.outcomes_eq, h.outcomes_eq, List.append_assoc]
  refused_eq := k.refused_eq.trans h.refused_eq
  bytes_drawn := by
    have hb := h.bytes_drawn
    have kb := k.bytes_drawn
    simp only [State.answerBytes, h.answers_drawn] at hb kb
    rw [State.answerBytes]
    simp only [bytesRead, List.flatMap_append, List.length_append] at hb kb ⊢
    rw [Script.take_add, ← hb, ← kb]
  answers_drawn := by
    rw [k.answers_drawn, h.answers_drawn]
    simp only [bytesRead, List.flatMap_append, List.length_append]
    rw [Script.drop_add]
  words_eq := k.words_eq.trans h.words_eq
  arrivals_eq := k.arrivals_eq.trans h.arrivals_eq
  picks_eq := k.picks_eq.trans h.picks_eq
  fails_eq := k.fails_eq.trans h.fails_eq
  waits_kept := fun w => k.waits_kept (h.waits_kept w)
  latch_kept := fun p => k.latch_kept (h.latch_kept p)
  latch_from := fun p => (k.latch_from p).elim h.latch_from fun a => .inr (armed (h.regs_eq ▸ a))

/-- A stretch followed by one that leaves the registers alone. -/
theorem Did.andThen {s t u : State} {r : Regs} {x₁ x₂ : List BusTxn} {a₁ a₂ : List Bytes}
    {p₁ p₂ : List FrameRecord} {o₁ o₂ : List OpOutcome} (h : Did s t r x₁ a₁ p₁ o₁)
    (k : Did t u t.regs x₂ a₂ p₂ o₂) (armed : r.timerArmed = true → s.timerArmed = true) :
    Did s u r (x₁ ++ x₂) (a₁ ++ a₂) (p₁ ++ p₂) (o₁ ++ o₂) :=
  h.regs_eq ▸ h.trans k armed

/-- A stretch followed by a pure register update `f`, which acts on the register record as `g`. -/
theorem Did.update {s t : State} {r : Regs} {x : List BusTxn} {a : List Bytes} {p : List FrameRecord}
    {o : List OpOutcome} (h : Did s t r x a p o) (f : State → State) (g : Regs → Regs)
    (hf : Did t (f t) (g t.regs) [] [] [] []) (armed : r.timerArmed = true → s.timerArmed = true) :
    Did s (f t) (g r) x a p o := by
  have k := h.trans hf armed
  rw [h.regs_eq] at k
  simpa using k

theorem Did.trace_prefix {s t : State} {regs : Regs} {x : List BusTxn} {a : List Bytes} {p : List FrameRecord}
    {o : List OpOutcome} (h : Did s t regs x a p o) : s.busTrace <+: t.busTrace := by
  obtain ⟨es, e, -⟩ := h.trace_eq
  exact ⟨es, e.symm⟩

theorem Did.trace_length {s t : State} {regs : Regs} {x : List BusTxn} {a : List Bytes} {p : List FrameRecord}
    {o : List OpOutcome} (h : Did s t regs x a p o) : t.busTrace.length = s.busTrace.length + x.length := by
  obtain ⟨es, e, rfl, -⟩ := h.trace_eq
  simp [e]

/-- The guard-time invariant (40_register_driver.md R117) lasts through anything an operation does. -/
theorem Did.paced {s t : State} {regs : Regs} {x : List BusTxn} {a : List Bytes} {p : List FrameRecord}
    {o : List OpOutcome} (h : Did s t regs x a p o) (k : s.Paced) : t.Paced := by
  obtain ⟨es, e, -, d, g⟩ := h.trace_eq
  constructor
  · intro f hf hr
    rw [e] at hf
    rcases List.eq_nil_or_concat es with rfl | ⟨fs, f', rfl⟩
    · rw [d.1 rfl]; exact k.deadline f (by simpa using hf) hr
    · exact d.2 f (by simpa using hf) hr
  · rw [e, List.isChain_append]
    refine ⟨k.guarded, g.2, fun e' he f hf he' hf' => ?_⟩
    rw [← k.deadline e' he he']
    exact g.1 f hf hf'

/-- The comparison of 40_register_driver.md R110 in microseconds. -/
theorem BusEntry.Guarded.apart {e f : BusEntry} (h : e.Guarded f) : e.Apart f := by
  intro he hf hg
  have k := h he hf
  simp only [clockReached, decide_eq_true_eq] at k
  generalize e.txn.guard = n at *
  generalize e.releaseAt = r at *
  generalize f.guardedAt = w at *
  generalize f.selectAt = c at *
  have hn : (BitVec.ofNat 32 n : Clock).toNat = n := by simp; omega
  generalize hb : (BitVec.ofNat 32 n : Clock) = b at *
  constructor
  · bv_omega
  · intro hs; bv_omega

/-- The frame timestamp, seen from before some transactions that read no other clock. -/
theorem StampedAfter.prepend {s v t : State} {regs : Regs} {x : List BusTxn} {a : List Bytes} {p : List FrameRecord}
    {o : List OpOutcome} {k : Nat} {ts : Clock} (h : StampedAfter v t k ts) (d : Did s v regs x a p o)
    (ticks : v.inp.ticks = s.inp.ticks) : StampedAfter s t (x.length + k) ts := by
  obtain ⟨e, he, rfl⟩ := h
  exact ⟨e, by rw [← he, d.trace_length, Nat.add_assoc], by rw [ticks]⟩

/-- A stretch that touches registers and the streams of ticks and timings only. -/
theorem Did.of_regs {s t : State} (regs : Regs) (hr : t.regs = regs) (hc : t.cfg = s.cfg)
    (hcs : t.csNotBefore = s.csNotBefore) (hb : t.busTrace = s.busTrace) (hre : t.responses = s.responses)
    (hp : t.pushTrace = s.pushTrace) (ho : t.outcomes = s.outcomes) (hrf : t.refused = s.refused)
    (hi : t.inp.answers = s.inp.answers) (hw : t.inp.words = s.inp.words) (ha : t.inp.arrivals = s.inp.arrivals)
    (hpk : t.inp.picks = s.inp.picks) (hfl : t.inp.readyFails = s.inp.readyFails) (hwt : s.WaitsEnd → t.WaitsEnd)
    (hl : s.timerPending = true → t.timerPending = true)
    (hf : t.timerPending = true → s.timerPending = true ∨ s.timerArmed = true) : Did s t regs [] [] [] [] where
  cfg_eq := hc
  regs_eq := hr
  trace_eq := ⟨[], by simpa using hb, rfl, ⟨fun _ => hcs, fun e he => by simp at he⟩, .nil s⟩
  responses_eq := by simpa using hre
  pushes_eq := by simpa using hp
  outcomes_eq := by simpa using ho
  refused_eq := hrf
  bytes_drawn := rfl
  answers_drawn := hi
  words_eq := hw
  arrivals_eq := ha
  picks_eq := hpk
  fails_eq := hfl
  waits_kept := hwt
  latch_kept := hl
  latch_from := hf

theorem Did.refl (s : State) : Did s s s.regs [] [] [] [] :=
  .of_regs _ rfl rfl rfl rfl rfl rfl rfl rfl rfl rfl rfl rfl rfl id id .inl

/-- A pure register update: everything but the registers is the same. -/
theorem Did.of_pure {s t : State} (hc : t.cfg = s.cfg) (hcs : t.csNotBefore = s.csNotBefore)
    (hb : t.busTrace = s.busTrace) (hre : t.responses = s.responses) (hp : t.pushTrace = s.pushTrace)
    (ho : t.outcomes = s.outcomes) (hrf : t.refused = s.refused) (hi : t.inp = s.inp)
    (hl : t.timerPending = s.timerPending) : Did s t t.regs [] [] [] [] :=
  .of_regs _ rfl hc hcs hb hre hp ho hrf (by rw [hi]) (by rw [hi]) (by rw [hi]) (by rw [hi])
    (by rw [hi]) (fun w => w.of_same (by rw [hi]) (by rw [hi])) (by simp [hl]) (by rw [hl]; exact .inl)

theorem Did.markOk (s : State) : Did s s.markOk s.regs [] [] [] [.ok] where
  cfg_eq := rfl
  regs_eq := rfl
  trace_eq := ⟨[], by simp, rfl, ⟨fun _ => rfl, fun e he => by simp at he⟩, .nil s⟩
  responses_eq := by simp
  pushes_eq := by simp
  outcomes_eq := rfl
  refused_eq := rfl
  bytes_drawn := rfl
  answers_drawn := rfl
  words_eq := rfl
  arrivals_eq := rfl
  picks_eq := rfl
  fails_eq := rfl
  waits_kept := id
  latch_kept := id
  latch_from := .inl

theorem Did.respond (s : State) (bs : Bytes) : Did s (s.respond bs) s.regs [] [bs] [] [] where
  cfg_eq := rfl
  regs_eq := rfl
  trace_eq := ⟨[], by simp, rfl, ⟨fun _ => rfl, fun e he => by simp at he⟩, .nil s⟩
  responses_eq := rfl
  pushes_eq := by simp
  outcomes_eq := by simp
  refused_eq := rfl
  bytes_drawn := rfl
  answers_drawn := rfl
  words_eq := rfl
  arrivals_eq := rfl
  picks_eq := rfl
  fails_eq := rfl
  waits_kept := id
  latch_kept := id
  latch_from := .inl

theorem Did.push (s : State) (f : FrameRecord) : Did s (s.push f) s.regs [] [] [f] [] where
  cfg_eq := rfl
  regs_eq := rfl
  trace_eq := ⟨[], by simp, rfl, ⟨fun _ => rfl, fun e he => by simp at he⟩, .nil s⟩
  responses_eq := by simp
  pushes_eq := rfl
  outcomes_eq := by simp
  refused_eq := rfl
  bytes_drawn := rfl
  answers_drawn := rfl
  words_eq := rfl
  arrivals_eq := rfl
  picks_eq := rfl
  fails_eq := rfl
  waits_kept := id
  latch_kept := id
  latch_from := .inl

/-! ## Time -/

theorem State.elapse_latch_from (s : State) (d : Clock) (h : (s.elapse d).timerPending = true) :
    s.timerPending = true ∨ s.timerArmed = true := by
  simp at h; tauto

theorem State.elapse_latch_kept (s : State) (d : Clock) (h : s.timerPending = true) :
    (s.elapse d).timerPending = true := by simp [h]

theorem Did.elapse (s : State) (d : Clock) : Did s (s.elapse d) s.regs [] [] [] [] :=
  .of_regs _ rfl rfl rfl rfl rfl rfl rfl rfl rfl rfl rfl rfl rfl id (s.elapse_latch_kept d) (s.elapse_latch_from d)

theorem Did.readClock (s : State) : Did s s.readClock s.regs [] [] [] [] :=
  .of_regs _ (by simp) (by simp) (by simp) (by simp) (by simp) (by simp) (by simp) (by simp) (by simp) (by simp)
    (by simp) (by simp) (by simp) (fun w => w.of_same (by simp) (by simp)) (s.elapse_latch_kept _) (s.elapse_latch_from _)

theorem Did.settle (s : State) : Did s s.settle s.regs [] [] [] [] := by
  have k := (Did.readClock s).trans (Did.elapse s.readClock (BitVec.ofNat 32 xtalSettleUs)) id
  rw [State.readClock_regs] at k
  exact k

theorem State.guardLeft_reached (s : State) : clockReached (s.now + s.guardLeft) s.csNotBefore = true := by
  unfold State.guardLeft
  split
  · next h => simpa using h
  · have e : ∀ a b : Clock, a + (b - a) = b := fun a b => by bv_omega
    rw [e]; simp [clockReached]

/-- The guard wait of 40_register_driver.md R110 ends with the deadline passed. -/
theorem State.atGuard_reached (s : State) : clockReached s.atGuard.now s.csNotBefore = true :=
  (s.dropTiming.elapse s.timing.issue).guardLeft_reached

theorem State.atSelect_latch_from (s : State) (h : s.atSelect.timerPending = true) :
    s.timerPending = true ∨ s.timerArmed = true := by
  simp only [State.atSelect, State.atGuard] at h
  rcases State.elapse_latch_from _ _ h with h | h
  · rcases State.elapse_latch_from _ _ h with h | h
    · exact State.elapse_latch_from _ _ h
    · right; simpa using h
  · right; simpa using h

theorem State.atSelect_latch_kept (s : State) (h : s.timerPending = true) : s.atSelect.timerPending = true := by
  simp only [State.atSelect, State.atGuard]
  exact State.elapse_latch_kept _ _ (State.elapse_latch_kept _ _ (State.elapse_latch_kept _ _ h))

/-! ## The bus transaction -/

/-- A transaction answers exactly when the ready wait ends, and then `afterTxn` is all it did. -/
theorem transact_eq_ok {txn : BusTxn} {g : Nat} {s t : State} :
    transact txn g s = .ok t ↔ s.timing.ready ≠ none ∧ t = s.afterTxn txn g := by
  unfold transact
  split
  · next h => simp [h]
  · next h => simp [h, eq_comm]

theorem transact_hangs {txn : BusTxn} {g : Nat} {s : State} (h : s.timing.ready = none) :
    transact txn g s = .error .hang := by
  simp [transact, h]

theorem transact_ok {s : State} (h : s.WaitsEnd) (txn : BusTxn) (g : Nat) : ∃ t, transact txn g s = .ok t :=
  ⟨_, transact_eq_ok.mpr ⟨h.timing_ready, rfl⟩⟩

/-- What a transaction does, but for the answers it read (they are drawn before it). -/
theorem afterTxn_did (s : State) (txn : BusTxn) (n : Nat) (hn : bytesRead [txn] = s.answerBytes n) :
    Did s ((s.dropAnswers n).afterTxn txn txn.guard) s.regs [txn] [] [] [] := by
  have hl : (bytesRead [txn]).length = n := by rw [hn, State.answerBytes_length]
  exact
    { cfg_eq := by simp
      regs_eq := by simp
      trace_eq := ⟨[_], by simp; rfl, rfl, ⟨by simp, fun e he _ => by
        simp only [List.getLast?_singleton, Option.some.injEq] at he
        subst he; simp⟩, fun f hf _ => by
          simp only [List.head?_cons, Option.some.injEq] at hf
          subst hf
          simpa using State.atGuard_reached (s.dropAnswers n), .singleton _⟩
      responses_eq := by simp
      pushes_eq := by simp
      outcomes_eq := by simp
      refused_eq := by simp
      bytes_drawn := by rw [hl]; exact hn
      answers_drawn := by rw [hl]; simp
      words_eq := by simp
      arrivals_eq := by simp
      picks_eq := by simp
      fails_eq := by simp
      waits_kept := fun w => w.of_tail (by simp) (by simp)
      latch_kept := fun p => State.elapse_latch_kept _ _ (State.atSelect_latch_kept _ (by simpa using p))
      latch_from := fun p => by
        rcases State.elapse_latch_from _ _ p with p | p
        · simpa using State.atSelect_latch_from _ p
        · right; simpa using p }

theorem transact_did {s t : State} {txn : BusTxn} (n : Nat) (hn : bytesRead [txn] = s.answerBytes n)
    (h : transact txn txn.guard (s.dropAnswers n) = .ok t) : Did s t s.regs [txn] [] [] [] := by
  obtain ⟨-, rfl⟩ := transact_eq_ok.mp h
  exact afterTxn_did s txn n hn

/-- A transaction stands last in the trace, released now. -/
theorem transact_last {txn : BusTxn} {g : Nat} {s t : State} (h : transact txn g s = .ok t) :
    ∃ e, t.busTrace = s.busTrace ++ [e] ∧ e.txn = txn ∧ e.releaseAt = t.now := by
  obtain ⟨-, rfl⟩ := transact_eq_ok.mp h
  exact ⟨_, by simp; rfl, rfl, rfl⟩

/-- A transaction reads no clock outside itself. -/
theorem transact_ticks {txn : BusTxn} {g : Nat} {s t : State} (h : transact txn g s = .ok t) :
    t.inp.ticks = s.inp.ticks := by
  obtain ⟨-, rfl⟩ := transact_eq_ok.mp h
  simp

theorem State.dropAnswers_zero (s : State) : s.dropAnswers 0 = s := rfl

theorem State.WaitsEnd.dropAnswers {s : State} (h : s.WaitsEnd) (n : Nat) : (s.dropAnswers n).WaitsEnd :=
  h.of_same rfl rfl

/-! ## The six forms -/

theorem busWrite_did {a v : Byte} {g : Nat} {s t : State} (h : busWrite a v g s = .ok t) :
    Did s t s.regs [.write a v g] [] [] [] :=
  transact_did 0 rfl h

theorem busWrite_ok {s : State} (h : s.WaitsEnd) (a v : Byte) (g : Nat) : ∃ t, busWrite a v g s = .ok t :=
  transact_ok h _ _

theorem busStrobe_did {c : Byte} {g : Nat} {s t : State} (h : busStrobe c g s = .ok t) :
    Did s t s.regs [.strobe c g] [] [] [] :=
  transact_did 0 rfl h

theorem busStrobe_ok {s : State} (h : s.WaitsEnd) (c : Byte) (g : Nat) : ∃ t, busStrobe c g s = .ok t :=
  transact_ok h _ _

theorem busWriteBurst_did {a : Byte} {bs : Bytes} {g : Nat} {s t : State} (h : busWriteBurst a bs g s = .ok t) :
    Did s t s.regs (burstWrite a bs g) [] [] [] := by
  unfold busWriteBurst at h
  unfold burstWrite
  split at h
  · next e => obtain rfl : s = t := by simpa using h
              simp [e, Did.refl]
  · next e => rw [if_neg e]; exact transact_did 0 rfl h

theorem busWriteBurst_ok {s : State} (h : s.WaitsEnd) (a : Byte) (bs : Bytes) (g : Nat) :
    ∃ t, busWriteBurst a bs g s = .ok t := by
  unfold busWriteBurst
  split
  · exact ⟨s, rfl⟩
  · exact transact_ok h _ _

theorem map_pair_eq_ok {α : Type} {r : Except Fault State} {x y : α} {t : State} :
    r.map (x, ·) = .ok (y, t) ↔ y = x ∧ r = .ok t := by
  rcases r with e | v
  · simp [Except.map]
  · simp [Except.map, eq_comm]

theorem busRead_did {a b : Byte} {g : Nat} {s t : State} (h : busRead a g s = .ok (b, t)) :
    b = s.answer ∧ Did s t s.regs [.read a s.answer g] [] [] [] := by
  obtain ⟨rfl, k⟩ := map_pair_eq_ok.mp h
  exact ⟨rfl, transact_did 1 rfl k⟩

theorem busRead_ok {s : State} (h : s.WaitsEnd) (a : Byte) (g : Nat) : ∃ t, busRead a g s = .ok (s.answer, t) := by
  obtain ⟨t, ht⟩ := transact_ok (h.dropAnswers 1) (.read a s.answer g) g
  exact ⟨t, map_pair_eq_ok.mpr ⟨rfl, ht⟩⟩

theorem busReadStatus_did {a b : Byte} {g : Nat} {s t : State} (h : busReadStatus a g s = .ok (b, t)) :
    b = s.answer ∧ Did s t s.regs [.readStatus a s.answer g] [] [] [] := by
  obtain ⟨rfl, k⟩ := map_pair_eq_ok.mp h
  exact ⟨rfl, transact_did 1 rfl k⟩

theorem busReadStatus_last {a b : Byte} {g : Nat} {s t : State} (h : busReadStatus a g s = .ok (b, t)) :
    ∃ e, t.busTrace = s.busTrace ++ [e] ∧ e.txn = .readStatus a s.answer g ∧ e.releaseAt = t.now :=
  transact_last (s := s.dropAnswers 1) (map_pair_eq_ok.mp h).2

theorem busReadStatus_ticks {a b : Byte} {g : Nat} {s t : State} (h : busReadStatus a g s = .ok (b, t)) :
    t.inp.ticks = s.inp.ticks := transact_ticks (s := s.dropAnswers 1) (map_pair_eq_ok.mp h).2

theorem busReadStatus_ok {s : State} (h : s.WaitsEnd) (a : Byte) (g : Nat) :
    ∃ t, busReadStatus a g s = .ok (s.answer, t) := by
  obtain ⟨t, ht⟩ := transact_ok (h.dropAnswers 1) (.readStatus a s.answer g) g
  exact ⟨t, map_pair_eq_ok.mpr ⟨rfl, ht⟩⟩

theorem burstRead_bytes (a : Byte) (bs : Bytes) (g : Nat) : bytesRead (burstRead a bs g) = bs := by
  unfold burstRead; split <;> simp_all [bytesRead, BusTxn.bytesRead]

theorem busReadBurst_did {a : Byte} {n g : Nat} {bs : Bytes} {s t : State} (h : busReadBurst a n g s = .ok (bs, t)) :
    bs = s.answerBytes n ∧ Did s t s.regs (burstRead a (s.answerBytes n) g) [] [] [] := by
  unfold busReadBurst at h
  split at h
  · next e =>
    subst e
    obtain ⟨rfl, rfl⟩ : [] = bs ∧ s = t := by simpa using h
    exact ⟨rfl, by simpa [burstRead, State.answerBytes, Script.take] using Did.refl s⟩
  · next e =>
    obtain ⟨rfl, k⟩ := map_pair_eq_ok.mp h
    have hne : s.answerBytes n ≠ [] := by
      intro h0; apply e; rw [← s.answerBytes_length n, h0]; rfl
    refine ⟨rfl, ?_⟩
    rw [burstRead, if_neg hne]
    exact transact_did n (by simp [bytesRead, BusTxn.bytesRead]) k

theorem busReadBurst_ticks {a : Byte} {n g : Nat} {bs : Bytes} {s t : State}
    (h : busReadBurst a n g s = .ok (bs, t)) : t.inp.ticks = s.inp.ticks := by
  unfold busReadBurst at h
  split at h
  · obtain ⟨-, rfl⟩ : [] = bs ∧ s = t := by simpa using h
    rfl
  · exact transact_ticks (s := s.dropAnswers n) (map_pair_eq_ok.mp h).2

theorem busReadBurst_ok {s : State} (h : s.WaitsEnd) (a : Byte) (n g : Nat) :
    ∃ t, busReadBurst a n g s = .ok (s.answerBytes n, t) := by
  unfold busReadBurst
  split
  · next e => subst e; exact ⟨s, rfl⟩
  · obtain ⟨t, ht⟩ := transact_ok (h.dropAnswers n) (.readBurst a (s.answerBytes n) g) g
    exact ⟨t, map_pair_eq_ok.mpr ⟨rfl, ht⟩⟩

/-! ## The chip's reset -/

theorem waitReady_eq_ok {s t : State} :
    waitReady s = .ok t ↔
      ∃ d, s.timing.ready = some d ∧ t = (s.dropTiming.elapse s.timing.issue).elapse d := by
  unfold waitReady
  split
  · next h => simp [h]
  · next d h => simp [h, eq_comm]

theorem waitReady_did {s t : State} (h : waitReady s = .ok t) : Did s t s.regs [] [] [] [] := by
  obtain ⟨d, -, rfl⟩ := waitReady_eq_ok.mp h
  have h1 : Did s s.dropTiming s.regs [] [] [] [] :=
    .of_regs _ rfl rfl rfl rfl rfl rfl rfl rfl rfl rfl rfl rfl rfl (fun w => w.of_tail rfl rfl) id .inl
  exact (h1.trans (Did.elapse _ _) id).trans (Did.elapse _ _) id

theorem waitReady_ok {s : State} (h : s.WaitsEnd) : ∃ t, waitReady s = .ok t := by
  cases hr : s.timing.ready with
  | none => exact absurd hr h.timing_ready
  | some d => exact ⟨_, waitReady_eq_ok.mpr ⟨d, hr, rfl⟩⟩

theorem afterReset_did (s : State) : Did s s.afterReset s.regs [.reset] [] [] [] where
  cfg_eq := by simp
  regs_eq := by simp
  trace_eq := ⟨[_], by simp; rfl, rfl, ⟨by simp, fun e he hr => by
    simp only [List.getLast?_singleton, Option.some.injEq] at he
    subst he; simp at hr⟩, fun f hf hr => by
      simp only [List.head?_cons, Option.some.injEq] at hf
      subst hf; simp at hr, .singleton _⟩
  responses_eq := by simp
  pushes_eq := by simp
  outcomes_eq := by simp
  refused_eq := by simp
  bytes_drawn := rfl
  answers_drawn := by simp [bytesRead, BusTxn.bytesRead, Script.drop]
  words_eq := by simp
  arrivals_eq := by simp
  picks_eq := by simp
  fails_eq := by simp
  waits_kept := fun w => w.of_same (by simp) (by simp)
  latch_kept := fun p => State.elapse_latch_kept _ _ ((Did.readClock s).latch_kept p)
  latch_from := fun p => (State.elapse_latch_from _ _ p).elim (Did.readClock s).latch_from
    fun a => .inr (by simpa using a)

/-! ## How an operation ends -/

/-- An operation that ran to its end completes as what it did. -/
theorem complete_next {s t : State} {regs : Regs} {x : List BusTxn} {a : List Bytes} {p : List FrameRecord}
    {r : Except Fault State} (h : r = .ok t) (d : Did s t regs x a p []) :
    ∃ u, complete r = .next u ∧ Did s u regs x a p [.ok] := by
  subst h
  exact ⟨t.markOk, rfl,
    { d with outcomes_eq := by rw [State.markOk_outcomes, d.outcomes_eq, List.append_nil] }⟩

theorem complete_eq_next {r : Except Fault State} {u : State} (h : complete r = .next u) :
    ∃ t, r = .ok t ∧ u = t.markOk := by
  rcases r with e | t
  · simp [complete] at h
  · exact ⟨t, rfl, by simpa [complete, eq_comm] using h⟩

/-- `Except` sequencing, peeled: a sequence that answers has answered at each stage. -/
theorem bind_eq_ok {α β : Type} {x : Except Fault α} {f : α → Except Fault β} {b : β} :
    (x >>= f) = .ok b ↔ ∃ a, x = .ok a ∧ f a = .ok b := by
  rcases x with e | a
  · simp [bind, Except.bind]
  · simp [bind, Except.bind]

/-- A sequence answers when its first part does and the rest then does. -/
theorem exists_bind {α β : Type} {x : Except Fault α} {f : α → Except Fault β} {a : α} (h : x = .ok a)
    (k : ∃ b, f a = .ok b) : ∃ b, (x >>= f) = .ok b := by
  obtain ⟨b, hb⟩ := k
  exact ⟨b, bind_eq_ok.mpr ⟨a, h, hb⟩⟩

theorem map_eq_ok {α β : Type} {x : Except Fault α} {f : α → β} {b : β} :
    x.map f = .ok b ↔ ∃ a, x = .ok a ∧ f a = b := by
  rcases x with e | a <;> simp [Except.map]

theorem answering_eq_ok {α : Type} {f : α → Bytes} {r : Except Fault (α × State)} {u : State} :
    answering f r = .ok u ↔ ∃ v t, r = .ok (v, t) ∧ u = t.respond (f v) := by
  unfold answering
  rw [map_eq_ok]
  constructor
  · rintro ⟨⟨v, t⟩, h, rfl⟩; exact ⟨v, t, h, rfl⟩
  · rintro ⟨v, t, h, rfl⟩; exact ⟨(v, t), h, rfl⟩

end Sys2Proof.Machine
end

