-- ==== Sys2Proof/Laws/Driver.lean ====
section
/-! SUPPORT. What the Register Driver pieces that other rules perform can do, once each: `..._did` says all of it for an
answer already given, `..._ok` that an answer is given when every wait ends. -/

namespace Sys2Proof.Machine

open Sys2Proof.Config

/-! ## Register updates -/

theorem Did.clearOffset (s : State) : Did s s.clearOffset { s.regs with appliedOffset := 0 } [] [] [] [] :=
  Did.of_pure rfl rfl rfl rfl rfl rfl rfl rfl rfl

theorem Did.setFreqHi (s : State) (b : Byte) :
    Did s (s.setFreqHi b) { s.regs with config := { s.config with freqHi := b } } [] [] [] [] :=
  Did.of_pure rfl rfl rfl rfl rfl rfl rfl rfl rfl

theorem Did.setFreqMid (s : State) (b : Byte) :
    Did s (s.setFreqMid b) { s.regs with config := { s.config with freqMid := b } } [] [] [] [] :=
  Did.of_pure rfl rfl rfl rfl rfl rfl rfl rfl rfl

theorem Did.setFreqLo (s : State) (b : Byte) :
    Did s (s.setFreqLo b) { s.regs with config := { s.config with freqLo := b } } [] [] [] [] :=
  Did.of_pure rfl rfl rfl rfl rfl rfl rfl rfl rfl

theorem Did.setBwCode (s : State) (c : Byte) :
    Did s (s.setBwCode c) { s.regs with config := { s.config with bwCode := c } } [] [] [] [] :=
  Did.of_pure rfl rfl rfl rfl rfl rfl rfl rfl rfl

theorem Did.setBitrateCode (s : State) (c : Word16) :
    Did s (s.setBitrateCode c) { s.regs with config := { s.config with bitrateCode := c } } [] [] [] [] :=
  Did.of_pure rfl rfl rfl rfl rfl rfl rfl rfl rfl

theorem Did.setDevCode (s : State) (c : Byte) :
    Did s (s.setDevCode c) { s.regs with config := { s.config with devCode := c } } [] [] [] [] :=
  Did.of_pure rfl rfl rfl rfl rfl rfl rfl rfl rfl

theorem Did.setFifoThreshold (s : State) (c : Byte) :
    Did s (s.setFifoThreshold c) { s.regs with config := { s.config with fifoThreshold := c } } [] [] [] [] :=
  Did.of_pure rfl rfl rfl rfl rfl rfl rfl rfl rfl

/-- A stretch leaves a register field as the register record says. -/
theorem Did.field {α : Type} {s t : State} {regs : Regs} {x : List BusTxn} {a : List Bytes} {p : List FrameRecord}
    {o : List OpOutcome} (h : Did s t regs x a p o) (f : Regs → α) : f t.regs = f regs := by rw [h.regs_eq]

/-- What is left of the answers after a stretch. -/
theorem Did.answersFrom {s t : State} {regs : Regs} {x : List BusTxn} {a : List Bytes} {p : List FrameRecord}
    {o : List OpOutcome} (h : Did s t regs x a p o) (n m : Nat) :
    t.answersFrom n m = s.answersFrom ((bytesRead x).length + n) m := by
  simp [State.answersFrom, h.answers_drawn, Script.drop_add]

/-- The next answers after a stretch. -/
theorem Did.answerBytes {s t : State} {regs : Regs} {x : List BusTxn} {a : List Bytes} {p : List FrameRecord}
    {o : List OpOutcome} (h : Did s t regs x a p o) (m : Nat) :
    t.answerBytes m = s.answersFrom (bytesRead x).length m := by
  simp [State.answersFrom, State.answerBytes, h.answers_drawn]

/-- The next answer after a stretch. -/
theorem Did.answer {s t : State} {regs : Regs} {x : List BusTxn} {a : List Bytes} {p : List FrameRecord}
    {o : List OpOutcome} (h : Did s t regs x a p o) : t.answer = s.answerAt (bytesRead x).length := by
  simp [State.answer, State.answerAt, Script.nth, h.answers_drawn]

/-! ## `DRV_RESET` -/

theorem drvReset_ok {s : State} (w : s.WaitsEnd) : ∃ t, drvReset s = .ok t := by
  obtain ⟨t₁, h₁⟩ := waitReady_ok w
  have w₁ := (waitReady_did h₁).waits_kept w
  obtain ⟨t₂, h₂⟩ := waitReady_ok ((afterReset_did t₁).waits_kept w₁)
  exact ⟨_, by simp only [drvReset, bind_eq_ok]; exact ⟨t₁, h₁, t₂, h₂, rfl⟩⟩

/-- `DRV_RESET`: the reset entry, no register, and the guard counted from the end (40_register_driver.md R118). -/
theorem drvReset_did {s t : State} (h : drvReset s = .ok t) :
    Did s t s.regs [.reset] [] [] [] ∧ t.csNotBefore = t.now + BitVec.ofNat 32 (guardOf s.cfg .drvReset) := by
  simp only [drvReset, bind_eq_ok] at h
  obtain ⟨t₁, h₁, t₂, h₂, h₃⟩ := h
  have d₁ := waitReady_did h₁
  have d := (d₁.trans (afterReset_did t₁) id).trans (waitReady_did h₂) (by rw [d₁.regs_eq]; exact id)
  obtain rfl : _ = t := by simpa using h₃
  constructor
  · refine
      { cfg_eq := d.cfg_eq
        regs_eq := by
          have e := d.regs_eq
          have e₁ := d₁.regs_eq
          simp only [State.afterReset_regs] at e
          exact e.trans e₁
        trace_eq := by
          obtain ⟨es, e1, e2, -, e4⟩ := d.trace_eq
          refine ⟨es, e1, e2, ⟨?_, ?_⟩, e4⟩
          · intro h0; subst h0; simp at e2
          · intro e he hr
            exfalso
            have hm : (es.map (·.txn)).getLast? = some e.txn := by rw [List.getLast?_map, he]; rfl
            rw [e2] at hm
            simp at hm
            exact hr hm.symm
        responses_eq := d.responses_eq
        pushes_eq := d.pushes_eq
        outcomes_eq := d.outcomes_eq
        refused_eq := d.refused_eq
        bytes_drawn := d.bytes_drawn
        answers_drawn := d.answers_drawn
        words_eq := d.words_eq
        arrivals_eq := d.arrivals_eq
        picks_eq := d.picks_eq
        fails_eq := d.fails_eq
        waits_kept := fun w => d.waits_kept w
        latch_kept := d.latch_kept
        latch_from := d.latch_from }
  · show t₂.now + _ = t₂.now + _
    rw [(waitReady_did h₂).cfg_eq, State.afterReset_cfg, d₁.cfg_eq]

/-! ## `CALIBRATE` -/

/-- The poll ends at the first clear answer within its bound. -/
theorem poll_ok (n : Nat) : ∀ (fuel : Nat) (s : State), s.WaitsEnd → 1 ≤ n → n ≤ fuel + 1 →
    (∀ b ∈ (s.answerBytes n).dropLast, isCalBusy s.cfg b = true) →
    (∀ b, (s.answerBytes n).getLast? = some b → isCalBusy s.cfg b = false) →
    ∃ t, pollCalibration fuel s = .ok t := by
  induction n with
  | zero => intro _ _ _ h; omega
  | succ n ih =>
    intro fuel s w _ hf hb hc
    obtain ⟨t, ht⟩ := busReadStatus_ok w s.chip.aChipStatus (guardOf s.cfg .calibrate)
    obtain ⟨-, d⟩ := busReadStatus_did ht
    have hs : s.answerBytes (n + 1) = s.answer :: t.answerBytes n := by
      rw [d.answerBytes]; rfl
    unfold pollCalibration
    rw [ht]
    cases n with
    | zero =>
      have hclear := hc s.answer (by rw [hs]; rfl)
      simp [hclear]
    | succ m =>
      have hlen := t.answerBytes_length (m + 1)
      have hbusy : isCalBusy s.cfg s.answer = true := by
        apply hb
        rw [hs]
        cases e : t.answerBytes (m + 1) with
        | nil => simp [e] at hlen
        | cons x xs => simp
      simp only [hbusy, if_true]
      cases fuel with
      | zero => omega
      | succ k =>
        refine ih k t (d.waits_kept w) (by omega) (by omega) ?_ ?_
        · intro b hbm
          rw [d.cfg_eq]
          apply hb
          rw [hs]
          cases e : t.answerBytes (m + 1) with
          | nil => simp [e] at hlen
          | cons x xs => rw [e] at hbm; simp only [List.dropLast_cons_cons]; exact List.mem_cons_of_mem _ hbm
        · intro b hbl
          rw [d.cfg_eq]
          apply hc
          rw [hs]
          cases e : t.answerBytes (m + 1) with
          | nil => simp [e] at hlen
          | cons x xs => rw [e] at hbl; simpa using hbl

theorem pollReads_zero (s : State) (n : Nat) : pollReads s 0 n =
    (s.answerBytes n).map fun b => .readStatus s.cfg.chip.aChipStatus b (guardOf s.cfg .calibrate) := rfl

/-- What a poll that ended has done: the reads up to the first clear answer. -/
theorem poll_did : ∀ (fuel : Nat) (s t : State), pollCalibration fuel s = .ok t →
    ∃ n, 1 ≤ n ∧ n ≤ fuel + 1 ∧ (∀ b ∈ (s.answerBytes n).dropLast, isCalBusy s.cfg b = true) ∧
      (∀ b, (s.answerBytes n).getLast? = some b → isCalBusy s.cfg b = false) ∧
      Did s t s.regs (pollReads s 0 n) [] [] [] := by
  intro fuel
  induction fuel with
  | zero =>
    intro s t h
    unfold pollCalibration at h
    split at h
    · cases h
    · next b u hb =>
      obtain ⟨rfl, d⟩ := busReadStatus_did hb
      split at h
      · cases h
      · next hc =>
        obtain rfl : u = t := by simpa using h
        refine ⟨1, le_refl _, le_refl _, by simp [State.answerBytes, Script.take], ?_, d⟩
        intro b hb; simp [State.answerBytes, Script.take] at hb; subst hb
        simpa [State.answer] using hc
  | succ k ih =>
    intro s t h
    unfold pollCalibration at h
    split at h
    · cases h
    · next b u hb =>
      obtain ⟨rfl, d⟩ := busReadStatus_did hb
      split at h
      · next hbusy =>
        obtain ⟨n, h1, h2, h3, h4, h5⟩ := ih u t h
        have hs : s.answerBytes (n + 1) = s.answer :: u.answerBytes n := by rw [d.answerBytes]; rfl
        have hlen := u.answerBytes_length n
        refine ⟨n + 1, by omega, by omega, ?_, ?_, ?_⟩
        · rw [hs]
          cases e : u.answerBytes n with
          | nil => simp [e] at hlen; omega
          | cons x xs =>
            intro b hb
            rw [e] at h3
            simp only [List.dropLast_cons_cons, List.mem_cons] at hb
            rcases hb with rfl | hb
            · exact hbusy
            · rw [← d.cfg_eq]; exact h3 b hb
        · rw [hs]
          cases e : u.answerBytes n with
          | nil => simp [e] at hlen; omega
          | cons x xs =>
            intro b hb
            rw [e] at h4
            rw [← d.cfg_eq]
            exact h4 b (by simpa using hb)
        · have hr := d.trans h5 id
          rw [d.regs_eq] at hr
          have hp : pollReads s 0 (n + 1) = .readStatus s.cfg.chip.aChipStatus s.answer (guardOf s.cfg .calibrate) ::
              pollReads u 0 n := by
            rw [pollReads_zero, pollReads_zero, hs, d.cfg_eq]; rfl
          rw [hp]
          exact hr
      · next hc =>
        obtain rfl : u = t := by simpa using h
        refine ⟨1, le_refl _, by omega, by simp [State.answerBytes, Script.take], ?_, d⟩
        intro b hb; simp [State.answerBytes, Script.take] at hb; subst hb
        simpa [State.answer] using hc

/-- The stretch of `CALIBRATE` before the poll. -/
theorem calibrate_start_ok {s : State} (w : s.WaitsEnd) :
    ∃ t₁ t₂ t₃, busWrite s.chip.aFreqOffset 0x00 (guardOf s.cfg .calibrate) s.clearOffset = .ok t₁ ∧
      busWrite t₁.chip.aTest t₁.chip.vTestCal (guardOf t₁.cfg .calibrate) t₁ = .ok t₂ ∧
      busStrobe t₂.chip.sCal (guardOf t₂.cfg .calibrate) t₂ = .ok t₃ := by
  obtain ⟨t₁, h₁⟩ := busWrite_ok ((Did.clearOffset s).waits_kept w) s.chip.aFreqOffset 0x00 (guardOf s.cfg .calibrate)
  have w₁ := (busWrite_did h₁).waits_kept ((Did.clearOffset s).waits_kept w)
  obtain ⟨t₂, h₂⟩ := busWrite_ok w₁ t₁.chip.aTest t₁.chip.vTestCal (guardOf t₁.cfg .calibrate)
  obtain ⟨t₃, h₃⟩ := busStrobe_ok ((busWrite_did h₂).waits_kept w₁) t₂.chip.sCal (guardOf t₂.cfg .calibrate)
  exact ⟨t₁, t₂, t₃, h₁, h₂, h₃⟩

theorem calibrate_start_did {s t₁ t₂ t₃ : State}
    (h₁ : busWrite s.chip.aFreqOffset 0x00 (guardOf s.cfg .calibrate) s.clearOffset = .ok t₁)
    (h₂ : busWrite t₁.chip.aTest t₁.chip.vTestCal (guardOf t₁.cfg .calibrate) t₁ = .ok t₂)
    (h₃ : busStrobe t₂.chip.sCal (guardOf t₂.cfg .calibrate) t₂ = .ok t₃) :
    Did s t₃ { s.regs with appliedOffset := 0 }
      [.write s.cfg.chip.aFreqOffset 0x00 (guardOf s.cfg .calibrate),
       .write s.cfg.chip.aTest s.cfg.chip.vTestCal (guardOf s.cfg .calibrate),
       .strobe s.cfg.chip.sCal (guardOf s.cfg .calibrate)] [] [] [] := by
  have d₀ := Did.clearOffset s
  have d₁ := d₀.trans (busWrite_did h₁) id
  rw [d₀.regs_eq] at d₁
  have d₂ := d₁.trans (busWrite_did h₂) id
  rw [d₁.regs_eq] at d₂
  have d₃ := d₂.trans (busStrobe_did h₃) id
  simp only [d₂.regs_eq, State.chip, d₁.cfg_eq, d₂.cfg_eq] at d₃
  exact d₃

theorem drvCalibrate_did {s t : State} (h : drvCalibrate s = .ok t) :
    ∃ n, PollEnds s 0 n ∧ Did s t { s.regs with appliedOffset := 0 } (calibrateTxns s 0 n) [] [] [] := by
  simp only [drvCalibrate, bind_eq_ok] at h
  obtain ⟨t₁, h₁, t₂, h₂, t₃, h₃, h₄⟩ := h
  have d := calibrate_start_did h₁ h₂ h₃
  obtain ⟨n, n1, n2, n3, n4, n5⟩ := poll_did _ _ _ h₄
  have hb : t₃.answerBytes n = s.answersFrom 0 n := d.answerBytes n
  have ha : t₃.inp.answers = s.inp.answers := d.answers_drawn
  refine ⟨n, ⟨n1, ?_, ?_, ?_⟩, ?_⟩
  · rw [← hb, ← d.cfg_eq]; exact n3
  · rw [← hb, ← d.cfg_eq]; exact n4
  · rw [State.pollBudget, ha, d.cfg_eq] at n2; omega
  · have k := d.trans n5 id
    rw [d.regs_eq] at k
    have hp : pollReads t₃ 0 n = pollReads s 0 n := by rw [pollReads_zero, hb, d.cfg_eq]; rfl
    rw [hp] at k
    exact k

theorem drvCalibrate_ok {s : State} (w : s.WaitsEnd) {n : Nat} (p : PollEnds s 0 n) :
    ∃ t, drvCalibrate s = .ok t := by
  obtain ⟨t₁, t₂, t₃, h₁, h₂, h₃⟩ := calibrate_start_ok w
  have d := calibrate_start_did h₁ h₂ h₃
  have hb : t₃.answerBytes n = s.answersFrom 0 n := d.answerBytes n
  have ha : t₃.inp.answers = s.inp.answers := d.answers_drawn
  obtain ⟨t, h₄⟩ := poll_ok n t₃.pollBudget t₃ (d.waits_kept w) p.pos
    (by have := p.bound; rw [State.pollBudget, ha, d.cfg_eq]; omega)
    (by rw [hb, d.cfg_eq]; exact p.busy) (by rw [hb, d.cfg_eq]; exact p.clear)
  exact ⟨t, by simp only [drvCalibrate, bind_eq_ok]; exact ⟨t₁, h₁, t₂, h₂, t₃, h₃, h₄⟩⟩

/-- The first clear answer is at one place only. -/
theorem PollEnds.unique {s : State} {k m n : Nat} (h : PollEnds s k m) (g : PollEnds s k n) : m = n := by
  have key : ∀ a b, PollEnds s k a → PollEnds s k b → ¬ a < b := by
    intro a b ha hb hlt
    have hsplit : s.answersFrom k b = s.answersFrom k a ++ s.answersFrom (k + a) (b - a) := by
      rw [← State.answersFrom_add]; congr 1; omega
    have hne : s.answersFrom k a ≠ [] := by
      intro e; have hl := s.answersFrom_length k a; rw [e] at hl; have := ha.pos; simp at hl; omega
    have hne' : s.answersFrom (k + a) (b - a) ≠ [] := by
      intro e; have hl := s.answersFrom_length (k + a) (b - a); rw [e] at hl; simp at hl; omega
    have hlast := List.getLast?_eq_some_getLast hne
    have hclear := ha.clear _ hlast
    have hbusy := hb.busy ((s.answersFrom k a).getLast hne) (by
      rw [hsplit, List.dropLast_append_of_ne_nil hne']
      exact List.mem_append_left _ (List.getLast_mem hne))
    rw [hclear] at hbusy; cases hbusy
  have := key m n h g; have := key n m g h; omega

/-! ## `SET_FREQ`, `SET_BW`, `SET_BITRATE`, `SET_DEV`, `SET_FIFO_THR` -/

/-- The stretch of `SET_FREQ` before the calibration. -/
theorem setFreq_start {s t₁ t₂ t₃ : State} (w : Byte × Byte × Byte)
    (h₁ : busWrite s.chip.aFreqHi w.1 (guardOf s.cfg .setFreq) s = .ok t₁)
    (h₂ : busWrite (t₁.setFreqHi w.1).chip.aFreqMid w.2.1 (guardOf (t₁.setFreqHi w.1).cfg .setFreq)
      (t₁.setFreqHi w.1) = .ok t₂)
    (h₃ : busWrite (t₂.setFreqMid w.2.1).chip.aFreqLo w.2.2 (guardOf (t₂.setFreqMid w.2.1).cfg .setFreq)
      (t₂.setFreqMid w.2.1) = .ok t₃) :
    Did s (t₃.setFreqLo w.2.2) { s.regs with config := s.config.withFreq w }
      [.write s.cfg.chip.aFreqHi w.1 (guardOf s.cfg .setFreq),
       .write s.cfg.chip.aFreqMid w.2.1 (guardOf s.cfg .setFreq),
       .write s.cfg.chip.aFreqLo w.2.2 (guardOf s.cfg .setFreq)] [] [] [] := by
  have k₁ := (busWrite_did h₁).update (·.setFreqHi w.1) (fun r => { r with config := { r.config with freqHi := w.1 } })
    (Did.setFreqHi t₁ w.1) id
  have k₂ := (k₁.andThen (busWrite_did h₂) id).update (·.setFreqMid w.2.1)
    (fun r => { r with config := { r.config with freqMid := w.2.1 } }) (Did.setFreqMid t₂ w.2.1) id
  have k₃ := (k₂.andThen (busWrite_did h₃) id).update (·.setFreqLo w.2.2)
    (fun r => { r with config := { r.config with freqLo := w.2.2 } }) (Did.setFreqLo t₃ w.2.2) id
  simp only [State.chip, k₁.cfg_eq, k₂.cfg_eq] at k₃
  exact k₃

theorem drvSetFreq_did {f : Rat} {s t : State} (h : drvSetFreq f s = .ok t) :
    ∃ n, PollEnds s 0 n ∧
      Did s t { s.regs with config := s.config.withFreq (freqCodes s.cfg f), appliedOffset := 0 }
        (setFreqTxns s f 0 n) [] [] [] := by
  simp only [drvSetFreq, bind_eq_ok] at h
  rw [show carryFix (freqWords s.cfg f) = freqCodes s.cfg f from rfl] at h
  obtain ⟨t₁, h₁, t₂, h₂, t₃, h₃, h₄⟩ := h
  have d := setFreq_start (freqCodes s.cfg f) h₁ h₂ h₃
  obtain ⟨n, p, k⟩ := drvCalibrate_did h₄
  have hb : ∀ m, (t₃.setFreqLo (freqCodes s.cfg f).2.2).answersFrom 0 m = s.answersFrom 0 m := fun m => d.answersFrom 0 m
  have ha : (t₃.setFreqLo (freqCodes s.cfg f).2.2).inp.answers = s.inp.answers := d.answers_drawn
  refine ⟨n, ⟨p.pos, ?_, ?_, ?_⟩, ?_⟩
  · have := p.busy; rw [hb, d.cfg_eq] at this; exact this
  · have := p.clear; rw [hb, d.cfg_eq] at this; exact this
  · have := p.bound; rw [ha, d.cfg_eq] at this; exact this
  · have j := d.trans k id
    have hr := d.regs_eq
    have hcal : calibrateTxns (t₃.setFreqLo (freqCodes s.cfg f).2.2) 0 n = calibrateTxns s 0 n := by
      unfold calibrateTxns pollReads
      rw [hb, d.cfg_eq]
    rw [hcal, hr] at j
    exact j

theorem drvSetFreq_ok {s : State} (w : s.WaitsEnd) (f : Rat) {n : Nat} (p : PollEnds s 0 n) :
    ∃ t, drvSetFreq f s = .ok t := by
  obtain ⟨t₁, h₁⟩ := busWrite_ok w s.chip.aFreqHi (freqCodes s.cfg f).1 (guardOf s.cfg .setFreq)
  have w₁ : (t₁.setFreqHi (freqCodes s.cfg f).1).WaitsEnd :=
    (Did.setFreqHi _ _).waits_kept ((busWrite_did h₁).waits_kept w)
  obtain ⟨t₂, h₂⟩ := busWrite_ok w₁ (t₁.setFreqHi (freqCodes s.cfg f).1).chip.aFreqMid (freqCodes s.cfg f).2.1
    (guardOf (t₁.setFreqHi (freqCodes s.cfg f).1).cfg .setFreq)
  have w₂ : (t₂.setFreqMid (freqCodes s.cfg f).2.1).WaitsEnd :=
    (Did.setFreqMid _ _).waits_kept ((busWrite_did h₂).waits_kept w₁)
  obtain ⟨t₃, h₃⟩ := busWrite_ok w₂ (t₂.setFreqMid (freqCodes s.cfg f).2.1).chip.aFreqLo (freqCodes s.cfg f).2.2
    (guardOf (t₂.setFreqMid (freqCodes s.cfg f).2.1).cfg .setFreq)
  have d := setFreq_start (freqCodes s.cfg f) h₁ h₂ h₃
  have hb : ∀ m, (t₃.setFreqLo (freqCodes s.cfg f).2.2).answersFrom 0 m = s.answersFrom 0 m := fun m => d.answersFrom 0 m
  have ha : (t₃.setFreqLo (freqCodes s.cfg f).2.2).inp.answers = s.inp.answers := d.answers_drawn
  have p' : PollEnds (t₃.setFreqLo (freqCodes s.cfg f).2.2) 0 n :=
    ⟨p.pos, by rw [hb, d.cfg_eq]; exact p.busy, by rw [hb, d.cfg_eq]; exact p.clear,
      by rw [ha, d.cfg_eq]; exact p.bound⟩
  obtain ⟨t, h₄⟩ := drvCalibrate_ok (d.waits_kept w) p'
  refine ⟨t, ?_⟩
  simp only [drvSetFreq, bind_eq_ok]
  exact ⟨t₁, h₁, t₂, h₂, t₃, h₃, h₄⟩

theorem drvSetBw_did {x : Rat} {s t : State} (h : drvSetBw x s = .ok t) :
    Did s t { s.regs with config := { s.config with bwCode := searchCode s.cfg.bw x } }
      [.write s.cfg.chip.aBw (searchCode s.cfg.bw x) (guardOf s.cfg .setBw)] [] [] [] := by
  simp only [drvSetBw, bind_eq_ok] at h
  obtain ⟨t₁, h₁, h₂⟩ := h
  obtain rfl : _ = t := by simpa using h₂
  have d := busWrite_did h₁
  have k := d.trans (Did.setBwCode t₁ (searchCode s.cfg.bw x))
    id
  rw [d.regs_eq, show t₁.config = s.config from d.field Regs.config] at k
  exact k

theorem drvSetBw_ok {s : State} (w : s.WaitsEnd) (x : Rat) : ∃ t, drvSetBw x s = .ok t := by
  obtain ⟨t₁, h₁⟩ := busWrite_ok w s.chip.aBw (searchCode s.cfg.bw x) (guardOf s.cfg .setBw)
  exact ⟨_, by simp only [drvSetBw, bind_eq_ok]; exact ⟨t₁, h₁, rfl⟩⟩

theorem drvSetDev_did {x : Rat} {s t : State} (h : drvSetDev x s = .ok t) :
    Did s t { s.regs with config := { s.config with devCode := searchCode s.cfg.dev x } }
      [.write s.cfg.chip.aDev (searchCode s.cfg.dev x) (guardOf s.cfg .setDev)] [] [] [] := by
  simp only [drvSetDev, bind_eq_ok] at h
  obtain ⟨t₁, h₁, h₂⟩ := h
  obtain rfl : _ = t := by simpa using h₂
  have d := busWrite_did h₁
  have k := d.trans (Did.setDevCode t₁ (searchCode s.cfg.dev x))
    id
  rw [d.regs_eq, show t₁.config = s.config from d.field Regs.config] at k
  exact k

theorem drvSetDev_ok {s : State} (w : s.WaitsEnd) (x : Rat) : ∃ t, drvSetDev x s = .ok t := by
  obtain ⟨t₁, h₁⟩ := busWrite_ok w s.chip.aDev (searchCode s.cfg.dev x) (guardOf s.cfg .setDev)
  exact ⟨_, by simp only [drvSetDev, bind_eq_ok]; exact ⟨t₁, h₁, rfl⟩⟩

theorem drvSetFifoThr_did {l : Byte} {s t : State} (h : drvSetFifoThr l s = .ok t) :
    Did s t { s.regs with config := { s.config with fifoThreshold := l } }
      [.write s.cfg.chip.aFifoThr l (guardOf s.cfg .setFifoThr)] [] [] [] := by
  simp only [drvSetFifoThr, bind_eq_ok] at h
  obtain ⟨t₁, h₁, h₂⟩ := h
  obtain rfl : _ = t := by simpa using h₂
  have d := busWrite_did h₁
  have k := d.trans (Did.setFifoThreshold t₁ l)
    id
  rw [d.regs_eq, show t₁.config = s.config from d.field Regs.config] at k
  exact k

theorem drvSetFifoThr_ok {s : State} (w : s.WaitsEnd) (l : Byte) : ∃ t, drvSetFifoThr l s = .ok t := by
  obtain ⟨t₁, h₁⟩ := busWrite_ok w s.chip.aFifoThr l (guardOf s.cfg .setFifoThr)
  exact ⟨_, by simp only [drvSetFifoThr, bind_eq_ok]; exact ⟨t₁, h₁, rfl⟩⟩

theorem drvSetBitrate_did {x : Rat} {s t : State} (h : drvSetBitrate x s = .ok t) :
    Did s t { s.regs with config := { s.config with bitrateCode := searchCode s.cfg.bitrate x } }
      [.write s.cfg.chip.aBitrateHi ((searchCode s.cfg.bitrate x).extractLsb' 8 8) (guardOf s.cfg .setBitrate),
       .write s.cfg.chip.aBitrateLo ((searchCode s.cfg.bitrate x).extractLsb' 0 8) (guardOf s.cfg .setBitrate)]
      [] [] [] := by
  simp only [drvSetBitrate, bind_eq_ok] at h
  obtain ⟨t₁, h₁, t₂, h₂, h₃⟩ := h
  obtain rfl : _ = t := by simpa using h₃
  have d₁ := busWrite_did h₁
  have a₁ : t₁.timerArmed = s.timerArmed := d₁.field Regs.timerArmed
  have d := d₁.andThen (busWrite_did h₂) id
  have k := d.trans (Did.setBitrateCode t₂ (searchCode s.cfg.bitrate x)) id
  rw [d.regs_eq, show t₂.config = s.config from d.field Regs.config] at k
  simp only [State.chip, d₁.cfg_eq] at k
  exact k

theorem drvSetBitrate_ok {s : State} (w : s.WaitsEnd) (x : Rat) : ∃ t, drvSetBitrate x s = .ok t := by
  obtain ⟨t₁, h₁⟩ := busWrite_ok w s.chip.aBitrateHi ((searchCode s.cfg.bitrate x).extractLsb' 8 8)
    (guardOf s.cfg .setBitrate)
  obtain ⟨t₂, h₂⟩ := busWrite_ok ((busWrite_did h₁).waits_kept w) t₁.chip.aBitrateLo
    ((searchCode s.cfg.bitrate x).extractLsb' 0 8) (guardOf t₁.cfg .setBitrate)
  exact ⟨_, by simp only [drvSetBitrate, bind_eq_ok]; exact ⟨t₁, h₁, t₂, h₂, rfl⟩⟩

/-! ## `ACTIVE_POWER` -/

theorem drvActivePower_did {s t : State} (h : drvActivePower s = .ok t) :
    ∃ n, PollEnds s 0 n ∧ Did s t { s.regs with appliedOffset := 0 }
      (.strobe s.cfg.chip.sWake (guardOf s.cfg .activePower) :: calibrateTxns s 0 n) [] [] [] := by
  simp only [drvActivePower, bind_eq_ok] at h
  obtain ⟨t₁, h₁, h₂⟩ := h
  have d₁ := busStrobe_did h₁
  have a₁ : t₁.timerArmed = s.timerArmed := d₁.field Regs.timerArmed
  have d := d₁.trans (Did.settle t₁) id
  rw [d₁.regs_eq] at d
  obtain ⟨n, p, k⟩ := drvCalibrate_did h₂
  have hb : ∀ m, t₁.settle.answersFrom 0 m = s.answersFrom 0 m := fun m => d.answersFrom 0 m
  have ha : t₁.settle.inp.answers = s.inp.answers := d.answers_drawn
  refine ⟨n, ⟨p.pos, ?_, ?_, ?_⟩, ?_⟩
  · have := p.busy; rw [hb, d.cfg_eq] at this; exact this
  · have := p.clear; rw [hb, d.cfg_eq] at this; exact this
  · have := p.bound; rw [ha, d.cfg_eq] at this; exact this
  · have j := d.trans k id
    have hcal : calibrateTxns t₁.settle 0 n = calibrateTxns s 0 n := by
      unfold calibrateTxns pollReads; rw [hb, d.cfg_eq]
    rw [hcal, d.regs_eq] at j
    exact j

theorem drvActivePower_ok {s : State} (w : s.WaitsEnd) {n : Nat} (p : PollEnds s 0 n) :
    ∃ t, drvActivePower s = .ok t := by
  obtain ⟨t₁, h₁⟩ := busStrobe_ok w s.chip.sWake (guardOf s.cfg .activePower)
  have d₁ := busStrobe_did h₁
  have d := d₁.trans (Did.settle t₁) id
  have hb : ∀ m, t₁.settle.answersFrom 0 m = s.answersFrom 0 m := fun m => d.answersFrom 0 m
  have ha : t₁.settle.inp.answers = s.inp.answers := d.answers_drawn
  obtain ⟨t, h₂⟩ := drvCalibrate_ok (d.waits_kept w) (n := n)
    ⟨p.pos, by rw [hb, d.cfg_eq]; exact p.busy, by rw [hb, d.cfg_eq]; exact p.clear, by rw [ha, d.cfg_eq]; exact p.bound⟩
  exact ⟨t, by simp only [drvActivePower, bind_eq_ok]; exact ⟨t₁, h₁, h₂⟩⟩

end Sys2Proof.Machine
end

