-- ==== Sys2Proof/Laws/Sequencer.lean ====
section
/-! SUPPORT. What the filter update and the micro-sequences of the sequencer can do, once each: `..._did` says all of it
for an answer already given, `..._ok` that an answer is given when every wait ends. -/

namespace Sys2Proof.Machine

open Sys2Proof.Config

/-! ## Register updates -/

theorem Did.storeSample (s : State) (e : Byte) : Did s (s.storeSample e) (s.regs.sampled e) [] [] [] [] :=
  Did.of_pure rfl rfl rfl rfl rfl rfl rfl rfl rfl

theorem Did.setOffset (s : State) (b : Byte) :
    Did s (s.setOffset b) { s.regs with appliedOffset := b } [] [] [] [] :=
  Did.of_pure rfl rfl rfl rfl rfl rfl rfl rfl rfl

theorem Did.disarmTimer (s : State) : Did s s.disarmTimer { s.regs with timerArmed := false } [] [] [] [] :=
  Did.of_pure rfl rfl rfl rfl rfl rfl rfl rfl rfl

theorem Did.armTimer (s : State) (d : Nat) :
    Did s (s.armTimer d) { s.regs with timerArmed := true, timerDeadline := s.now + BitVec.ofNat 32 d } [] [] [] [] :=
  Did.of_pure rfl rfl rfl rfl rfl rfl rfl rfl rfl

theorem Did.clearRx (s : State) (r : RadioState) :
    Did s (s.clearRx r) { s.regs with rxCount := 0, rxTotal := none, radioState := r } [] [] [] [] :=
  Did.of_pure rfl rfl rfl rfl rfl rfl rfl rfl rfl

theorem Did.appendRx (s : State) (bs : Bytes) :
    Did s (s.appendRx bs) { s.regs with rxBuf := overwrite s.rxBuf s.rxCount bs, rxCount := s.rxCount + bs.length }
      [] [] [] [] :=
  Did.of_pure rfl rfl rfl rfl rfl rfl rfl rfl rfl

theorem Did.enterPayload (s : State) (t : Nat) :
    Did s (s.enterPayload t) { s.regs with rxTotal := some t, radioState := .rxPayload } [] [] [] [] :=
  Did.of_pure rfl rfl rfl rfl rfl rfl rfl rfl rfl

theorem Did.beginTx (s : State) (j : Fin 16) :
    Did s (s.beginTx j) { s.regs with cursor := j, txOffset := 0, radioState := .txTransmit } [] [] [] [] :=
  Did.of_pure rfl rfl rfl rfl rfl rfl rfl rfl rfl

theorem Did.setTxOffset (s : State) (n : Nat) :
    Did s (s.setTxOffset n) { s.regs with txOffset := n } [] [] [] [] :=
  Did.of_pure rfl rfl rfl rfl rfl rfl rfl rfl rfl

theorem Did.enterLast (s : State) : Did s s.enterLast { s.regs with radioState := .txLastTransmit } [] [] [] [] :=
  Did.of_pure rfl rfl rfl rfl rfl rfl rfl rfl rfl

theorem Did.releaseActive (s : State) :
    Did s s.releaseActive
      { s.regs with slots := s.slots.set s.cursor { s.slots[s.cursor] with inUse := false } } [] [] [] [] :=
  Did.of_pure rfl rfl rfl rfl rfl rfl rfl rfl rfl

theorem Did.setIrqEnabled (s : State) (b : Bool) :
    Did s (s.setIrqEnabled b) { s.regs with irqEnabled := b } [] [] [] [] :=
  Did.of_pure rfl rfl rfl rfl rfl rfl rfl rfl rfl

/-! ## Byte files -/

theorem overwrite_length {buf : Bytes} {i : Nat} {bs : Bytes} (h : i + bs.length ≤ buf.length) :
    (overwrite buf i bs).length = buf.length := by
  simp [overwrite]; omega

theorem overwrite_nil (buf : Bytes) (i : Nat) : overwrite buf i [] = buf := by simp [overwrite]

/-- Two stretches written one behind the other are one. -/
theorem overwrite_append {buf : Bytes} {i : Nat} {a b : Bytes} (h : i ≤ buf.length) :
    overwrite (overwrite buf i a) (i + a.length) b = overwrite buf i (a ++ b) := by
  unfold overwrite
  have hl : (buf.take i).length = i := by simp [h]
  have h1 : (buf.take i ++ a ++ buf.drop (i + a.length)).take (i + a.length) = buf.take i ++ a := by
    rw [List.take_append_of_le_length (by simp [hl])]
    exact List.take_of_length_le (by simp [hl])
  have h2 : (buf.take i ++ a ++ buf.drop (i + a.length)).drop (i + a.length + b.length)
      = buf.drop (i + (a ++ b).length) := by
    rw [List.drop_append, List.drop_of_length_le (by simp [hl]; try omega)]
    simp [hl, List.drop_drop, Nat.add_assoc]
  rw [h1, h2]
  simp

/-! ## The filter -/

theorem drvCorrect_did {s t : State} (h : drvCorrect s = .ok t) :
    Did s t { s.regs with appliedOffset := correctedOffset s.appliedOffset s.window }
      [.write s.cfg.chip.aFreqOffset (correctedOffset s.appliedOffset s.window) (guardOf s.cfg .updFreqOffset)]
      [] [] [] :=
  (Did.setOffset s (correctedOffset s.appliedOffset s.window)).andThen (busWrite_did h) id

theorem drvCorrect_ok {s : State} (w : s.WaitsEnd) : ∃ t, drvCorrect s = .ok t :=
  busWrite_ok ((Did.setOffset s _).waits_kept w) _ _ _

theorem Regs.updated_eq (r : Regs) (e : Byte) : r.updated e =
    if (r.sampled e).winIdx = 0 then
      { r.sampled e with appliedOffset := correctedOffset r.appliedOffset (r.sampled e).window }
    else r.sampled e := rfl

theorem drvUpdFreqOffset_did {s t : State} (h : drvUpdFreqOffset s = .ok t) :
    Did s t (s.regs.updated s.answer) (updateTxns s.cfg s.regs s.answer) [] [] [] := by
  simp only [drvUpdFreqOffset, bind_eq_ok] at h
  obtain ⟨⟨e, t₁⟩, h₁, h₂⟩ := h
  obtain ⟨rfl, d₁⟩ := busReadStatus_did h₁
  have k₁ := d₁.update (·.storeSample s.answer) (·.sampled s.answer) (Did.storeSample t₁ _) id
  have hw : (t₁.storeSample s.answer).winIdx = (s.regs.sampled s.answer).winIdx := k₁.field Regs.winIdx
  have ho : (t₁.storeSample s.answer).appliedOffset = s.regs.appliedOffset := k₁.field Regs.appliedOffset
  have hn : (t₁.storeSample s.answer).window = (s.regs.sampled s.answer).window := k₁.field Regs.window
  rw [Regs.updated_eq]
  unfold updateTxns
  simp only at h₂
  split at h₂
  · next e =>
    rw [hw] at e
    have d₂ := drvCorrect_did h₂
    have k := k₁.trans d₂ id
    rw [k₁.regs_eq, ho, hn, k₁.cfg_eq] at k
    rw [if_pos e, if_pos e, Regs.updated_eq, if_pos e]
    exact k
  · next e =>
    rw [hw] at e
    obtain rfl : _ = t := by simpa using h₂
    rw [if_neg e, if_neg e]
    exact k₁

theorem drvUpdFreqOffset_ok {s : State} (w : s.WaitsEnd) : ∃ t, drvUpdFreqOffset s = .ok t := by
  obtain ⟨t₁, h₁⟩ := busReadStatus_ok w s.chip.aFreqEst (guardOf s.cfg .updFreqOffset)
  have w₁ := (Did.storeSample t₁ s.answer).waits_kept ((busReadStatus_did h₁).2.waits_kept w)
  by_cases e : (t₁.storeSample s.answer).winIdx = 0
  · obtain ⟨t, h₂⟩ := drvCorrect_ok w₁
    exact ⟨t, by
      simp only [drvUpdFreqOffset, bind_eq_ok]
      exact ⟨(s.answer, t₁), h₁, by simp only [e, if_true]; exact h₂⟩⟩
  · exact ⟨_, by
      simp only [drvUpdFreqOffset, bind_eq_ok]
      exact ⟨(s.answer, t₁), h₁, by simp only [e, if_false]; rfl⟩⟩

/-! ## Reception -/

theorem armRx_did {s t : State} (h : armRx s = .ok t) :
    Did s t { s.regs with timerArmed := false, rxCount := 0, rxTotal := none, radioState := .rxWaitSync }
      (armRxTxns s.cfg) [] [] [] := by
  simp only [armRx, bind_eq_ok] at h
  obtain ⟨t₁, h₁, t₂, h₂, h₃⟩ := h
  obtain rfl : _ = t := by simpa using h₃
  have k₁ := (Did.disarmTimer s).andThen (busWrite_did h₁) (by simp)
  have k₂ := (k₁.andThen (busStrobe_did h₂) (by simp)).update (·.clearRx .rxWaitSync)
    (fun r => { r with rxCount := 0, rxTotal := none, radioState := .rxWaitSync }) (Did.clearRx t₂ _) (by simp)
  simp only [State.chip, k₁.cfg_eq] at k₂
  exact k₂

theorem armRx_ok {s : State} (w : s.WaitsEnd) : ∃ t, armRx s = .ok t := by
  obtain ⟨t₁, h₁⟩ := busWrite_ok ((Did.disarmTimer s).waits_kept w) s.chip.aIrqCfg s.chip.vIrqRxThr
    (guardOf s.cfg .irqRxThr)
  obtain ⟨t₂, h₂⟩ := busStrobe_ok ((busWrite_did h₁).waits_kept ((Did.disarmTimer s).waits_kept w)) t₁.chip.sRx
    (guardOf t₁.cfg .strobe)
  exact ⟨_, by simp only [armRx, bind_eq_ok]; exact ⟨t₁, h₁, t₂, h₂, rfl⟩⟩

theorem abortRx_did {s t : State} (h : abortRx s = .ok t) : Did s t s.regs.idle (endRxTxns s.cfg) [] [] [] := by
  simp only [abortRx, bind_eq_ok] at h
  obtain ⟨t₁, h₁, t₂, h₂, h₃⟩ := h
  obtain rfl : _ = t := by simpa using h₃
  have k₁ := busStrobe_did h₁
  have k₂ := (k₁.andThen (busStrobe_did h₂) id).update (·.clearRx .rxWaitSync)
    (fun r => { r with rxCount := 0, rxTotal := none, radioState := .rxWaitSync }) (Did.clearRx t₂ _) id
  simp only [State.chip, k₁.cfg_eq] at k₂
  exact k₂

theorem abortRx_ok {s : State} (w : s.WaitsEnd) : ∃ t, abortRx s = .ok t := by
  obtain ⟨t₁, h₁⟩ := busStrobe_ok w s.chip.sFlushRx (guardOf s.cfg .flushRx)
  obtain ⟨t₂, h₂⟩ := busStrobe_ok ((busStrobe_did h₁).waits_kept w) t₁.chip.sRx (guardOf t₁.cfg .strobe)
  exact ⟨_, by simp only [abortRx, bind_eq_ok]; exact ⟨t₁, h₁, t₂, h₂, rfl⟩⟩

/-- `n` bytes of the FIFO behind those already in the buffer. -/
theorem drain_did {n : Nat} {s t : State} (h : drain n s = .ok t) :
    Did s t { s.regs with rxBuf := overwrite s.rxBuf s.rxCount (s.answerBytes n), rxCount := s.rxCount + n }
      (burstRead s.cfg.chip.aFifo (s.answerBytes n) (guardOf s.cfg .rdRxFifo)) [] [] [] := by
  simp only [drain, bind_eq_ok] at h
  obtain ⟨⟨bs, t₁⟩, h₁, h₂⟩ := h
  obtain ⟨rfl, d₁⟩ := busReadBurst_did h₁
  obtain rfl : _ = t := by simpa using h₂
  have k := d₁.update (·.appendRx (s.answerBytes n))
    (fun r => { r with
      rxBuf := overwrite r.rxBuf r.rxCount (s.answerBytes n), rxCount := r.rxCount + (s.answerBytes n).length })
    (Did.appendRx t₁ _) id
  rw [State.answerBytes_length] at k
  exact k

theorem drain_ticks {n : Nat} {s t : State} (h : drain n s = .ok t) : t.inp.ticks = s.inp.ticks := by
  simp only [drain, bind_eq_ok] at h
  obtain ⟨⟨bs, t₁⟩, h₁, h₂⟩ := h
  obtain rfl : _ = t := by simpa using h₂
  exact busReadBurst_ticks (t := t₁) h₁

theorem drain_ok {s : State} (w : s.WaitsEnd) (n : Nat) : ∃ t, drain n s = .ok t := by
  obtain ⟨t₁, h₁⟩ := busReadBurst_ok w s.chip.aFifo n (guardOf s.cfg .rdRxFifo)
  exact ⟨_, by simp only [drain, bind_eq_ok]; exact ⟨(_, t₁), h₁, rfl⟩⟩

/-- The transactions of a completed reception: signal quality, the filter behind its gate, flush, receive strobe. -/
def completeRxTxns (s : State) : List BusTxn :=
  qualityTxns s.cfg (s.answerAt 0) (s.answerAt 1) ++
    (if s.tracks (netIdIn s.cfg s.header) then updateTxns s.cfg s.regs (s.answerAt 2) else []) ++ endRxTxns s.cfg

/-- The registers after a completed reception. -/
def completeRxRegs (s : State) : Regs :=
  (if s.tracks (netIdIn s.cfg s.header) then s.regs.updated (s.answerAt 2) else s.regs).idle

theorem State.answerAt_zero (s : State) : s.answerAt 0 = s.answer := rfl

theorem Regs.updated_timerArmed (r : Regs) (e : Byte) : (r.updated e).timerArmed = r.timerArmed := by
  rw [Regs.updated_eq]; split <;> rfl

theorem feedFilter_did {nid : Option Bytes} {s t : State} (h : feedFilter nid s = .ok t) :
    Did s t (if s.tracks nid then s.regs.updated s.answer else s.regs)
      (if s.tracks nid then updateTxns s.cfg s.regs s.answer else []) [] [] [] := by
  unfold feedFilter at h
  split at h
  · next g => simp only [g, if_true]; exact drvUpdFreqOffset_did h
  · next g =>
    obtain rfl : _ = t := by simpa using h
    simp only [g]; exact Did.refl _

theorem feedFilter_ok {s : State} (w : s.WaitsEnd) (nid : Option Bytes) : ∃ t, feedFilter nid s = .ok t := by
  unfold feedFilter
  split
  · exact drvUpdFreqOffset_ok w
  · exact ⟨s, rfl⟩

/-- What the completion of a reception does: one frame pushed, its timestamp the clock read after the LQI read. -/
theorem completeRx_did {n : Nat} {s t : State} (h : completeRx n s = .ok t) :
    ∃ ts, Did s t (completeRxRegs s) (completeRxTxns s) []
      [frameRecord s.cfg (s.rxBuf.take n) s.header (s.answerAt 0) (s.answerAt 1) ts] [] ∧ StampedAfter s t 1 ts := by
  simp only [completeRx, bind_eq_ok] at h
  obtain ⟨⟨v, t₁⟩, h₁, ⟨v', t₂⟩, h₂, t₃, h₃, t₄, h₄, t₅, h₅, h₆⟩ := h
  obtain ⟨rfl, d₁⟩ := busReadStatus_did h₁
  obtain ⟨rfl, d₂⟩ := busReadStatus_did h₂
  obtain rfl : _ = t := by simpa using h₆
  have k₂ := d₁.andThen d₂ id
  simp only [State.chip, d₁.cfg_eq] at k₂
  have e₂ : t₁.answer = s.answerAt 1 := d₁.answer
  rw [e₂] at k₂ h₃
  have k₃ := k₂.andThen (Did.readClock t₂) id
  have hbuf : t₂.readClock.rxBuf = s.rxBuf := k₃.field Regs.rxBuf
  have hhead : t₂.readClock.header = s.header := by simp only [State.header, hbuf, k₃.cfg_eq]
  have hcfg : t₂.readClock.cfg = s.cfg := k₃.cfg_eq
  rw [hbuf, hhead, hcfg] at h₃
  have h₃' : feedFilter (netIdIn s.cfg s.header) (t₂.readClock.push
      (frameRecord s.cfg (s.rxBuf.take n) s.header (s.answerAt 0) (s.answerAt 1) t₂.readClock.now)) = .ok t₃ := h₃
  clear h₃
  generalize hf : frameRecord s.cfg (s.rxBuf.take n) s.header (s.answerAt 0) (s.answerAt 1) t₂.readClock.now = f at h₃'
  have k₄ := k₃.andThen (Did.push t₂.readClock f) id
  have htr : (t₂.readClock.push f).tracks (netIdIn s.cfg s.header) = s.tracks (netIdIn s.cfg s.header) := by
    have e1 : t₂.readClock.trackingEnabled = s.trackingEnabled := k₃.field Regs.trackingEnabled
    have e2 : t₂.readClock.trackedNetId = s.trackedNetId := k₃.field Regs.trackedNetId
    simp only [State.tracks, State.push_trackingEnabled, State.push_trackedNetId, e1, e2]
  have d₃ := feedFilter_did h₃'
  have ha : (t₂.readClock.push f).answer = s.answerAt 2 := k₄.answer
  rw [htr, ha] at d₃
  have k₅ := k₄.trans d₃ id
  rw [k₄.regs_eq, k₄.cfg_eq] at k₅
  have armed : (if s.tracks (netIdIn s.cfg s.header) = true then
      s.regs.updated (s.answerAt 2) else s.regs).timerArmed = true →
      s.timerArmed = true := by
    split
    · rw [Regs.updated_timerArmed]; exact id
    · exact id
  have k₆ := k₅.andThen (busStrobe_did h₄) armed
  have k₇ := (k₆.andThen (busStrobe_did h₅) armed).update (·.clearRx .rxWaitSync) Regs.idle (Did.clearRx t₅ _) armed
  simp only [State.chip, k₅.cfg_eq, k₆.cfg_eq] at k₇
  have stamp : StampedAfter s t₅ 1 t₂.readClock.now := by
    obtain ⟨e, he, -, hr⟩ := busReadStatus_last h₂
    have pre : t₂.busTrace <+: t₅.busTrace := by
      have p₃ := d₃.trace_prefix
      rw [State.push_busTrace, State.readClock_busTrace] at p₃
      exact p₃.trans ((busStrobe_did h₄).trace_prefix.trans (busStrobe_did h₅).trace_prefix)
    obtain ⟨fs, hfs⟩ := pre
    refine ⟨e, ?_, ?_⟩
    · have hl := d₁.trace_length
      simp only [List.length_singleton] at hl
      rw [← hfs, he, ← hl]
      simp
    · rw [hr, ← busReadStatus_ticks h₁, ← busReadStatus_ticks h₂]; rfl
  refine ⟨t₂.readClock.now, ?_, stamp⟩
  unfold completeRxRegs completeRxTxns
  rw [← hf] at k₇
  simp only [List.append_assoc, List.nil_append, List.append_nil] at k₇ ⊢
  exact k₇

theorem completeRx_ok {s : State} (w : s.WaitsEnd) (n : Nat) : ∃ t, completeRx n s = .ok t := by
  obtain ⟨t₁, h₁⟩ := busReadStatus_ok w s.chip.aRssi (guardOf s.cfg .getRssi)
  have w₁ := (busReadStatus_did h₁).2.waits_kept w
  obtain ⟨t₂, h₂⟩ := busReadStatus_ok w₁ t₁.chip.aLqi (guardOf t₁.cfg .getLqi)
  have w₂ := (busReadStatus_did h₂).2.waits_kept w₁
  unfold completeRx
  refine exists_bind h₁ (exists_bind h₂ ?_)
  obtain ⟨t₃, h₃⟩ := feedFilter_ok ((Did.push t₂.readClock _).waits_kept ((Did.readClock t₂).waits_kept w₂))
    (netIdIn t₂.readClock.cfg t₂.readClock.header)
  refine exists_bind h₃ ?_
  have w₃ := (feedFilter_did h₃).waits_kept ((Did.push t₂.readClock _).waits_kept ((Did.readClock t₂).waits_kept w₂))
  obtain ⟨t₄, h₄⟩ := busStrobe_ok w₃ t₃.chip.sFlushRx (guardOf t₃.cfg .flushRx)
  obtain ⟨t₅, h₅⟩ := busStrobe_ok ((busStrobe_did h₄).waits_kept w₃) t₄.chip.sRx (guardOf t₄.cfg .strobe)
  exact exists_bind h₄ (exists_bind h₅ ⟨_, rfl⟩)

/-! ## Transmission -/

theorem strobeTx_did {s t : State} (h : strobeTx s = .ok t) :
    Did s t s.regs [.strobe s.cfg.chip.sTx (guardOf s.cfg .strobe)] [] [] [] := busStrobe_did h

theorem strobeTx_ok {s : State} (w : s.WaitsEnd) : ∃ t, strobeTx s = .ok t := busStrobe_ok w _ _

/-- What `StartTx(j)` does; the deadline is counted from the clock at its end. -/
theorem startTx_did {j : Fin 16} {s t : State} (h : startTx j s = .ok t) :
    Did s t (s.regs.started s.cfg j (t.now + BitVec.ofNat 32 s.cfg.turnaroundUs))
      (startTxTxns s.cfg s.slots[j].frame) [] [] [] := by
  simp only [startTx, bind_eq_ok] at h
  obtain ⟨t₁, h₁, t₂, h₂, h₃⟩ := h
  obtain rfl : _ = t := by simpa using h₃
  have k₀ := Did.beginTx s j
  have k₁ := (k₀.andThen (busWriteBurst_did h₁) id).update (·.setTxOffset (min s.slots[j].frame.length s.cfg.fifoCapacity))
    (fun r => { r with txOffset := min s.slots[j].frame.length s.cfg.fifoCapacity }) (Did.setTxOffset t₁ _) id
  have k₂ := k₁.andThen (busWrite_did h₂) id
  have k₃ := k₂.andThen (Did.readClock t₂) id
  have k₄ := k₃.update (·.armTimer t₂.readClock.cfg.turnaroundUs)
    (fun r => { r with
      timerArmed := true, timerDeadline := t₂.readClock.now + BitVec.ofNat 32 t₂.readClock.cfg.turnaroundUs })
    (Did.armTimer _ _) id
  have hc : t₂.cfg = s.cfg := k₂.cfg_eq
  have hc₁ : (t₁.setTxOffset (min s.slots[j].frame.length s.cfg.fifoCapacity)).cfg = s.cfg := k₁.cfg_eq
  simp only [State.readClock_cfg, hc] at k₄ ⊢
  have hx : startTxTxns s.cfg s.slots[j].frame = [] ++ burstWrite s.cfg.chip.aFifo
      (preload s.cfg s.slots[j].frame) (guardOf s.cfg .wrTxFifoBurst) ++
        [.write (t₁.setTxOffset (min s.slots[j].frame.length s.cfg.fifoCapacity)).cfg.chip.aIrqCfg
          (t₁.setTxOffset (min s.slots[j].frame.length s.cfg.fifoCapacity)).cfg.chip.vIrqTxThr
          (guardOf (t₁.setTxOffset (min s.slots[j].frame.length s.cfg.fifoCapacity)).cfg .irqTxThr)] ++ [] := by
    rw [hc₁]; simp [startTxTxns]
  rw [hx]
  exact k₄

theorem startTx_ok {s : State} (w : s.WaitsEnd) (j : Fin 16) : ∃ t, startTx j s = .ok t := by
  have w₀ := (Did.beginTx s j).waits_kept w
  obtain ⟨t₁, h₁⟩ := busWriteBurst_ok w₀ (s.beginTx j).chip.aFifo
    ((s.beginTx j).activeSlot.frame.take (min (s.beginTx j).activeSlot.frame.length (s.beginTx j).cfg.fifoCapacity))
    (guardOf (s.beginTx j).cfg .wrTxFifoBurst)
  have w₁ : (t₁.setTxOffset (min (s.beginTx j).activeSlot.frame.length (s.beginTx j).cfg.fifoCapacity)).WaitsEnd :=
    (Did.setTxOffset _ _).waits_kept ((busWriteBurst_did h₁).waits_kept w₀)
  obtain ⟨t₂, h₂⟩ := busWrite_ok w₁ t₁.chip.aIrqCfg t₁.chip.vIrqTxThr (guardOf t₁.cfg .irqTxThr)
  exact ⟨_, by simp only [startTx, bind_eq_ok]; exact ⟨t₁, h₁, t₂, h₂, rfl⟩⟩

theorem serviceTxFeed_did {s t : State} (h : serviceTxFeed s = .ok t) :
    Did s t (feedRegs s s.answer.toNat) (feedTxns s s.answer.toNat) [] [] [] := by
  simp only [serviceTxFeed, bind_eq_ok] at h
  obtain ⟨⟨v, t₁⟩, h₁, h₂⟩ := h
  obtain ⟨rfl, d₁⟩ := busReadStatus_did h₁
  have e₁ : t₁.activeSlot = s.activeSlot := d₁.field (fun r => r.slots[r.cursor])
  have e₂ : t₁.txOffset = s.txOffset := d₁.field Regs.txOffset
  simp only [e₁, e₂, d₁.cfg_eq] at h₂
  unfold feedRegs feedTxns
  simp only
  split at h₂
  · next g =>
    rw [if_pos g, if_pos g]
    rw [bind_eq_ok] at h₂
    obtain ⟨t₂, h₂, h₃⟩ := h₂
    have k₁ := d₁.update (·.enterLast) (fun r => { r with radioState := .txLastTransmit }) (Did.enterLast t₁) id
    have k₂ := (k₁.andThen (busWriteBurst_did h₂) id).update (·.setTxOffset s.activeSlot.frame.length)
      (fun r => { r with txOffset := s.activeSlot.frame.length }) (Did.setTxOffset t₂ _) id
    have k₃ := k₂.andThen (busWrite_did h₃) id
    simp only [State.chip, k₁.cfg_eq, k₂.cfg_eq] at k₃
    simp only [List.append_assoc, List.append_nil] at k₃
    exact k₃
  · next g =>
    rw [if_neg g, if_neg g]
    rw [bind_eq_ok] at h₂
    obtain ⟨t₂, h₂, h₃⟩ := h₂
    obtain rfl : _ = t := by simpa using h₃
    have k₁ := d₁.andThen (busWriteBurst_did h₂) id
    have e₃ : t₂.txOffset = s.txOffset := k₁.field Regs.txOffset
    have k₂ := k₁.update (·.setTxOffset (t₂.txOffset + (s.cfg.fifoCapacity - s.answer.toNat)))
      (fun r => { r with txOffset := t₂.txOffset + (s.cfg.fifoCapacity - s.answer.toNat) }) (Did.setTxOffset t₂ _) id
    rw [e₃] at k₂
    simp only [State.chip, d₁.cfg_eq] at k₂
    simp only [e₃]
    exact k₂

theorem serviceTxFeed_ok {s : State} (w : s.WaitsEnd) : ∃ t, serviceTxFeed s = .ok t := by
  obtain ⟨t₁, h₁⟩ := busReadStatus_ok w s.chip.aTxLevel (guardOf s.cfg .getTxLvl)
  have w₁ := (busReadStatus_did h₁).2.waits_kept w
  by_cases g : t₁.activeSlot.frame.length - t₁.txOffset ≤ t₁.cfg.fifoCapacity - s.answer.toNat
  · obtain ⟨t₂, h₂⟩ := busWriteBurst_ok ((Did.enterLast t₁).waits_kept w₁) t₁.enterLast.chip.aFifo
      (slice t₁.activeSlot.frame t₁.txOffset (t₁.activeSlot.frame.length - t₁.txOffset))
      (guardOf t₁.enterLast.cfg .wrTxFifoBurst)
    have w₂ := (Did.setTxOffset t₂ t₁.activeSlot.frame.length).waits_kept
      ((busWriteBurst_did h₂).waits_kept ((Did.enterLast t₁).waits_kept w₁))
    obtain ⟨t₃, h₃⟩ := busWrite_ok w₂ t₂.chip.aIrqCfg t₂.chip.vIrqTxUnf (guardOf t₂.cfg .irqTxUnf)
    refine ⟨t₃, ?_⟩
    simp only [serviceTxFeed, bind_eq_ok]
    refine ⟨(_, t₁), h₁, ?_⟩
    simp only [if_pos g]
    exact bind_eq_ok.mpr ⟨t₂, h₂, h₃⟩
  · obtain ⟨t₂, h₂⟩ := busWriteBurst_ok w₁ t₁.chip.aFifo
      (slice t₁.activeSlot.frame t₁.txOffset (t₁.cfg.fifoCapacity - s.answer.toNat)) (guardOf t₁.cfg .wrTxFifoBurst)
    unfold serviceTxFeed
    refine exists_bind h₁ ?_
    simp only [if_neg g]
    exact exists_bind h₂ ⟨_, rfl⟩

/-! ## Slot selection -/

/-- What a slot selection answers: an index that satisfies the test, and none exactly when there is none. -/
theorem selectSlot_spec (p : Slot → Bool) (pref : Tab SlotTable (Fin 16)) (slots : SlotTable) :
    (∀ j, selectSlot p pref slots = some j → p slots[j] = true) ∧
      (selectSlot p pref slots = none ↔ ∀ j : Fin 16, p slots[j] = false) := by
  unfold selectSlot lowestSlot
  split
  · next h =>
    constructor
    · intro j e; cases e; exact h
    · constructor
      · intro e; cases e
      · intro e; rw [e] at h; cases h
  · constructor
    · intro j e; simpa using List.find?_some e
    · rw [List.find?_eq_none]
      constructor
      · intro e j; simpa using e j (List.mem_finRange j)
      · intro e j _; rw [e j]; decide

theorem nextSlot_inUse {c : Cfg} {slots : SlotTable} {j : Fin 16} (h : nextSlot c slots = some j) :
    slots[j].inUse = true :=
  (selectSlot_spec _ _ _).1 j h

theorem nextSlot_eq_none {c : Cfg} {slots : SlotTable} :
    nextSlot c slots = none ↔ ∀ j : Fin 16, slots[j].inUse = false :=
  (selectSlot_spec _ _ _).2

theorem freeSlot_free {c : Cfg} {slots : SlotTable} {j : Fin 16} (h : freeSlot c slots = some j) :
    slots[j].inUse = false := by
  simpa using (selectSlot_spec _ _ _).1 j h

theorem freeSlot_eq_none {c : Cfg} {slots : SlotTable} :
    freeSlot c slots = none ↔ ∀ j : Fin 16, slots[j].inUse = true := by
  have h := (selectSlot_spec (fun x => !x.inUse) c.freePref slots).2
  simp only [Bool.not_eq_false'] at h
  exact h

end Sys2Proof.Machine
end

