-- ==== Sys2Proof/Laws/Reception.lean ====
section
/-! SUPPORT. What one service of the receive side can do (42_rx_tx_sequencer.md R171 to R175), once: the four ways it
ends, each by the numbers of Safety.lean (`rxHave`, `headerTake`, `frameTotal`, `rxTake`). -/

namespace Sys2Proof.Machine

open Sys2Proof.Config

/-! ## The payload part -/

theorem rxPayload_partial {avail t : Nat} {s u : State} (ht : s.rxTotal = some t)
    (hp : s.rxCount + min avail (t - s.rxCount) ≠ t) (h : rxPayload avail s = .ok u) :
    Did s u { s.regs with
        rxBuf := overwrite s.rxBuf s.rxCount (s.answerBytes (min avail (t - s.rxCount)))
        rxCount := s.rxCount + min avail (t - s.rxCount) }
      (burstRead s.cfg.chip.aFifo (s.answerBytes (min avail (t - s.rxCount))) (guardOf s.cfg .rdRxFifo)) [] [] [] := by
  unfold rxPayload at h
  rw [ht] at h
  simp only [bind_eq_ok] at h
  obtain ⟨v, h₁, h₂⟩ := h
  have d := drain_did h₁
  have hc : v.rxCount = s.rxCount + min avail (t - s.rxCount) := d.field Regs.rxCount
  rw [hc, if_neg hp] at h₂
  obtain rfl : _ = u := by simpa using h₂
  exact d

theorem updateTxns_congr {c : Cfg} {r q : Regs} (e : Byte) (hw : r.window = q.window) (hi : r.winIdx = q.winIdx)
    (ho : r.appliedOffset = q.appliedOffset) : updateTxns c r e = updateTxns c q e := by
  simp only [updateTxns, Regs.updated_eq, Regs.sampled, hw, hi, ho]
  split <;> simp_all

theorem Regs.updated_idle (r : Regs) (e : Byte) : (r.updated e).idle = r.idle.updated e := by
  by_cases h : (r.sampled e).winIdx = 0
  · rw [Regs.updated_eq, if_pos h, Regs.updated_eq, if_pos (show (r.idle.sampled e).winIdx = 0 from h)]; rfl
  · rw [Regs.updated_eq, if_neg h, Regs.updated_eq, if_neg (show ¬ (r.idle.sampled e).winIdx = 0 from h)]; rfl

theorem Did.answerAt {s t : State} {regs : Regs} {x : List BusTxn} {a : List Bytes} {p : List FrameRecord}
    {o : List OpOutcome} (h : Did s t regs x a p o) (k : Nat) :
    t.answerAt k = s.answerAt ((bytesRead x).length + k) := by
  simp [State.answerAt, Script.nth, h.answers_drawn, Script.drop_add]

theorem rxPayload_complete {avail t : Nat} {s u : State} (ht : s.rxTotal = some t)
    (hp : s.rxCount + min avail (t - s.rxCount) = t) (h : rxPayload avail s = .ok u) :
    ∃ ts, Did s u
      (let r : Regs := { s.regs with
        rxBuf := overwrite s.rxBuf s.rxCount (s.answerBytes (min avail (t - s.rxCount)))
        rxCount := t }
       let head := (overwrite s.rxBuf s.rxCount (s.answerBytes (min avail (t - s.rxCount)))).take s.cfg.headerLen
       (if s.tracks (netIdIn s.cfg head) then r.updated (s.answerAt (min avail (t - s.rxCount) + 2)) else r).idle)
      (burstRead s.cfg.chip.aFifo (s.answerBytes (min avail (t - s.rxCount))) (guardOf s.cfg .rdRxFifo) ++
        finishTxns s (s.tracks (netIdIn s.cfg
          ((overwrite s.rxBuf s.rxCount (s.answerBytes (min avail (t - s.rxCount)))).take s.cfg.headerLen)))
          (min avail (t - s.rxCount))) []
      [frameRecord s.cfg ((overwrite s.rxBuf s.rxCount (s.answerBytes (min avail (t - s.rxCount)))).take t)
        ((overwrite s.rxBuf s.rxCount (s.answerBytes (min avail (t - s.rxCount)))).take s.cfg.headerLen)
        (s.answerAt (min avail (t - s.rxCount))) (s.answerAt (min avail (t - s.rxCount) + 1)) ts] [] ∧
      StampedAfter s u ((burstRead s.cfg.chip.aFifo (s.answerBytes (min avail (t - s.rxCount)))
        (guardOf s.cfg .rdRxFifo)).length + 1) ts := by
  unfold rxPayload at h
  rw [ht] at h
  simp only [bind_eq_ok] at h
  obtain ⟨v, h₁, h₂⟩ := h
  have d := drain_did h₁
  have hc : v.rxCount = s.rxCount + min avail (t - s.rxCount) := d.field Regs.rxCount
  rw [hc, if_pos hp] at h₂
  obtain ⟨ts, k, st⟩ := completeRx_did h₂
  have hbuf : v.rxBuf = overwrite s.rxBuf s.rxCount (s.answerBytes (min avail (t - s.rxCount))) := d.field Regs.rxBuf
  have hlen : (bytesRead (burstRead s.cfg.chip.aFifo (s.answerBytes (min avail (t - s.rxCount)))
      (guardOf s.cfg .rdRxFifo))).length = min avail (t - s.rxCount) := by
    rw [burstRead_bytes, State.answerBytes_length]
  have ha : ∀ m, v.answerAt m = s.answerAt (min avail (t - s.rxCount) + m) := by
    intro m; rw [d.answerAt, hlen]
  have hhead : v.header =
      (overwrite s.rxBuf s.rxCount (s.answerBytes (min avail (t - s.rxCount)))).take s.cfg.headerLen := by
    simp only [State.header, hbuf, d.cfg_eq]
  have htr : ∀ nid, v.tracks nid = s.tracks nid := by
    intro nid
    have e1 : v.trackingEnabled = s.trackingEnabled := d.field Regs.trackingEnabled
    have e2 : v.trackedNetId = s.trackedNetId := d.field Regs.trackedNetId
    simp only [State.tracks, e1, e2]
  refine ⟨ts, ?_, st.prepend d (drain_ticks h₁)⟩
  have j := d.trans k id
  unfold completeRxRegs completeRxTxns at j
  rw [hbuf, hhead, d.cfg_eq, ha, ha, ha, htr, d.regs_eq] at j
  have hx : ∀ e, updateTxns s.cfg ({ s.regs with
      rxBuf := overwrite s.rxBuf s.rxCount (s.answerBytes (min avail (t - s.rxCount)))
      rxCount := s.rxCount + min avail (t - s.rxCount) }) e = updateTxns s.cfg s.regs e :=
    fun e => updateTxns_congr e rfl rfl rfl
  rw [hx] at j
  simp only [hp, Nat.add_zero] at j
  simpa only [finishTxns, List.nil_append, List.append_nil] using j

theorem rxPayload_ok {s : State} (w : s.WaitsEnd) (avail : Nat) : ∃ t, rxPayload avail s = .ok t := by
  unfold rxPayload
  split
  · exact ⟨s, rfl⟩
  · next t _ =>
    obtain ⟨v, h⟩ := drain_ok w (min avail (t - s.rxCount))
    refine exists_bind h ?_
    split
    · exact completeRx_ok ((drain_did h).waits_kept w) t
    · exact ⟨v, rfl⟩

/-! ## The header part -/

theorem rxHeader_ok {s : State} (w : s.WaitsEnd) (avail : Nat) : ∃ t, rxHeader avail s = .ok t := by
  unfold rxHeader
  obtain ⟨v, h⟩ := drain_ok w (min avail (s.cfg.headerLen - s.rxCount))
  have wv := (drain_did h).waits_kept w
  refine exists_bind h ?_
  split
  · unfold rxHeaderDone
    simp only
    split
    · exact abortRx_ok wv
    · exact rxPayload_ok ((Did.enterPayload v _).waits_kept wv) _
  · exact ⟨v, rfl⟩

theorem serviceRx_ok {s : State} (w : s.WaitsEnd) : ∃ t, serviceRx s = .ok t := by
  have w₁ : (if s.isIdle then s.clearRx .rxHeader else s).WaitsEnd := by
    split
    · exact (Did.clearRx s _).waits_kept w
    · exact w
  unfold serviceRx
  obtain ⟨t₁, h₁⟩ := busReadStatus_ok w₁ (State.chip (if s.isIdle then s.clearRx .rxHeader else s)).aRxLevel
    (guardOf (if s.isIdle then s.clearRx .rxHeader else s).cfg .getRxLvl)
  refine exists_bind h₁ ?_
  have w₂ := (busReadStatus_did h₁).2.waits_kept w₁
  simp only
  split
  · exact rxHeader_ok w₂ _
  · split
    · exact rxPayload_ok w₂ _
    · exact ⟨t₁, rfl⟩

/-- The state when a receive service starts to read bytes: a reception begun if none was, the level read. -/
theorem serviceRx_start {s u : State} (h : serviceRx s = .ok u) (rx : s.radioState.isRx = true) (inv : s.Inv) :
    ∃ v, Did s v
        { s.regs with
          rxCount := s.rxHave
          rxTotal := if s.radioState = .rxPayload then s.rxTotal else none
          radioState := if s.radioState = .rxPayload then .rxPayload else .rxHeader }
        [.readStatus s.cfg.chip.aRxLevel s.answer (guardOf s.cfg .getRxLvl)] [] [] [] ∧
      v.inp.ticks = s.inp.ticks ∧
      (if s.radioState = .rxPayload then rxPayload s.rxAvail v else rxHeader s.rxAvail v) = .ok u := by
  simp only [serviceRx, bind_eq_ok] at h
  obtain ⟨⟨l, v⟩, h₁, h₂⟩ := h
  obtain ⟨rfl, d⟩ := busReadStatus_did h₁
  have ticks : v.inp.ticks = s.inp.ticks := (busReadStatus_ticks h₁).trans (by split <;> rfl)
  refine ⟨v, ?_⟩
  cases hs : s.radioState with
  | rxWaitSync =>
    have hi : s.isIdle = true := by simp [State.isIdle, hs]
    simp only [hi, if_true] at h₂ d
    have k := (Did.clearRx s .rxHeader).andThen d id
    have e : v.radioState = .rxHeader := k.field Regs.radioState
    simp only [e, if_true, reduceCtorEq, if_false] at h₂ ⊢
    refine ⟨?_, ticks, h₂⟩
    have hh : s.rxHave = 0 := by simp [State.rxHave, hi]
    rw [hh]; exact k
  | rxHeader =>
    have hi : s.isIdle = false := by simp [State.isIdle, hs]
    simp only [hi, Bool.false_eq_true, if_false] at h₂ d
    have e : v.radioState = .rxHeader := by rw [show v.radioState = s.radioState from d.field Regs.radioState, hs]
    simp only [e, if_true, reduceCtorEq, if_false] at h₂ ⊢
    refine ⟨?_, ticks, h₂⟩
    have hh : s.rxHave = s.rxCount := by simp [State.rxHave, hi]
    have ht := (inv.header hs).2
    rw [hh]
    have hr : ({ s.regs with rxCount := s.rxCount, rxTotal := none, radioState := .rxHeader } : Regs) = s.regs := by
      rw [← ht, ← hs]; rfl
    rw [hr]; exact d
  | rxPayload =>
    have hi : s.isIdle = false := by simp [State.isIdle, hs]
    simp only [hi, Bool.false_eq_true, if_false] at h₂ d
    have e : v.radioState = .rxPayload := by rw [show v.radioState = s.radioState from d.field Regs.radioState, hs]
    simp only [e, if_true, reduceCtorEq, if_false] at h₂ ⊢
    refine ⟨?_, ticks, h₂⟩
    have hh : s.rxHave = s.rxCount := by simp [State.rxHave, hi]
    rw [hh]
    have hr : ({ s.regs with rxCount := s.rxCount, rxTotal := s.rxTotal, radioState := .rxPayload } : Regs) =
        s.regs := by
      rw [← hs]; rfl
    rw [hr]; exact d
  | txTransmit => simp [hs, RadioState.isRx, RadioState.isTx] at rx
  | txLastTransmit => simp [hs, RadioState.isRx, RadioState.isTx] at rx

theorem State.Inv.rxHave_le {s : State} (inv : s.Inv) : s.rxHave ≤ s.rxBuf.length := by
  rw [inv.rxBuf_length]
  unfold State.rxHave
  split
  · omega
  · exact inv.rxCount_le

/-- What `n` header bytes read in a service leave in the buffer. -/
theorem Did.bufAfter {s v : State} {regs : Regs} {l : Byte} {a : Byte} {g : Nat}
    (d : Did s v regs [.readStatus a l g] [] [] []) (hb : regs.rxBuf = s.rxBuf) (hc : regs.rxCount = s.rxHave) (n : Nat) :
    overwrite v.rxBuf v.rxCount (v.answerBytes n) = s.bufAfter n := by
  have e1 : v.rxBuf = s.rxBuf := (d.field Regs.rxBuf).trans hb
  have e2 : v.rxCount = s.rxHave := (d.field Regs.rxCount).trans hc
  rw [e1, e2, d.answerBytes]; rfl

/-- The four ways a receive service ends. -/
theorem serviceRx_did {s u : State} (h : serviceRx s = .ok u) (rx : s.radioState.isRx = true) (inv : s.Inv)
    (len : LengthsLawful s.cfg) :
    (¬ s.headerComplete → Did s u
      { s.regs with
        rxBuf := s.bufAfter s.headerTake, rxCount := s.rxHave + s.headerTake, rxTotal := none
        radioState := .rxHeader } (headerTxns s) [] [] []) ∧
    (s.headerComplete → ¬ s.totalLegal → Did s u
      { s.regs with rxBuf := s.bufAfter s.headerTake }.idle (headerTxns s ++ endRxTxns s.cfg) [] [] []) ∧
    (s.headerComplete → s.totalLegal → s.rxHave + s.rxTake < s.frameTotal → Did s u
      { s.regs with
        rxBuf := s.bufAfter s.rxTake, rxCount := s.rxHave + s.rxTake, rxTotal := some s.frameTotal
        radioState := .rxPayload } (payloadTxns s) [] [] []) ∧
    (s.headerComplete → s.totalLegal → s.rxHave + s.rxTake = s.frameTotal → ∃ ts, Did s u
      (if s.tracks (netIdIn s.cfg ((s.bufAfter s.rxTake).take s.cfg.headerLen)) then
        { s.regs with rxBuf := s.bufAfter s.rxTake }.idle.updated (s.answerAt (s.rxTake + 3))
       else { s.regs with rxBuf := s.bufAfter s.rxTake }.idle)
      (payloadTxns s ++
        finishTxns s (s.tracks (netIdIn s.cfg ((s.bufAfter s.rxTake).take s.cfg.headerLen))) (s.rxTake + 1)) []
      [frameRecord s.cfg ((s.bufAfter s.rxTake).take s.frameTotal) ((s.bufAfter s.rxTake).take s.cfg.headerLen)
        (s.answerAt (s.rxTake + 1)) (s.answerAt (s.rxTake + 2)) ts] [] ∧
      StampedAfter s u ((payloadTxns s).length + 1) ts) := by
  obtain ⟨v, d, ticks, hk⟩ := serviceRx_start h rx inv
  have hl : (bytesRead [BusTxn.readStatus s.cfg.chip.aRxLevel s.answer (guardOf s.cfg .getRxLvl)]).length = 1 := rfl
  have hcnt : v.rxCount = s.rxHave := d.field Regs.rxCount
  have hbuf : v.rxBuf = s.rxBuf := d.field Regs.rxBuf
  have hhave := inv.rxHave_le
  by_cases hs : s.radioState = .rxPayload
  · -- the header was complete before
    obtain ⟨t, ht, t1, t2, t3⟩ := inv.payload hs
    have hlack : s.headerLack = 0 := by simp [State.headerLack, hs]
    have htake : s.headerTake = 0 := by simp [State.headerTake, hlack]
    have hidle : s.isIdle = false := by simp [State.isIdle, hs]
    have hrx : s.rxHave = s.rxCount := by simp [State.rxHave, hidle]
    have htot : s.frameTotal = t := by simp [State.frameTotal, hs, ht]
    have hlegal : s.totalLegal := by unfold State.totalLegal; rw [htot]; omega
    have hcomp : s.headerComplete := by unfold State.headerComplete; omega
    have hpt : s.payloadTake = min s.rxAvail (t - s.rxHave) := by simp [State.payloadTake, htake, htot]
    have hrt : s.rxTake = min s.rxAvail (t - s.rxHave) := by simp [State.rxTake, htake, hpt]
    simp only [hs, if_true] at hk d
    have hvt : v.rxTotal = some t := (d.field Regs.rxTotal).trans ht
    have htx : payloadTxns s = [BusTxn.readStatus s.cfg.chip.aRxLevel s.answer (guardOf s.cfg .getRxLvl)] ++
        burstRead s.cfg.chip.aFifo (s.answersFrom 1 s.rxTake) (guardOf s.cfg .rdRxFifo) := by
      unfold payloadTxns headerTxns
      rw [htake, show s.rxTake = s.payloadTake by simp [State.rxTake, htake]]
      have e0 : burstRead s.cfg.chip.aFifo (s.answersFrom 1 0) (guardOf s.cfg .rdRxFifo) = [] := rfl
      rw [e0]
    have hab : ∀ m, v.answerBytes m = s.answersFrom 1 m := fun m => d.answerBytes m
    have hov : overwrite v.rxBuf v.rxCount (v.answerBytes s.rxTake) = s.bufAfter s.rxTake := by
      rw [hbuf, hcnt, hab]; rfl
    have hmin : min s.rxAvail (t - v.rxCount) = s.rxTake := by rw [hcnt, hrt]
    refine ⟨fun hn => absurd hcomp hn, fun _ hn => absurd hlegal hn, fun _ _ hlt => ?_, fun _ _ heq => ?_⟩
    · have k := rxPayload_partial hvt (by rw [hmin, hcnt]; omega) hk
      rw [hmin] at k
      have j := d.trans k id
      rw [hov, hcnt, hab, d.cfg_eq, d.regs_eq] at j
      rw [htx, htot]
      have hreg : ({ s.regs with
          rxBuf := s.bufAfter s.rxTake, rxCount := s.rxHave + s.rxTake, rxTotal := some t
          radioState := .rxPayload } : Regs) = { s.regs with
          rxBuf := s.bufAfter s.rxTake, rxCount := s.rxHave + s.rxTake, rxTotal := s.rxTotal
          radioState := .rxPayload } := by rw [ht]
      rw [hreg]; exact j
    · obtain ⟨ts, k, st⟩ := rxPayload_complete hvt (by rw [hmin, hcnt]; omega) hk
      rw [hmin] at k st
      have htr : ∀ nid, v.tracks nid = s.tracks nid := by
        intro nid
        have e1 : v.trackingEnabled = s.trackingEnabled := d.field Regs.trackingEnabled
        have e2 : v.trackedNetId = s.trackedNetId := d.field Regs.trackedNetId
        simp only [State.tracks, e1, e2]
      have ha : ∀ m, v.answerAt m = s.answerAt (1 + m) := fun m => d.answerAt m
      have st' := st.prepend d ticks
      rw [hab, d.cfg_eq, ← Nat.add_assoc, ← List.length_append, ← htx] at st'
      refine ⟨ts, ?_, st'⟩
      have j := d.trans k id
      unfold finishTxns at j
      simp only [hov] at j
      simp only [hab, d.cfg_eq, d.regs_eq, htr, ha] at j
      rw [htx, htot]
      unfold finishTxns
      have e1 : 1 + s.rxTake = s.rxTake + 1 := by omega
      have e2 : 1 + (s.rxTake + 1) = s.rxTake + 2 := by omega
      have e3 : 1 + (s.rxTake + 2) = s.rxTake + 3 := by omega
      simp only [e1, e2, e3] at j
      have hx : ∀ e, updateTxns s.cfg ({ s.regs with
          rxCount := s.rxHave, rxTotal := s.rxTotal, radioState := .rxPayload }) e = updateTxns s.cfg s.regs e :=
        fun e => updateTxns_congr e rfl rfl rfl
      rw [hx] at j
      simp only [List.append_assoc, List.nil_append, List.append_nil] at j ⊢
      split at j
      · next g =>
        simp only [g, if_true]; rw [Regs.updated_idle] at j; exact j
      · next g => simp only [g]; exact j
  · -- header bytes first
    simp only [hs, if_false] at hk d
    have hlack : s.headerLack = s.cfg.headerLen - s.rxHave := by simp [State.headerLack, hs]
    have hlt : s.rxHave < s.cfg.headerLen := by
      unfold State.rxHave
      have := len.header_pos
      split
      · omega
      · next hi =>
        cases hr : s.radioState with
        | rxWaitSync => simp [State.isIdle, hr] at hi
        | rxHeader => exact (inv.header hr).1
        | rxPayload => exact absurd hr hs
        | txTransmit => simp [hr, RadioState.isRx, RadioState.isTx] at rx
        | txLastTransmit => simp [hr, RadioState.isRx, RadioState.isTx] at rx
    unfold rxHeader at hk
    simp only [bind_eq_ok] at hk
    obtain ⟨v₂, h₂, h₃⟩ := hk
    rw [hcnt, d.cfg_eq] at h₂ h₃
    have hmin : min s.rxAvail (s.cfg.headerLen - s.rxHave) = s.headerTake := by rw [← hlack]; rfl
    rw [hmin] at h₂ h₃
    have d₂ := drain_did h₂
    have hab : ∀ m, v.answerBytes m = s.answersFrom 1 m := fun m => d.answerBytes m
    have hov : overwrite v.rxBuf v.rxCount (v.answerBytes s.headerTake) = s.bufAfter s.headerTake := by
      rw [hbuf, hcnt, hab]; rfl
    have k := d.trans d₂ id
    rw [hov, hcnt, hab, d.cfg_eq, d.regs_eq] at k
    have k' : Did s v₂ { s.regs with
        rxBuf := s.bufAfter s.headerTake, rxCount := s.rxHave + s.headerTake, rxTotal := none
        radioState := .rxHeader } (headerTxns s) [] [] [] := k
    have hlenb : (bytesRead (headerTxns s)).length = 1 + s.headerTake := by
      have e : bytesRead (headerTxns s) = s.answer :: bytesRead (burstRead s.cfg.chip.aFifo
        (s.answersFrom 1 s.headerTake) (guardOf s.cfg .rdRxFifo)) := rfl
      rw [e, burstRead_bytes, List.length_cons, State.answersFrom_length]; omega
    have hc₂ : v₂.rxCount = s.rxHave + s.headerTake := k'.field Regs.rxCount
    have hb₂ : v₂.rxBuf = s.bufAfter s.headerTake := k'.field Regs.rxBuf
    have hcfg₂ : v₂.cfg = s.cfg := k'.cfg_eq
    have hle : s.headerTake ≤ s.headerLack := Nat.min_le_right _ _
    by_cases hcomp : s.headerComplete
    · have hfull : s.headerTake = s.headerLack := Nat.min_eq_right hcomp
      have hsum : s.rxHave + s.headerTake = s.cfg.headerLen := by omega
      have hcond : v₂.rxCount = v₂.cfg.headerLen := by rw [hc₂, hcfg₂, hsum]
      rw [if_pos hcond] at h₃
      have hhd : v₂.header = s.headerAfter := by simp only [State.header, hb₂, hcfg₂]; rfl
      have htot : s.frameTotal = totalLenOf s.cfg s.headerAfter := by simp [State.frameTotal, hs]
      unfold rxHeaderDone at h₃
      simp only [hhd, hcfg₂, ← htot] at h₃
      refine ⟨fun hn => absurd hcomp hn, fun _ hbad => ?_, fun _ hleg hlt2 => ?_, fun _ hleg heq => ?_⟩
      · have hb : s.frameTotal < s.cfg.headerLen ∨ s.cfg.maxFrameLen < s.frameTotal := by
          unfold State.totalLegal at hbad; omega
        rw [if_pos hb] at h₃
        have j := k'.trans (abortRx_did h₃) id
        rw [k'.regs_eq, hcfg₂] at j
        exact j
      all_goals
        have hb : ¬ (s.frameTotal < s.cfg.headerLen ∨ s.cfg.maxFrameLen < s.frameTotal) := by
          unfold State.totalLegal at hleg; omega
        rw [if_neg hb] at h₃
        have k₃ := k'.update (·.enterPayload s.frameTotal)
          (fun r => { r with rxTotal := some s.frameTotal, radioState := .rxPayload }) (Did.enterPayload v₂ _) id
        have hc₃ : (v₂.enterPayload s.frameTotal).rxCount = s.rxHave + s.headerTake := hc₂
        have hb₃ : (v₂.enterPayload s.frameTotal).rxBuf = s.bufAfter s.headerTake := hb₂
        have hmin₃ : min (s.rxAvail - s.headerTake) (s.frameTotal - (v₂.enterPayload s.frameTotal).rxCount) =
            s.payloadTake := by rw [hc₃]; rfl
        have hab₃ : ∀ m, (v₂.enterPayload s.frameTotal).answerBytes m = s.answersFrom (1 + s.headerTake) m := by
          intro m; rw [k₃.answerBytes, hlenb]
        have hov₃ : overwrite (v₂.enterPayload s.frameTotal).rxBuf (v₂.enterPayload s.frameTotal).rxCount
            ((v₂.enterPayload s.frameTotal).answerBytes s.payloadTake) = s.bufAfter s.rxTake := by
          rw [hb₃, hc₃, hab₃]
          have hl1 : (s.answersFrom 1 s.headerTake).length = s.headerTake := s.answersFrom_length _ _
          have := overwrite_append (buf := s.rxBuf) (i := s.rxHave) (a := s.answersFrom 1 s.headerTake)
            (b := s.answersFrom (1 + s.headerTake) s.payloadTake) hhave
          rw [hl1, ← State.answersFrom_add] at this
          exact this
      · have j := rxPayload_partial (t := s.frameTotal) rfl (by
          rw [hmin₃, hc₃]; unfold State.rxTake at hlt2; omega) h₃
        rw [hmin₃, hov₃, hc₃, hab₃] at j
        have m := k₃.trans j id
        rw [k₃.cfg_eq, k₃.regs_eq] at m
        have hs₂ : s.rxHave + s.headerTake + s.payloadTake = s.rxHave + s.rxTake := by unfold State.rxTake; omega
        rw [hs₂] at m
        exact m
      · obtain ⟨ts, j, st⟩ := rxPayload_complete (t := s.frameTotal) rfl (by
          rw [hmin₃, hc₃]; unfold State.rxTake at heq; omega) h₃
        rw [hmin₃, hab₃, k₃.cfg_eq] at st
        have st' := st.prepend k₃ ((drain_ticks h₂).trans ticks)
        rw [← Nat.add_assoc, ← List.length_append] at st'
        have htr : ∀ nid, (v₂.enterPayload s.frameTotal).tracks nid = s.tracks nid := by
          intro nid
          have e1 : (v₂.enterPayload s.frameTotal).trackingEnabled = s.trackingEnabled := k₃.field Regs.trackingEnabled
          have e2 : (v₂.enterPayload s.frameTotal).trackedNetId = s.trackedNetId := k₃.field Regs.trackedNetId
          simp only [State.tracks, e1, e2]
        have ha : ∀ m, (v₂.enterPayload s.frameTotal).answerAt m = s.answerAt (1 + s.headerTake + m) := by
          intro m; rw [k₃.answerAt, hlenb]
        refine ⟨ts, ?_, st'⟩
        unfold finishTxns at j
        simp only [hmin₃] at j
        simp only [hov₃] at j
        simp only [htr, ha, hab₃, k₃.cfg_eq, k₃.regs_eq] at j
        have m := k₃.trans j id
        have e1 : 1 + s.headerTake + s.payloadTake = s.rxTake + 1 := by unfold State.rxTake; omega
        have e2 : 1 + s.headerTake + (s.payloadTake + 1) = s.rxTake + 2 := by unfold State.rxTake; omega
        have e3 : 1 + s.headerTake + (s.payloadTake + 2) = s.rxTake + 3 := by unfold State.rxTake; omega
        simp only [e1, e2, e3] at m
        unfold payloadTxns finishTxns
        have hx : ∀ e, updateTxns s.cfg ({ s.regs with
            rxBuf := s.bufAfter s.headerTake, rxCount := s.rxHave + s.headerTake, rxTotal := some s.frameTotal
            radioState := .rxPayload }) e = updateTxns s.cfg s.regs e :=
          fun e => updateTxns_congr e rfl rfl rfl
        rw [hx] at m
        simp only [List.append_assoc, List.nil_append, List.append_nil] at m ⊢
        split at m
        · next g =>
          simp only [g, if_true]; rw [Regs.updated_idle] at m; exact m
        · next g => simp only [g]; exact m
    · have hshort : s.headerTake = s.rxAvail := by
        unfold State.headerComplete at hcomp
        exact Nat.min_eq_left (by omega)
      have hcond : ¬ v₂.rxCount = v₂.cfg.headerLen := by
        rw [hc₂, hcfg₂, hshort]; unfold State.headerComplete at hcomp; omega
      rw [if_neg hcond] at h₃
      obtain rfl : _ = u := by simpa using h₃
      exact ⟨fun _ => k', fun hc => absurd hc hcomp, fun hc => absurd hc hcomp, fun hc => absurd hc hcomp⟩

end Sys2Proof.Machine
end

