-- ==== Sys2Proof/Laws/HostCommands.lean ====
section
/-! SUPPORT. What the host-command pieces of Machine/HostCommands.lean can do, once each: enqueueing, scheduling, the
base writes, the two ends of `INIT`, the recovery. -/

namespace Sys2Proof.Machine

open Sys2Proof.Config

/-! ## Enqueueing and scheduling -/

/-- `Enqueue` changes the slot table and nothing else. -/
theorem State.enqueue_eq (s : State) (frame : Bytes) :
    s.enqueue frame = { s with slots := accept s.cfg s.slots frame } := by
  unfold State.enqueue accept
  split
  · rfl
  · cases freeSlot s.cfg s.slots <;> rfl

theorem State.enqueueAll_eq (frames : List Bytes) (s : State) :
    frames.foldl State.enqueue s = { s with slots := frames.foldl (accept s.cfg) s.slots } := by
  induction frames generalizing s with
  | nil => rfl
  | cons frame rest ih => simp only [List.foldl_cons, ih, State.enqueue_eq]

theorem Did.enqueue (s : State) (frame : Bytes) :
    Did s (s.enqueue frame) { s.regs with slots := accept s.cfg s.slots frame } [] [] [] [] := by
  unfold State.enqueue accept
  split
  · exact Did.refl s
  · cases freeSlot s.cfg s.slots with
    | none => exact Did.refl s
    | some i => exact Did.of_pure rfl rfl rfl rfl rfl rfl rfl rfl rfl

theorem Did.enqueueAll (frames : List Bytes) (s : State) :
    Did s (frames.foldl State.enqueue s) { s.regs with slots := frames.foldl (accept s.cfg) s.slots } [] [] [] [] := by
  induction frames generalizing s with
  | nil => exact Did.refl s
  | cons f rest ih =>
    have d := Did.enqueue s f
    have k := d.trans (ih (s.enqueue f)) id
    have e1 : (s.enqueue f).slots = accept s.cfg s.slots f := d.field Regs.slots
    rw [e1, d.cfg_eq, d.regs_eq] at k
    exact k

/-- What `Schedule()` does: it starts the slot `NextSlot` chooses when idle, and nothing otherwise. -/
theorem schedule_did {s t : State} (h : schedule s = .ok t) :
    (s.radioState = .rxWaitSync → ∀ j, nextSlot s.cfg s.slots = some j →
      Did s t (s.regs.started s.cfg j (t.now + BitVec.ofNat 32 s.cfg.turnaroundUs))
        (startTxTxns s.cfg s.slots[j].frame) [] [] []) ∧
    (s.radioState ≠ .rxWaitSync ∨ nextSlot s.cfg s.slots = none → t = s) := by
  unfold schedule at h
  split at h
  · next hi =>
    have hi : s.radioState = .rxWaitSync := by simpa [State.isIdle] using hi
    split at h
    · next j hj =>
      refine ⟨fun _ i hi' => ?_, fun hn => ?_⟩
      · rw [hj] at hi'; cases hi'; exact startTx_did h
      · rcases hn with hn | hn
        · exact absurd hi hn
        · rw [hj] at hn; cases hn
    · next hj =>
      obtain rfl : _ = t := by simpa using h
      refine ⟨fun _ i hi' => ?_, fun _ => rfl⟩
      rw [hj] at hi'; cases hi'
  · next hi =>
    have hi : s.radioState ≠ .rxWaitSync := by simpa [State.isIdle] using hi
    obtain rfl : _ = t := by simpa using h
    exact ⟨fun hn => absurd hn hi, fun _ => rfl⟩

theorem schedule_ok {s : State} (w : s.WaitsEnd) : ∃ t, schedule s = .ok t := by
  unfold schedule
  split
  · split
    · exact startTx_ok w _
    · exact ⟨s, rfl⟩
  · exact ⟨s, rfl⟩

/-! ## Recovery -/

theorem restart_did {s t : State} (h : restart s = .ok t) :
    Did s t { s.regs with timerArmed := false, rxCount := 0, rxTotal := none, radioState := .rxWaitSync }
      ([.strobe s.cfg.chip.sFlushRx (guardOf s.cfg .flushRx), .strobe s.cfg.chip.sFlushTx (guardOf s.cfg .flushTx)] ++
        armRxTxns s.cfg) [] [] [] := by
  simp only [restart, bind_eq_ok] at h
  obtain ⟨t₁, h₁, t₂, h₂, h₃⟩ := h
  have k₁ := busStrobe_did h₁
  have k₂ := k₁.andThen (busStrobe_did h₂) id
  have k₃ := k₂.trans (armRx_did h₃) id
  rw [k₂.regs_eq, k₂.cfg_eq] at k₃
  simp only [State.chip, k₁.cfg_eq] at k₃
  exact k₃

theorem restart_ok {s : State} (w : s.WaitsEnd) : ∃ t, restart s = .ok t := by
  obtain ⟨t₁, h₁⟩ := busStrobe_ok w s.chip.sFlushRx (guardOf s.cfg .flushRx)
  have w₁ := (busStrobe_did h₁).waits_kept w
  obtain ⟨t₂, h₂⟩ := busStrobe_ok w₁ t₁.chip.sFlushTx (guardOf t₁.cfg .flushTx)
  unfold restart
  exact exists_bind h₁ (exists_bind h₂ (armRx_ok ((busStrobe_did h₂).waits_kept w₁)))

/-! ## `INIT` -/

theorem writeBase_did : ∀ (ws : List (Byte × Byte)) (s t : State), writeBase ws s = .ok t →
    Did s t s.regs (ws.map fun w => .write w.1 w.2 (guardOf s.cfg .init)) [] [] [] := by
  intro ws
  induction ws with
  | nil => intro s t h; obtain rfl : s = t := by simpa [writeBase] using h
           exact Did.refl s
  | cons w rest ih =>
    intro s t h
    obtain ⟨a, x⟩ := w
    simp only [writeBase, bind_eq_ok] at h
    obtain ⟨t₁, h₁, h₂⟩ := h
    have d := busWrite_did h₁
    have k := d.andThen (ih t₁ t h₂) id
    rw [d.cfg_eq] at k
    exact k

theorem writeBase_ok : ∀ (ws : List (Byte × Byte)) (s : State), s.WaitsEnd → ∃ t, writeBase ws s = .ok t := by
  intro ws
  induction ws with
  | nil => intro s _; exact ⟨s, rfl⟩
  | cons w rest ih =>
    intro s hw
    obtain ⟨a, x⟩ := w
    obtain ⟨t₁, h₁⟩ := busWrite_ok hw a x (guardOf s.cfg .init)
    unfold writeBase
    exact exists_bind h₁ (ih t₁ ((busWrite_did h₁).waits_kept hw))

theorem Did.beginInit (s : State) :
    Did s s.beginInit { s.regs with
      irqEnabled := false, timerArmed := false, rxCount := 0, rxTotal := none, radioState := .rxWaitSync }
      [] [] [] [] :=
  Did.of_pure rfl rfl rfl rfl rfl rfl rfl rfl rfl

theorem Did.storeSettings (s : State) :
    Did s s.storeSettings { s.regs with
      config := { s.config with
        syncWord := s.cfg.cfgSync, pktLenMode := s.cfg.cfgPktLenMode, preambleSync := s.cfg.cfgPreambleSync } }
      [] [] [] [] :=
  Did.of_pure rfl rfl rfl rfl rfl rfl rfl rfl rfl

theorem PollEnds.congr {s t : State} {k m n : Nat} (h : PollEnds t k n) (hc : t.cfg = s.cfg)
    (ha : t.inp.answers = s.inp.answers.drop m) : PollEnds s (m + k) n := by
  have hb : ∀ i, t.answersFrom k i = s.answersFrom (m + k) i := by
    intro i; simp [State.answersFrom, ha, Script.drop_add]
  refine ⟨h.pos, ?_, ?_, ?_⟩
  · rw [← hb, ← hc]; exact h.busy
  · rw [← hb, ← hc]; exact h.clear
  · have := h.bound
    rw [ha, Script.drop_items_length, hc] at this
    omega

theorem PollEnds.congr' {s t : State} {k m n : Nat} (h : PollEnds s (m + k) n) (hc : t.cfg = s.cfg)
    (ha : t.inp.answers = s.inp.answers.drop m) : PollEnds t k n := by
  have hb : ∀ i, t.answersFrom k i = s.answersFrom (m + k) i := by
    intro i; simp [State.answersFrom, ha, Script.drop_add]
  refine ⟨h.pos, ?_, ?_, ?_⟩
  · rw [hb, hc]; exact h.busy
  · rw [hb, hc]; exact h.clear
  · have := h.bound
    rw [ha, Script.drop_items_length, hc]
    omega

theorem setFreqTxns_congr {s t : State} {f : Rat} {m n : Nat} (hc : t.cfg = s.cfg)
    (ha : t.inp.answers = s.inp.answers.drop m) : setFreqTxns t f 0 n = setFreqTxns s f m n := by
  have hb : t.answersFrom 0 n = s.answersFrom m n := by simp [State.answersFrom, ha, Script.drop]
  simp only [setFreqTxns, calibrateTxns, pollReads, hb, hc]

/-- The part of `INIT` after the presence check. -/
theorem configureAndArm_did {f : Rat} {s t : State} (h : configureAndArm f s = .ok t) :
    ∃ n, PollEnds s 0 n ∧ Did s t { s.regs with
        irqEnabled := true, timerArmed := false, rxCount := 0, rxTotal := none, radioState := .rxWaitSync
        appliedOffset := 0, config := initConfig s.cfg f }
      (setFreqTxns s f 0 n ++ modemTxns s.cfg ++ baseTxns s.cfg ++ armRxTxns s.cfg) [[1]] [] [] := by
  simp only [configureAndArm, bind_eq_ok] at h
  obtain ⟨t₁, h₁, t₂, h₂, t₃, h₃, t₄, h₄, t₅, h₅, t₆, h₆, t₇, h₇, h₈⟩ := h
  obtain rfl : _ = t := by simpa using h₈
  obtain ⟨n, p, d₁⟩ := drvSetFreq_did h₁
  refine ⟨n, p, ?_⟩
  have c₁ := d₁.cfg_eq
  have d₂ := drvSetBw_did h₂
  rw [c₁] at d₂
  have k₂ := d₁.trans d₂ id
  rw [d₁.regs_eq, show t₁.config = s.config.withFreq (freqCodes s.cfg f) from d₁.field Regs.config] at k₂
  have c₂ := k₂.cfg_eq
  have d₃ := drvSetBitrate_did h₃
  rw [c₂] at d₃
  have k₃ := k₂.trans d₃ id
  rw [k₂.regs_eq, show t₂.config = _ from k₂.field Regs.config] at k₃
  have c₃ := k₃.cfg_eq
  have d₄ := drvSetDev_did h₄
  rw [c₃] at d₄
  have k₄ := k₃.trans d₄ id
  rw [k₃.regs_eq, show t₃.config = _ from k₃.field Regs.config] at k₄
  have c₄ := k₄.cfg_eq
  have d₅ := drvSetFifoThr_did h₅
  rw [c₄] at d₅
  have k₅ := k₄.trans d₅ id
  rw [k₄.regs_eq, show t₄.config = _ from k₄.field Regs.config] at k₅
  have c₅ := k₅.cfg_eq
  have k₆ := k₅.trans (Did.storeSettings t₅) id
  rw [k₅.regs_eq, show t₅.config = _ from k₅.field Regs.config, c₅] at k₆
  have d₇ := writeBase_did _ _ _ h₆
  have k₇ := (k₆.andThen d₇ id).update (·.setIrqEnabled true) (fun r => { r with irqEnabled := true })
    (Did.setIrqEnabled t₆ true) id
  have k₈ := k₇.trans (armRx_did h₇) id
  have k₉ := k₈.andThen (Did.respond t₇ (boolBytes true)) (by simp)
  rw [k₇.regs_eq, k₇.cfg_eq] at k₉
  have c₅' : t₅.storeSettings.cfg = s.cfg := c₅
  rw [c₅'] at k₉
  simp only [List.append_assoc, List.append_nil] at k₉
  simp only [List.append_assoc]
  exact k₉

theorem configureAndArm_ok {s : State} (w : s.WaitsEnd) (f : Rat) {n : Nat} (p : PollEnds s 0 n) :
    ∃ t, configureAndArm f s = .ok t := by
  obtain ⟨t₁, h₁⟩ := drvSetFreq_ok w f p
  obtain ⟨_, _, d₁⟩ := drvSetFreq_did h₁
  have w₁ := d₁.waits_kept w
  obtain ⟨t₂, h₂⟩ := drvSetBw_ok w₁ (bandwidthKhz t₁.cfg.cfgBandwidth)
  have w₂ := (drvSetBw_did h₂).waits_kept w₁
  obtain ⟨t₃, h₃⟩ := drvSetBitrate_ok w₂ t₂.cfg.cfgBitrate
  have w₃ := (drvSetBitrate_did h₃).waits_kept w₂
  obtain ⟨t₄, h₄⟩ := drvSetDev_ok w₃ t₃.cfg.cfgDeviation
  have w₄ := (drvSetDev_did h₄).waits_kept w₃
  obtain ⟨t₅, h₅⟩ := drvSetFifoThr_ok w₄ t₄.cfg.fifoThreshold
  have w₅ := (drvSetFifoThr_did h₅).waits_kept w₄
  obtain ⟨t₆, h₆⟩ := writeBase_ok t₅.storeSettings.cfg.baseConfigWrites t₅.storeSettings
    ((Did.storeSettings t₅).waits_kept w₅)
  have w₆ := (writeBase_did _ _ _ h₆).waits_kept ((Did.storeSettings t₅).waits_kept w₅)
  obtain ⟨t₇, h₇⟩ := armRx_ok ((Did.setIrqEnabled t₆ true).waits_kept w₆)
  unfold configureAndArm
  exact exists_bind h₁ (exists_bind h₂ (exists_bind h₃ (exists_bind h₄ (exists_bind h₅ (exists_bind h₆
    (exists_bind h₇ ⟨_, rfl⟩))))))

/-- `INIT` when the presence byte is zero: reset and presence read only, and the block is uninitialised. -/
theorem initChip_absent {f : Rat} {s t : State} (h : initChip f s = .ok t) (ha : s.answerAt 0 = 0) :
    Did s t { s.regs with
        irqEnabled := false, timerArmed := false, rxCount := 0, rxTotal := none, radioState := .rxWaitSync }
      [.reset, presenceTxn s.cfg 0] [[0]] [] [] := by
  simp only [initChip, bind_eq_ok] at h
  obtain ⟨t₁, h₁, ⟨v, t₂⟩, h₂, h₃⟩ := h
  have k₁ := (Did.beginInit s).trans (drvReset_did h₁).1 (by simp)
  rw [(Did.beginInit s).regs_eq] at k₁
  obtain ⟨rfl, d₂⟩ := busReadStatus_did h₂
  have k₂ := k₁.andThen d₂ (by simp)
  have hv : t₁.answer = s.answerAt 0 := k₁.answer
  rw [hv, ha] at k₂
  simp only [hv, ha, if_true] at h₃
  obtain rfl : _ = t := by simpa using h₃
  have k₃ := k₂.andThen (Did.respond t₂ (boolBytes false)) (by simp)
  simp only [State.chip, k₁.cfg_eq] at k₃
  exact k₃

/-- `INIT` when the chip is present. -/
theorem initChip_present {f : Rat} {s t : State} (h : initChip f s = .ok t) (ha : s.answerAt 0 ≠ 0) :
    ∃ n, PollEnds s 1 n ∧ Did s t { s.regs with
        irqEnabled := true, timerArmed := false, rxCount := 0, rxTotal := none, radioState := .rxWaitSync
        appliedOffset := 0, config := initConfig s.cfg f } (initTxns s f n) [[1]] [] [] := by
  simp only [initChip, bind_eq_ok] at h
  obtain ⟨t₁, h₁, ⟨v, t₂⟩, h₂, h₃⟩ := h
  have k₁ := (Did.beginInit s).trans (drvReset_did h₁).1 (by simp)
  rw [(Did.beginInit s).regs_eq] at k₁
  obtain ⟨rfl, d₂⟩ := busReadStatus_did h₂
  have k₂ := k₁.andThen d₂ (by simp)
  have hv : t₁.answer = s.answerAt 0 := k₁.answer
  rw [hv] at k₂
  simp only [hv, if_neg ha] at h₃
  obtain ⟨n, p, d₃⟩ := configureAndArm_did h₃
  have ha₂ : t₂.inp.answers = s.inp.answers.drop 1 := k₂.answers_drawn
  refine ⟨n, p.congr k₂.cfg_eq ha₂, ?_⟩
  have k₃ := k₂.trans d₃ (by simp)
  rw [k₂.regs_eq, k₂.cfg_eq, setFreqTxns_congr k₂.cfg_eq ha₂] at k₃
  simp only [State.chip, k₁.cfg_eq] at k₃
  unfold initTxns
  simp only [List.append_assoc] at k₃ ⊢
  exact k₃

theorem initChip_ok {s : State} (w : s.WaitsEnd) (f : Rat)
    (p : s.answerAt 0 ≠ 0 → ∃ n, PollEnds s 1 n) : ∃ t, initChip f s = .ok t := by
  have w₀ := (Did.beginInit s).waits_kept w
  obtain ⟨t₁, h₁⟩ := drvReset_ok w₀
  have k₁ := (Did.beginInit s).trans (drvReset_did h₁).1 (by simp)
  have w₁ := k₁.waits_kept w
  obtain ⟨t₂, h₂⟩ := busReadStatus_ok w₁ t₁.chip.aPresence (guardOf t₁.cfg .isConnected)
  have d₂ := (busReadStatus_did h₂).2
  have hv : t₁.answer = s.answerAt 0 := k₁.answer
  unfold initChip
  refine exists_bind h₁ (exists_bind h₂ ?_)
  simp only [hv]
  split
  · exact ⟨_, rfl⟩
  · next hne =>
    obtain ⟨n, hp⟩ := p hne
    have k₂ := (k₁.trans d₂ (by simp))
    exact configureAndArm_ok (d₂.waits_kept w₁) f (hp.congr' (m := 1) k₂.cfg_eq k₂.answers_drawn)

end Sys2Proof.Machine
end

