-- ==== Sys2Proof/Laws/Services.lean ====
section
/-! SUPPORT. What an event service can do in ANY state, whether or not the invariant holds: which registers it may change,
where `radioState` may go, which bus transactions it makes, how many frames it pushes. -/

namespace Sys2Proof.Machine

open Sys2Proof.Config

/-- A transaction an event service makes: its guard is `GuardUs` of one of the service operations, and no strobe but the
receive strobe, the transmit strobe and the receive flush. -/
def ServiceTxn (c : Cfg) (x : BusTxn) : Prop :=
  x ≠ .reset ∧ (∃ op ∈ serviceOps, x.guard = guardOf c op) ∧
    ∀ k g, x = .strobe k g → k = c.chip.sRx ∨ k = c.chip.sTx ∨ k = c.chip.sFlushRx

theorem ServiceTxn.of_plain {c : Cfg} {x : BusTxn} (op : Op) (h : op ∈ serviceOps) (hg : x.guard = guardOf c op)
    (hr : x ≠ .reset) (hs : ∀ k g, x ≠ .strobe k g) : ServiceTxn c x :=
  ⟨hr, ⟨op, h, hg⟩, fun k g e => absurd e (hs k g)⟩

theorem ServiceTxn.burstRead {c : Cfg} (bs : Bytes) :
    ∀ x ∈ Machine.burstRead c.chip.aFifo bs (guardOf c .rdRxFifo), ServiceTxn c x := by
  intro x hx
  unfold Machine.burstRead at hx
  split at hx
  · simp at hx
  · rw [List.mem_singleton] at hx
    subst hx
    exact .of_plain .rdRxFifo (by decide) rfl (by simp) (by simp)

theorem ServiceTxn.burstWrite {c : Cfg} (bs : Bytes) :
    ∀ x ∈ Machine.burstWrite c.chip.aFifo bs (guardOf c .wrTxFifoBurst), ServiceTxn c x := by
  intro x hx
  unfold Machine.burstWrite at hx
  split at hx
  · simp at hx
  · rw [List.mem_singleton] at hx
    subst hx
    exact .of_plain .wrTxFifoBurst (by decide) rfl (by simp) (by simp)

theorem ServiceTxn.endRx {c : Cfg} : ∀ x ∈ endRxTxns c, ServiceTxn c x := by
  intro x hx
  simp only [endRxTxns, List.mem_cons, List.not_mem_nil, or_false] at hx
  rcases hx with rfl | rfl
  · exact ⟨by simp, ⟨.flushRx, by decide, rfl⟩, fun k g e => by simp at e; simp [e.1]⟩
  · exact ⟨by simp, ⟨.strobe, by decide, rfl⟩, fun k g e => by simp at e; simp [e.1]⟩

theorem ServiceTxn.armRx {c : Cfg} : ∀ x ∈ armRxTxns c, ServiceTxn c x := by
  intro x hx
  simp only [armRxTxns, List.mem_cons, List.not_mem_nil, or_false] at hx
  rcases hx with rfl | rfl
  · exact .of_plain .irqRxThr (by decide) rfl (by simp) (by simp)
  · exact ⟨by simp, ⟨.strobe, by decide, rfl⟩, fun k g e => by simp at e; simp [e.1]⟩

theorem ServiceTxn.update {c : Cfg} (r : Regs) (e : Byte) : ∀ x ∈ updateTxns c r e, ServiceTxn c x := by
  intro x hx
  unfold updateTxns at hx
  rw [List.mem_cons] at hx
  rcases hx with rfl | hx
  · exact .of_plain .updFreqOffset (by decide) rfl (by simp) (by simp)
  · split at hx
    · rw [List.mem_singleton] at hx
      subst hx
      exact .of_plain .updFreqOffset (by decide) rfl (by simp) (by simp)
    · simp at hx

theorem ServiceTxn.startTx {c : Cfg} (frame : Bytes) : ∀ x ∈ startTxTxns c frame, ServiceTxn c x := by
  intro x hx
  unfold startTxTxns at hx
  rw [List.mem_append, List.mem_singleton] at hx
  rcases hx with hx | rfl
  · exact .burstWrite _ x hx
  · exact .of_plain .irqTxThr (by decide) rfl (by simp) (by simp)

theorem ServiceTxn.feed (s : State) (lvl : Nat) : ∀ x ∈ feedTxns s lvl, ServiceTxn s.cfg x := by
  intro x hx
  unfold feedTxns at hx
  simp only [List.mem_cons] at hx
  rcases hx with rfl | hx
  · exact .of_plain .getTxLvl (by decide) rfl (by simp) (by simp)
  · split at hx
    · rw [List.mem_append, List.mem_singleton] at hx
      rcases hx with hx | rfl
      · exact .burstWrite _ x hx
      · exact .of_plain .irqTxUnf (by decide) rfl (by simp) (by simp)
    · exact .burstWrite _ x hx

/-- Only the registers of reception and of the filter may differ, and the index moves by at most one. -/
structure RxOnly (r q : Regs) : Prop where
  rest : q = { r with
    radioState := q.radioState, rxBuf := q.rxBuf, rxCount := q.rxCount, rxTotal := q.rxTotal
    window := q.window, winIdx := q.winIdx, appliedOffset := q.appliedOffset }
  idx : q.winIdx = r.winIdx ∨ q.winIdx = r.winIdx + 1

theorem RxOnly.updated (r : Regs) (e : Byte) : RxOnly r (r.updated e).idle := by
  rw [Regs.updated_eq]
  split
  · exact ⟨rfl, .inr rfl⟩
  · exact ⟨rfl, .inr rfl⟩

/-- From `s` to `u` a piece of a receive service ran: `pushed` frames at most one, `radioState` ends in `ends`. -/
def RxDoes (s u : State) (ends : RadioState → Prop) : Prop :=
  ∃ regs txns pushed, Did s u regs txns [] pushed [] ∧ RxOnly s.regs regs ∧ pushed.length ≤ 1 ∧
    (∀ x ∈ txns, ServiceTxn s.cfg x) ∧ ends regs.radioState

/-- A piece that pushes nothing and leaves the filter alone, before another piece. -/
theorem RxDoes.after {s v u : State} {r : Regs} {x : List BusTxn} {ends ends' : RadioState → Prop}
    (d : Did s v r x [] [] [])
    (hr : r = { s.regs with
      radioState := r.radioState, rxBuf := r.rxBuf, rxCount := r.rxCount, rxTotal := r.rxTotal })
    (hx : ∀ y ∈ x, ServiceTxn s.cfg y) (k : RxDoes v u ends) (he : ∀ q, ends q → ends' q) : RxDoes s u ends' := by
  obtain ⟨q, y, p, dk, ⟨hq, hi⟩, hp, hy, e⟩ := k
  have armed : r.timerArmed = true → s.timerArmed = true := by rw [hr]; exact id
  refine ⟨q, x ++ y, p, by simpa using d.trans dk armed, ⟨?_, ?_⟩, hp, ?_, he _ e⟩
  · rw [hq, d.regs_eq, hr]
  · have : v.regs.winIdx = s.regs.winIdx := by rw [d.regs_eq, hr]
    rw [this] at hi; exact hi
  · intro z hz
    rw [List.mem_append] at hz
    rcases hz with hz | hz
    · exact hx z hz
    · have := hy z hz; rw [d.cfg_eq] at this; exact this

theorem RxDoes.nothing (s : State) {ends : RadioState → Prop} (h : ends s.radioState) : RxDoes s s ends :=
  ⟨s.regs, [], [], Did.refl s, ⟨rfl, .inl rfl⟩, by simp, by simp, h⟩

theorem completeRx_any {n : Nat} {s u : State} (h : completeRx n s = .ok u) : RxDoes s u (· = .rxWaitSync) := by
  obtain ⟨ts, d, -⟩ := completeRx_did h
  refine ⟨_, _, _, d, ?_, by simp, ?_, ?_⟩
  · unfold completeRxRegs
    split
    · exact .updated _ _
    · exact ⟨rfl, .inl rfl⟩
  · intro x hx
    unfold completeRxTxns qualityTxns at hx
    simp only [List.mem_append, List.mem_cons, List.not_mem_nil, or_false] at hx
    rcases hx with ((rfl | rfl) | hx) | hx
    · exact .of_plain .getRssi (by decide) rfl (by simp) (by simp)
    · exact .of_plain .getLqi (by decide) rfl (by simp) (by simp)
    · split at hx
      · exact .update _ _ x hx
      · simp at hx
    · exact .endRx x hx
  · unfold completeRxRegs; rfl

theorem abortRx_any {s u : State} (h : abortRx s = .ok u) : RxDoes s u (· = .rxWaitSync) :=
  ⟨_, _, _, abortRx_did h, ⟨rfl, .inl rfl⟩, by simp, ServiceTxn.endRx, rfl⟩

theorem rxPayload_any {avail : Nat} {s u : State} (h : rxPayload avail s = .ok u) :
    RxDoes s u (fun q => q = s.radioState ∨ q = .rxWaitSync) := by
  unfold rxPayload at h
  split at h
  · obtain rfl : _ = u := by simpa using h
    exact .nothing _ (.inl rfl)
  · simp only [bind_eq_ok] at h
    obtain ⟨v, h₁, h₂⟩ := h
    have d := drain_did h₁
    split at h₂
    · exact (completeRx_any h₂).after d rfl (ServiceTxn.burstRead _) fun q hq => .inr hq
    · obtain rfl : _ = u := by simpa using h₂
      exact (RxDoes.nothing v (ends := (· = s.radioState)) (d.field Regs.radioState)).after d rfl
        (ServiceTxn.burstRead _) fun q hq => .inl hq

theorem rxHeader_any {avail : Nat} {s u : State} (h : rxHeader avail s = .ok u) :
    RxDoes s u (fun q => q = s.radioState ∨ q = .rxPayload ∨ q = .rxWaitSync) := by
  simp only [rxHeader, bind_eq_ok] at h
  obtain ⟨v, h₁, h₂⟩ := h
  have d := drain_did h₁
  split at h₂
  · unfold rxHeaderDone at h₂
    simp only at h₂
    split at h₂
    · exact (abortRx_any h₂).after d rfl (ServiceTxn.burstRead _) fun q hq => .inr (.inr hq)
    · have e := Did.enterPayload v (totalLenOf v.cfg v.header)
      have k := (rxPayload_any h₂).after e rfl (by simp) (ends' := fun q => q = .rxPayload ∨ q = .rxWaitSync)
        fun q hq => hq
      exact k.after d rfl (ServiceTxn.burstRead _) fun q hq => .inr hq
  · obtain rfl : _ = u := by simpa using h₂
    exact (RxDoes.nothing v (ends := (· = s.radioState)) (d.field Regs.radioState)).after d rfl
      (ServiceTxn.burstRead _) fun q hq => .inl hq

/-- The receive service in any state it can run in. -/
theorem serviceRx_any {s u : State} (h : serviceRx s = .ok u) (rx : s.radioState.isRx = true) :
    RxDoes s u (Transition s.radioState .evIrq) := by
  simp only [serviceRx, bind_eq_ok] at h
  obtain ⟨⟨l, v⟩, h₁, h₂⟩ := h
  obtain ⟨-, d⟩ := busReadStatus_did h₁
  have lvl : ∀ c b, ServiceTxn c (.readStatus c.chip.aRxLevel b (guardOf c .getRxLvl)) := fun c b =>
    .of_plain .getRxLvl (by decide) rfl (by simp) (by simp)
  cases hs : s.radioState with
  | rxWaitSync =>
    have hi : s.isIdle = true := by simp [State.isIdle, hs]
    simp only [hi, if_true] at h₂ d
    have e : v.radioState = .rxHeader := d.field Regs.radioState
    simp only [e, if_true] at h₂
    have k := (rxHeader_any h₂).after d rfl (by intro y hy; rw [List.mem_singleton] at hy; subst hy; exact lvl _ _)
      (ends' := Transition .rxWaitSync .evIrq) (by
        rintro q (rfl | rfl | rfl)
        · rw [e]; exact .startRx
        · exact .startRxThrough
        · exact .keep _ _)
    exact k.after (Did.clearRx s .rxHeader) rfl (by simp) fun q hq => hq
  | rxHeader =>
    have hi : s.isIdle = false := by simp [State.isIdle, hs]
    simp only [hi, Bool.false_eq_true, if_false] at h₂ d
    have e : v.radioState = .rxHeader := by rw [show v.radioState = s.radioState from d.field Regs.radioState, hs]
    simp only [e, if_true] at h₂
    exact (rxHeader_any h₂).after d rfl (by intro y hy; rw [List.mem_singleton] at hy; subst hy; exact lvl _ _) (by
        rintro q (rfl | rfl | rfl)
        · rw [e]; exact .keep _ _
        · exact .headerDone
        · exact .headerEnds)
  | rxPayload =>
    have hi : s.isIdle = false := by simp [State.isIdle, hs]
    simp only [hi, Bool.false_eq_true, if_false] at h₂ d
    have e : v.radioState = .rxPayload := by rw [show v.radioState = s.radioState from d.field Regs.radioState, hs]
    simp only [e, if_true, reduceCtorEq, if_false] at h₂
    exact (rxPayload_any h₂).after d rfl (by intro y hy; rw [List.mem_singleton] at hy; subst hy; exact lvl _ _) (by
        rintro q (rfl | rfl)
        · rw [e]; exact .keep _ _
        · exact .payloadEnds)
  | txTransmit => simp [hs, RadioState.isRx, RadioState.isTx] at rx
  | txLastTransmit => simp [hs, RadioState.isRx, RadioState.isTx] at rx

end Sys2Proof.Machine
end

