-- ==== Sys2Proof/Laws/Exec.lean ====
section
/-! SUPPORT. What each kind of operation can do when `exec` answers a next state: it is declined and only marked, or it
ran, and then this is all that happened. -/

namespace Sys2Proof.Machine

open Sys2Proof.Config

theorem complete_did {r : Except Fault State} {s t : State} {regs : Regs} {x : List BusTxn} {a : List Bytes}
    {p : List FrameRecord} (h : complete r = .next t) (k : ∀ u, r = .ok u → Did s u regs x a p []) :
    Did s t regs x a p [.ok] := by
  obtain ⟨u, hu, -⟩ := complete_eq_next h
  obtain ⟨v, hv, d⟩ := complete_next hu (k u hu)
  rw [h] at hv
  obtain rfl : t = v := by simpa using hv
  exact d

/-- The operation was declined: only the mark and its outcome. -/
def Declined (s t : State) : Prop := ∃ o, t = s.markRefused o

section Admitted

variable {body : State → Host.Outcome State Fault Refusal} {s t : State}

theorem whenBusFree_cases (h : whenBusFree body s = .next t) :
    Declined s t ∨ (s.radioState = .rxWaitSync ∧ body s = .next t) := by
  by_cases hs : s.radioState = .rxWaitSync
  · rw [whenBusFree_idle hs] at h; exact .inr ⟨hs, h⟩
  · rw [whenBusFree_busy hs] at h; exact .inl ⟨_, by simpa using h.symm⟩

theorem whenInitialised_cases (h : whenInitialised body s = .next t) :
    Declined s t ∨ (s.irqEnabled = true ∧ body s = .next t) := by
  cases hs : s.irqEnabled
  · rw [whenInitialised_disabled hs] at h; exact .inl ⟨_, by simpa using h.symm⟩
  · rw [whenInitialised_enabled hs] at h; exact .inr ⟨rfl, h⟩

theorem whenIdle_cases (h : whenIdle body s = .next t) :
    Declined s t ∨ (s.radioState = .rxWaitSync ∧ body s = .next t) := by
  by_cases hs : s.radioState = .rxWaitSync
  · rw [whenIdle_idle hs] at h; exact .inr ⟨hs, h⟩
  · rw [whenIdle_busy hs] at h; exact .inl ⟨_, by simpa using h.symm⟩

theorem whenInBand_cases {f : Rat} (h : whenInBand f body s = .next t) :
    Declined s t ∨ (inBands s.cfg f = true ∧ body s = .next t) := by
  cases hs : inBands s.cfg f
  · rw [whenInBand_outside hs] at h; exact .inl ⟨_, by simpa using h.symm⟩
  · rw [whenInBand_inside hs] at h; exact .inr ⟨rfl, h⟩

end Admitted

/-! ## Register Driver operations and the filter update -/

/-- Only the configuration, the applied offset and the window may differ. -/
structure DriverOnly (i : Instr) (r q : Regs) : Prop where
  rest : q = { r with
    config := q.config, appliedOffset := q.appliedOffset, window := q.window, winIdx := q.winIdx }
  offset : q.appliedOffset ≠ r.appliedOffset → (i.calibrates = true ∧ q.appliedOffset = 0) ∨ i = .updFreqOffset
  idx : q.winIdx ≠ r.winIdx → i = .updFreqOffset ∧ q.winIdx = r.winIdx + 1

theorem DriverOnly.same {i : Instr} (r : Regs) : DriverOnly i r r :=
  ⟨rfl, fun h => absurd rfl h, fun h => absurd rfl h⟩

/-- The operation ran and changed driver registers only. -/
def DriverDoes (i : Instr) (s t : State) : Prop :=
  ∃ regs x a, Did s t regs x a [] [.ok] ∧ DriverOnly i s.regs regs

theorem DriverDoes.of_did {i : Instr} {s t : State} {r : Except Fault State} (h : complete r = .next t)
    (k : ∀ u, r = .ok u → ∃ regs x a, Did s u regs x a [] [] ∧ DriverOnly i s.regs regs) : DriverDoes i s t := by
  obtain ⟨u, hu, -⟩ := complete_eq_next h
  obtain ⟨regs, x, a, d, o⟩ := k u hu
  refine ⟨regs, x, a, complete_did h (fun v hv => ?_), o⟩
  rw [hu] at hv
  obtain rfl : u = v := by simpa using hv
  exact d

theorem DriverDoes.of_same {i : Instr} {s t : State} {r : Except Fault State} {x : List BusTxn}
    (h : complete r = .next t) (k : ∀ u, r = .ok u → Did s u s.regs x [] [] []) : DriverDoes i s t :=
  .of_did h fun u hu => ⟨_, _, _, k u hu, .same _⟩

theorem DriverDoes.of_answer {α : Type} {i : Instr} {s t : State} {f : α → Bytes} {r : Except Fault (α × State)}
    (h : complete (answering f r) = .next t)
    (k : ∀ v u, r = .ok (v, u) → ∃ x, Did s u s.regs x [] [] []) : DriverDoes i s t :=
  .of_did h fun u hu => by
    obtain ⟨v, w, hw, rfl⟩ := answering_eq_ok.1 hu
    obtain ⟨x, d⟩ := k v w hw
    exact ⟨_, _, _, d.andThen (Did.respond w (f v)) id, .same _⟩

theorem setFreq_does {i : Instr} {f : Rat} {s t : State} (hi : i.calibrates = true)
    (h : complete (drvSetFreq f s) = .next t) : DriverDoes i s t :=
  .of_did h fun _ hu => by
    obtain ⟨n, -, d⟩ := drvSetFreq_did hu
    exact ⟨_, _, _, d, rfl, fun _ => .inl ⟨hi, rfl⟩, fun e => absurd rfl e⟩

theorem setBw_does {i : Instr} {x : Rat} {s t : State} (h : complete (drvSetBw x s) = .next t) : DriverDoes i s t :=
  .of_did h fun _ hu => ⟨_, _, _, drvSetBw_did hu, rfl, fun e => absurd rfl e, fun e => absurd rfl e⟩

/-- Every Register Driver operation and the filter update. -/
theorem exec_driver {i : Instr} {s t : State} (hi : i.isDriver = true) (h : exec i s = .next t) :
    Declined s t ∨ (s.radioState = .rxWaitSync ∧ DriverDoes i s t) := by
  have bus : ∀ {body : State → Host.Outcome State Fault Refusal}, whenBusFree body s = .next t →
      (body s = .next t → DriverDoes i s t) → Declined s t ∨ (s.radioState = .rxWaitSync ∧ DriverDoes i s t) :=
    fun h k => (whenBusFree_cases h).imp_right fun g => ⟨g.1, k g.2⟩
  cases i <;> simp only [Instr.isDriver, Bool.false_eq_true] at hi <;> simp only [exec] at h
  case drvReset => exact bus h fun g => .of_same g fun _ hu => (drvReset_did hu).1
  case wrReg => exact bus h fun g => .of_same g fun _ => busWrite_did
  case wrBurst => exact bus h fun g => .of_same g fun _ => busWriteBurst_did
  case strobe => exact bus h fun g => .of_same g fun _ => busStrobe_did
  case rdReg => exact bus h fun g => .of_answer g fun _ _ hu => ⟨_, (busRead_did hu).2⟩
  case rdBurst => exact bus h fun g => .of_answer g fun _ _ hu => ⟨_, (busReadBurst_did hu).2⟩
  case rdStatus => exact bus h fun g => .of_answer g fun _ _ hu => ⟨_, (busReadStatus_did hu).2⟩
  case setFreq =>
    rcases whenBusFree_cases h with g | ⟨g, k⟩
    · exact .inl g
    · exact (whenInBand_cases k).imp_right fun e => ⟨g, setFreq_does rfl e.2⟩
  case calibrate =>
    exact bus h fun g => .of_did g fun _ hu => by
      obtain ⟨n, -, d⟩ := drvCalibrate_did hu
      exact ⟨_, _, _, d, rfl, fun _ => .inl ⟨rfl, rfl⟩, fun e => absurd rfl e⟩
  case setBw => exact bus h setBw_does
  case setBitrate =>
    exact bus h fun g => .of_did g fun _ hu =>
      ⟨_, _, _, drvSetBitrate_did hu, rfl, fun e => absurd rfl e, fun e => absurd rfl e⟩
  case setDev =>
    exact bus h fun g => .of_did g fun _ hu =>
      ⟨_, _, _, drvSetDev_did hu, rfl, fun e => absurd rfl e, fun e => absurd rfl e⟩
  case getRssi => exact bus h fun g => .of_answer g fun _ _ hu => ⟨_, (busReadStatus_did hu).2⟩
  case getLqi => exact bus h fun g => .of_answer g fun _ _ hu => ⟨_, (busReadStatus_did hu).2⟩
  case lowPower => exact bus h fun g => .of_same g fun _ => busStrobe_did
  case activePower =>
    exact bus h fun g => .of_did g fun _ hu => by
      obtain ⟨n, -, d⟩ := drvActivePower_did hu
      exact ⟨_, _, _, d, rfl, fun _ => .inl ⟨rfl, rfl⟩, fun e => absurd rfl e⟩
  case isConnected => exact bus h fun g => .of_answer g fun _ _ hu => ⟨_, (busReadStatus_did hu).2⟩
  case rdRxFifo => exact bus h fun g => .of_answer g fun _ _ hu => ⟨_, (busReadBurst_did hu).2⟩
  case wrTxFifo => exact bus h fun g => .of_same g fun _ => busWrite_did
  case wrTxFifoBurst => exact bus h fun g => .of_same g fun _ => busWriteBurst_did
  case flushRx => exact bus h fun g => .of_same g fun _ => busStrobe_did
  case flushTx => exact bus h fun g => .of_same g fun _ => busStrobe_did
  case getRxLvl => exact bus h fun g => .of_answer g fun _ _ hu => ⟨_, (busReadStatus_did hu).2⟩
  case getTxLvl => exact bus h fun g => .of_answer g fun _ _ hu => ⟨_, (busReadStatus_did hu).2⟩
  case setFifoThr =>
    exact bus h fun g => .of_did g fun _ hu =>
      ⟨_, _, _, drvSetFifoThr_did hu, rfl, fun e => absurd rfl e, fun e => absurd rfl e⟩
  case irqRxThr => exact bus h fun g => .of_same g fun _ => busWrite_did
  case irqTxThr => exact bus h fun g => .of_same g fun _ => busWrite_did
  case irqTxUnf => exact bus h fun g => .of_same g fun _ => busWrite_did
  case updFreqOffset =>
    exact bus h fun g => .of_did g fun _ hu => by
      refine ⟨_, _, _, drvUpdFreqOffset_did hu, ?_, fun _ => .inr rfl, fun e => ⟨rfl, ?_⟩⟩
      · rw [Regs.updated_eq]; split <;> rfl
      · rw [Regs.updated_eq]; split <;> rfl

/-! ## Host commands -/

theorem exec_init {off : Word32} {s t : State} (h : exec (.init off) s = .next t) :
    Declined s t ∨
      (s.answerAt 0 = 0 ∧ Did s t { s.regs with
        irqEnabled := false, timerArmed := false, rxCount := 0, rxTotal := none, radioState := .rxWaitSync }
        [.reset, presenceTxn s.cfg 0] [[0]] [] [.ok]) ∨
      (s.answerAt 0 ≠ 0 ∧ ∃ n, Did s t { s.regs with
        irqEnabled := true, timerArmed := false, rxCount := 0, rxTotal := none, radioState := .rxWaitSync
        appliedOffset := 0, config := initConfig s.cfg (s.cfg.fCarrier + mhzOfI32 off) }
        (initTxns s (s.cfg.fCarrier + mhzOfI32 off) n) [[1]] [] [.ok]) := by
  simp only [exec] at h
  rcases whenInBand_cases h with g | ⟨-, g⟩
  · exact .inl g
  · obtain ⟨u, hu, -⟩ := complete_eq_next g
    by_cases ha : s.answerAt 0 = 0
    · exact .inr (.inl ⟨ha, complete_did g fun v hv => initChip_absent hv ha⟩)
    · obtain ⟨n, -, d⟩ := initChip_present hu ha
      refine .inr (.inr ⟨ha, n, complete_did g fun v hv => ?_⟩)
      rw [hu] at hv
      obtain rfl : u = v := by simpa using hv
      exact d

/-- A submission whose frames leave the slot table as `slots`. -/
theorem submit_cases {s u t : State} {slots : SlotTable} (e : u = { s with slots := slots })
    (h : complete (schedule u) = .next t) :
    (∃ j d, s.radioState = .rxWaitSync ∧ nextSlot s.cfg slots = some j ∧
      Did s t (Regs.started { s.regs with slots := slots } s.cfg j d) (startTxTxns s.cfg slots[j].frame) [] []
        [.ok]) ∨
    Did s t { s.regs with slots := slots } [] [] [] [.ok] := by
  have d₀ : Did s u { s.regs with slots := slots } [] [] [] [] := by
    subst e; exact .of_pure rfl rfl rfl rfl rfl rfl rfl rfl rfl
  obtain ⟨v, hv, -⟩ := complete_eq_next h
  have hu : ∀ w, schedule u = .ok w → w = v := fun w hw => by rw [hv] at hw; simpa using hw.symm
  have hr : u.radioState = s.radioState := by rw [e]
  have hc : u.cfg = s.cfg := by rw [e]
  have hsl : u.slots = slots := by rw [e]
  obtain ⟨k₁, k₂⟩ := schedule_did hv
  cases hn : nextSlot s.cfg slots with
  | none =>
    refine .inr (complete_did h fun w hw => ?_)
    rw [hu w hw, k₂ (.inr (by rw [hc, hsl, hn]))]
    exact d₀
  | some j =>
    by_cases hs : s.radioState = .rxWaitSync
    · have d := k₁ (hr.trans hs) j (by rw [hc, hsl, hn])
      refine .inl ⟨j, v.now + BitVec.ofNat 32 s.cfg.turnaroundUs, hs, rfl, complete_did h fun w hw => ?_⟩
      rw [hu w hw]
      have := d₀.trans d id
      rw [hc, hsl, d₀.regs_eq] at this
      exact this
    · refine .inr (complete_did h fun w hw => ?_)
      rw [hu w hw, k₂ (.inl (by rw [hr]; exact hs))]
      exact d₀

theorem exec_transmit {frame : Bytes} {s t : State} (h : exec (.transmit frame) s = .next t) :
    Declined s t ∨ (s.irqEnabled = true ∧
      ((∃ j d, s.radioState = .rxWaitSync ∧ nextSlot s.cfg (accept s.cfg s.slots frame) = some j ∧
        Did s t (Regs.started { s.regs with slots := accept s.cfg s.slots frame } s.cfg j d)
          (startTxTxns s.cfg (accept s.cfg s.slots frame)[j].frame) [] [] [.ok]) ∨
      Did s t { s.regs with slots := accept s.cfg s.slots frame } [] [] [] [.ok])) := by
  simp only [exec] at h
  exact (whenInitialised_cases h).imp_right fun g => ⟨g.1, submit_cases (State.enqueue_eq s frame) g.2⟩

theorem exec_transmitList {frames : List Bytes} {s t : State} (h : exec (.transmitList frames) s = .next t) :
    Declined s t ∨ (s.irqEnabled = true ∧
      ((∃ j d, s.radioState = .rxWaitSync ∧ nextSlot s.cfg (frames.foldl (accept s.cfg) s.slots) = some j ∧
        Did s t (Regs.started { s.regs with slots := frames.foldl (accept s.cfg) s.slots } s.cfg j d)
          (startTxTxns s.cfg (frames.foldl (accept s.cfg) s.slots)[j].frame) [] [] [.ok]) ∨
      Did s t { s.regs with slots := frames.foldl (accept s.cfg) s.slots } [] [] [] [.ok])) := by
  simp only [exec] at h
  exact (whenInitialised_cases h).imp_right fun g => ⟨g.1, submit_cases (State.enqueueAll_eq frames s) g.2⟩

theorem exec_restartRx {s t : State} (h : exec .restartRx s = .next t) :
    Declined s t ∨ Did s t { s.regs with
        timerArmed := false, rxCount := 0, rxTotal := none, radioState := .rxWaitSync }
      ([.strobe s.cfg.chip.sFlushRx (guardOf s.cfg .flushRx), .strobe s.cfg.chip.sFlushTx (guardOf s.cfg .flushTx)] ++
        armRxTxns s.cfg) [] [] [.ok] := by
  simp only [exec] at h
  exact (whenInitialised_cases h).imp_right fun g => complete_did g.2 fun u hu => restart_did hu

/-- `SET_FREQ_OFFSET`, `SM_SET_FREQ` and `SM_SET_BW`. -/
theorem exec_reconfigure {i : Instr} {v : Word32} {s t : State}
    (hi : i = .setFreqOffset v ∨ i = .smSetFreq v ∨ i = .smSetBw v) (h : exec i s = .next t) :
    Declined s t ∨ (s.radioState = .rxWaitSync ∧ DriverDoes i s t) := by
  rcases hi with rfl | rfl | rfl <;> simp only [exec] at h
  all_goals
    rcases whenInitialised_cases h with g | ⟨-, g⟩
    · exact .inl g
    · rcases whenIdle_cases g with g | ⟨e, g⟩
      · exact .inl g
      · first
          | exact (whenInBand_cases g).imp_right fun k => ⟨e, setFreq_does rfl k.2⟩
          | exact .inr ⟨e, setBw_does g⟩

theorem exec_trackEnable {id : Bytes} {s t : State} (h : exec (.trackEnable id) s = .next t) :
    Declined s t ∨ t = (s.enableTracking id).markOk := by
  simp only [exec] at h
  exact (whenInitialised_cases h).imp_right fun g => by simpa using g.2.symm

theorem exec_trackDisable {s t : State} (h : exec .trackDisable s = .next t) :
    Declined s t ∨ t = s.disableTracking.markOk := by
  simp only [exec] at h
  exact (whenInitialised_cases h).imp_right fun g => by simpa using g.2.symm

/-! ## The two events -/

theorem Did.enterService (s : State) :
    Did s (s.enterService .irq) { s.regs with irqPending := false } [] [] [] [] :=
  .of_pure rfl rfl rfl rfl rfl rfl rfl rfl rfl

theorem serviceIrq_rx {s : State} (hi : s.irqEnabled = true) (rx : s.radioState.isRx = true) :
    serviceIrq s = serviceRx s := by
  simp only [serviceIrq, hi, if_true]
  cases h : s.radioState <;> simp_all [RadioState.isRx, RadioState.isTx]

/-- The five things the interrupt service can be. -/
theorem exec_evIrq {s t : State} (h : exec .evIrq s = .next t) :
    (s.irqEnabled = false ∧ Did s t { s.regs with irqPending := false } [] [] [] [.ok]) ∨
    (s.irqEnabled = true ∧ s.radioState.isRx = true ∧ ∃ regs x p,
      Did s t regs x [] p [.ok] ∧ RxOnly { s.regs with irqPending := false } regs ∧ p.length ≤ 1 ∧
      (∀ y ∈ x, ServiceTxn s.cfg y) ∧ Transition s.radioState .evIrq regs.radioState) ∨
    (s.irqEnabled = true ∧ s.radioState = .txTransmit ∧
      Did s t { feedRegs s s.answer.toNat with irqPending := false } (feedTxns s s.answer.toNat) [] [] [.ok]) ∨
    (s.irqEnabled = true ∧ s.radioState = .txLastTransmit ∧
      let slots := s.slots.set s.cursor { s.slots[s.cursor] with inUse := false }
      (∃ j d, nextSlot s.cfg slots = some j ∧
        Did s t (Regs.started { s.regs with irqPending := false, slots := slots } s.cfg j d)
          (startTxTxns s.cfg slots[j].frame) [] [] [.ok]) ∨
      (nextSlot s.cfg slots = none ∧
        Did s t { s.regs with
          irqPending := false, slots := slots, timerArmed := false, rxCount := 0, rxTotal := none
          radioState := .rxWaitSync } (armRxTxns s.cfg) [] [] [.ok])) := by
  have h : complete (serviceIrq (s.enterService .irq)) = .next t := h
  have e := Did.enterService s
  cases hi : s.irqEnabled with
  | false =>
    refine .inl ⟨rfl, complete_did h fun u hu => ?_⟩
    have : (s.enterService .irq).irqEnabled = false := hi
    simp only [serviceIrq, this, Bool.false_eq_true, if_false] at hu
    obtain rfl : _ = u := by simpa using hu
    exact e
  | true =>
    have hi' : (s.enterService .irq).irqEnabled = true := hi
    refine .inr ?_
    by_cases rx : s.radioState.isRx = true
    · refine .inl ⟨rfl, rx, ?_⟩
      rw [serviceIrq_rx hi' rx] at h
      obtain ⟨u, hu, -⟩ := complete_eq_next h
      obtain ⟨regs, x, p, d, ho, hp, hx, ht⟩ := serviceRx_any hu rx
      refine ⟨regs, x, p, complete_did h fun v hv => ?_, ho, hp, hx, ht⟩
      rw [hu] at hv
      obtain rfl : u = v := by simpa using hv
      simpa using e.trans d id
    · cases hs : s.radioState with
      | rxWaitSync => rw [hs] at rx; exact absurd rfl rx
      | rxHeader => rw [hs] at rx; exact absurd rfl rx
      | rxPayload => rw [hs] at rx; exact absurd rfl rx
      | txTransmit =>
        refine .inr (.inl ⟨rfl, rfl, complete_did h fun u hu => ?_⟩)
        have hs' : (s.enterService .irq).radioState = .txTransmit := hs
        simp only [serviceIrq, hi', if_true, hs'] at hu
        have k := e.trans (serviceTxFeed_did hu) id
        have hf : ∀ lvl, feedRegs (s.enterService .irq) lvl = { feedRegs s lvl with irqPending := false } := by
          intro lvl
          unfold feedRegs
          dsimp only
          split
          · next c => rw [if_pos (by exact c)]; rfl
          · next c => rw [if_neg (by exact c)]; rfl
        rw [hf] at k
        exact k
      | txLastTransmit =>
        refine .inr (.inr ⟨rfl, rfl, ?_⟩)
        intro slots
        have hs' : (s.enterService .irq).radioState = .txLastTransmit := hs
        have k := e.trans (Did.releaseActive _) id
        cases hn : nextSlot s.cfg slots with
        | none =>
          refine .inr ⟨rfl, complete_did h fun u hu => ?_⟩
          simp only [serviceIrq, hi', if_true, hs', serviceTxDone] at hu
          have hn' : nextSlot (s.enterService .irq).releaseActive.cfg (s.enterService .irq).releaseActive.slots = none :=
            hn
          rw [hn'] at hu
          exact k.trans (armRx_did hu) id
        | some j =>
          obtain ⟨u, hu, -⟩ := complete_eq_next h
          refine .inl ⟨j, u.now + BitVec.ofNat 32 s.cfg.turnaroundUs, rfl, complete_did h fun v hv => ?_⟩
          rw [hu] at hv
          obtain rfl : u = v := by simpa using hv
          simp only [serviceIrq, hi', if_true, hs', serviceTxDone] at hu
          have hn' : nextSlot (s.enterService .irq).releaseActive.cfg (s.enterService .irq).releaseActive.slots =
            some j := hn
          rw [hn'] at hu
          exact k.trans (startTx_did hu) id

theorem serviceTimer_tx {s : State} (ha : s.timerArmed = true) (h : s.radioState.isTx = true) :
    serviceTimer s = strobeTx s.disarmTimer := by
  simp only [serviceTimer, ha, if_true]
  cases hs : s.radioState <;> simp_all [RadioState.isTx]

theorem serviceTimer_rx {s : State} (ha : s.timerArmed = true) (h : s.radioState.isTx = false) :
    serviceTimer s = .ok s.disarmTimer := by
  simp only [serviceTimer, ha, if_true]
  cases hs : s.radioState <;> simp_all [RadioState.isTx]

/-- The timer service: at most the transmit strobe. -/
theorem exec_evTimer {s t : State} (h : exec .evTimer s = .next t) :
    (s.radioState.isTx = true ∧ s.timerArmed = true ∧
      Did { s with timerPending := false } t { s.regs with timerArmed := false }
        [.strobe s.cfg.chip.sTx (guardOf s.cfg .strobe)] [] [] [.ok]) ∨
    Did { s with timerPending := false } t { s.regs with timerArmed := false } [] [] [] [.ok] := by
  have h : complete (serviceTimer (s.enterService .timer)) = .next t := h
  have e : Did { s with timerPending := false } (s.enterService .timer) s.regs [] [] [] [] := Did.refl _
  have k := e.trans (Did.disarmTimer _) id
  by_cases ha : s.timerArmed = true
  · have ha' : (s.enterService .timer).timerArmed = true := ha
    by_cases hs : s.radioState.isTx = true
    · refine .inl ⟨hs, ha, complete_did h fun u hu => ?_⟩
      rw [serviceTimer_tx ha' hs] at hu
      exact k.trans (strobeTx_did hu) (by simp)
    · refine .inr (complete_did h fun u hu => ?_)
      rw [serviceTimer_rx ha' (by simpa using hs)] at hu
      obtain rfl : _ = u := by simpa using hu
      exact k
  · refine .inr (complete_did h fun u hu => ?_)
    have ha' : s.timerArmed = false := by simpa using ha
    have hb : (s.enterService .timer).timerArmed = false := ha'
    simp only [serviceTimer, hb, Bool.false_eq_true, if_false] at hu
    obtain rfl : _ = u := by simpa using hu
    have : ({ s.regs with timerArmed := false } : Regs) = s.regs := by rw [← ha']; rfl
    rw [this]; exact e

end Sys2Proof.Machine
end

