-- ==== Sys2Proof/Laws/Operands.lean ====
section
/-! SUPPORT. The operand functions, each by what it says: the subtraction loop of the frequency words
(40_register_driver.md R120), clamping, and the bytes of signed numbers. -/

namespace Sys2Proof.Machine

open Sys2Proof.Config

/-! ## The subtraction loop -/

/-- `while r >= step: r <- r - step; n <- n + 1` (40_register_driver.md R120), at most `fuel` times: the counter and the
remainder. -/
def subtractLoop : Nat → Rat → Rat → Nat × Rat
  | 0, r, _ => (0, r)
  | fuel + 1, r, step =>
    if step ≤ r then ((subtractLoop fuel (r - step) step).1 + 1, (subtractLoop fuel (r - step) step).2) else (0, r)

theorem stepsIn_floor {r step : Rat} (hs : 0 < step) (hr : 0 ≤ r) : ((stepsIn r step : Nat) : Int) = ⌊r / step⌋ := by
  have h : 0 ≤ ⌊r / step⌋ := Int.floor_nonneg.2 (div_nonneg hr hs.le)
  show (((r / step).floor.toNat : Nat) : Int) = _
  exact Int.toNat_of_nonneg h

/-- The counter leaves a remainder of at least 0 and less than one step. -/
theorem stepsIn_remainder {r step : Rat} (hs : 0 < step) (hr : 0 ≤ r) :
    0 ≤ r - stepsIn r step * step ∧ r - stepsIn r step * step < step := by
  have h := stepsIn_floor hs hr
  have a := Int.floor_le (r / step)
  have b := Int.lt_floor_add_one (r / step)
  rw [← h] at a b
  rw [le_div_iff₀ hs] at a
  rw [div_lt_iff₀ hs] at b
  push_cast at a b
  constructor <;> linarith

theorem stepsIn_eq_zero {r step : Rat} (hs : 0 < step) (hr : 0 ≤ r) (h : r < step) : stepsIn r step = 0 := by
  have k := stepsIn_floor hs hr
  have z : ⌊r / step⌋ = 0 := by
    rw [Int.floor_eq_iff]
    exact ⟨by push_cast; exact div_nonneg hr hs.le, by push_cast; rw [div_lt_iff₀ hs]; linarith⟩
  rw [z] at k
  exact_mod_cast k

theorem stepsIn_succ {r step : Rat} (hs : 0 < step) (h : step ≤ r) : stepsIn r step = stepsIn (r - step) step + 1 := by
  have k := stepsIn_floor hs (le_trans hs.le h)
  have k' := stepsIn_floor hs (sub_nonneg.2 h)
  have e : (r - step) / step = r / step - 1 := by field_simp
  rw [e, Int.floor_sub_one] at k'
  omega

/-- The closed form is the loop, whenever the fuel is at least the counter. -/
theorem stepsIn_loop : ∀ (fuel : Nat) (r step : Rat), 0 < step → 0 ≤ r → stepsIn r step ≤ fuel →
    subtractLoop fuel r step = (stepsIn r step, r - stepsIn r step * step)
  | 0, r, step, _, _, h => by simp [subtractLoop, Nat.le_zero.1 h]
  | fuel + 1, r, step, hs, hr, h => by
    unfold subtractLoop
    split
    · next g =>
      have e := stepsIn_succ hs g
      rw [stepsIn_loop fuel (r - step) step hs (sub_nonneg.2 g) (by omega), e]
      push_cast
      ext
      · rfl
      · show r - step - _ = r - _
        ring
    · next g => rw [stepsIn_eq_zero hs hr (not_le.1 g)]; simp

/-! ## Signed numbers -/

theorem clampInt_bounds {x lo hi : Int} (h : lo ≤ hi) : lo ≤ clampInt x lo hi ∧ clampInt x lo hi ≤ hi := by
  unfold clampInt
  split_ifs <;> omega

/-- A signed byte comes back from its byte. -/
theorem asI8_asU8 {x : Int} (h₁ : -128 ≤ x) (h₂ : x ≤ 127) : asI8 (asU8 x) = x := by
  unfold asI8 asU8
  rw [BitVec.toInt_ofInt]
  simp [Int.bmod]
  omega

theorem asI8_bounds (b : Byte) : -128 ≤ asI8 b ∧ asI8 b ≤ 127 := by
  have h₁ := BitVec.le_toInt b
  have h₂ := BitVec.toInt_lt (x := b)
  unfold asI8
  norm_num at h₁ h₂
  omega

/-! ## Tables, slots, codes -/

theorem lookup_map_self {α β : Type} [BEq α] [LawfulBEq α] (f : α → β) :
    ∀ (l : List α) (a : α), a ∈ l → (l.map fun x => (x, f x)).lookup a = some (f a)
  | x :: rest, a, h => by
    by_cases e : a = x
    · simp [e]
    · have m : a ∈ rest := (List.mem_cons.1 h).resolve_left e
      have b : (a == x) = false := beq_eq_false_iff_ne.2 e
      simp only [List.map_cons, List.lookup_cons, b]
      exact lookup_map_self f rest a m

/-- The table of a function of one byte is that function. -/
theorem applyTab_tabOfByte {β : Type} (f : Byte → β) (v : Byte) : applyTab (tabOfByte f) v = f v := by
  have h : (tabOfByte f).entries = ((List.range 256).map (BitVec.ofNat 8)).map fun b => (b, f b) := by
    simp [tabOfByte, Function.comp_def]
  have m : v ∈ (List.range 256).map (BitVec.ofNat 8) :=
    List.mem_map.2 ⟨v.toNat, List.mem_range.2 v.isLt, by simp⟩
  rw [applyTab, h, lookup_map_self f _ v m]
  rfl

/-- With no preference but index 0 the lowest index is chosen (00_scope.md R7). -/
theorem selectSlot_lowestFirst (p : Slot → Bool) (slots : SlotTable) :
    selectSlot p lowestFirst slots = lowestSlot p slots := by
  show (if p slots[(0 : Fin 16)] then some 0 else lowestSlot p slots) = _
  split
  · next h => rw [lowestSlot, List.finRange_succ, List.find?_cons, h]
  · rfl

/-- 30_encoding.md R94: the code tells the state. -/
theorem RadioState.ofCode_code (r : RadioState) : RadioState.ofCode r.code = some r := by cases r <;> rfl

end Sys2Proof.Machine
end

