-- ==== Sys2Proof/Laws/PerInstr.lean ====
section
/-! SUPPORT. The family of statements made of every operation, one lemma per constructor: a word tells its own length.
`WordLength`: whatever bytes follow, the opcode and the length bytes of a well-formed operation's word give the length of
that word (30_encoding.md R90, R91), so no word is the beginning of another. -/

namespace Sys2Proof.Laws.WordLength

/-- The word of `i` tells its length, whatever follows it. -/
def Statement (i : Instr) : Prop :=
  ∀ (netidBytes : Nat) (rest : Bytes), i.wellFormed netidBytes = true →
    wordLength netidBytes (encode i ++ rest) = (encode i).length

/-- Where the items of a list end is told by their length bytes. -/
theorem itemsEnd_encode : ∀ (frames : List Bytes) (done rest : Bytes), (∀ f ∈ frames, f.length ≤ 255) →
    itemsEnd (done ++ (frames.flatMap lengthPrefixed ++ rest)) frames.length done.length =
      done.length + (frames.flatMap lengthPrefixed).length
  | [], done, rest, _ => by simp [itemsEnd]
  | f :: fs, done, rest, h => by
    have hf := lengthByte_toNat (h f List.mem_cons_self)
    have ih := itemsEnd_encode fs (done ++ lengthPrefixed f) rest fun g hg => h g (List.mem_cons_of_mem _ hg)
    have hb : byteAt (done ++ ((f :: fs).flatMap lengthPrefixed ++ rest)) done.length = lengthByte f.length := by
      simp [byteAt, lengthPrefixed]
    have hl : (done ++ lengthPrefixed f).length = done.length + 1 + f.length := by simp [lengthPrefixed]; omega
    simp only [List.length_cons, itemsEnd, hb, hf]
    rw [hl] at ih
    have e : done ++ ((f :: fs).flatMap lengthPrefixed ++ rest) =
        (done ++ lengthPrefixed f) ++ (fs.flatMap lengthPrefixed ++ rest) := by simp
    rw [e, ih]
    simp [lengthPrefixed]
    omega

theorem init (off : Word32) : Statement (.init off) := fun _ _ _ => rfl

theorem transmit (frame : Bytes) : Statement (.transmit frame) := by
  intro n rest h
  simp only [Instr.wellFormed, fitsLengthByte, decide_eq_true_eq] at h
  simp [encode, lengthPrefixed, wordLength, byteAt, lengthByte_toNat h]
  omega

theorem transmitList (frames : List Bytes) : Statement (.transmitList frames) := by
  intro n rest h
  simp only [Instr.wellFormed, fitsLengthByte, Bool.and_eq_true, List.all_eq_true, decide_eq_true_eq] at h
  have k := itemsEnd_encode frames [0x03, lengthByte frames.length] rest h.2
  have e : wordLength n (encode (.transmitList frames) ++ rest) =
      itemsEnd (encode (.transmitList frames) ++ rest) (lengthByte frames.length).toNat 2 := rfl
  rw [e, lengthByte_toNat h.1]
  refine k.trans ?_
  simp [encode]
  omega

theorem restartRx : Statement (.restartRx) := fun _ _ _ => rfl

theorem setFreqOffset (off : Word32) : Statement (.setFreqOffset off) := fun _ _ _ => rfl

theorem smSetFreq (f : Word32) : Statement (.smSetFreq f) := fun _ _ _ => rfl

theorem smSetBw (x : Word32) : Statement (.smSetBw x) := fun _ _ _ => rfl

theorem trackEnable (id : Bytes) : Statement (.trackEnable id) := by
  intro n rest h
  simp only [Instr.wellFormed, decide_eq_true_eq] at h
  simp [encode, wordLength, byteAt, h]
  omega

theorem trackDisable : Statement (.trackDisable) := fun _ _ _ => rfl

theorem drvReset : Statement (.drvReset) := fun _ _ _ => rfl

theorem wrReg (addr value : Byte) (guard : Word16) : Statement (.wrReg addr value guard) := fun _ _ _ => rfl

theorem wrBurst (addr : Byte) (guard : Word16) (data : Bytes) : Statement (.wrBurst addr guard data) := by
  intro n rest h
  simp only [Instr.wellFormed, fitsLengthByte, decide_eq_true_eq] at h
  simp [encode, lengthPrefixed, le16, wordLength, byteAt, lengthByte_toNat h]
  omega

theorem strobe (cmd : Byte) (guard : Word16) : Statement (.strobe cmd guard) := fun _ _ _ => rfl

theorem rdReg (addr : Byte) : Statement (.rdReg addr) := fun _ _ _ => rfl

theorem rdBurst (addr n : Byte) : Statement (.rdBurst addr n) := fun _ _ _ => rfl

theorem rdStatus (addr : Byte) : Statement (.rdStatus addr) := fun _ _ _ => rfl

theorem setFreq (f : Word32) : Statement (.setFreq f) := fun _ _ _ => rfl

theorem calibrate : Statement (.calibrate) := fun _ _ _ => rfl

theorem setBw (x : Word32) : Statement (.setBw x) := fun _ _ _ => rfl

theorem setBitrate (x : Word32) : Statement (.setBitrate x) := fun _ _ _ => rfl

theorem setDev (x : Word32) : Statement (.setDev x) := fun _ _ _ => rfl

theorem getRssi : Statement (.getRssi) := fun _ _ _ => rfl

theorem getLqi : Statement (.getLqi) := fun _ _ _ => rfl

theorem lowPower : Statement (.lowPower) := fun _ _ _ => rfl

theorem activePower : Statement (.activePower) := fun _ _ _ => rfl

theorem isConnected : Statement (.isConnected) := fun _ _ _ => rfl

theorem rdRxFifo (n : Byte) : Statement (.rdRxFifo n) := fun _ _ _ => rfl

theorem wrTxFifo (b : Byte) : Statement (.wrTxFifo b) := fun _ _ _ => rfl

theorem wrTxFifoBurst (data : Bytes) : Statement (.wrTxFifoBurst data) := by
  intro n rest h
  simp only [Instr.wellFormed, fitsLengthByte, decide_eq_true_eq] at h
  simp [encode, lengthPrefixed, wordLength, byteAt, lengthByte_toNat h]
  omega

theorem flushRx : Statement (.flushRx) := fun _ _ _ => rfl

theorem flushTx : Statement (.flushTx) := fun _ _ _ => rfl

theorem getRxLvl : Statement (.getRxLvl) := fun _ _ _ => rfl

theorem getTxLvl : Statement (.getTxLvl) := fun _ _ _ => rfl

theorem setFifoThr (level : Byte) : Statement (.setFifoThr level) := fun _ _ _ => rfl

theorem irqRxThr : Statement (.irqRxThr) := fun _ _ _ => rfl

theorem irqTxThr : Statement (.irqTxThr) := fun _ _ _ => rfl

theorem irqTxUnf : Statement (.irqTxUnf) := fun _ _ _ => rfl

theorem updFreqOffset : Statement (.updFreqOffset) := fun _ _ _ => rfl

theorem evIrq : Statement (.evIrq) := fun _ _ _ => rfl

theorem evTimer : Statement (.evTimer) := fun _ _ _ => rfl

end Sys2Proof.Laws.WordLength
end

