-- ==== Sys2Proof/Tests/Slice0.lean ====
section
/-! SUPPORT. Tests of the model, small and by the kernel: ill-formed operations refused, a word of every operation decoded,
at most two one-step tests per operation (expected values from 95_test_vectors.md, configuration X1), and for every
obligation with hypotheses a witness that meets them. -/

namespace Sys2Proof.Tests

-- One theorem after another: the kernel evaluations below wait for each other, and would each hold a thread meanwhile.
set_option Elab.async false

open Sys2Proof.Config Sys2Proof.Machine

/-! ## Well-formedness: each check refuses an ill-formed term, and accepts its bound -/

theorem test_wellFormed_transmit_too_long : (Instr.transmit (List.replicate 256 0)).wellFormed 1 = false := by
  decide +kernel

theorem test_wellFormed_transmit_longest : (Instr.transmit (List.replicate 255 0)).wellFormed 1 = true := by
  decide +kernel

theorem test_wellFormed_list_too_many : (Instr.transmitList (List.replicate 256 [])).wellFormed 1 = false := by
  decide +kernel

theorem test_wellFormed_list_long_item :
    (Instr.transmitList [[1], List.replicate 256 0]).wellFormed 1 = false := by decide +kernel

theorem test_wellFormed_list_longest :
    (Instr.transmitList (List.replicate 255 [])).wellFormed 1 = true := by decide +kernel

theorem test_wellFormed_netid_short : (Instr.trackEnable [0xA1]).wellFormed 2 = false := by decide

theorem test_wellFormed_netid_long : (Instr.trackEnable [0xA1, 0xA2]).wellFormed 1 = false := by decide

theorem test_wellFormed_burst_too_long : (Instr.wrBurst 0 0 (List.replicate 256 0)).wellFormed 1 = false := by
  decide +kernel

theorem test_wellFormed_fifo_burst_too_long : (Instr.wrTxFifoBurst (List.replicate 256 0)).wellFormed 1 = false := by
  decide +kernel

/-! ## Decoding: one word of every operation, written out from 30_encoding.md R91 to R93 -/

theorem test_decode_init : decode 1 [0x01, 0x00, 0x1F, 0x0A, 0xFA] = .ok (.init 0xFA0A1F00) := by decide

theorem test_decode_transmit : decode 1 [0x02, 0x03, 0xAA, 0xBB, 0xCC] = .ok (.transmit [0xAA, 0xBB, 0xCC]) := by decide

theorem test_decode_transmitList :
    decode 1 [0x03, 0x02, 0x01, 0xAA, 0x02, 0xBB, 0xBC] = .ok (.transmitList [[0xAA], [0xBB, 0xBC]]) := by decide

theorem test_decode_restartRx : decode 1 [0x04] = .ok .restartRx := by decide

theorem test_decode_setFreqOffset : decode 1 [0x05, 0x40, 0x42, 0x0F, 0x00] = .ok (.setFreqOffset 1000000) := by decide

theorem test_decode_smSetFreq : decode 1 [0x06, 0x00, 0xA1, 0xBC, 0x33] = .ok (.smSetFreq 868000000) := by decide

theorem test_decode_smSetBw : decode 1 [0x07, 0x90, 0xD0, 0x03, 0x00] = .ok (.smSetBw 250000) := by decide

theorem test_decode_trackEnable : decode 2 [0x08, 0xA1, 0xA2] = .ok (.trackEnable [0xA1, 0xA2]) := by decide

theorem test_decode_trackDisable : decode 1 [0x09] = .ok .trackDisable := by decide

theorem test_decode_drvReset : decode 1 [0x10] = .ok .drvReset := by decide

theorem test_decode_wrReg : decode 1 [0x11, 0x0C, 0x05, 0x0A, 0x01] = .ok (.wrReg 0x0C 0x05 266) := by decide

theorem test_decode_wrBurst :
    decode 1 [0x12, 0x3F, 0x05, 0x00, 0x02, 0xAA, 0xBB] = .ok (.wrBurst 0x3F 5 [0xAA, 0xBB]) := by decide

theorem test_decode_strobe : decode 1 [0x13, 0x34, 0x05, 0x01] = .ok (.strobe 0x34 261) := by decide

theorem test_decode_rdReg : decode 1 [0x14, 0x0C] = .ok (.rdReg 0x0C) := by decide

theorem test_decode_rdBurst : decode 1 [0x15, 0x3F, 0x02] = .ok (.rdBurst 0x3F 2) := by decide

theorem test_decode_rdStatus : decode 1 [0x16, 0x31] = .ok (.rdStatus 0x31) := by decide

theorem test_decode_setFreq : decode 1 [0x20, 0x00, 0xA1, 0xBC, 0x33] = .ok (.setFreq 868000000) := by decide

theorem test_decode_calibrate : decode 1 [0x21] = .ok .calibrate := by decide

theorem test_decode_setBw : decode 1 [0x22, 0x48, 0xE8, 0x01, 0x00] = .ok (.setBw 125000) := by decide

theorem test_decode_setBitrate : decode 1 [0x23, 0x00, 0x2C, 0x01, 0x00] = .ok (.setBitrate 76800) := by decide

theorem test_decode_setDev : decode 1 [0x24, 0x00, 0x7D, 0x00, 0x00] = .ok (.setDev 32000) := by decide

theorem test_decode_getRssi : decode 1 [0x25] = .ok .getRssi := by decide

theorem test_decode_getLqi : decode 1 [0x26] = .ok .getLqi := by decide

theorem test_decode_lowPower : decode 1 [0x27] = .ok .lowPower := by decide

theorem test_decode_activePower : decode 1 [0x28] = .ok .activePower := by decide

theorem test_decode_isConnected : decode 1 [0x29] = .ok .isConnected := by decide

theorem test_decode_rdRxFifo : decode 1 [0x30, 0x05] = .ok (.rdRxFifo 5) := by decide

theorem test_decode_wrTxFifo : decode 1 [0x31, 0x7E] = .ok (.wrTxFifo 0x7E) := by decide

theorem test_decode_wrTxFifoBurst : decode 1 [0x32, 0x02, 0x10, 0x11] = .ok (.wrTxFifoBurst [0x10, 0x11]) := by decide

theorem test_decode_flushRx : decode 1 [0x33] = .ok .flushRx := by decide

theorem test_decode_flushTx : decode 1 [0x34] = .ok .flushTx := by decide

theorem test_decode_getRxLvl : decode 1 [0x35] = .ok .getRxLvl := by decide

theorem test_decode_getTxLvl : decode 1 [0x36] = .ok .getTxLvl := by decide

theorem test_decode_setFifoThr : decode 1 [0x37, 0x04] = .ok (.setFifoThr 4) := by decide

theorem test_decode_irqRxThr : decode 1 [0x38] = .ok .irqRxThr := by decide

theorem test_decode_irqTxThr : decode 1 [0x39] = .ok .irqTxThr := by decide

theorem test_decode_irqTxUnf : decode 1 [0x3A] = .ok .irqTxUnf := by decide

theorem test_decode_updFreqOffset : decode 1 [0x40] = .ok .updFreqOffset := by decide

theorem test_decode_evIrq : decode 1 [0x80] = .ok .evIrq := by decide

theorem test_decode_evTimer : decode 1 [0x81] = .ok .evTimer := by decide

/-- V-H17 and 30_encoding.md R98: reserved codes, an event code on the port, a short word. -/
theorem test_decode_refuses :
    [[0x00], [0x0A], [0x0F], [0x17], [0x3B], [0x41], [0x82], [0xFF], [0x80], [0x81], [0x11, 0x0C], []].all
      (fun w => (decodeCommand 1 w).toOption.isNone) = true := by decide

/-- A word with one byte left over is refused as well (log entry 11). -/
theorem test_decode_refuses_excess : decode 1 [0x04, 0x00] = .error .excessBytes := by decide

/-- The table's word of `TRACK_ENABLE`, whatever width the platform gives identifiers: as many zero bytes as it has. -/
theorem test_decodeTableWord_trackEnable :
    decodeTableWord 8 0x08 = some (.trackEnable (List.replicate installed.netidBytes 0)) := by
  have h : tableWord installed.netidBytes 8 0x08 = 0x08 :: List.replicate installed.netidBytes 0 := by
    show (List.range (1 + installed.netidBytes)).map (byteAt [0x08]) = _
    generalize installed.netidBytes = n
    rw [Nat.add_comm, List.range_succ_eq_map, List.map_cons, List.map_map]
    congr 1
    rw [List.eq_replicate_iff]
    refine ⟨by simp, fun b hb => ?_⟩
    obtain ⟨k, -, rfl⟩ := List.mem_map.1 hb
    rfl
  unfold decodeTableWord
  rw [h]
  simp [decode, formatNID, Except.toOption]

/-! ## The configuration X1 (95_test_vectors.md): `ChipMap`, constant searches, 32-byte frames -/

def chip : ChipMap where
  aFreqHi := 1
  aFreqMid := 2
  aFreqLo := 3
  aFreqOffset := 4
  aFreqEst := 5
  aTest := 6
  vTestCal := 7
  aChipStatus := 8
  aPresence := 9
  aRssi := 10
  aLqi := 11
  aRxLevel := 12
  aTxLevel := 13
  aFifo := 14
  aFifoThr := 15
  aIrqCfg := 16
  vIrqRxThr := 17
  vIrqTxThr := 18
  vIrqTxUnf := 19
  aBw := 20
  aBitrateHi := 21
  aBitrateLo := 22
  aDev := 23
  sCal := 24
  sRx := 25
  sTx := 26
  sFlushRx := 27
  sFlushTx := 28
  sPowerDown := 29
  sWake := 30

/-- A search that gives code `b` to every request, each code being worth 0. -/
def oneCode (w b : Nat) : Search w where
  codes := { entries := [], other := BitVec.ofNat w b }
  values := { entries := [], other := 0 }
  min := 50
  max := 100000

def x1 : Cfg where
  fifoCapacity := 8
  fifoThreshold := 4
  headerLen := 4
  maxFrameLen := 32
  totalLen :=
    { entries := [([0xA1, 0, 0, 7], 11), ([0xB2, 0, 0, 2], 6), ([0xA1, 0, 0, 0xFF], 259), ([0xA1, 0, 0, 0x1C], 32)]
      other := 4 }
  netIdOf := { entries := [([0xB2, 0, 0, 2], some [0xB2])], other := some [0xA1] }
  netidBytes := 1
  turnaroundUs := 1000
  guardUs := { entries := [], other := 10 }
  chip := chip
  calBusy := { entries := [(0, false), (2, false)], other := true }
  bw := oneCode 8 0x8D
  bitrate := oneCode 16 0x8BE3
  dev := oneCode 8 0x44
  lqiMap := lqiRaw
  bands := [(860, 880), (900, 930)]
  fCarrier := 868
  cfgBitrate := 76800
  cfgDeviation := 32
  cfgBandwidth := .medium
  cfgSync := (0xD3, 0x91)
  cfgPktLenMode := .infinite
  cfgPreambleSync := [0x55, 0x55, 0xD3, 0x91]
  baseConfigWrites := [(0x3E, 0x77)]
  resetSequence := []
  nextPref := lowestFirst
  freePref := lowestFirst
  eventPriority := .any
  stepHi := stepHiExact
  stepMid := stepMidExact
  stepLo := stepLoExact
  pollFuel := 0

/-- A fresh block with the clock at 0 and a chip that always becomes ready. -/
def fresh : State :=
  { State.resetWith x1 with now := 0, csNotBefore := 0, inp := { Inputs.fresh with readyFails := none } }

/-- An initialised, idle block. -/
def ready : State := { fresh with irqEnabled := true }

/-- The next bytes the chip answers. -/
def scripted (s : State) (bytes : Bytes) : State :=
  { s with inp := { s.inp with answers := { items := bytes, drawn := 0 } } }

/-- The next transactions' timings: no delay, ready at once, released `d` later; one other clock read after 3. -/
def timed (s : State) (n d : Nat) : State :=
  { s with
    inp :=
      { s.inp with
        timings := { items := List.replicate n { issue := 0, ready := some 0, transfer := BitVec.ofNat 32 d }, drawn := 0 }
        ticks := { items := [3], drawn := 0 } } }

/-- Nothing arrives before the next arbitration, and these words are offered. -/
def offered (s : State) (words : List Bytes) : State :=
  { s with inp := { s.inp with words := words, arrivals := { items := [{ elapsed := 0, irqEdge := false }], drawn := 0 } } }

/-- The state an operation answers, the same state when it stops. -/
def run (i : Instr) (s : State) : State :=
  match exec i s with
  | .next t => t
  | .fault _ => s
  | .refused _ => s

/-- An operation answers a next state. -/
def completes (i : Instr) (s : State) : Bool :=
  match exec i s with
  | .next _ => true
  | .fault _ => false
  | .refused _ => false

theorem exec_run {i : Instr} {s : State} (h : completes i s = true) : exec i s = .next (run i s) := by
  unfold completes at h
  unfold run
  cases e : exec i s <;> simp_all

/-- One step of the machine, the same state when it stops. -/
def stepped (s : State) : State :=
  match step s with
  | .next t => t
  | .fault _ => s
  | .refused _ => s

/-! ## One-step tests -/

/-- The transactions of `CALIBRATE` for the status bytes `polls`. -/
def calibrated (polls : Bytes) : List BusTxn :=
  [.write 4 0 10, .write 6 7 10, .strobe 24 10] ++ polls.map (.readStatus 8 · 10)

/-- V-G1: released 8 after the selection, guard 10. -/
theorem test_wrReg : (let t := run (.wrReg 0x0C 0x05 10) (timed { fresh with csNotBefore := 1000, now := 1004 } 1 8)
    (t.txns, t.csNotBefore, t.busTrace.map (·.selectAt))) = ([.write 0x0C 0x05 10], 1022, [1004]) := by decide +kernel

/-- V-G3: the guard wait runs across the clock's wrap. -/
theorem test_strobe : (run (.strobe 0x34 0) (timed { fresh with csNotBefore := 4, now := 0xFFFFFFFE } 1 3)).busTrace =
    [{ txn := .strobe 0x34 0, guardedAt := 4, selectAt := 4, releaseAt := 7 }] := by decide +kernel

/-- V-G4: a burst of no bytes performs no transaction. -/
theorem test_wrBurst : (run (.wrBurst 0x3F 5 []) ready).txns = [] ∧
    (run (.wrBurst 0x3F 5 [1, 2]) ready).txns = [.writeBurst 0x3F [1, 2] 5] := by decide +kernel

theorem test_rdReg : (let t := run (.rdReg 0x0C) (scripted ready [0x5A]); (t.txns, t.responses)) =
    ([.read 0x0C 0x5A 10], [[0x5A]]) := by decide +kernel

theorem test_rdBurst : (let t := run (.rdBurst 0x3F 2) (scripted ready [1, 2, 3]); (t.txns, t.responses)) =
    ([.readBurst 0x3F [1, 2] 10], [[1, 2]]) := by decide +kernel

/-- V-G4 and 30_encoding.md R100: the empty word. -/
theorem test_rdBurst_empty : (let t := run (.rdBurst 0x3F 0) (scripted ready [1]); (t.txns, t.responses)) =
    ([], [[]]) := by decide +kernel

theorem test_rdStatus : (let t := run (.rdStatus 0x31) (scripted ready [9]); (t.txns, t.responses)) =
    ([.readStatus 0x31 9 10], [[9]]) := by decide +kernel

/-- R118: the guard deadline counts from the end of the sequence. -/
theorem test_drvReset : (let t := run .drvReset (timed ready 2 0); (t.txns, t.now, t.csNotBefore)) =
    ([.reset], 3, 13) := by decide +kernel

/-- R118: the sequence takes its holds, 20 and 5 microseconds here, between issue and release. -/
theorem test_drvReset_holds :
    (let t := run .drvReset (timed { ready with cfg := { x1 with
        resetSequence := [{ action := 1, holdUs := 20 }, { action := 0, holdUs := 5 }] } } 2 0)
     (t.txns, t.now, t.csNotBefore)) = ([.reset], 28, 38) := by decide +kernel

/-- V-Q1 and the bus trace of `SET_FREQ 868MHz`. -/
theorem test_setFreq : (run (.setFreq 868000000) (scripted ready [1, 0])).txns =
    [.write 1 0x21 10, .write 2 0x62 10, .write 3 0x76 10] ++ calibrated [1, 0] := by decide +kernel

/-- The upper band edge is inside, one hertz above it is not (log entry 16). -/
theorem test_setFreq_band : (run (.setFreq 880000000) (scripted ready [0])).outcomes = [.ok] ∧
    (run (.setFreq 880000001) ready).outcomes = [.refused .outOfBand] := by decide +kernel

/-- V-Q2, V-Q6, V-Q9: frequency bytes. -/
theorem test_freqWords : [915, 860, 930].map (fun f => carryFix (freqWords x1 f)) =
    [(0x23, 0x31, 0x3B), (0x21, 0x13, 0xB1), (0x23, 0xC4, 0xEC)] := by decide +kernel

/-- V-D2, V-D3: rounded steps, the low word's overflow carried into the middle word only. -/
theorem test_carryFix : [858 + 3 * (1015625 / 10000000) + 1015 / 10000,
    858 + 255 * (1015625 / 10000000) + 1015 / 10000].map
      (fun f => carryFix (freqWords { x1 with stepLo := 396 / 1000000 } f)) =
    [(0x21, 4, 0), (0x21, 0, 0)] := by decide +kernel

/-- V-C1, V-C2. -/
theorem test_calibrate :
    (let t := run .calibrate { scripted ready [1, 3, 0xFF, 2] with appliedOffset := 17, winIdx := 9 }
     (t.txns, t.appliedOffset, t.winIdx)) = (calibrated [1, 3, 0xFF, 2], 0, 9) := by decide +kernel

/-- V-C3: a calibration bit that never clears. -/
theorem test_calibrate_hang : completes .calibrate (scripted ready [1, 1, 1]) = false := by decide +kernel

/-- V-C4. -/
theorem test_activePower : (run .activePower (scripted ready [0])).txns = .strobe 30 10 :: calibrated [0] := by
  decide +kernel

theorem test_lowPower : (run .lowPower ready).txns = [.strobe 29 10] := by decide +kernel

theorem test_setBw : (let t := run (.setBw 125000) ready; (t.txns, t.config.bwCode)) =
    ([.write 20 0x8D 10], 0x8D) := by decide +kernel

theorem test_setBitrate : (let t := run (.setBitrate 76800) ready; (t.txns, t.config.bitrateCode)) =
    ([.write 21 0x8B 10, .write 22 0xE3 10], 0x8BE3) := by decide +kernel

theorem test_setDev : (let t := run (.setDev 32000) ready; (t.txns, t.config.devCode)) =
    ([.write 23 0x44 10], 0x44) := by decide +kernel

/-- 40_register_driver.md R143: raw 200 is -102 dBm, `9A FF` on the port. -/
theorem test_getRssi : (let t := run .getRssi (scripted ready [200]); (t.txns, t.responses)) =
    ([.readStatus 10 200 10], [[0x9A, 0xFF]]) := by decide +kernel

/-- The table of 95_test_vectors.md for `RssiMap`: both regions, both boundaries, halves toward zero. -/
theorem test_rssiMap : [0, 1, 2, 100, 127, 128, 129, 200, 255].map rssiMap =
    [-74, -74, -73, -24, -11, -138, -137, -102, -74] := by decide

theorem test_getLqi : (run .getLqi (scripted ready [0x2A])).responses = [[42, 0]] := by decide +kernel

/-- 40_register_driver.md R144, the instantiation `RssiMap`: raw 42 is -53, `CB FF` on the port. -/
theorem test_getLqi_asRssi :
    (run .getLqi { scripted ready [0x2A] with cfg := { x1 with lqiMap := lqiAsRssi } }).responses = [[0xCB, 0xFF]] := by
  decide +kernel

theorem test_isConnected : (run .isConnected (scripted ready [0x14])).responses = [[1]] ∧
    (run .isConnected (scripted ready [0])).responses = [[0]] := by decide +kernel

theorem test_rdRxFifo : (let t := run (.rdRxFifo 2) (scripted ready [7, 8]); (t.txns, t.responses)) =
    ([.readBurst 14 [7, 8] 10], [[7, 8]]) := by decide +kernel

theorem test_wrTxFifo : (run (.wrTxFifo 0x7E) ready).txns = [.write 14 0x7E 10] := by decide +kernel

theorem test_wrTxFifoBurst : (run (.wrTxFifoBurst [1, 2]) ready).txns = [.writeBurst 14 [1, 2] 10] := by decide +kernel

theorem test_flushRx : (run .flushRx ready).txns = [.strobe 27 10] := by decide +kernel

theorem test_flushTx : (run .flushTx ready).txns = [.strobe 28 10] := by decide +kernel

theorem test_getRxLvl : (let t := run .getRxLvl (scripted ready [200]); (t.txns, t.responses)) =
    ([.readStatus 12 200 10], [[200]]) := by decide +kernel

theorem test_getTxLvl : (let t := run .getTxLvl (scripted ready [3]); (t.txns, t.responses)) =
    ([.readStatus 13 3 10], [[3]]) := by decide +kernel

theorem test_setFifoThr : (let t := run (.setFifoThr 6) ready; (t.txns, t.config.fifoThreshold)) =
    ([.write 15 6 10], 6) := by decide +kernel

theorem test_irqRxThr : (run .irqRxThr ready).txns = [.write 16 17 10] := by decide +kernel

theorem test_irqTxThr : (run .irqTxThr ready).txns = [.write 16 18 10] := by decide +kernel

theorem test_irqTxUnf : (run .irqTxUnf ready).txns = [.write 16 19 10] := by decide +kernel

/-- V-F2: sample -3 at index 7. -/
theorem test_updFreqOffset : (let t := run .updFreqOffset { scripted ready [0xFD] with winIdx := 7 }
    (t.txns, asI8 t.window[7], t.winIdx)) = ([.readStatus 5 0xFD 10], -3, 8) := by decide +kernel

/-- V-F7: the 32nd sample; mean 100 on top of 105 is clamped to 127. -/
theorem test_updFreqOffset_correct :
    (let t := run .updFreqOffset { scripted ready [100] with
        winIdx := 31, window := Vector.replicate 32 100, appliedOffset := 105 }
     (t.txns, t.appliedOffset, t.winIdx)) = ([.readStatus 5 100 10, .write 4 0x7F 10], 0x7F, 0) := by decide +kernel

/-- The block after V-R1: the header of an 11-byte frame received. -/
def receiving : State :=
  { ready with radioState := .rxPayload, rxCount := 4, rxTotal := some 11, rxBuf := [0xA1, 0, 0, 7] ++ List.replicate 28 0 }

/-- V-R4: header, payload and completion in one service. -/
theorem test_evIrq_receives :
    (let t := run .evIrq (scripted ready [6, 0xB2, 0, 0, 2, 0x11, 0x22, 100, 0x10])
     (t.pushTrace.map (fun f => (f.bytes, f.rssi, f.lqi, f.netId)), t.radioState, t.txns.length)) =
    ([([0xB2, 0, 0, 2, 0x11, 0x22], -24, 16, some [0xB2])], .rxWaitSync, 7) := by decide +kernel

/-- The block after V-T2: 20 bytes of a frame to send, 8 of them in the FIFO. -/
def sending : State :=
  { ready with
    radioState := .txTransmit
    txOffset := 8
    slots := ready.slots.set 0
      { inUse := true
        frame := [0x10, 0x11, 0x12, 0x13, 0x14, 0x15, 0x16, 0x17, 0x18, 0x19, 0x1A, 0x1B, 0x1C, 0x1D, 0x1E, 0x1F, 0x20,
          0x21, 0x22, 0x23] } }

/-- V-T3: room for 6 of the 12 bytes left. -/
theorem test_evIrq_refills : (let t := run .evIrq (scripted sending [2]); (t.txns, t.txOffset, t.radioState)) =
    ([.readStatus 13 2 10, .writeBurst 14 [0x18, 0x19, 0x1A, 0x1B, 0x1C, 0x1D] 10], 14, .txTransmit) := by
  decide +kernel

/-- V-T2. -/
theorem test_evTimer : (let t := run .evTimer { sending with timerArmed := true }
    (t.txns, t.timerArmed, t.radioState)) = ([.strobe 26 10], false, .txTransmit) := by decide +kernel

/-- V-T10: a stale timer does nothing. -/
theorem test_evTimer_stale : (let t := run .evTimer { ready with timerPending := true }
    (t.txns, t.timerPending)) = ([], false) := by decide +kernel

/-- V-H1, with one base write. -/
theorem test_init :
    (let t := run (.init 0) (scripted fresh [0x14, 0]); (t.txns, t.responses, t.irqEnabled, t.radioState)) =
    ([.reset, .readStatus 9 0x14 10, .write 1 0x21 10, .write 2 0x62 10, .write 3 0x76 10] ++ calibrated [0] ++
      [.write 20 0x8D 10, .write 21 0x8B 10, .write 22 0xE3 10, .write 23 0x44 10, .write 15 4 10,
       .write 0x3E 0x77 10, .write 16 17 10, .strobe 25 10], [[1]], true, .rxWaitSync) := by decide +kernel

/-- V-H2. -/
theorem test_init_absent : (let t := run (.init 0) (scripted fresh [0]); (t.txns, t.responses, t.irqEnabled)) =
    ([.reset, .readStatus 9 0 10], [[0]], false) := by decide +kernel

/-- V-T1. -/
theorem test_transmit : (let t := run (.transmit sending.slots[0].frame) (timed ready 2 0)
    (t.txns, t.txOffset, t.radioState, t.timerDeadline)) =
    ([.writeBurst 14 [0x10, 0x11, 0x12, 0x13, 0x14, 0x15, 0x16, 0x17] 10, .write 16 18 10], 8, .txTransmit, 1013) := by
  decide +kernel

/-- V-H16: dropped without a trace. -/
theorem test_transmit_too_long : (let t := run (.transmit (List.replicate 33 0)) ready
    (t.txns, t.slots[0].inUse, t.outcomes)) = ([], false, [.ok]) := by decide +kernel

/-- V-H14. -/
theorem test_transmitList : (let t := run (.transmitList [[0xAA], [0xBB, 0xBB]]) ready
    (t.txns, t.slots[1].frame, t.cursor)) = ([.writeBurst 14 [0xAA] 10, .write 16 18 10], [0xBB, 0xBB], 0) := by
  decide +kernel

/-- V-H11. -/
theorem test_restartRx : (let t := run .restartRx { sending with timerArmed := true }
    (t.txns, t.radioState, t.timerArmed, t.slots[0].inUse)) =
    ([.strobe 27 10, .strobe 28 10, .write 16 17 10, .strobe 25 10], .rxWaitSync, false, true) := by decide +kernel

/-- V-H10. -/
theorem test_setFreqOffset : (let t := run (.setFreqOffset 0) { scripted ready [0] with appliedOffset := 12 }
    (t.txns.take 3, t.appliedOffset)) = ([.write 1 0x21 10, .write 2 0x62 10, .write 3 0x76 10], 0) := by decide +kernel

/-- V-H7: reconfiguration while receiving is `Undefined(NotIdle)`. -/
theorem test_smSetFreq : (let t := run (.smSetFreq 868000000) receiving; (t.txns, t.outcomes, t.refused)) =
    ([], [.undefinedNotIdle], true) := by decide +kernel

/-- V-H9. -/
theorem test_smSetBw : (run (.smSetBw 250000) ready).txns = [.write 20 0x8D 10] := by decide +kernel

/-- V-H12. -/
theorem test_trackEnable : (let t := run (.trackEnable [0xA1]) ready; (t.txns, t.trackingEnabled, t.trackedNetId)) =
    ([], true, [0xA1]) := by decide +kernel

/-- V-H13. -/
theorem test_trackDisable : (let t := run .trackDisable { ready with trackingEnabled := true, trackedNetId := [0xA1] }
    (t.trackingEnabled, t.trackedNetId)) = (false, [0xA1]) := by decide +kernel

/-- A word placed by `withFetchWord` is run by the very next step. -/
theorem test_step_withFetchWord : (stepped (fresh.withFetchWord 8 0x04)).outcomes = [.refused .notInitialised] ∧
    (stepped (ready.withFetchWord 8 0x39)).txns = [.write 16 18 10] := by decide +kernel

/-- A pending event comes before a word that is offered (60_exceptions.md R230). -/
theorem test_step_event_first : (let t := stepped { offered ready [[0x39]] with timerPending := true }
    (t.timerPending, t.inp.words)) = (false, [[0x39]]) := by decide +kernel

/-- 30_encoding.md R94, row by row, and the codes that cannot occur. -/
theorem test_radioState_code :
    [RadioState.rxWaitSync, .rxHeader, .rxPayload, .txTransmit, .txLastTransmit].map RadioState.code = [0, 1, 2, 3, 4] ∧
    [5, 6, 7].map RadioState.ofCode = [none, none, none] := by decide

/-- 00_scope.md R7: the lowest index, in the middle of the table and at neither end. -/
theorem test_lowestFirst :
    nextSlot x1 ((ready.slots.set 5 { inUse := true, frame := [] }).set 9 { inUse := true, frame := [] }) = some 5 ∧
    freeSlot x1 ((ready.slots.set 0 { inUse := true, frame := [] }).set 1 { inUse := true, frame := [] }) = some 2 := by
  decide +kernel

/-! ## Witnesses: for every obligation with hypotheses, states and operands that meet them -/

theorem x1_lengths : LengthsLawful x1 := ⟨by decide, by decide, by decide⟩

theorem x1_chip : ChipLawful x1.chip := ⟨by decide, by decide, by decide, by decide⟩

theorem x1_guards : GuardsBounded x1 := by unfold GuardsBounded; decide

theorem oneCode_closest {w : Nat} (b : Nat) (x : Rat) : ClosestAt (oneCode w b) x := fun _ => le_refl _

/-- X1 meets every constraint of 00_scope.md R8. -/
theorem x1_lawful : CfgLawful x1 where
  lengths := x1_lengths
  fifo_pos := by decide
  fifo_le := by decide
  netid_pos := by decide
  netid_width := by
    intro h id e
    have k : netIdIn x1 h = some [0xB2] ∨ netIdIn x1 h = some [0xA1] := by
      simp only [netIdIn, applyTab, x1, List.lookup]
      split <;> simp_all
    rcases k with k | k <;> (rw [k] at e; cases e; rfl)
  turnaround := by decide
  guards := x1_guards
  guard_clock := fun op => by simp [guardOf, applyTab, x1]
  chip := x1_chip
  bw_ordered := by norm_num [Search.Ordered, x1, oneCode]
  bitrate_ordered := by norm_num [Search.Ordered, x1, oneCode]
  dev_ordered := by norm_num [Search.Ordered, x1, oneCode]
  bw_closest := fun _ => oneCode_closest _ _
  bw_init := oneCode_closest _ _
  bitrate_closest := fun _ => oneCode_closest _ _
  bitrate_init := oneCode_closest _ _
  dev_closest := fun _ => oneCode_closest _ _
  dev_init := oneCode_closest _ _
  bands_nonempty := by simp [x1]
  bands_range := by
    intro b hb
    simp only [x1, List.mem_cons, List.not_mem_nil, or_false] at hb
    rcases hb with rfl | rfl <;> norm_num
  carrier := by decide +kernel
  steps_pos := by decide +kernel

/-- Nothing waits for ever in a state that scripts no timing and whose chip always becomes ready. -/
theorem waitsEnd_of_none {s : State} (h : s.inp.timings.items = []) (f : s.inp.readyFails = none := by rfl) :
    s.WaitsEnd :=
  ⟨fun _ htm => absurd (h ▸ htm) (by simp), f⟩

theorem ready_inv : ready.Inv where
  rxBuf_length := by decide
  rxCount_le := by decide
  frames_fit := by decide
  netid_length := by decide
  tx := fun h => by simp [ready, fresh, State.resetWith, RadioState.isTx] at h
  last := fun h => by simp [ready, fresh, State.resetWith] at h
  timer := fun h => by simp [ready, fresh, State.resetWith] at h
  idle := fun _ => ⟨rfl, rfl⟩
  header := fun h => by simp [ready, fresh, State.resetWith] at h
  payload := fun h => by simp [ready, fresh, State.resetWith] at h

theorem receiving_inv : receiving.Inv where
  rxBuf_length := by decide
  rxCount_le := by decide
  frames_fit := by decide
  netid_length := by decide
  tx := fun h => by simp [receiving, RadioState.isTx] at h
  last := fun h => by simp [receiving] at h
  timer := fun h => by simp [receiving, ready, fresh, State.resetWith] at h
  idle := fun h => by simp [receiving] at h
  header := fun h => by simp [receiving] at h
  payload := fun _ => ⟨11, rfl, by decide, by decide, by decide⟩

theorem sending_inv : sending.Inv where
  rxBuf_length := by decide
  rxCount_le := by decide
  frames_fit := by decide
  netid_length := by decide
  tx := fun _ => by decide
  last := fun h => by simp [sending] at h
  timer := fun h => by simp [sending, ready, fresh, State.resetWith] at h
  idle := fun h => by simp [sending] at h
  header := fun h => by simp [sending] at h
  payload := fun h => by simp [sending] at h

/-- Scripting answers, latches or words is no matter to the invariant. -/
theorem scripted_inv {s : State} (h : s.Inv) (bytes : Bytes) : (scripted s bytes).Inv :=
  ⟨h.1, h.2, h.3, h.4, h.5, h.6, h.7, h.8, h.9, h.10⟩

theorem witness_DecodeOfEncodeIsTheOperation :
    (Instr.transmit (List.replicate 255 7)).wellFormed 1 = true ∧ (Instr.transmit []).wellFormed 1 = true ∧
    (Instr.transmitList (List.replicate 255 [])).wellFormed 1 = true ∧
    (Instr.trackEnable [0xA1, 0xA2]).wellFormed 2 = true := by decide +kernel

theorem witness_DecodedWordIsTheEncoding :
    decode 1 [0x11, 0x0C, 0x05, 0x0A, 0x00] = .ok (.wrReg 0x0C 0x05 10) ∧ decode 1 [0x03, 0x00] = .ok (.transmitList []) ∧
    decode 2 [0x08, 0xA1, 0xA2] = .ok (.trackEnable [0xA1, 0xA2]) := by decide

/-- The state meets the hypotheses whatever the word is; here are words of each kind, the ranges' ends among them. -/
theorem witness_InvalidWordIsRefused :
    ((offered ready [[0x0A]]).absorb.irqPending = false ∧ (offered ready [[0x0A]]).absorb.timerPending = false ∧
      (offered ready [[0x0A]]).inp.words = [[0x0A]]) ∧
    InvalidWord 1 [0x0A] ∧ InvalidWord 1 [0x00] ∧ InvalidWord 1 [0x41, 0x00] ∧ InvalidWord 1 [0x82] ∧
    InvalidWord 1 [0x80] ∧ InvalidWord 1 [0x81] ∧ InvalidWord 1 [] ∧ InvalidWord 1 [0x11, 0x0C] ∧ InvalidWord 1 [0x08] :=
  ⟨by decide +kernel, .reserved _ _ rfl, .reserved _ _ rfl, .reserved _ _ rfl, .reserved _ _ rfl,
    .event _ _ (.inl rfl), .event _ _ (.inr rfl), .short .getRssi _ rfl ⟨[0x25], rfl⟩ (by decide),
    .short (.wrReg 0x0C 0x05 10) _ rfl ⟨[0x05, 0x0A, 0x00], rfl⟩ (by decide),
    .short (.trackEnable [0xA1]) _ rfl ⟨[0xA1], rfl⟩ (by decide)⟩

theorem witness_StepRunsTheDecodedWord :
    let s := offered ready [[0x39], [0x04]]
    s.absorb.irqPending = false ∧ s.absorb.timerPending = false ∧ s.inp.words = [[0x39], [0x04]] ∧
      decodeCommand s.cfg.netidBytes [0x39] = .ok .irqTxThr := by decide +kernel

/-- One state for each clause: the line only, the timer only, both under each priority, neither. -/
theorem witness_StepServesEventsFirst :
    let s := offered ready []
    let irq : State := { s with irqPending := true }
    let timer : State := { s with timerPending := true }
    let both : State := { irq with timerPending := true }
    (irq.absorb.irqPending = true ∧ irq.absorb.timerPending = false) ∧
    (timer.absorb.irqPending = false ∧ timer.absorb.timerPending = true) ∧
    (both.absorb.irqPending = true ∧ both.absorb.timerPending = true ∧ both.cfg.eventPriority = .any) ∧
    (s.absorb.irqPending = false ∧ s.absorb.timerPending = false ∧ s.inp.words = []) := by decide +kernel

/-- 60_exceptions.md R229, R234: the line's edge latches after 7 microseconds, and merges with a latch that is set. -/
theorem test_absorb :
    (let s : State := { ready with inp := { ready.inp with arrivals := { items := [{ elapsed := 7, irqEdge := true }], drawn := 0 } } }
     (s.absorb.now, s.absorb.irqPending, ({ s with irqPending := true } : State).absorb.irqPending,
       s.absorb.timerPending, s.absorb.inp.arrivals.items)) = (7, true, true, false, []) := by decide +kernel

theorem witness_StepServesEventsFirst_priorities :
    let s : State := { offered ready [] with irqPending := true, timerPending := true }
    let first : State := { s with cfg := { x1 with eventPriority := .irqFirst } }
    let second : State := { s with cfg := { x1 with eventPriority := .timerFirst } }
    (first.absorb.irqPending = true ∧ first.absorb.timerPending = true ∧ first.cfg.eventPriority = .irqFirst) ∧
    (second.absorb.irqPending = true ∧ second.absorb.timerPending = true ∧ second.cfg.eventPriority = .timerFirst) := by
  decide +kernel

/-- The deadline at once, and as far ahead as the comparison reaches, across the clock's wrap. -/
theorem witness_TimerLatchesAtItsDeadline :
    let s : State := { sending with now := 0xFFFFFFFF, timerArmed := true }
    let near : State := { s with timerDeadline := s.now + 0 }
    let far : State := { s with timerDeadline := s.now + 0x7FFFFFFF }
    (near.timerArmed = true ∧ near.timerPending = false ∧ (near.elapse 0).timerPending = true) ∧
    ((0x7FFFFFFF : Clock).toNat < 2 ^ 31 ∧ far.timerPending = false ∧ (far.elapse 0x7FFFFFFE).timerPending = false ∧
      (far.elapse 0x7FFFFFFF).timerPending = true) := by decide +kernel

theorem witness_DriverOperationsRefusedWhileBusy :
    Instr.getRssi.isDriver = true ∧ Instr.updFreqOffset.isDriver = true ∧ sending.radioState ≠ .rxWaitSync ∧
      receiving.radioState ≠ .rxWaitSync := by decide

theorem witness_CommandsRefusedBeforeInit :
    (Instr.transmit [1]).needsInit = true ∧ Instr.trackDisable.needsInit = true ∧ fresh.irqEnabled = false := by decide

theorem witness_ReconfigurationUndefinedWhileBusy :
    receiving.irqEnabled = true ∧ receiving.radioState ≠ .rxWaitSync ∧ sending.irqEnabled = true ∧
      sending.radioState ≠ .rxWaitSync := by decide

/-- One hertz above the band's edge, and 100 MHz below the carrier. -/
theorem witness_OutOfBandIsRefused :
    inBands x1 (mhzOfU32 880000001) = false ∧ inBands x1 (mhzOfU32 880000000) = true ∧
    inBands x1 (x1.fCarrier + mhzOfI32 0xFA0A1F00) = false ∧
    ready.irqEnabled = true ∧ ready.radioState = .rxWaitSync := by decide +kernel

theorem witness_RawWritesComplete : ready.radioState = .rxWaitSync ∧ ready.WaitsEnd := ⟨rfl, waitsEnd_of_none rfl⟩

theorem witness_HelperWritesComplete : ready.radioState = .rxWaitSync ∧ ready.WaitsEnd := ⟨rfl, waitsEnd_of_none rfl⟩

theorem witness_ReadsAnswerTheBytesDrawn : ready.radioState = .rxWaitSync ∧ ready.WaitsEnd :=
  ⟨rfl, waitsEnd_of_none rfl⟩

theorem witness_QualityReadsAnswerTheMappedByte : ready.radioState = .rxWaitSync ∧ ready.WaitsEnd :=
  ⟨rfl, waitsEnd_of_none rfl⟩

/-- The clauses of the mapping at their ends. -/
theorem witness_RssiMappingIsTwoRegion :
    128 ≤ (128 : Byte).toNat ∧ 128 ≤ (255 : Byte).toNat ∧ (127 : Byte).toNat < 128 ∧ (0 : Byte).toNat < 128 := by decide

theorem witness_ShadowedWritesComplete :
    ready.radioState = .rxWaitSync ∧ ready.WaitsEnd ∧ ready.irqEnabled = true := ⟨rfl, waitsEnd_of_none rfl, rfl⟩

theorem witness_SearchesClampTheRequest :
    x1.bw.min ≤ x1.bw.max ∧ khzOfU32 0 ≤ x1.bw.min ∧ x1.bw.max ≤ khzOfU32 100000000 := by decide +kernel

theorem witness_DrvResetCompletes : ready.radioState = .rxWaitSync ∧ ready.WaitsEnd := ⟨rfl, waitsEnd_of_none rfl⟩

/-- A poll of one read, and one of three. -/
theorem pollEnds_one : PollEnds (scripted ready [0]) 0 1 := ⟨by decide, by decide, by decide, by decide⟩

theorem pollEnds_three : PollEnds (scripted ready [1, 3, 2]) 0 3 := ⟨by decide, by decide, by decide, by decide⟩

theorem witness_CalibrateCompletes :
    (scripted ready [1, 3, 2]).radioState = .rxWaitSync ∧ (scripted ready [1, 3, 2]).WaitsEnd ∧
      PollEnds (scripted ready [1, 3, 2]) 0 3 := ⟨rfl, waitsEnd_of_none rfl, pollEnds_three⟩

theorem witness_CalibrateHangsWhileBusy :
    let s := scripted ready [1, 1, 1]
    s.radioState = .rxWaitSync ∧ s.WaitsEnd ∧
      (∀ b ∈ s.answersFrom 0 (max 1 s.inp.answers.items.length + s.cfg.pollFuel), isCalBusy s.cfg b = true) :=
  ⟨rfl, waitsEnd_of_none rfl, by decide⟩

/-- A state whose chip never becomes ready again. -/
def unready (s : State) : State := { s with inp := { s.inp with readyFails := some 0 } }

/-- A command, a driver operation and both services that reach the wait; a command, an empty burst and both services that
do not. -/
theorem witness_UnreadyChipHangs :
    ((unready ready).timing.ready = none ∧ (unready sending).timing.ready = none) ∧
    ((Instr.transmit [1]).reachesWait (unready ready) = true ∧
      (Instr.wrReg 1 2 10).reachesWait (unready ready) = true ∧
      Instr.evIrq.reachesWait (unready ready) = true ∧
      Instr.evTimer.reachesWait { unready sending with timerArmed := true } = true) ∧
    (Instr.trackDisable.reachesWait ready = false ∧ (Instr.wrBurst 1 10 []).reachesWait ready = false ∧
      Instr.evIrq.reachesWait fresh = false ∧ Instr.evTimer.reachesWait sending = false) :=
  ⟨⟨rfl, rfl⟩, by decide +kernel, by decide +kernel⟩

/-- The band's edge, and a poll of three reads. -/
theorem witness_SetFreqCompletes :
    (scripted ready [1, 3, 2]).radioState = .rxWaitSync ∧ (scripted ready [1, 3, 2]).WaitsEnd ∧
      inBands (scripted ready [1, 3, 2]).cfg (mhzOfU32 880000000) = true ∧ PollEnds (scripted ready [1, 3, 2]) 0 3 :=
  ⟨rfl, waitsEnd_of_none rfl, by decide +kernel, pollEnds_three⟩

theorem witness_ActivePowerCompletes :
    (scripted ready [0]).radioState = .rxWaitSync ∧ (scripted ready [0]).WaitsEnd ∧ PollEnds (scripted ready [0]) 0 1 :=
  ⟨rfl, waitsEnd_of_none rfl, pollEnds_one⟩

/-- A trace of two writes, the second's guard wait run out 1 microsecond late across the clock's wrap, and the deadline of
the last one standing. -/
def twoWrites : State :=
  { ready with
    now := 7
    csNotBefore := 16
    busTrace :=
      [{ txn := .write 1 2 10, guardedAt := 0xFFFFFFF0, selectAt := 0xFFFFFFF1, releaseAt := 0xFFFFFFFA },
       { txn := .write 3 4 10, guardedAt := 5, selectAt := 5, releaseAt := 6 }] }

theorem twoWrites_paced : twoWrites.Paced where
  deadline := by rintro e ⟨⟩ -; rfl
  guarded := .cons_cons (fun _ _ => by decide) (.singleton _)

/-- The invariant's step; two writes in a row, the clock wrapping between them, the second ready at once. -/
theorem witness_GuardTimeIsKept :
    (twoWrites.Paced ∧ ∃ t, step (offered twoWrites []) = .next t) ∧
    let s := timed { ready with now := 0xFFFFFFFA, csNotBefore := 0xFFFFFFFA } 2 0
    let t := run (.wrReg 1 2 10) s
    s.radioState = .rxWaitSync ∧ exec (.wrReg 1 2 10) s = .next t ∧
      exec (.wrReg 3 4 0) t = .next (run (.wrReg 3 4 0) t) ∧ t.timing.ready = some 0 ∧
      t.timing.issue.toNat < 2 ^ 31 ∧ (0 : Clock).toNat < 2 ^ 31 :=
  ⟨⟨twoWrites_paced, _, rfl⟩, rfl, exec_run (by decide +kernel), exec_run (by decide +kernel), by decide +kernel,
    by decide +kernel, by decide⟩

theorem witness_FreqWordsCountTheSteps :
    0 < x1.stepHi ∧ 0 < x1.stepMid ∧ 0 < x1.stepLo ∧ (0 : Rat) ≤ 0 ∧ (0 : Rat) ≤ 868 := by decide +kernel

theorem witness_ExactStepsGiveTheQuotient : ExactSteps x1 ∧ (0 : Rat) ≤ 868 := ⟨⟨rfl, rfl, rfl⟩, by decide +kernel⟩

/-- The two sides of the carry, and the case that loses it. -/
theorem witness_CarryStopsAtTheMiddleWord :
    (255 : Nat) ≤ 255 ∧ (255 : Nat) < 256 ∧ (33 ≤ 255 ∧ (255 : Nat) = 255 ∧ 255 < 256 ∧ 256 < 512) ∧ 511 < 512 := by decide

theorem witness_UpdFreqOffsetCompletes : ready.radioState = .rxWaitSync ∧ ready.WaitsEnd :=
  ⟨rfl, waitsEnd_of_none rfl⟩

/-- The most negative sample. -/
theorem witness_ThirtyTwoUpdatesMoveTheOffset :
    let s := scripted ready (List.replicate 32 0x80)
    s.radioState = .rxWaitSync ∧ s.WaitsEnd ∧ s.winIdx = 0 ∧ s.answersFrom 0 32 = List.replicate 32 0x80 :=
  ⟨rfl, waitsEnd_of_none rfl, rfl, by decide +kernel⟩

theorem witness_CorrectionIsTheClampedMean :
    (∀ i : Fin 32, (asI8 (Vector.replicate 32 (0x80 : Byte))[i]).natAbs ≤ 128) ∧
    (∀ i : Fin 32, (asI8 (Vector.replicate 32 (0 : Byte))[i]).natAbs ≤ 0) := by decide +kernel

theorem witness_IrqIgnoredWithoutHandler : fresh.irqEnabled = false := rfl

/-- An empty FIFO at the start, and one byte short of the header. -/
theorem witness_HeaderAccumulates :
    (scripted ready [0]).Inv ∧ LengthsLawful (scripted ready [0]).cfg ∧ (scripted ready [0]).WaitsEnd ∧
      (scripted ready [0]).irqEnabled = true ∧ (scripted ready [0]).radioState.isRx = true ∧
      ¬ (scripted ready [0]).headerComplete ∧ ¬ (scripted ready [3, 0xA1, 0, 0]).headerComplete :=
  ⟨scripted_inv ready_inv _, x1_lengths, waitsEnd_of_none rfl, rfl, rfl, by unfold State.headerComplete; decide,
    by unfold State.headerComplete; decide⟩

/-- A configuration whose headers all announce `n` bytes. -/
def announcing (n : Nat) : Cfg := { x1 with totalLen := { entries := [], other := n } }

/-- V-R7: 259 bytes announced; and the two totals next to the legal ones, one below the header, one above the largest
frame. -/
theorem witness_BadLengthIsAbandoned :
    let s := scripted ready [4, 0xA1, 0, 0, 0xFF]
    let low : State := { s with cfg := announcing 3 }
    let high : State := { s with cfg := announcing 33 }
    (s.Inv ∧ LengthsLawful s.cfg ∧ s.WaitsEnd ∧ s.irqEnabled = true ∧ s.radioState.isRx = true ∧ s.headerComplete ∧
      ¬ s.totalLegal) ∧
    (low.Inv ∧ LengthsLawful low.cfg ∧ low.WaitsEnd ∧ low.irqEnabled = true ∧ low.radioState.isRx = true ∧
      low.headerComplete ∧ ¬ low.totalLegal) ∧
    (high.Inv ∧ LengthsLawful high.cfg ∧ high.WaitsEnd ∧ high.irqEnabled = true ∧ high.radioState.isRx = true ∧
      high.headerComplete ∧ ¬ high.totalLegal) :=
  have inv := scripted_inv ready_inv [4, 0xA1, 0, 0, 0xFF]
  ⟨⟨inv, x1_lengths, waitsEnd_of_none rfl, rfl, rfl, by unfold State.headerComplete; decide,
      by unfold State.totalLegal; decide +kernel⟩,
    ⟨⟨inv.1, inv.2, inv.3, inv.4, inv.5, inv.6, inv.7, inv.8, inv.9, inv.10⟩, ⟨by decide, by decide, by decide⟩,
      waitsEnd_of_none rfl, rfl, rfl, by unfold State.headerComplete; decide, by unfold State.totalLegal; decide +kernel⟩,
    ⟨⟨inv.1, inv.2, inv.3, inv.4, inv.5, inv.6, inv.7, inv.8, inv.9, inv.10⟩, ⟨by decide, by decide, by decide⟩,
      waitsEnd_of_none rfl, rfl, rfl, by unfold State.headerComplete; decide, by unfold State.totalLegal; decide +kernel⟩⟩

/-- V-R8, the largest frame, its header just complete; V-R2, five of seven missing bytes. -/
theorem witness_PayloadAccumulates :
    let s := scripted ready [4, 0xA1, 0, 0, 0x1C]
    let t := scripted receiving [5, 1, 2, 3, 4, 5]
    (s.Inv ∧ LengthsLawful s.cfg ∧ s.WaitsEnd ∧ s.irqEnabled = true ∧ s.radioState.isRx = true ∧ s.headerComplete ∧
      s.totalLegal ∧ s.rxHave + s.rxTake < s.frameTotal) ∧
    (t.Inv ∧ LengthsLawful t.cfg ∧ t.WaitsEnd ∧ t.irqEnabled = true ∧ t.radioState.isRx = true ∧ t.headerComplete ∧
      t.totalLegal ∧ t.rxHave + t.rxTake < t.frameTotal) :=
  ⟨⟨scripted_inv ready_inv _, x1_lengths, waitsEnd_of_none rfl, rfl, rfl, by unfold State.headerComplete; decide,
      by unfold State.totalLegal; decide +kernel, by decide +kernel⟩,
    ⟨scripted_inv receiving_inv _, x1_lengths, waitsEnd_of_none rfl, rfl, rfl, by unfold State.headerComplete; decide,
      by unfold State.totalLegal; decide +kernel, by decide +kernel⟩⟩

/-- A header-only frame in one service, and seven payload bytes with more in the FIFO than the frame needs. -/
theorem witness_FrameCompletes :
    let s := scripted ready [4, 0xA1, 0, 0, 0]
    let t := scripted receiving [200, 1, 2, 3, 4, 5, 6, 7]
    (s.Inv ∧ LengthsLawful s.cfg ∧ s.WaitsEnd ∧ s.irqEnabled = true ∧ s.radioState.isRx = true ∧ s.headerComplete ∧
      s.totalLegal ∧ s.rxHave + s.rxTake = s.frameTotal) ∧
    (t.Inv ∧ LengthsLawful t.cfg ∧ t.WaitsEnd ∧ t.irqEnabled = true ∧ t.radioState.isRx = true ∧ t.headerComplete ∧
      t.totalLegal ∧ t.rxHave + t.rxTake = t.frameTotal) :=
  ⟨⟨scripted_inv ready_inv _, x1_lengths, waitsEnd_of_none rfl, rfl, rfl, by unfold State.headerComplete; decide,
      by unfold State.totalLegal; decide +kernel, by decide +kernel⟩,
    ⟨scripted_inv receiving_inv _, x1_lengths, waitsEnd_of_none rfl, rfl, rfl, by unfold State.headerComplete; decide,
      by unfold State.totalLegal; decide +kernel, by decide +kernel⟩⟩

/-- V-R1 to V-R3 in four services, one of them with an empty FIFO and the last with more than the frame. -/
theorem witness_ReceptionRoundTrip :
    let frame : Bytes := [0xA1, 0, 0, 7, 1, 2, 3, 4, 5, 6, 7]
    let levels : List Byte := [3, 0, 6, 8]
    let s := scripted ready (rxScript levels frame ++ 200 :: 0x2A :: [])
    s.Inv ∧ LengthsLawful s.cfg ∧ s.WaitsEnd ∧ s.irqEnabled = true ∧ s.radioState = .rxWaitSync ∧
      s.cfg.headerLen ≤ frame.length ∧ frame.length ≤ s.cfg.maxFrameLen ∧
      totalLenOf s.cfg (frame.take s.cfg.headerLen) = frame.length ∧
      s.inp.answers.items = rxScript levels frame ++ 200 :: 0x2A :: [] ∧
      (levels.dropLast.map BitVec.toNat).sum < frame.length ∧ frame.length ≤ (levels.map BitVec.toNat).sum :=
  ⟨scripted_inv ready_inv _, x1_lengths, waitsEnd_of_none rfl, rfl, rfl, by decide, by decide, by decide +kernel, rfl,
    by decide, by decide⟩

/-- No room (V-T11). -/
theorem witness_TransmitFifoIsFed :
    (scripted sending [8]).WaitsEnd ∧ (scripted sending [8]).irqEnabled = true ∧
      (scripted sending [8]).radioState = .txTransmit := ⟨waitsEnd_of_none rfl, rfl, rfl⟩

/-- The last byte of slot 0 is out. -/
def sent : State := { sending with radioState := .txLastTransmit, txOffset := 20 }

/-- The same, and slot 5 waits. -/
def sentWithNext : State := { sent with slots := sent.slots.set 5 { inUse := true, frame := [1, 2, 3] } }

theorem witness_NextSlotStartsAfterCompletion :
    let slots := sentWithNext.slots.set sentWithNext.cursor { sentWithNext.slots[sentWithNext.cursor] with inUse := false }
    sentWithNext.WaitsEnd ∧ sentWithNext.irqEnabled = true ∧ sentWithNext.radioState = .txLastTransmit ∧
      nextSlot sentWithNext.cfg slots = some 5 := ⟨waitsEnd_of_none rfl, rfl, rfl, by decide +kernel⟩

theorem witness_ReceptionArmedAfterLastSlot :
    let slots := sent.slots.set sent.cursor { sent.slots[sent.cursor] with inUse := false }
    sent.WaitsEnd ∧ sent.irqEnabled = true ∧ sent.radioState = .txLastTransmit ∧
      (∀ j : Fin 16, slots[j].inUse = false) := ⟨waitsEnd_of_none rfl, rfl, rfl, by decide +kernel⟩

theorem witness_TimerServiceStrobesOnce :
    sending.WaitsEnd ∧ ({ sending with timerArmed := true } : State).timerArmed = true ∧ sending.radioState.isTx = true ∧
      sent.radioState.isTx = true ∧ ({ ready with timerArmed := true } : State).timerArmed = true ∧
      ready.radioState.isTx = false ∧ receiving.radioState.isTx = false ∧ ready.timerArmed = false :=
  ⟨waitsEnd_of_none rfl, by decide⟩

theorem witness_SubmissionStartsWhenIdle :
    ready.irqEnabled = true ∧ ready.WaitsEnd ∧ ready.radioState = .rxWaitSync ∧
      nextSlot ready.cfg (accept ready.cfg ready.slots [1]) = some 0 ∧
      nextSlot ready.cfg ([[1], [2]].foldl (accept ready.cfg) ready.slots) = some 0 :=
  ⟨rfl, waitsEnd_of_none rfl, rfl, by decide +kernel, by decide +kernel⟩

/-- Busy, and idle with the frame dropped. -/
theorem witness_SubmissionOnlyEnqueuesOtherwise :
    sent.irqEnabled = true ∧ sent.radioState ≠ .rxWaitSync ∧ ready.irqEnabled = true ∧
      nextSlot ready.cfg (accept ready.cfg ready.slots (List.replicate 33 0)) = none ∧
      nextSlot ready.cfg (([] : List Bytes).foldl (accept ready.cfg) ready.slots) = none := by decide +kernel

/-- The longest frame and a free slot; one byte more; no slot free. -/
theorem witness_EnqueueTakesAFreeSlot :
    (List.replicate 32 (0 : Byte)).length ≤ x1.maxFrameLen ∧ (∃ k : Fin 16, ready.slots[k].inUse = false) ∧
    x1.maxFrameLen < (List.replicate 33 (0 : Byte)).length ∧
    (∀ k : Fin 16, (Vector.replicate 16 ({ inUse := true, frame := [] } : Slot))[k].inUse = true) := by decide +kernel

theorem witness_SeventeenthFrameIsDropped :
    let frames : List Bytes := List.replicate 17 (List.replicate 32 1)
    frames.length = 17 ∧ (∀ f ∈ frames, f.length ≤ ready.cfg.maxFrameLen) ∧ ready.irqEnabled = true ∧
      ready.radioState = .rxWaitSync ∧ ready.WaitsEnd ∧ (∀ k : Fin 16, ready.slots[k].inUse = false) :=
  ⟨by decide, by decide +kernel, rfl, rfl, waitsEnd_of_none rfl, by decide +kernel⟩

theorem witness_RestartRxCompletes : sending.irqEnabled = true ∧ sending.WaitsEnd := ⟨rfl, waitsEnd_of_none rfl⟩

theorem witness_RetuningCompletes :
    let s := scripted ready [0]
    s.irqEnabled = true ∧ s.radioState = .rxWaitSync ∧ s.WaitsEnd ∧ PollEnds s 0 1 ∧
      inBands s.cfg (s.cfg.fCarrier + mhzOfI32 12000000) = true ∧ inBands s.cfg (mhzOfU32 860000000) = true :=
  ⟨rfl, rfl, waitsEnd_of_none rfl, pollEnds_one, by decide +kernel, by decide +kernel⟩

theorem witness_TrackingGateCompletes : ready.irqEnabled = true ∧ sending.irqEnabled = true := by decide

theorem witness_InitOfPresentChipCompletes :
    let s := scripted fresh [0x14, 1, 0]
    inBands s.cfg (s.cfg.fCarrier + mhzOfI32 0) = true ∧ s.WaitsEnd ∧ s.answerAt 0 ≠ 0 ∧ PollEnds s 1 2 :=
  ⟨by decide +kernel, waitsEnd_of_none rfl, by decide, by decide, by decide, by decide, by decide⟩

theorem witness_InitOfAbsentChipCompletes :
    let s := scripted fresh [0]
    inBands s.cfg (s.cfg.fCarrier + mhzOfI32 0) = true ∧ s.WaitsEnd ∧ s.answerAt 0 = 0 :=
  ⟨by decide +kernel, waitsEnd_of_none rfl, rfl⟩

theorem witness_StepKeepsInvariants :
    LengthsLawful ready.cfg ∧ ready.Inv ∧ sending.Inv ∧ receiving.Inv ∧
      ∃ t, step (offered ready [[0x04]]) = .next t :=
  ⟨x1_lengths, ready_inv, sending_inv, receiving_inv, by
    have h : completes .restartRx ((offered ready [[0x04]]).afterWord []) = true := by decide +kernel
    exact ⟨_, (show step (offered ready [[0x04]]) = exec .restartRx ((offered ready [[0x04]]).afterWord []) from rfl).trans
      (exec_run h)⟩⟩

/-- A transition that is not `keep`. -/
theorem witness_RadioStateFollowsTheTable :
    exec (.transmit [1]) ready = .next (run (.transmit [1]) ready) ∧
      (run (.transmit [1]) ready).radioState = .txTransmit := ⟨exec_run (by decide +kernel), by decide +kernel⟩

theorem witness_SlotsAreReleasedOnlyWhenSent :
    exec .evIrq sent = .next (run .evIrq sent) ∧ sent.slots[(0 : Fin 16)].inUse = true ∧
      (run .evIrq sent).slots[(0 : Fin 16)].inUse = false :=
  ⟨exec_run (by decide +kernel), by decide +kernel, by decide +kernel⟩

theorem witness_TracesOnlyGrow :
    let s : State := { offered ready [[0x0A]] with refused := true }
    step s = .next (s.afterWord [] |>.markRefused (.refused .invalidCommand)) ∧ s.refused = true := ⟨rfl, rfl⟩

theorem witness_OnlyReceptionPushes :
    let s := scripted ready [4, 0xA1, 0, 0, 0, 100, 16]
    exec .evIrq s = .next (run .evIrq s) ∧ (run .evIrq s).pushTrace ≠ s.pushTrace := by
  refine ⟨exec_run (by decide +kernel), fun h => ?_⟩
  have : (run .evIrq (scripted ready [4, 0xA1, 0, 0, 0, 100, 16])).pushTrace.length = 1 := by decide +kernel
  rw [h] at this
  cases this

/-- Each of the four registers is changed by an operation that may. -/
theorem witness_WritersOfOffsetIndexEnableAndConfig :
    (run .calibrate { scripted ready [0] with appliedOffset := 1 }).appliedOffset = 0 ∧
    (run .updFreqOffset (scripted ready [5])).winIdx = 1 ∧
    (run (.init 0) (scripted fresh [0x14, 0])).irqEnabled = true ∧
    (run (.setBw 1) ready).config ≠ ready.config := by decide +kernel

theorem witness_ServiceGuardsAreBounded :
    GuardsBounded sending.cfg ∧ exec .evIrq (scripted sending [2]) = .next (run .evIrq (scripted sending [2])) ∧
      (run .evIrq (scripted sending [2])).busTrace =
        (scripted sending [2]).busTrace ++ (run .evIrq (scripted sending [2])).busTrace :=
  ⟨x1_guards, exec_run (by decide +kernel), rfl⟩

theorem witness_ServicesNeverResetCalibrateWakeOrAnswer :
    ChipLawful sending.cfg.chip ∧ exec .evIrq (scripted sending [2]) = .next (run .evIrq (scripted sending [2])) ∧
      (run .evIrq (scripted sending [2])).busTrace =
        (scripted sending [2]).busTrace ++ (run .evIrq (scripted sending [2])).busTrace :=
  ⟨x1_chip, exec_run (by decide +kernel), rfl⟩

end Sys2Proof.Tests
end

section
/-! What every operation may write (10_state.md): the in-use slots, the applied offset, the window index, `irqEnabled`,
`config`, the traces. One predicate says it (`Effect`), one theorem proves it of every operation (`exec_effect`); the
statements about the state's writers are read off it. -/

namespace Sys2Proof.Machine

open Sys2Proof.Config

/-! ## The slot table -/

/-- An enqueued frame takes a free slot, so a slot in use stays as it is (43_host_commands.md R209). -/
theorem accept_keeps_inUse {c : Cfg} {slots : SlotTable} {k : Fin 16} (frame : Bytes)
    (h : slots[k].inUse = true) : (accept c slots frame)[k] = slots[k] := by
  unfold accept
  split
  · rfl
  · split
    · rfl
    · next i hi =>
      have free : slots[i].inUse = false := freeSlot_free hi
      have ne : i ≠ k := by
        rintro rfl
        exact absurd (free.symm.trans h) Bool.false_ne_true
      exact Vector.getElem_set_ne _ _ (Fin.val_ne_of_ne ne)

theorem acceptAll_keeps_inUse {c : Cfg} {k : Fin 16} (frames : List Bytes) (slots : SlotTable)
    (h : slots[k].inUse = true) : (frames.foldl (accept c) slots)[k] = slots[k] := by
  induction frames generalizing slots with
  | nil => rfl
  | cons f rest ih =>
    have keep := accept_keeps_inUse (c := c) f h
    exact (ih _ (by rw [keep]; exact h)).trans keep

/-! ## The traces -/

/-- The configuration record is the same, the traces and ports only grew, the mark was not cleared. -/
structure Grows (s t : State) : Prop where
  cfg_eq : t.cfg = s.cfg
  bus : s.busTrace <+: t.busTrace
  pushes : s.pushTrace <+: t.pushTrace
  responses : s.responses <+: t.responses
  outcomes : s.outcomes <+: t.outcomes
  marked : s.refused = true → t.refused = true

theorem Grows.of_same {s t : State} (hc : t.cfg = s.cfg) (hb : t.busTrace = s.busTrace)
    (hp : t.pushTrace = s.pushTrace) (hr : t.responses = s.responses) (ho : t.outcomes = s.outcomes)
    (hm : t.refused = s.refused) : Grows s t :=
  ⟨hc, hb ▸ List.prefix_rfl, hp ▸ List.prefix_rfl, hr ▸ List.prefix_rfl, ho ▸ List.prefix_rfl, fun m => hm.trans m⟩

theorem Grows.trans {s t u : State} (h : Grows s t) (k : Grows t u) : Grows s u where
  cfg_eq := k.cfg_eq.trans h.cfg_eq
  bus := h.bus.trans k.bus
  pushes := h.pushes.trans k.pushes
  responses := h.responses.trans k.responses
  outcomes := h.outcomes.trans k.outcomes
  marked := fun m => k.marked (h.marked m)

theorem Did.grows {s t : State} {regs : Regs} {x : List BusTxn} {a : List Bytes} {p : List FrameRecord}
    {o : List OpOutcome} (d : Did s t regs x a p o) : Grows s t where
  cfg_eq := d.cfg_eq
  bus := d.trace_prefix
  pushes := ⟨p, d.pushes_eq.symm⟩
  responses := ⟨a, d.responses_eq.symm⟩
  outcomes := ⟨o, d.outcomes_eq.symm⟩
  marked := fun m => d.refused_eq.trans m

theorem Grows.markRefused (s : State) (o : OpOutcome) : Grows s (s.markRefused o) where
  cfg_eq := rfl
  bus := List.prefix_rfl
  pushes := List.prefix_rfl
  responses := List.prefix_rfl
  outcomes := ⟨[o], rfl⟩
  marked := fun _ => rfl

theorem Grows.absorb (s : State) : Grows s s.absorb := .of_same rfl rfl rfl rfl rfl rfl

theorem Grows.dropFirst (s : State) : Grows s s.dropFirst := by
  unfold State.dropFirst
  split <;> exact .of_same rfl rfl rfl rfl rfl rfl

theorem Grows.takeWord (s : State) : Grows s s.takeWord.2 := by
  unfold State.takeWord
  split
  · exact .of_same rfl rfl rfl rfl rfl rfl
  · dsimp only
    split <;> exact .of_same rfl rfl rfl rfl rfl rfl

/-- Arbitration only takes a word or draws a choice. -/
theorem Grows.nextWork (s : State) : Grows s s.nextWork.2 := by
  unfold State.nextWork
  split
  · exact .dropFirst s
  · exact .of_same rfl rfl rfl rfl rfl rfl
  · exact .of_same rfl rfl rfl rfl rfl rfl
  · exact .takeWord s

/-! ## The shadow configuration -/

theorem ConfigWriters.same (i : Instr) (c : TransceiverConfig) : ConfigWriters i c c :=
  ⟨fun e => absurd rfl e, fun e => absurd rfl e, fun e => absurd rfl e, fun e => absurd rfl e,
    fun e => absurd rfl e, fun e => absurd rfl e⟩

/-- `INIT` may write every field. -/
theorem ConfigWriters.of_init (off : Word32) (old new : TransceiverConfig) : ConfigWriters (.init off) old new :=
  ⟨fun _ => ⟨off, .inl rfl⟩, fun _ => ⟨off, .inl rfl⟩, fun _ => ⟨off, .inl rfl⟩, fun _ => ⟨off, .inl rfl⟩,
    fun _ => .inl ⟨off, rfl⟩, fun _ => ⟨off, rfl⟩⟩

theorem ConfigWriters.of_freq {i : Instr} {v : Word32}
    (hi : i = .setFreqOffset v ∨ i = .smSetFreq v ∨ i = .setFreq v) (c : TransceiverConfig)
    (w : Byte × Byte × Byte) : ConfigWriters i c (c.withFreq w) :=
  { ConfigWriters.same i c with freq := fun _ => ⟨v, .inr hi⟩ }

theorem ConfigWriters.of_bw {i : Instr} {v : Word32} (hi : i = .smSetBw v ∨ i = .setBw v)
    (c : TransceiverConfig) (b : Byte) : ConfigWriters i c { c with bwCode := b } :=
  { ConfigWriters.same i c with bw := fun _ => ⟨v, .inr hi⟩ }

/-- An operation that completes leaves what its body left. -/
theorem complete_config {i : Instr} {r : Except Fault State} {s t : State} (h : complete r = .next t)
    (k : ∀ u, r = .ok u → ConfigWriters i s.config u.config) : ConfigWriters i s.config t.config := by
  obtain ⟨u, hu, rfl⟩ := complete_eq_next h
  exact k u hu

/-- What a body did, as far as the configuration goes. -/
theorem Did.configWriters {i : Instr} {s t : State} {regs : Regs} {x : List BusTxn} {a : List Bytes}
    {p : List FrameRecord} {o : List OpOutcome} (d : Did s t regs x a p o)
    (k : ConfigWriters i s.config regs.config) : ConfigWriters i s.config t.config := by
  rw [show t.config = regs.config from d.field Regs.config]
  exact k

/-- A body that leaves the registers alone. -/
theorem Did.keepsConfig {i : Instr} {s t : State} {x : List BusTxn} {a : List Bytes} {p : List FrameRecord}
    {o : List OpOutcome} (d : Did s t s.regs x a p o) : ConfigWriters i s.config t.config :=
  d.configWriters (.same i _)

/-- An operation that answers a value and whose body leaves the registers alone. -/
theorem answering_config {α : Type} {i : Instr} {f : α → Bytes} {r : Except Fault (α × State)} {s t : State}
    (h : complete (answering f r) = .next t) (k : ∀ v u, r = .ok (v, u) → ∃ x, Did s u s.regs x [] [] []) :
    ConfigWriters i s.config t.config :=
  complete_config h fun u hu => by
    obtain ⟨v, w, hw, rfl⟩ := answering_eq_ok.1 hu
    obtain ⟨x, d⟩ := k v w hw
    exact d.keepsConfig

theorem setFreq_config {i : Instr} {v : Word32} {f : Rat} {s t : State}
    (hi : i = .setFreqOffset v ∨ i = .smSetFreq v ∨ i = .setFreq v) (h : complete (drvSetFreq f s) = .next t) :
    ConfigWriters i s.config t.config :=
  complete_config h fun _ hu => by
    obtain ⟨n, -, d⟩ := drvSetFreq_did hu
    exact d.configWriters (.of_freq hi _ _)

theorem setBw_config {i : Instr} {v : Word32} {x : Rat} {s t : State} (hi : i = .smSetBw v ∨ i = .setBw v)
    (h : complete (drvSetBw x s) = .next t) : ConfigWriters i s.config t.config :=
  complete_config h fun _ hu => (drvSetBw_did hu).configWriters (.of_bw hi _ _)

theorem Declined.config {i : Instr} {s t : State} (h : Declined s t) : ConfigWriters i s.config t.config := by
  obtain ⟨o, rfl⟩ := h
  exact .same i _

/-- The field of `config` a Register Driver operation writes is its own (10_state.md R36). -/
theorem exec_driver_config {i : Instr} {s t : State} (hi : i.isDriver = true) (h : exec i s = .next t) :
    ConfigWriters i s.config t.config := by
  have bus : ∀ {body : State → Host.Outcome State Fault Refusal}, whenBusFree body s = .next t →
      (body s = .next t → ConfigWriters i s.config t.config) → ConfigWriters i s.config t.config :=
    fun h k => (whenBusFree_cases h).elim Declined.config fun g => k g.2
  cases i <;> simp only [Instr.isDriver, Bool.false_eq_true] at hi <;> simp only [exec] at h
  case drvReset => exact bus h fun g => complete_config g fun _ hu => (drvReset_did hu).1.keepsConfig
  case wrReg | wrTxFifo | irqRxThr | irqTxThr | irqTxUnf =>
    exact bus h fun g => complete_config g fun _ hu => (busWrite_did hu).keepsConfig
  case wrBurst | wrTxFifoBurst =>
    exact bus h fun g => complete_config g fun _ hu => (busWriteBurst_did hu).keepsConfig
  case strobe | lowPower | flushRx | flushTx =>
    exact bus h fun g => complete_config g fun _ hu => (busStrobe_did hu).keepsConfig
  case rdReg => exact bus h fun g => answering_config g fun _ _ hu => ⟨_, (busRead_did hu).2⟩
  case rdBurst | rdRxFifo => exact bus h fun g => answering_config g fun _ _ hu => ⟨_, (busReadBurst_did hu).2⟩
  case rdStatus | getRssi | getLqi | isConnected | getRxLvl | getTxLvl =>
    exact bus h fun g => answering_config g fun _ _ hu => ⟨_, (busReadStatus_did hu).2⟩
  case setFreq v =>
    exact bus h fun g => (whenInBand_cases g).elim Declined.config fun k => setFreq_config (.inr (.inr rfl)) k.2
  case calibrate =>
    exact bus h fun g => complete_config g fun _ hu => by
      obtain ⟨n, -, d⟩ := drvCalibrate_did hu
      exact d.configWriters (.same _ _)
  case activePower =>
    exact bus h fun g => complete_config g fun _ hu => by
      obtain ⟨n, -, d⟩ := drvActivePower_did hu
      exact d.configWriters (.same _ _)
  case setBw v => exact bus h (setBw_config (.inr rfl))
  case setBitrate v =>
    exact bus h fun g => complete_config g fun _ hu =>
      (drvSetBitrate_did hu).configWriters { ConfigWriters.same _ s.config with bitrate := fun _ => ⟨v, .inr rfl⟩ }
  case setDev v =>
    exact bus h fun g => complete_config g fun _ hu =>
      (drvSetDev_did hu).configWriters { ConfigWriters.same _ s.config with dev := fun _ => ⟨v, .inr rfl⟩ }
  case setFifoThr l =>
    exact bus h fun g => complete_config g fun _ hu =>
      (drvSetFifoThr_did hu).configWriters { ConfigWriters.same _ s.config with fifo := fun _ => .inr ⟨l, rfl⟩ }
  case updFreqOffset =>
    exact bus h fun g => complete_config g fun _ hu => (drvUpdFreqOffset_did hu).configWriters (by
      rw [Regs.updated_eq]
      split <;> exact .same _ _)

/-- The field of `config` a reconfiguration command writes (43_host_commands.md R204 to R206). -/
theorem exec_reconfigure_config {i : Instr} {v : Word32} {s t : State}
    (hi : i = .setFreqOffset v ∨ i = .smSetFreq v ∨ i = .smSetBw v) (h : exec i s = .next t) :
    ConfigWriters i s.config t.config := by
  have admitted : ∀ {body : State → Host.Outcome State Fault Refusal}, whenInitialised (whenIdle body) s = .next t →
      (body s = .next t → ConfigWriters i s.config t.config) → ConfigWriters i s.config t.config :=
    fun h k => (whenInitialised_cases h).elim Declined.config fun g =>
      (whenIdle_cases g.2).elim Declined.config fun g => k g.2
  rcases hi with rfl | rfl | rfl <;> simp only [exec] at h
  · exact admitted h fun g => (whenInBand_cases g).elim Declined.config fun k => setFreq_config (.inl rfl) k.2
  · exact admitted h fun g => (whenInBand_cases g).elim Declined.config fun k => setFreq_config (.inr (.inl rfl)) k.2
  · exact admitted h (setBw_config (.inl rfl))

/-! ## What every operation may do -/

/-- A slot in use stays as it is, but the active one, released by the interrupt service that ends its transmission
(10_state.md R31). -/
def SlotsHeld (i : Instr) (r q : Regs) : Prop :=
  ∀ k : Fin 16, r.slots[k].inUse = true → q.slots[k] = r.slots[k] ∨
    (i = .evIrq ∧ r.irqEnabled = true ∧ r.radioState = .txLastTransmit ∧ k = r.cursor ∧
      q.slots[k].frame = r.slots[k].frame)

/-- What operation `i` may write of the registers `r`, each with its writers (10_state.md R31 to R42). -/
structure MayWrite (i : Instr) (r q : Regs) : Prop where
  slots : SlotsHeld i r q
  offset : q.appliedOffset = r.appliedOffset ∨
    (i.calibrates = true ∧ q.appliedOffset = 0) ∨ i = .updFreqOffset ∨ i = .evIrq
  idx : q.winIdx = r.winIdx ∨ ((i = .updFreqOffset ∨ i = .evIrq) ∧ q.winIdx = r.winIdx + 1)
  enable : q.irqEnabled = r.irqEnabled ∨ ∃ off, i = .init off
  idleOnly : q.config = r.config ∨ r.radioState = .rxWaitSync ∨ ∃ off, i = .init off
  fields : ConfigWriters i r.config q.config

/-- All but the slot table as it was. -/
theorem MayWrite.of_slots {i : Instr} {r q : Regs} (hs : SlotsHeld i r q)
    (ho : q.appliedOffset = r.appliedOffset) (hw : q.winIdx = r.winIdx) (he : q.irqEnabled = r.irqEnabled)
    (hc : q.config = r.config) : MayWrite i r q :=
  ⟨hs, .inl ho, .inl hw, .inl he, .inl hc, hc ▸ .same i _⟩

/-- None of these registers was written. -/
theorem MayWrite.of_same {i : Instr} {r q : Regs} (hs : q.slots = r.slots)
    (ho : q.appliedOffset = r.appliedOffset) (hw : q.winIdx = r.winIdx) (he : q.irqEnabled = r.irqEnabled)
    (hc : q.config = r.config) : MayWrite i r q :=
  .of_slots (fun k _ => .inl (by rw [hs])) ho hw he hc

theorem MayWrite.of_driver {i : Instr} {r q : Regs} (idle : r.radioState = .rxWaitSync) (d : DriverOnly i r q)
    (c : ConfigWriters i r.config q.config) : MayWrite i r q where
  slots := fun k _ => .inl (by rw [d.rest])
  offset := (em _).imp_right fun ne => (d.offset ne).imp_right .inl
  idx := (em _).imp_right fun ne => (d.idx ne).imp_left .inl
  enable := .inl (by rw [d.rest])
  idleOnly := .inr (.inl idle)
  fields := c

theorem MayWrite.of_reception {r q : Regs} (o : RxOnly { r with irqPending := false } q) : MayWrite .evIrq r q where
  slots := fun k _ => .inl (by rw [o.rest])
  offset := .inr (.inr (.inr rfl))
  idx := o.idx.imp_right fun e => ⟨.inr rfl, e⟩
  enable := .inl (by rw [o.rest])
  idleOnly := .inl (by rw [o.rest])
  fields := by rw [o.rest]; exact .same _ _

/-- The refill of the transmit FIFO writes `radioState` and `txOffset` only. -/
theorem MayWrite.of_feed (s : State) (lvl : Nat) :
    MayWrite .evIrq s.regs { feedRegs s lvl with irqPending := false } := by
  unfold feedRegs
  dsimp only
  split <;> exact .of_same rfl rfl rfl rfl rfl

/-- Releasing the active slot changes no other slot, and no frame (42_rx_tx_sequencer.md R180). -/
theorem released_slot {slots : SlotTable} {cursor : Fin 16} (k : Fin 16) :
    let after := slots.set cursor { slots[cursor] with inUse := false }
    after[k] = slots[k] ∨ (k = cursor ∧ after[k].frame = slots[k].frame) := by
  intro after
  by_cases e : cursor = k
  · subst e
    exact .inr ⟨rfl, by simp [after]⟩
  · exact .inl (Vector.getElem_set_ne _ _ (Fin.val_ne_of_ne e))

/-- The end of a transmission releases the active slot and writes the sequencer's registers only. -/
theorem MayWrite.of_txDone {r q : Regs} (he : r.irqEnabled = true) (hr : r.radioState = .txLastTransmit)
    (hq : q = { r with
      slots := r.slots.set r.cursor { r.slots[r.cursor] with inUse := false }
      irqPending := q.irqPending, cursor := q.cursor, txOffset := q.txOffset, radioState := q.radioState
      rxCount := q.rxCount, rxTotal := q.rxTotal, timerArmed := q.timerArmed, timerDeadline := q.timerDeadline }) :
    MayWrite .evIrq r q := by
  refine .of_slots (fun k _ => ?_) (by rw [hq]) (by rw [hq]) (by rw [hq]) (by rw [hq])
  rw [hq]
  exact (released_slot k).imp_right fun g => ⟨rfl, he, hr, g.1, g.2⟩

/-- What holds from `s` to `t` when operation `i` answers `t`, whether it ran or was declined. -/
structure Effect (i : Instr) (s t : State) : Prop where
  grows : Grows s t
  writes : MayWrite i s.regs t.regs
  /-- 42_rx_tx_sequencer.md R174: only a receive service pushes, one frame at most. -/
  pushes : t.pushTrace = s.pushTrace ∨
    (i = .evIrq ∧ s.irqEnabled = true ∧ s.radioState.isRx = true ∧ ∃ f, t.pushTrace = s.pushTrace ++ [f])

theorem Effect.of_declined {i : Instr} {s t : State} (h : Declined s t) : Effect i s t := by
  obtain ⟨o, rfl⟩ := h
  exact ⟨.markRefused s o, .of_same rfl rfl rfl rfl rfl, .inl rfl⟩

/-- An operation that ran and pushed nothing. -/
theorem Effect.of_did {i : Instr} {s t : State} {regs : Regs} {x : List BusTxn} {a : List Bytes}
    {o : List OpOutcome} (d : Did s t regs x a [] o) (w : MayWrite i s.regs regs) : Effect i s t :=
  ⟨d.grows, d.regs_eq ▸ w, .inl (by rw [d.pushes_eq, List.append_nil])⟩

theorem Effect.of_driver {i : Instr} {s t : State}
    (h : Declined s t ∨ (s.radioState = .rxWaitSync ∧ DriverDoes i s t))
    (c : ConfigWriters i s.config t.config) : Effect i s t := by
  rcases h with g | ⟨idle, regs, x, a, d, only⟩
  · exact .of_declined g
  · exact .of_did d (.of_driver idle only (d.regs_eq ▸ c))

theorem Effect.of_reception {s t : State} {regs : Regs} {x : List BusTxn} {p : List FrameRecord}
    (he : s.irqEnabled = true) (hr : s.radioState.isRx = true) (d : Did s t regs x [] p [.ok])
    (o : RxOnly { s.regs with irqPending := false } regs) (hp : p.length ≤ 1) : Effect .evIrq s t := by
  refine ⟨d.grows, d.regs_eq ▸ .of_reception o, ?_⟩
  rw [d.pushes_eq]
  match p, hp with
  | [], _ => exact .inl (List.append_nil _)
  | [f], _ => exact .inr ⟨rfl, he, hr, f, rfl⟩

/-! ### Operation by operation -/

theorem Did.enableTracking (s : State) (id : Bytes) :
    Did s (s.enableTracking id) { s.regs with trackedNetId := id, trackingEnabled := true } [] [] [] [] :=
  .of_pure rfl rfl rfl rfl rfl rfl rfl rfl rfl

theorem Did.disableTracking (s : State) :
    Did s s.disableTracking { s.regs with trackingEnabled := false } [] [] [] [] :=
  .of_pure rfl rfl rfl rfl rfl rfl rfl rfl rfl

/-- A submission that keeps the slots in use, whether or not a transmission starts. -/
theorem Effect.of_submission {i : Instr} {s t : State} {slots : SlotTable}
    (hs : ∀ k : Fin 16, s.slots[k].inUse = true → slots[k] = s.slots[k])
    (h : (∃ j d, s.radioState = .rxWaitSync ∧ nextSlot s.cfg slots = some j ∧
        Did s t (Regs.started { s.regs with slots := slots } s.cfg j d) (startTxTxns s.cfg slots[j].frame) [] []
          [.ok]) ∨
      Did s t { s.regs with slots := slots } [] [] [] [.ok]) : Effect i s t := by
  rcases h with ⟨j, d, -, -, started⟩ | filled
  · exact .of_did started (.of_slots (fun k u => .inl (hs k u)) rfl rfl rfl rfl)
  · exact .of_did filled (.of_slots (fun k u => .inl (hs k u)) rfl rfl rfl rfl)

theorem evIrq_effect {s t : State} (h : exec .evIrq s = .next t) : Effect .evIrq s t := by
  rcases exec_evIrq h with ⟨-, d⟩ | ⟨he, hr, regs, x, p, d, only, hp, -⟩ | ⟨-, -, d⟩ |
    ⟨he, hr, ⟨j, dl, -, d⟩ | ⟨-, d⟩⟩
  · exact .of_did d (.of_same rfl rfl rfl rfl rfl)
  · exact .of_reception he hr d only hp
  · exact .of_did d (.of_feed s _)
  · exact .of_did d (.of_txDone he hr rfl)
  · exact .of_did d (.of_txDone he hr rfl)

theorem evTimer_effect {s t : State} (h : exec .evTimer s = .next t) : Effect .evTimer s t := by
  have cleared : Effect .evTimer { s with timerPending := false } t := by
    rcases exec_evTimer h with ⟨-, -, d⟩ | d
    · exact .of_did d (.of_same rfl rfl rfl rfl rfl)
    · exact .of_did d (.of_same rfl rfl rfl rfl rfl)
  have enter : Grows s { s with timerPending := false } := .of_same rfl rfl rfl rfl rfl rfl
  exact ⟨enter.trans cleared.grows, cleared.writes, cleared.pushes⟩

theorem init_effect {off : Word32} {s t : State} (h : exec (.init off) s = .next t) : Effect (.init off) s t := by
  rcases exec_init h with g | ⟨-, d⟩ | ⟨-, n, d⟩
  · exact .of_declined g
  · exact .of_did d ⟨fun _ _ => .inl rfl, .inl rfl, .inl rfl, .inr ⟨off, rfl⟩, .inl rfl, .of_init off _ _⟩
  · exact .of_did d ⟨fun _ _ => .inl rfl, .inr (.inl ⟨rfl, rfl⟩), .inl rfl, .inr ⟨off, rfl⟩, .inr (.inr ⟨off, rfl⟩),
      .of_init off _ _⟩

/-- What every operation may do, over every operation and state. -/
theorem exec_effect {i : Instr} {s t : State} (h : exec i s = .next t) : Effect i s t := by
  by_cases hd : i.isDriver = true
  · exact .of_driver (exec_driver hd h) (exec_driver_config hd h)
  · cases i with
    | init off => exact init_effect h
    | transmit frame =>
      exact (exec_transmit h).elim .of_declined fun g => .of_submission (fun _ u => accept_keeps_inUse frame u) g.2
    | transmitList frames =>
      exact (exec_transmitList h).elim .of_declined fun g =>
        .of_submission (fun _ u => acceptAll_keeps_inUse frames _ u) g.2
    | restartRx => exact (exec_restartRx h).elim .of_declined fun d => .of_did d (.of_same rfl rfl rfl rfl rfl)
    | setFreqOffset v => exact .of_driver (exec_reconfigure (.inl rfl) h) (exec_reconfigure_config (.inl rfl) h)
    | smSetFreq v =>
      exact .of_driver (exec_reconfigure (.inr (.inl rfl)) h) (exec_reconfigure_config (.inr (.inl rfl)) h)
    | smSetBw v =>
      exact .of_driver (exec_reconfigure (.inr (.inr rfl)) h) (exec_reconfigure_config (.inr (.inr rfl)) h)
    | trackEnable id =>
      rcases exec_trackEnable h with g | rfl
      · exact .of_declined g
      · exact .of_did ((Did.enableTracking s id).trans (.markOk _) (fun e => e)) (.of_same rfl rfl rfl rfl rfl)
    | trackDisable =>
      rcases exec_trackDisable h with g | rfl
      · exact .of_declined g
      · exact .of_did ((Did.disableTracking s).trans (.markOk _) (fun e => e)) (.of_same rfl rfl rfl rfl rfl)
    | evIrq => exact evIrq_effect h
    | evTimer => exact evTimer_effect h
    | _ => exact absurd rfl hd

/-- A step adds to an operation only what arbitration does. -/
theorem step_grows {s t : State} (h : step s = .next t) : Grows s t := by
  have start := (Grows.absorb s).trans (.nextWork s.absorb)
  unfold step at h
  split at h
  · next i u e => rw [e] at start; exact start.trans (exec_effect h).grows
  · next u e =>
    rw [e] at start
    obtain rfl : u.markRefused _ = t := by simpa [refuse] using h
    exact start.trans (.markRefused u _)
  · next u e =>
    rw [e] at start
    obtain rfl : u = t := by simpa using h
    exact start

end Sys2Proof.Machine
end

section
/-! The statements of 10_state.md. -/

namespace Sys2Proof.Machine

/-- Settles O53, from the construction of the state. -/
theorem resetValues : Obligations.ResetValues := by
  have free : ∀ i : Fin 16, State.reset.slots[i].inUse = false := fun i => by
    simp [State.reset, State.resetWith]
  exact ⟨rfl, rfl, rfl, free, rfl, rfl, rfl, rfl, rfl, rfl, rfl, rfl, rfl, rfl, rfl, rfl, rfl⟩

/-- Settles O55, from the slot clause of `exec_effect`. -/
theorem slotsAreReleasedOnlyWhenSent : Obligations.SlotsAreReleasedOnlyWhenSent := by
  intro i s t k h used
  rcases (exec_effect h).writes.slots k used with same | ⟨ei, he, hr, hk, frame⟩
  · have same : t.slots[k] = s.slots[k] := same
    exact ⟨by rw [same], fun free => by rw [same, used] at free; cases free⟩
  · exact ⟨frame, fun _ => ⟨ei, he, hr, hk⟩⟩

/-- Settles O56, from `step_grows`. -/
theorem tracesOnlyGrow : Obligations.TracesOnlyGrow := by
  intro s t h
  have g := step_grows h
  exact ⟨g.cfg_eq, g.bus, g.pushes, g.responses, g.outcomes, g.marked⟩

/-- Settles O57, from the push clause of `exec_effect`. -/
theorem onlyReceptionPushes : Obligations.OnlyReceptionPushes :=
  fun _ _ _ h pushed => (exec_effect h).pushes.resolve_left pushed

/-- Settles O58, from the register clauses of `exec_effect`. -/
theorem writersOfOffsetIndexEnableAndConfig : Obligations.WritersOfOffsetIndexEnableAndConfig := by
  intro i s t h
  have w := (exec_effect h).writes
  exact ⟨w.offset.resolve_left, w.idx.resolve_left, w.enable.resolve_left, w.idleOnly.resolve_left, w.fields⟩

end Sys2Proof.Machine
end

section
/-! The two directions of the encoding (30_encoding.md R90 to R93, R96): the decoder reads back every word the encoder
writes, and accepts no other. What one format accepts is said by its lemma of Laws/Decode.lean; here the opcode table
goes on top of the formats. -/

namespace Sys2Proof

/-- Every operation the port can carry is read back from its word, by the format of its row in the table. -/
theorem decode_encode {n : Nat} {i : Instr} (h : i.wellFormed n = true) : decode n (encode i) = .ok i := by
  cases i with
  | init v | setFreqOffset v | smSetFreq v | smSetBw v | setFreq v | setBw v | setBitrate v | setDev v =>
    exact format32_eq_ok.2 ⟨v, rfl, rfl⟩
  | transmit data | wrTxFifoBurst data => exact formatL_eq_ok.2 ⟨data, of_decide_eq_true h, rfl, rfl⟩
  | transmitList frames =>
    simp only [Instr.wellFormed, fitsLengthByte, Bool.and_eq_true, List.all_eq_true, decide_eq_true_eq] at h
    obtain ⟨hn, hl⟩ := h
    exact formatLL_eq_ok.2 ⟨frames, hn, hl, rfl, rfl⟩
  | trackEnable id => exact formatNID_eq_ok.2 ⟨of_decide_eq_true h, rfl⟩
  | wrReg addr value guard => exact formatAVG_eq_ok.2 ⟨addr, value, guard, rfl, rfl⟩
  | wrBurst addr guard data => exact formatAGL_eq_ok.2 ⟨addr, guard, data, of_decide_eq_true h, rfl, rfl⟩
  | strobe cmd guard => exact formatCG_eq_ok.2 ⟨cmd, guard, rfl, rfl⟩
  | rdReg b | rdStatus b | rdRxFifo b | wrTxFifo b | setFifoThr b => exact formatB_eq_ok.2 ⟨b, rfl, rfl⟩
  | rdBurst addr k => exact formatAN_eq_ok.2 ⟨addr, k, rfl, rfl⟩
  | restartRx | trackDisable | drvReset | calibrate | getRssi | getLqi | lowPower | activePower | isConnected | flushRx
  | flushTx | getRxLvl | getTxLvl | irqRxThr | irqTxThr | irqTxUnf | updFreqOffset | evIrq | evTimer =>
    exact formatN_eq_ok.2 ⟨rfl, rfl⟩

theorem encode_eq_of_opcode {k : Nat} {op : Byte} {ops : Bytes} {i : Instr} (hop : op.toNat = k)
    (e : encode i = BitVec.ofNat 8 k :: ops) : encode i = op :: ops := by
  rw [e, ← hop, BitVec.ofNat_toNat, BitVec.setWidth_eq]

/-- A word that decodes is the word of what it decodes to. The cases are the rows of `decode`'s table, counted from its
first, taken format by format; what is left is the reserved opcodes. -/
theorem encode_of_decode {n : Nat} {w : Bytes} {i : Instr} (h : decode n w = .ok i) :
    encode i = w ∧ i.wellFormed n = true := by
  rcases w with _ | ⟨op, ops⟩
  · simp [decode] at h
  · simp only [decode] at h
    split at h
    case h_4 hop | h_9 hop | h_10 hop | h_18 hop | h_22 hop | h_23 hop | h_24 hop | h_25 hop | h_26 hop | h_30 hop |
        h_31 hop | h_32 hop | h_33 hop | h_35 hop | h_36 hop | h_37 hop | h_38 hop | h_39 hop | h_40 hop =>
      obtain ⟨rfl, rfl⟩ := formatN_eq_ok.1 h
      exact ⟨encode_eq_of_opcode hop rfl, rfl⟩
    case h_14 hop | h_16 hop | h_27 hop | h_28 hop | h_34 hop =>
      obtain ⟨b, rfl, rfl⟩ := formatB_eq_ok.1 h
      exact ⟨encode_eq_of_opcode hop rfl, rfl⟩
    case h_15 hop =>
      obtain ⟨a, b, rfl, rfl⟩ := formatAN_eq_ok.1 h
      exact ⟨encode_eq_of_opcode hop rfl, rfl⟩
    case h_1 hop | h_5 hop | h_6 hop | h_7 hop | h_17 hop | h_19 hop | h_20 hop | h_21 hop =>
      obtain ⟨v, rfl, rfl⟩ := format32_eq_ok.1 h
      exact ⟨encode_eq_of_opcode hop rfl, rfl⟩
    case h_11 hop =>
      obtain ⟨a, v, g, rfl, rfl⟩ := formatAVG_eq_ok.1 h
      exact ⟨encode_eq_of_opcode hop rfl, rfl⟩
    case h_13 hop =>
      obtain ⟨c, g, rfl, rfl⟩ := formatCG_eq_ok.1 h
      exact ⟨encode_eq_of_opcode hop rfl, rfl⟩
    case h_2 hop | h_29 hop =>
      obtain ⟨data, hl, rfl, rfl⟩ := formatL_eq_ok.1 h
      exact ⟨encode_eq_of_opcode hop rfl, decide_eq_true hl⟩
    case h_12 hop =>
      obtain ⟨a, g, data, hl, rfl, rfl⟩ := formatAGL_eq_ok.1 h
      exact ⟨encode_eq_of_opcode hop rfl, decide_eq_true hl⟩
    case h_3 hop =>
      obtain ⟨frames, hn, hl, rfl, rfl⟩ := formatLL_eq_ok.1 h
      exact ⟨encode_eq_of_opcode hop rfl, by simpa [Instr.wellFormed, fitsLengthByte, hn] using hl⟩
    case h_8 hop =>
      obtain ⟨hl, rfl⟩ := formatNID_eq_ok.1 h
      exact ⟨encode_eq_of_opcode hop rfl, decide_eq_true hl⟩
    case h_41 => cases h

/-- Settles O1: decoding undoes encoding, format by format. -/
theorem decodeOfEncodeIsTheOperation : Obligations.DecodeOfEncodeIsTheOperation :=
  fun _ _ h => decode_encode h

/-- Settles O2: what a row of the opcode table accepts is a word of that row. -/
theorem decodedWordIsTheEncoding : Obligations.DecodedWordIsTheEncoding :=
  fun _ _ _ h => encode_of_decode h

/-- Settles O3: each of the six words is what the encoder writes for its operation. -/
theorem sampleWordsDecode : Obligations.SampleWordsDecode :=
  ⟨decode_encode (i := .wrReg 0x0C 0x05 10) rfl, decode_encode (i := .wrBurst 0x3F 5 [0xAA, 0xBB]) rfl,
    decode_encode (i := .setFreq 868000000) rfl, decode_encode (i := .transmitList [[0xAA], [0xBB, 0xBB]]) rfl,
    decode_encode (i := .updFreqOffset) rfl, decode_encode (i := .evIrq) rfl⟩

end Sys2Proof
end

section
/-! Words that are no operation (30_encoding.md R98), and what a step makes of them. -/

namespace Sys2Proof.Machine

/-- A word begins with an opcode that is not reserved; it is an event code exactly for the two events. -/
theorem encode_opcode (i : Instr) :
    ∃ op ops, encode i = op :: ops ∧ reservedOpcode op = false ∧ i.isEvent = decide (op = 0x80 ∨ op = 0x81) := by
  cases i <;> exact ⟨_, _, rfl, rfl, rfl⟩

/-- The lemmas of Laws/PerInstr.lean together: every word tells its own length (R90). -/
theorem wordLength_encode (i : Instr) : Laws.WordLength.Statement i := by
  cases i with
  | transmit frame => exact Laws.WordLength.transmit frame
  | transmitList frames => exact Laws.WordLength.transmitList frames
  | trackEnable id => exact Laws.WordLength.trackEnable id
  | wrBurst addr guard data => exact Laws.WordLength.wrBurst addr guard data
  | wrTxFifoBurst data => exact Laws.WordLength.wrTxFifoBurst data
  | _ => exact fun _ _ _ => rfl

/-- No word is a proper beginning of another: both have the length their common beginning tells. -/
theorem encode_eq_of_prefix {n : Nat} {i j : Instr} (hi : i.wellFormed n = true) (hj : j.wellFormed n = true)
    (h : encode j <+: encode i) : encode j = encode i := by
  obtain ⟨rest, e⟩ := h
  have own : wordLength n (encode i) = (encode i).length := by simpa using wordLength_encode i n [] hi
  have told : wordLength n (encode j ++ rest) = (encode j).length := wordLength_encode j n rest hj
  rw [e, own] at told
  exact List.IsPrefix.eq_of_length ⟨rest, e⟩ told.symm

/-- A word R98 lists is an operation only if it is an event's, which the command port does not carry. -/
theorem InvalidWord.isEvent_of_decode {n : Nat} {w : Bytes} {i : Instr} (hw : InvalidWord n w)
    (h : decode n w = .ok i) : i.isEvent = true := by
  obtain ⟨rfl, hi⟩ := encode_of_decode h
  obtain ⟨op, ops, e, free, event⟩ := encode_opcode i
  generalize hv : encode i = v at hw
  cases hw with
  | reserved op' rest hr =>
    obtain ⟨rfl, rfl⟩ : op = op' ∧ ops = rest := by simpa using e.symm.trans hv
    simp [free] at hr
  | event op' rest hop =>
    obtain ⟨rfl, rfl⟩ : op = op' ∧ ops = rest := by simpa using e.symm.trans hv
    exact event.trans (decide_eq_true hop)
  | short j v hj hp hne =>
    subst hv
    exact absurd (encode_eq_of_prefix hj hi hp) hne

theorem InvalidWord.decodeCommand_error {n : Nat} {w : Bytes} (hw : InvalidWord n w) :
    ∃ e, decodeCommand n w = .error e := by
  unfold decodeCommand
  split
  · next i h => exact ⟨.eventCode, if_pos (hw.isEvent_of_decode h)⟩
  · next e h => exact ⟨e, rfl⟩

/-- With no event latched, the command port is looked at (60_exceptions.md R230). -/
theorem nextWork_of_no_event {s : State} (irq : s.irqPending = false) (timer : s.timerPending = false) :
    s.nextWork = s.takeWord := by
  simp only [State.nextWork, irq, timer]

/-- A word that does not decode is taken from the port and rejected. -/
theorem takeWord_absorb_of_error {s : State} {w : Bytes} {rest : List Bytes} {e : DecodeError}
    (words : s.inp.words = w :: rest) (h : decodeCommand s.cfg.netidBytes w = .error e) :
    s.absorb.takeWord = (.reject, s.afterWord rest) := by
  have offered : s.absorb.inp.words = w :: rest := words
  simp only [State.takeWord, offered, State.absorb_cfg, h, State.afterWord]

/-- Settles O4: none of these words decodes on the command port, so the arbiter rejects it. -/
theorem invalidWordIsRefused : Obligations.InvalidWordIsRefused := by
  intro s w rest irq timer words hw
  obtain ⟨e, h⟩ := hw.decodeCommand_error
  simp only [step, nextWork_of_no_event irq timer, takeWord_absorb_of_error words h, refuse]

end Sys2Proof.Machine
end

section
/-! The Register Driver operations of 40_register_driver.md, issued by the host while idle. What an operation's body
does is said by its `..._did` lemma, that it ends by its `..._ok` lemma (Laws/Ops.lean, Laws/Driver.lean);
`CompletesAs.of_body` and `CompletesAs.of_read` put admission and completion around the two, for the bodies without and
with an answer. -/

namespace Sys2Proof.Machine

open Sys2Proof.Config

/-! ### Completion -/

/-- A body that ends, and what it does whenever it ends. -/
theorem CompletesAs.of_complete {i : Instr} {s : State} {r : Except Fault State} {regs : Regs} {x : List BusTxn}
    {a : List Bytes} {p : List FrameRecord} (runs : exec i s = complete r) (ends : ∃ t, r = .ok t)
    (does : ∀ t, r = .ok t → Did s t regs x a p []) : CompletesAs i s regs x a p := by
  obtain ⟨t, ht⟩ := ends
  obtain ⟨u, hu, d⟩ := complete_next ht (does t ht)
  exact ⟨u, runs.trans hu, d⟩

/-- An operation admitted while idle whose body answers nothing (43_host_commands.md R211). -/
theorem CompletesAs.of_body {i : Instr} {s : State} {drv : State → Except Fault State} {regs : Regs}
    {x : List BusTxn} (idle : s.radioState = .rxWaitSync)
    (runs : exec i s = whenBusFree (fun s => complete (drv s)) s) (ends : ∃ t, drv s = .ok t)
    (does : ∀ t, drv s = .ok t → Did s t regs x [] [] []) : CompletesAs i s regs x [] [] :=
  .of_complete (runs.trans (whenBusFree_idle idle)) ends does

/-- An operation admitted while idle that answers what it read, in one response word (30_encoding.md R100). -/
theorem CompletesAs.of_read {α : Type} {i : Instr} {s : State} {drv : State → Except Fault (α × State)} {v : α}
    {x : List BusTxn} (word : State → α → Bytes) (idle : s.radioState = .rxWaitSync)
    (runs : exec i s = whenBusFree (fun s => complete (answering (word s) (drv s))) s)
    (ends : ∃ t, drv s = .ok (v, t)) (does : ∀ w t, drv s = .ok (w, t) → w = v ∧ Did s t s.regs x [] [] []) :
    CompletesAs i s s.regs x [word s v] [] := by
  refine .of_complete (runs.trans (whenBusFree_idle idle)) ?_ fun u hu => ?_
  · obtain ⟨t, ht⟩ := ends
    exact ⟨_, answering_eq_ok.2 ⟨v, t, ht, rfl⟩⟩
  · obtain ⟨w, t, ht, rfl⟩ := answering_eq_ok.1 hu
    obtain ⟨rfl, d⟩ := does w t ht
    simpa using d.andThen (Did.respond t (word s w)) id

/-- The first clear answer is at one place only: the poll that ended is the one given (40_register_driver.md R126). -/
theorem did_of_pollEnds {s t : State} {regs : Regs} {x : Nat → List BusTxn} {n : Nat} (p : PollEnds s 0 n)
    (d : ∃ m, PollEnds s 0 m ∧ Did s t regs (x m) [] [] []) : Did s t regs (x n) [] [] [] := by
  obtain ⟨m, q, d⟩ := d
  rwa [q.unique p] at d

/-! ### Writes and strobes -/

/-- Settles O12: each is one shared bus form with its operand guard. -/
theorem rawWritesComplete : Obligations.RawWritesComplete := fun _ _ _ _ _ idle w =>
  ⟨.of_body idle rfl (busWrite_ok w _ _ _) fun _ => busWrite_did,
    .of_body idle rfl (busWriteBurst_ok w _ _ _) fun _ => busWriteBurst_did,
    .of_body idle rfl (busStrobe_ok w _ _) fun _ => busStrobe_did⟩

/-- Settles O13: each is one shared bus form with the guard of its operation. -/
theorem helperWritesComplete : Obligations.HelperWritesComplete := fun _ _ _ idle w =>
  ⟨.of_body idle rfl (busWrite_ok w _ _ _) fun _ => busWrite_did,
    .of_body idle rfl (busWriteBurst_ok w _ _ _) fun _ => busWriteBurst_did,
    .of_body idle rfl (busStrobe_ok w _ _) fun _ => busStrobe_did,
    .of_body idle rfl (busStrobe_ok w _ _) fun _ => busStrobe_did,
    .of_body idle rfl (busWrite_ok w _ _ _) fun _ => busWrite_did,
    .of_body idle rfl (busWrite_ok w _ _ _) fun _ => busWrite_did,
    .of_body idle rfl (busWrite_ok w _ _ _) fun _ => busWrite_did,
    .of_body idle rfl (busStrobe_ok w _ _) fun _ => busStrobe_did⟩

/-- Settles O17: the code is written to the chip, then to its shadow; `SM_SET_BW` performs `SET_BW`. -/
theorem shadowedWritesComplete : Obligations.ShadowedWritesComplete := fun _ v l idle w =>
  ⟨.of_body idle rfl (drvSetBw_ok w (khzOfU32 v)) fun _ => drvSetBw_did,
    .of_body idle rfl (drvSetBitrate_ok w (baudOfU32 v)) fun _ => drvSetBitrate_did,
    .of_body idle rfl (drvSetDev_ok w (khzOfU32 v)) fun _ => drvSetDev_did,
    .of_body idle rfl (drvSetFifoThr_ok w l) fun _ => drvSetFifoThr_did,
    fun enabled => .of_complete ((whenInitialised_enabled enabled).trans (whenIdle_idle idle))
      (drvSetBw_ok w (khzOfU32 v)) fun _ => drvSetBw_did⟩

/-! ### Reads -/

/-- Settles O14: a single read answers the next byte drawn, a burst the next `n`. -/
theorem readsAnswerTheBytesDrawn : Obligations.ReadsAnswerTheBytesDrawn := fun _ _ _ idle w =>
  ⟨.of_read (fun _ b => [b]) idle rfl (busRead_ok w _ _) fun _ _ => busRead_did,
    .of_read (fun _ b => [b]) idle rfl (busReadStatus_ok w _ _) fun _ _ => busReadStatus_did,
    .of_read (fun _ bs => bs) idle rfl (busReadBurst_ok w _ _ _) fun _ _ => busReadBurst_did,
    .of_read (fun _ bs => bs) idle rfl (busReadBurst_ok w _ _ _) fun _ _ => busReadBurst_did,
    .of_read (fun _ b => [b]) idle rfl (busReadStatus_ok w _ _) fun _ _ => busReadStatus_did,
    .of_read (fun _ b => [b]) idle rfl (busReadStatus_ok w _ _) fun _ _ => busReadStatus_did⟩

/-- The answer of `IS_CONNECTED` (40_register_driver.md R147). -/
theorem boolBytes_ne_zero (v : Byte) : boolBytes (decide (v ≠ 0)) = [if v = 0 then 0 else 1] := by
  unfold boolBytes
  split_ifs <;> simp_all

/-- Settles O15: one status read each, its byte mapped. -/
theorem qualityReadsAnswerTheMappedByte : Obligations.QualityReadsAnswerTheMappedByte := fun s idle w =>
  ⟨.of_read (fun _ v => i16Bytes (rssiMap v)) idle rfl (busReadStatus_ok w _ _) fun _ _ => busReadStatus_did,
    .of_read (fun s v => i16Bytes (lqiOf s.cfg v)) idle rfl (busReadStatus_ok w _ _) fun _ _ => busReadStatus_did, by
    rw [← boolBytes_ne_zero]
    exact .of_read (fun _ v => boolBytes (decide (v ≠ 0))) idle rfl (busReadStatus_ok w _ _) fun _ _ =>
      busReadStatus_did⟩

/-! ### Reset and calibration -/

/-- Settles O19, from `drvReset_did`. -/
theorem drvResetCompletes : Obligations.DrvResetCompletes := by
  intro s idle w
  obtain ⟨t, ht⟩ := drvReset_ok w
  obtain ⟨d, deadline⟩ := drvReset_did ht
  have runs : exec .drvReset s = complete (drvReset s) :=
    whenBusFree_idle (body := fun s => complete (drvReset s)) idle
  exact ⟨t.markOk, by rw [runs, ht]; rfl, d.andThen (Did.markOk t) id, deadline⟩

/-- Settles O20, from `drvCalibrate_did`. -/
theorem calibrateCompletes : Obligations.CalibrateCompletes := fun _ _ idle w p =>
  .of_body idle rfl (drvCalibrate_ok w p) fun _ h => did_of_pollEnds p (drvCalibrate_did h)

/-- Settles O23, from `drvSetFreq_did`; the band test admits. -/
theorem setFreqCompletes : Obligations.SetFreqCompletes := fun _ v _ idle w inside p =>
  .of_complete ((whenBusFree_idle idle).trans (whenInBand_inside inside)) (drvSetFreq_ok w (mhzOfU32 v) p)
    fun _ h => did_of_pollEnds p (drvSetFreq_did h)

/-- Settles O24, from `drvActivePower_did`. -/
theorem activePowerCompletes : Obligations.ActivePowerCompletes := fun _ _ idle w p =>
  .of_body idle rfl (drvActivePower_ok w p) fun _ h => did_of_pollEnds p (drvActivePower_did h)

/-! ### The band test -/

/-- Settles O11: the tests in front let the command through, the band test declines it. -/
theorem outOfBandIsRefused : Obligations.OutOfBandIsRefused := by
  intro v s
  refine ⟨fun outside => ⟨?init, fun enabled idle => ?setFreqOffset⟩,
    fun outside idle => ⟨?setFreq, fun enabled => ?smSetFreq⟩⟩ <;> simp only [exec]
  case init => exact whenInBand_outside outside
  case setFreqOffset =>
    exact (whenInitialised_enabled enabled).trans ((whenIdle_idle idle).trans (whenInBand_outside outside))
  case setFreq => exact (whenBusFree_idle idle).trans (whenInBand_outside outside)
  case smSetFreq =>
    exact (whenInitialised_enabled enabled).trans ((whenIdle_idle idle).trans (whenInBand_outside outside))

end Sys2Proof.Machine
end

section
/-! The guard time between two transactions (40_register_driver.md R110, R117): `State.Paced` is kept by whatever an
operation does (`Did.paced`), so by every step; and the document's own pair of register writes, in microseconds. -/

namespace Sys2Proof.Machine

open Sys2Proof.Config

/-! ### The invariant -/

/-- The invariant speaks of the trace and the guard deadline alone. -/
theorem State.Paced.of_same {s t : State} (k : s.Paced) (trace : t.busTrace = s.busTrace)
    (deadline : t.csNotBefore = s.csNotBefore) : t.Paced :=
  ⟨by rw [trace, deadline]; exact k.deadline, by rw [trace]; exact k.guarded⟩

theorem State.resetWith_paced (c : Cfg) : (State.resetWith c).Paced :=
  ⟨fun _ last => absurd last (by simp [State.resetWith]), List.IsChain.nil⟩

theorem Declined.paced {s t : State} (h : Declined s t) (k : s.Paced) : t.Paced := by
  obtain ⟨o, rfl⟩ := h
  exact k.of_same rfl rfl

theorem DriverDoes.paced {i : Instr} {s t : State} (h : DriverDoes i s t) (k : s.Paced) : t.Paced := by
  obtain ⟨_, _, _, d, -⟩ := h
  exact d.paced k

/-- A submission, whether or not a transmission starts. -/
theorem submission_paced {s t : State} {P : Prop} {slots : SlotTable}
    (h : Declined s t ∨ (P ∧
      ((∃ j d, s.radioState = .rxWaitSync ∧ nextSlot s.cfg slots = some j ∧
        Did s t (Regs.started { s.regs with slots := slots } s.cfg j d) (startTxTxns s.cfg slots[j].frame) [] []
          [.ok]) ∨
      Did s t { s.regs with slots := slots } [] [] [] [.ok]))) (k : s.Paced) : t.Paced := by
  rcases h with g | ⟨-, ⟨_, _, -, -, d⟩ | d⟩
  · exact g.paced k
  · exact d.paced k
  · exact d.paced k

theorem evIrq_paced {s t : State} (h : exec .evIrq s = .next t) (k : s.Paced) : t.Paced := by
  rcases exec_evIrq h with ⟨-, d⟩ | ⟨-, -, _, _, _, d, -⟩ | ⟨-, -, d⟩ | ⟨-, -, ⟨_, _, -, d⟩ | ⟨-, d⟩⟩
  · exact d.paced k
  · exact d.paced k
  · exact d.paced k
  · exact d.paced k
  · exact d.paced k

theorem evTimer_paced {s t : State} (h : exec .evTimer s = .next t) (k : s.Paced) : t.Paced := by
  have entered : State.Paced { s with timerPending := false } := k.of_same rfl rfl
  rcases exec_evTimer h with ⟨-, -, d⟩ | d
  · exact d.paced entered
  · exact d.paced entered

/-- Every operation and service keeps the guards, from the statement of what it can do (Laws/Exec.lean). -/
theorem exec_paced {i : Instr} {s t : State} (h : exec i s = .next t) (k : s.Paced) : t.Paced := by
  have driver : ∀ {j : Instr}, Declined s t ∨ (s.radioState = .rxWaitSync ∧ DriverDoes j s t) → t.Paced :=
    fun g => g.elim (·.paced k) (·.2.paced k)
  by_cases hd : i.isDriver = true
  · exact driver (exec_driver hd h)
  · cases i with
    | init off =>
      rcases exec_init h with g | ⟨-, d⟩ | ⟨-, n, d⟩
      · exact g.paced k
      · exact d.paced k
      · exact d.paced k
    | transmit frame => exact submission_paced (exec_transmit h) k
    | transmitList frames => exact submission_paced (exec_transmitList h) k
    | restartRx => exact (exec_restartRx h).elim (·.paced k) (·.paced k)
    | setFreqOffset v => exact driver (exec_reconfigure (.inl rfl) h)
    | smSetFreq v => exact driver (exec_reconfigure (.inr (.inl rfl)) h)
    | smSetBw v => exact driver (exec_reconfigure (.inr (.inr rfl)) h)
    | trackEnable id =>
      rcases exec_trackEnable h with g | rfl
      · exact g.paced k
      · exact k.of_same rfl rfl
    | trackDisable =>
      rcases exec_trackDisable h with g | rfl
      · exact g.paced k
      · exact k.of_same rfl rfl
    | evIrq => exact evIrq_paced h k
    | evTimer => exact evTimer_paced h k
    | _ => exact absurd rfl hd

theorem State.Paced.absorb {s : State} (k : s.Paced) : s.absorb.Paced := k.of_same rfl rfl

theorem State.Paced.dropFirst {s : State} (k : s.Paced) : s.dropFirst.Paced := by
  unfold State.dropFirst
  split <;> exact k.of_same rfl rfl

theorem State.Paced.takeWord {s : State} (k : s.Paced) : s.takeWord.2.Paced := by
  unfold State.takeWord
  split
  · exact k
  · dsimp only
    split <;> exact k.of_same rfl rfl

/-- Arbitration takes a word or draws a choice; it makes no transaction. -/
theorem State.Paced.nextWork {s : State} (k : s.Paced) : s.nextWork.2.Paced := by
  unfold State.nextWork
  split
  · exact k.dropFirst
  · exact k
  · exact k
  · exact k.takeWord

/-- A step keeps the guards: its arrivals and its arbitration make no transaction, its operation keeps them. -/
theorem step_paced {s t : State} (h : step s = .next t) (k : s.Paced) : t.Paced := by
  have start := k.absorb.nextWork
  unfold step at h
  split at h
  · next i u e =>
    rw [e] at start
    exact exec_paced h start
  · next u e =>
    rw [e] at start
    obtain rfl : u.markRefused _ = t := by simpa [refuse] using h
    exact start.of_same rfl rfl
  · next u e =>
    rw [e] at start
    obtain rfl : u = t := by simpa using h
    exact start

/-- Guarded transactions are apart, all along the trace. -/
theorem State.Paced.apart {s : State} (k : s.Paced) : s.busTrace.IsChain BusEntry.Apart :=
  k.guarded.imp fun _ _ => BusEntry.Guarded.apart

/-! ### Two register writes in a row -/

/-- When the next transaction selects: after its delay, its guard wait and its ready wait (R110). -/
theorem State.atSelect_now (s : State) : s.atSelect.now =
    s.now + s.timing.issue + (s.dropTiming.elapse s.timing.issue).guardLeft + s.timing.ready.getD 0 := rfl

/-- With the guard deadline `g` ahead, delay and guard wait together last at least `g`, and the select comes no sooner;
the bounds keep delay, guard wait and ready wait from going round the clock. -/
theorem State.guard_le_atSelect {s : State} {g : Nat} {r : Clock} (deadline : s.csNotBefore = s.now + BitVec.ofNat 32 g)
    (hg : g < 2 ^ 31) (issue : s.timing.issue.toNat < 2 ^ 31) (ready : s.timing.ready = some r)
    (hr : r.toNat < 2 ^ 31) : g ≤ (s.atSelect.now - s.now).toNat := by
  have count : (BitVec.ofNat 32 g : Clock).toNat = g := by
    rw [BitVec.toNat_ofNat]
    exact Nat.mod_eq_of_lt (by omega)
  rw [s.atSelect_now, ready, Option.getD_some]
  simp only [State.guardLeft, clockReached, State.elapse_now, State.elapse_csNotBefore, State.dropTiming_now,
    State.dropTiming_csNotBefore, deadline]
  generalize (BitVec.ofNat 32 g : Clock) = d at *
  generalize s.timing.issue = i at *
  generalize s.now = n at *
  split
  · next reached =>
    have passed := of_decide_eq_true reached
    bv_omega
  · bv_omega

/-- A register write admitted while idle is one trace entry, selected when the waits end and released now; its guard
stands as the deadline (40_register_driver.md R110, R111). -/
theorem exec_wrReg_entry {s t : State} {a v : Byte} {g : Word16} (idle : s.radioState = .rxWaitSync)
    (h : exec (.wrReg a v g) s = .next t) :
    ∃ e, t.busTrace = s.busTrace ++ [e] ∧ e.txn = .write a v g.toNat ∧ e.selectAt = s.atSelect.now ∧
      e.releaseAt = t.now ∧ t.csNotBefore = t.now + BitVec.ofNat 32 g.toNat ∧ t.radioState = s.radioState := by
  rw [show exec (.wrReg a v g) s = complete (busWrite a v g.toNat s) from
    whenBusFree_idle (body := fun s => complete (busWrite a v g.toNat s)) idle] at h
  obtain ⟨u, hu, rfl⟩ := complete_eq_next h
  obtain ⟨-, rfl⟩ := transact_eq_ok.1 hu
  exact ⟨_, s.afterTxn_busTrace (.write a v g.toNat) g.toNat, rfl, rfl, rfl,
    s.afterTxn_csNotBefore (.write a v g.toNat) g.toNat, s.afterTxn_radioState (.write a v g.toNat) g.toNat⟩

/-- Settles O25: the invariant, and the document's pair, the second write from the deadline the first left. -/
theorem guardTimeIsKept : Obligations.GuardTimeIsKept := by
  refine ⟨State.resetWith_paced, fun s t k h => ⟨step_paced h k, (step_paced h k).apart⟩, ?_⟩
  intro s t u a v b w g h r idle first second ready issue hr
  obtain ⟨e, te, txn_e, -, released_e, deadline, same⟩ := exec_wrReg_entry idle first
  obtain ⟨f, tf, txn_f, selected_f, released_f, deadline', -⟩ := exec_wrReg_entry (same.trans idle) second
  refine ⟨e, f, by rw [tf, te, List.append_assoc]; rfl, txn_e, txn_f, ?_, ?_⟩
  · rw [selected_f, released_e]
    exact State.guard_le_atSelect deadline (by have := g.isLt; omega) issue ready hr
  · rw [deadline', released_f, BitVec.ofNat_toNat]

end Sys2Proof.Machine
end

section
/-! The frequency words (40_register_driver.md R120 to R122), the searches (R128) and the signal-quality mappings (R143,
R144). -/

namespace Sys2Proof.Machine

open Sys2Proof.Config

/-! ### Frequency words -/

/-- Settles O26: each counter leaves a remainder of at least 0 and below its step (`stepsIn_remainder`), from which the
next loop starts. -/
theorem freqWordsCountTheSteps : Obligations.FreqWordsCountTheSteps := by
  intro c f hi mid lo nonneg w r₁ r₂ r₃
  obtain ⟨r₁_nonneg, r₁_lt⟩ : 0 ≤ r₁ ∧ r₁ < c.stepHi := stepsIn_remainder hi nonneg
  obtain ⟨r₂_nonneg, r₂_lt⟩ : 0 ≤ r₂ ∧ r₂ < c.stepMid := stepsIn_remainder mid r₁_nonneg
  obtain ⟨r₃_nonneg, r₃_lt⟩ : 0 ≤ r₃ ∧ r₃ < c.stepLo := stepsIn_remainder lo r₂_nonneg
  exact ⟨r₁_nonneg, r₁_lt, r₂_nonneg, r₂_lt, r₃_nonneg, r₃_lt⟩

/-- What is left for a counter bounds it. -/
theorem lt_of_remainder {n k : Nat} {r step : Rat} (hs : 0 < step) (left : 0 ≤ r - n * step) (bound : r < k * step) :
    n < k := by
  have : (n : Rat) * step < k * step := by linarith
  exact_mod_cast lt_of_mul_lt_mul_right this hs.le

/-- A low word without overflow is not corrected (40_register_driver.md R121). -/
theorem carryFix_of_le {hi mid lo : Nat} (h : lo ≤ 255) :
    carryFix (hi, mid, lo) = (BitVec.ofNat 8 hi, BitVec.ofNat 8 mid, BitVec.ofNat 8 lo) := if_neg (by omega)

/-- A low word with overflow is carried into the middle word (40_register_driver.md R121). -/
theorem carryFix_of_lt {hi mid lo : Nat} (h : 255 < lo) :
    carryFix (hi, mid, lo) = (BitVec.ofNat 8 hi, BitVec.ofNat 8 (mid + 1), BitVec.ofNat 8 (lo - 256)) := if_pos h

/-- Settles O27: each step is 256 of the next, so every remainder is below 256 steps of the next word, and what the last
loop leaves is less than one unit of the 24-bit quotient. -/
theorem exactStepsGiveTheQuotient : Obligations.ExactStepsGiveTheQuotient := by
  rintro c f ⟨hi, mid, lo⟩ nonneg
  simp only [stepHiExact, stepMidExact, stepLoExact] at hi mid lo
  have counted := freqWordsCountTheSteps c f (by norm_num [hi]) (by norm_num [mid]) (by norm_num [lo]) nonneg
  revert counted
  generalize freqWords c f = w
  obtain ⟨n, m, l⟩ := w
  rw [hi, mid, lo]
  rintro ⟨-, r₁_lt, r₂_nonneg, r₂_lt, r₃_nonneg, r₃_lt⟩
  dsimp only at *
  have mid_lt : m < 256 := lt_of_remainder (by norm_num) r₂_nonneg (by linarith)
  have lo_lt : l < 256 := lt_of_remainder (by norm_num) r₃_nonneg (by linarith)
  have quotient : ⌊f * 65536 / 26⌋ = ((n * 65536 + m * 256 + l : Nat) : Int) := by
    rw [Int.floor_eq_iff]
    push_cast
    constructor <;> linarith
  exact ⟨quotient.symm, by omega, by omega, carryFix_of_le (by omega)⟩

/-- Settles O28: the two branches of the correction; at a middle word of 255 its successor is written as 0. -/
theorem carryStopsAtTheMiddleWord : Obligations.CarryStopsAtTheMiddleWord := by
  intro hi mid lo
  refine ⟨?_, fun h => by rw [carryFix_of_le h], fun h => by rw [carryFix_of_lt h], fun hhi hmid h hlo => ?_⟩
  · rcases Nat.lt_or_ge 255 lo with h | h
    · rw [carryFix_of_lt h]
    · rw [carryFix_of_le h]
  · subst hmid
    rw [carryFix_of_lt h]
    refine ⟨rfl, ?_⟩
    simp only [BitVec.toNat_ofNat]
    omega

/-! ### Searches -/

theorem clampRat_of_le {x lo hi : Rat} (order : lo ≤ hi) (h : x ≤ lo) : clampRat x lo hi = lo := by
  unfold clampRat
  split_ifs <;> linarith

theorem clampRat_of_ge {x lo hi : Rat} (order : lo ≤ hi) (h : hi ≤ x) : clampRat x lo hi = hi := by
  unfold clampRat
  split_ifs <;> linarith

theorem clampRat_inside {x lo hi : Rat} (h : lo ≤ x) (k : x ≤ hi) : clampRat x lo hi = x := by
  unfold clampRat
  split_ifs <;> linarith

theorem clampRat_bounds {x lo hi : Rat} (order : lo ≤ hi) : lo ≤ clampRat x lo hi ∧ clampRat x lo hi ≤ hi := by
  unfold clampRat
  split_ifs <;> constructor <;> linarith

/-- Settles O18: a search sees its request only clamped, and clamping again, or clamping a bound, changes nothing. -/
theorem searchesClampTheRequest : Obligations.SearchesClampTheRequest := by
  intro w q x order
  have same : ∀ y, clampRat x q.min q.max = clampRat y q.min q.max → searchCode q x = searchCode q y :=
    fun y e => by rw [searchCode, e, searchCode]
  obtain ⟨above, below⟩ := clampRat_bounds (x := x) order
  exact ⟨same _ (clampRat_inside above below).symm,
    fun h => same _ ((clampRat_of_le order h).trans (clampRat_of_le order le_rfl).symm),
    fun h => same _ ((clampRat_of_ge order h).trans (clampRat_of_ge order le_rfl).symm)⟩

/-! ### Signal quality -/

/-- The upper region: a negative half, rounded toward zero. -/
theorem rssiMap_high {v : Byte} (h : 128 ≤ v.toNat) : rssiMap v = -(((256 - v.toNat) / 2 : Nat) : Int) - 74 := by
  have := v.isLt
  have e : (v.toNat : Int) - 256 = -((256 - v.toNat : Nat) : Int) := by omega
  simp only [rssiMap, rssiSplit, h, if_true, rssiDiv, rssiOffset, e, Int.neg_tdiv]
  rfl

/-- The lower region. -/
theorem rssiMap_low {v : Byte} (h : v.toNat < 128) : rssiMap v = ((v.toNat / 2 : Nat) : Int) - 74 := by
  simp only [rssiMap, rssiSplit, Nat.not_le.2 h, if_false, rssiDiv, rssiOffset]
  rfl

/-- Settles O16: the two regions give the range; the two tables hold the functions they were made of. -/
theorem rssiMappingIsTwoRegion : Obligations.RssiMappingIsTwoRegion := by
  intro v
  have := v.isLt
  have range : -138 ≤ rssiMap v ∧ rssiMap v ≤ -11 := by
    rcases Nat.lt_or_ge v.toNat 128 with h | h
    · rw [rssiMap_low h]; omega
    · rw [rssiMap_high h]; omega
  exact ⟨range.1, range.2, rssiMap_high, rssiMap_low,
    fun c => ⟨applyTab_tabOfByte rssiMap v, applyTab_tabOfByte (fun v => (v.toNat : Int)) v⟩⟩

end Sys2Proof.Machine
end

section
/-! The frequency filter (41_frequency_filter.md): the arithmetic of the correction, one update, and 32 updates with the
same sample, through the window filled up to the index (`Regs.FilledTo`). -/

namespace Sys2Proof.Machine

open Sys2Proof.Config

/-! ### The arithmetic of the correction -/

theorem windowSum_natAbs_le {w : Vector Byte 32} {m : Nat} (h : ∀ i : Fin 32, (asI8 w[i]).natAbs ≤ m) :
    (windowSum w).natAbs ≤ 32 * m := by
  have sample : ∀ x ∈ w.toList.map asI8, -(m : Int) ≤ x ∧ x ≤ m := by
    intro x hx
    obtain ⟨b, hb, rfl⟩ := List.mem_map.1 hx
    obtain ⟨i, hi, rfl⟩ := Vector.mem_iff_getElem.1 (Vector.mem_toList_iff.1 hb)
    have := h ⟨i, hi⟩
    simp only [Fin.getElem_fin] at this
    omega
  have upper := List.sum_le_card_nsmul _ _ fun x hx => (sample x hx).2
  have lower := List.card_nsmul_le_sum _ _ fun x hx => (sample x hx).1
  simp only [List.length_map, Vector.length_toList, nsmul_eq_mul] at upper lower
  rw [windowSum]
  omega

theorem windowSum_replicate (e : Byte) : windowSum (Vector.replicate 32 e) = asI8 e * 32 := by
  simp only [windowSum, Vector.toList_replicate, List.map_replicate, List.sum_replicate, nsmul_eq_mul]
  exact mul_comm _ _

theorem meanDiv_natAbs (x : Int) : (meanDiv x).natAbs = x.natAbs / 32 := Int.natAbs_tdiv x 32

theorem meanDiv_nonneg {x : Int} (h : 0 ≤ x) : 0 ≤ meanDiv x := Int.tdiv_nonneg h (by decide)

theorem meanDiv_neg (x : Int) : meanDiv (-x) = -meanDiv x := Int.neg_tdiv x 32

theorem meanDiv_nonpos {x : Int} (h : x ≤ 0) : meanDiv x ≤ 0 := by
  have := meanDiv_nonneg (x := -x) (by omega)
  rw [meanDiv_neg] at this
  omega

theorem meanDiv_mul (x : Int) : meanDiv (x * 32) = x := Int.mul_tdiv_cancel x (by decide)

/-- The clamp keeps the new offset within a signed byte, so nothing is lost in storing it. -/
theorem asI8_correctedOffset (a : Byte) (w : Vector Byte 32) :
    asI8 (correctedOffset a w) = clampInt (asI8 a + meanDiv (windowSum w)) (-128) 127 := by
  obtain ⟨lower, upper⟩ := clampInt_bounds (x := asI8 a + meanDiv (windowSum w)) (show (-128 : Int) ≤ 127 by decide)
  exact asI8_asU8 lower upper

/-- Settles O31: the sum is within 32 samples of the largest magnitude, and division toward zero divides magnitudes. -/
theorem correctionIsTheClampedMean : Obligations.CorrectionIsTheClampedMean := by
  intro a w m samples
  have bound := windowSum_natAbs_le samples
  refine ⟨?_, meanDiv_natAbs _, meanDiv_nonneg, meanDiv_nonpos, asI8_correctedOffset a w⟩
  rw [meanDiv_natAbs]
  omega

/-! ### One update -/

/-- Settles O29, from `drvUpdFreqOffset_did`. -/
theorem updFreqOffsetCompletes : Obligations.UpdFreqOffsetCompletes := fun _ idle w =>
  .of_body idle rfl (drvUpdFreqOffset_ok w) fun _ => drvUpdFreqOffset_did

theorem Regs.sampled_winIdx_eq_zero {r : Regs} {e : Byte} : (r.sampled e).winIdx = 0 ↔ r.winIdx.val = 31 := by
  show r.winIdx + 1 = 0 ↔ _
  omega

/-- Below the last index an update only stores its sample (41_frequency_filter.md R161). -/
theorem Regs.updated_of_no_wrap {r : Regs} {e : Byte} (h : r.winIdx.val ≠ 31) : r.updated e = r.sampled e := by
  rw [Regs.updated_eq, if_neg (mt sampled_winIdx_eq_zero.1 h)]

theorem Regs.updated_winIdx (r : Regs) (e : Byte) : (r.updated e).winIdx = (r.sampled e).winIdx := by
  rw [Regs.updated_eq]
  split <;> rfl

/-- At the last index it also corrects (41_frequency_filter.md R162). -/
theorem Regs.updated_appliedOffset_of_wrap {r : Regs} {e : Byte} (h : r.winIdx.val = 31) :
    (r.updated e).appliedOffset = correctedOffset r.appliedOffset (r.sampled e).window := by
  rw [Regs.updated_eq, if_pos (sampled_winIdx_eq_zero.2 h)]

theorem updateTxns_of_no_wrap {c : Cfg} {r : Regs} {e : Byte} (h : r.winIdx.val ≠ 31) :
    updateTxns c r e = [.readStatus c.chip.aFreqEst e (guardOf c .updFreqOffset)] := by
  rw [updateTxns, if_neg (mt Regs.sampled_winIdx_eq_zero.1 h)]

theorem updateTxns_of_wrap {c : Cfg} {r : Regs} {e : Byte} (h : r.winIdx.val = 31) :
    updateTxns c r e = [.readStatus c.chip.aFreqEst e (guardOf c .updFreqOffset),
      .write c.chip.aFreqOffset (r.updated e).appliedOffset (guardOf c .updFreqOffset)] := by
  rw [updateTxns, if_pos (Regs.sampled_winIdx_eq_zero.2 h)]

/-! ### A window of equal samples -/

/-- The index is `k`, and the samples below it are all `e`. -/
structure Regs.FilledTo (r : Regs) (e : Byte) (k : Nat) : Prop where
  index : r.winIdx.val = k
  samples : ∀ i (h : i < 32), i < k → r.window[i] = e

/-- One more sample, at the index, is `e` like those below it. -/
theorem Regs.FilledTo.sampled_window {r : Regs} {e : Byte} {k : Nat} (h : r.FilledTo e k) (i : Nat) (hi : i < 32)
    (upTo : i < k + 1) : (r.sampled e).window[i] = e := by
  show (r.window.set r.winIdx e)[i] = e
  rw [Vector.getElem_set]
  split_ifs with at_index
  · rfl
  · exact h.samples i hi (by have := h.index; omega)

/-- One more sample below the last index. -/
theorem Regs.FilledTo.sampled {r : Regs} {e : Byte} {k : Nat} (h : r.FilledTo e k) (room : k < 31) :
    (r.sampled e).FilledTo e (k + 1) where
  index := by
    show (r.winIdx + 1).val = _
    have := h.index
    omega
  samples := h.sampled_window

/-- The last sample fills the window. -/
theorem Regs.FilledTo.window_full {r : Regs} {e : Byte} (h : r.FilledTo e 31) :
    (r.sampled e).window = Vector.replicate 32 e :=
  Vector.ext fun i hi => (h.sampled_window i hi hi).trans (Vector.getElem_replicate hi).symm

/-- The correction over a window of equal samples moves the offset by the sample, clamped. -/
theorem Regs.FilledTo.updated_appliedOffset {r : Regs} {e : Byte} (h : r.FilledTo e 31) :
    asI8 (r.updated e).appliedOffset = clampInt (asI8 r.appliedOffset + asI8 e) (-128) 127 := by
  rw [updated_appliedOffset_of_wrap h.index, h.window_full, asI8_correctedOffset, windowSum_replicate, meanDiv_mul]

/-! ### Equal updates one after another -/

theorem Did.txns_eq {s t : State} {regs : Regs} {x : List BusTxn} {a : List Bytes} {p : List FrameRecord}
    {o : List OpOutcome} (h : Did s t regs x a p o) : t.txns = s.txns ++ x := by
  obtain ⟨es, trace, rfl, -⟩ := h.trace_eq
  simp [State.txns, trace]

theorem execAll_cons_of_next {i : Instr} {is : List Instr} {s t : State} (h : exec i s = .next t) :
    execAll (i :: is) s = execAll is t := by
  rw [execAll, h]

/-- `n` updates with the sample `e` that do not reach the last index: `n` reads, and the window filled further. -/
theorem execAll_updates_fill {e : Byte} (n : Nat) : ∀ {k : Nat} {s : State},
    s.radioState = .rxWaitSync → s.WaitsEnd → s.regs.FilledTo e k → k + n ≤ 31 →
    s.answersFrom 0 n = List.replicate n e →
    ∃ t, execAll (List.replicate n .updFreqOffset) s = .next t ∧
      Did s t t.regs (List.replicate n (.readStatus s.cfg.chip.aFreqEst e (guardOf s.cfg .updFreqOffset))) [] []
        (List.replicate n .ok) ∧
      t.radioState = .rxWaitSync ∧ t.appliedOffset = s.appliedOffset ∧ t.regs.FilledTo e (k + n) := by
  induction n with
  | zero => exact fun {_ s} idle _ filled _ _ => ⟨s, rfl, Did.refl s, idle, rfl, filled⟩
  | succ n ih =>
    intro k s idle w filled room answers
    obtain ⟨first, rest⟩ : s.answerAt 0 = e ∧ s.answersFrom 1 n = List.replicate n e := List.cons.inj answers
    have no_wrap : s.regs.winIdx.val ≠ 31 := by have := filled.index; omega
    obtain ⟨t, ht, d⟩ := updFreqOffsetCompletes s idle w
    rw [first, updateTxns_of_no_wrap no_wrap, Regs.updated_of_no_wrap no_wrap] at d
    have after : t.regs.FilledTo e (k + 1) := d.regs_eq ▸ filled.sampled (by omega)
    obtain ⟨u, hu, d', idle', offset, filled'⟩ := ih ((d.field Regs.radioState).trans idle) (d.waits_kept w) after
      (by omega) ((d.answersFrom 0 n).trans rest)
    refine ⟨u, (execAll_cons_of_next ht).trans hu, ?_, idle', offset.trans (d.field Regs.appliedOffset), ?_⟩
    · rw [d.cfg_eq] at d'
      exact d.trans d' id
    · rwa [Nat.add_right_comm] at filled'

/-- Settles O30: 31 updates fill the window up to its last index (`execAll_updates_fill`), the next one wraps and
corrects over a window of equal samples. -/
theorem thirtyTwoUpdatesMoveTheOffset : Obligations.ThirtyTwoUpdatesMoveTheOffset := by
  intro s e idle w start answers
  rw [State.answersFrom_add s 0 31 1, List.replicate_add 31 1] at answers
  obtain ⟨before, last⟩ := List.append_inj answers (by simp [State.answersFrom_length])
  have empty : s.regs.FilledTo e 0 := ⟨by simp [start], fun _ _ h => absurd h (by omega)⟩
  obtain ⟨t, ht, d, idle', offset, filled⟩ := execAll_updates_fill 31 idle w empty le_rfl before
  obtain ⟨u, hu, d'⟩ := updFreqOffsetCompletes t idle' (d.waits_kept w)
  have sample : t.answerAt 0 = e := (List.cons.inj ((d.answersFrom 0 1).trans last)).1
  rw [sample] at d'
  have moved : u.appliedOffset = (t.regs.updated e).appliedOffset := d'.field Regs.appliedOffset
  have wraps : u.winIdx = 0 :=
    (d'.field Regs.winIdx).trans ((Regs.updated_winIdx _ _).trans (Regs.sampled_winIdx_eq_zero.2 filled.index))
  refine ⟨t, u, ht, hu, offset, d.txns_eq, wraps, ?_, ?_⟩
  · rw [moved, filled.updated_appliedOffset, State.regs_appliedOffset, offset]
  · rw [d'.txns_eq, updateTxns_of_wrap filled.index, moved, d.cfg_eq]

end Sys2Proof.Machine
end

section
/-! The two event services as `exec` runs them (42_rx_tx_sequencer.md R170, R177 to R181, R184). That the interrupt
service ends is `exec_evIrq_ends`; what it did is `exec_evIrq` of Laws/Exec.lean, one clause per state. -/

namespace Sys2Proof.Machine

open Sys2Proof.Config

/-! ### The interrupt service -/

/-- Settles O32: without a handler nothing runs behind the latch. -/
theorem irqIgnoredWithoutHandler : Obligations.IrqIgnoredWithoutHandler := by
  intro s off
  have body : serviceIrq (s.enterService .irq) = .ok (s.enterService .irq) := by simp [serviceIrq, off]
  exact .of_complete rfl ⟨_, body⟩ fun t h => Except.ok.inj (body.symm.trans h) ▸ Did.enterService s

theorem serviceTxDone_ok {s : State} (w : s.WaitsEnd) : ∃ t, serviceTxDone s = .ok t := by
  have released := (Did.releaseActive s).waits_kept w
  simp only [serviceTxDone]
  split
  · exact startTx_ok released _
  · exact armRx_ok released

/-- The service ends in every state when every wait does. -/
theorem serviceIrq_ok {s : State} (w : s.WaitsEnd) : ∃ t, serviceIrq s = .ok t := by
  unfold serviceIrq
  split
  · cases s.radioState with
    | rxWaitSync | rxHeader | rxPayload => exact serviceRx_ok w
    | txTransmit => exact serviceTxFeed_ok w
    | txLastTransmit => exact serviceTxDone_ok w
  · exact ⟨s, rfl⟩

theorem exec_evIrq_ends {s : State} (w : s.WaitsEnd) : ∃ t, exec .evIrq s = .next t := by
  obtain ⟨t, h⟩ := serviceIrq_ok ((Did.enterService s).waits_kept w)
  exact ⟨t.markOk, congrArg complete h⟩

/-- Settles O38, from the `TxTransmit` clause of `exec_evIrq`. -/
theorem transmitFifoIsFed : Obligations.TransmitFifoIsFed := by
  intro s w on tx
  obtain ⟨t, h⟩ := exec_evIrq_ends w
  refine ⟨t, h, ?_⟩
  rcases exec_evIrq h with ⟨off, -⟩ | ⟨-, rx, -⟩ | ⟨-, -, d⟩ | ⟨-, last, -⟩
  · simp [on] at off
  · simp [tx, RadioState.isRx, RadioState.isTx] at rx
  · exact d
  · simp [tx] at last

/-- Settles O40: with no slot left `NextSlot` answers none, and `exec_evIrq` says what follows. -/
theorem receptionArmedAfterLastSlot : Obligations.ReceptionArmedAfterLastSlot := by
  intro s w on tx slots free
  obtain ⟨t, h⟩ := exec_evIrq_ends w
  refine ⟨t, h, ?_⟩
  rcases exec_evIrq h with ⟨off, -⟩ | ⟨-, rx, -⟩ | ⟨-, feed, -⟩ | ⟨-, -, ⟨j, _, next, -⟩ | ⟨-, d⟩⟩
  · simp [on] at off
  · simp [tx, RadioState.isRx, RadioState.isTx] at rx
  · simp [tx] at feed
  · exact absurd ((nextSlot_inUse next).symm.trans (free j)) Bool.noConfusion
  · exact d

theorem serviceTxDone_of_next {s : State} {j : Fin 16} (next : nextSlot s.cfg s.releaseActive.slots = some j) :
    serviceTxDone s = startTx j s.releaseActive := by
  simp only [serviceTxDone, State.releaseActive_cfg, next]

/-- Settles O39: the active slot is released, then `StartTx` runs for the slot `NextSlot` gives. -/
theorem nextSlotStartsAfterCompletion : Obligations.NextSlotStartsAfterCompletion := by
  intro s j w on tx slots next
  have released := (Did.enterService s).trans (Did.releaseActive _) id
  obtain ⟨u, started⟩ := startTx_ok (released.waits_kept w) j
  have runs : serviceIrq (s.enterService .irq) = serviceTxDone (s.enterService .irq) := by simp [serviceIrq, on, tx]
  have body := (runs.trans (serviceTxDone_of_next next)).trans started
  have h : exec .evIrq s = .next u.markOk := congrArg complete body
  exact ⟨u.markOk, h, complete_did h fun v hv =>
    Except.ok.inj (body.symm.trans hv) ▸ released.trans (startTx_did started) id⟩

/-! ### The timer service -/

/-- Settles O41: `serviceTimer_tx` and `serviceTimer_rx` say which body an armed timer runs. No transaction of a disarmed
timer sets its latch again. -/
theorem timerServiceStrobesOnce : Obligations.TimerServiceStrobesOnce := by
  intro s w
  have disarmed : Did { s with timerPending := false } (s.enterService .timer).disarmTimer
      { s.regs with timerArmed := false } [] [] [] [] := Did.disarmTimer _
  refine ⟨fun armed tx => ?_, fun armed rx => ?_, fun unarmed => ?_⟩
  · obtain ⟨u, strobed⟩ := strobeTx_ok (disarmed.waits_kept (w.of_same rfl rfl))
    have body := (serviceTimer_tx (s := s.enterService .timer) armed tx).trans strobed
    have h : exec .evTimer s = .next u.markOk := congrArg complete body
    have d := strobeTx_did strobed
    have unlatched : u.timerPending = false :=
      Bool.eq_false_iff.2 fun latched => (d.latch_from latched).elim Bool.noConfusion Bool.noConfusion
    exact ⟨u.markOk, h, complete_did h fun v hv =>
      Except.ok.inj (body.symm.trans hv) ▸ disarmed.trans d Bool.noConfusion, unlatched⟩
  · exact congrArg complete (serviceTimer_rx (s := s.enterService .timer) armed rx)
  · have body : serviceTimer (s.enterService .timer) = .ok (s.enterService .timer) := by simp [serviceTimer, unarmed]
    exact congrArg complete body

end Sys2Proof.Machine
end

section
/-! The invariants of 42_rx_tx_sequencer.md R185 and 10_state.md R22 to R35, told by `radioState` (`State.inv_iff`): what
an operation leaves meets them when its registers fit and agree with the state it ends in (`Did.inv`). -/

namespace Sys2Proof.Machine

open Sys2Proof.Config

/-- The part of the invariant that does not depend on `radioState`: everything fits its place. -/
structure Regs.Fits (c : Cfg) (r : Regs) : Prop where
  rxBuf_length : r.rxBuf.length = c.maxFrameLen
  rxCount_le : r.rxCount ≤ c.maxFrameLen
  frames_fit : ∀ i : Fin 16, r.slots[i].frame.length ≤ c.maxFrameLen
  netid_length : r.trackedNetId.length = c.netidBytes

/-- The part of the invariant that goes with `radioState`: 42_rx_tx_sequencer.md R185 (a) to (f). -/
def Regs.Agrees (c : Cfg) (r : Regs) : Prop :=
  match r.radioState with
  | .rxWaitSync => r.timerArmed = false ∧ r.rxCount = 0 ∧ r.rxTotal = none
  | .rxHeader => r.timerArmed = false ∧ r.rxCount < c.headerLen ∧ r.rxTotal = none
  | .rxPayload => r.timerArmed = false ∧
      ∃ t, r.rxTotal = some t ∧ c.headerLen ≤ r.rxCount ∧ r.rxCount < t ∧ t ≤ c.maxFrameLen
  | .txTransmit => r.slots[r.cursor].inUse = true ∧ r.txOffset ≤ r.slots[r.cursor].frame.length ∧ r.rxTotal = none
  | .txLastTransmit => r.slots[r.cursor].inUse = true ∧ r.txOffset = r.slots[r.cursor].frame.length ∧ r.rxTotal = none

/-- The invariant speaks of the registers and the configuration alone. -/
theorem State.inv_iff {s : State} : s.Inv ↔ s.regs.Fits s.cfg ∧ s.regs.Agrees s.cfg := by
  constructor
  · intro inv
    refine ⟨⟨inv.rxBuf_length, inv.rxCount_le, inv.frames_fit, inv.netid_length⟩, ?_⟩
    have unarmed : s.radioState.isTx = false → s.timerArmed = false := fun rx =>
      Bool.eq_false_iff.2 fun armed => Bool.eq_false_iff.1 rx (inv.timer armed)
    unfold Regs.Agrees
    cases hs : s.radioState <;> simp only [State.regs_radioState, hs]
    case rxWaitSync => exact ⟨unarmed (by rw [hs]; rfl), inv.idle hs⟩
    case rxHeader => exact ⟨unarmed (by rw [hs]; rfl), inv.header hs⟩
    case rxPayload => exact ⟨unarmed (by rw [hs]; rfl), inv.payload hs⟩
    case txTransmit => exact inv.tx (by rw [hs]; rfl)
    case txLastTransmit =>
      obtain ⟨used, -, total⟩ := inv.tx (by rw [hs]; rfl)
      exact ⟨used, inv.last hs, total⟩
  · rintro ⟨fits, agrees⟩
    unfold Regs.Agrees at agrees
    have of_state : ∀ {r}, s.radioState = r → s.regs.radioState = r := id
    constructor
    case rxBuf_length => exact fits.rxBuf_length
    case rxCount_le => exact fits.rxCount_le
    case frames_fit => exact fits.frames_fit
    case netid_length => exact fits.netid_length
    case tx =>
      intro tx
      cases hs : s.radioState <;> simp only [of_state hs] at agrees
      case txTransmit => exact agrees
      case txLastTransmit => exact ⟨agrees.1, agrees.2.1.le, agrees.2.2⟩
      all_goals exact absurd (hs ▸ tx) (by decide)
    case timer =>
      intro armed
      cases hs : s.radioState <;> simp only [of_state hs] at agrees
      case txTransmit | txLastTransmit => rfl
      all_goals exact absurd (armed.symm.trans agrees.1) (by decide)
    case idle | header | payload =>
      intro hs
      simp only [of_state hs] at agrees
      exact agrees.2
    case last =>
      intro hs
      simp only [of_state hs] at agrees
      exact agrees.2.1

/-- Registers that fit and agree, after anything an operation did. -/
theorem Did.inv {s t : State} {regs : Regs} {x : List BusTxn} {a : List Bytes} {p : List FrameRecord}
    {o : List OpOutcome} (d : Did s t regs x a p o) (fits : regs.Fits s.cfg) (agrees : regs.Agrees s.cfg) : t.Inv := by
  rw [State.inv_iff, d.regs_eq, d.cfg_eq]
  exact ⟨fits, agrees⟩

theorem State.Inv.fits {s : State} (inv : s.Inv) : s.regs.Fits s.cfg := (State.inv_iff.1 inv).1

theorem State.Inv.agrees {s : State} (inv : s.Inv) : s.regs.Agrees s.cfg := (State.inv_iff.1 inv).2

/-- The invariant speaks of no latch, trace or input. -/
theorem State.Inv.of_same {s t : State} (inv : s.Inv) (regs : t.regs = { s.regs with irqPending := t.irqPending })
    (cfg : t.cfg = s.cfg) : t.Inv := by
  rw [State.inv_iff, regs, cfg]
  exact ⟨⟨inv.rxBuf_length, inv.rxCount_le, inv.frames_fit, inv.netid_length⟩, inv.agrees⟩

/-- Settles O52: a fresh state is idle, with every slot free and no frame stored. -/
theorem resetHasInvariants : Obligations.ResetHasInvariants := by
  refine ⟨fun c => State.inv_iff.2 ⟨⟨?_, Nat.zero_le _, fun i => ?_, ?_⟩, rfl, rfl, rfl⟩, rfl, ⟨rfl, rfl, rfl⟩, rfl,
    fun slots => ⟨selectSlot_lowestFirst _ slots, selectSlot_lowestFirst _ slots⟩⟩
  · simp [State.resetWith]
  · simp [State.resetWith]
  · simp [State.resetWith]

end Sys2Proof.Machine
end

section
/-! One service of the receive side (42_rx_tx_sequencer.md R171 to R175): how its numbers (Safety.lean) relate while the
invariant holds, and the four ways the interrupt service ends, from `serviceRx_did`. -/

namespace Sys2Proof.Machine

open Sys2Proof.Config

/-! ### The numbers of a service -/

variable {s : State}

/-- Until the header is complete, less than a header is there. -/
theorem State.Inv.rxHave_lt (inv : s.Inv) (len : LengthsLawful s.cfg) (rx : s.radioState.isRx = true)
    (early : s.radioState ≠ .rxPayload) : s.rxHave < s.cfg.headerLen := by
  have pos := len.header_pos
  unfold State.rxHave State.isIdle
  cases hs : s.radioState with
  | rxWaitSync => simp; omega
  | rxHeader => simpa using (inv.header hs).1
  | rxPayload => exact absurd hs early
  | txTransmit | txLastTransmit => simp [hs, RadioState.isRx, RadioState.isTx] at rx

theorem State.headerLack_payload (late : s.radioState = .rxPayload) : s.headerLack = 0 := if_pos late

theorem State.headerLack_early (early : s.radioState ≠ .rxPayload) : s.headerLack = s.cfg.headerLen - s.rxHave :=
  if_neg early

theorem State.headerTake_of_complete (complete : s.headerComplete) : s.headerTake = s.headerLack :=
  Nat.min_eq_right complete

theorem State.headerTake_of_incomplete (incomplete : ¬ s.headerComplete) : s.headerTake = s.rxAvail :=
  Nat.min_eq_left (Nat.le_of_not_ge incomplete)

/-- While the payload arrives, at least a header is there, and less than the announced total. -/
theorem State.Inv.rxHave_payload (inv : s.Inv) (late : s.radioState = .rxPayload) :
    s.rxHave = s.rxCount ∧ s.cfg.headerLen ≤ s.rxHave ∧ s.rxHave < s.frameTotal ∧
      s.frameTotal ≤ s.cfg.maxFrameLen := by
  obtain ⟨t, total, header, missing, fits⟩ := inv.payload late
  have have_eq : s.rxHave = s.rxCount := by simp [State.rxHave, State.isIdle, late]
  have total_eq : s.frameTotal = t := by simp [State.frameTotal, late, total]
  rw [total_eq, have_eq]
  exact ⟨rfl, header, missing, fits⟩

/-- The header part of a service never reads past the header. -/
theorem State.Inv.header_room (inv : s.Inv) (len : LengthsLawful s.cfg) (rx : s.radioState.isRx = true) :
    s.rxHave + s.headerTake ≤ s.cfg.maxFrameLen := by
  have take : s.headerTake ≤ s.headerLack := Nat.min_le_right _ _
  by_cases late : s.radioState = .rxPayload
  · rw [State.headerLack_payload late] at take
    obtain ⟨-, -, missing, fits⟩ := inv.rxHave_payload late
    omega
  · rw [State.headerLack_early late] at take
    have short := inv.rxHave_lt len rx late
    have fits := len.header_le
    omega

/-- A header that stays incomplete is still short after the service. -/
theorem State.Inv.header_short (inv : s.Inv) (len : LengthsLawful s.cfg) (rx : s.radioState.isRx = true)
    (incomplete : ¬ s.headerComplete) : s.rxHave + s.headerTake < s.cfg.headerLen := by
  rw [State.headerTake_of_incomplete incomplete]
  unfold State.headerComplete at incomplete
  by_cases late : s.radioState = .rxPayload
  · simp [State.headerLack_payload late] at incomplete
  · have short := inv.rxHave_lt len rx late
    rw [State.headerLack_early late] at incomplete
    omega

/-- With the header complete, it lies within the bytes a service leaves, and those within the announced total. -/
theorem State.Inv.payload_bounds (inv : s.Inv) (len : LengthsLawful s.cfg) (rx : s.radioState.isRx = true)
    (complete : s.headerComplete) (legal : s.totalLegal) :
    s.cfg.headerLen ≤ s.rxHave + s.rxTake ∧ s.rxHave + s.rxTake ≤ s.frameTotal := by
  have take := State.headerTake_of_complete complete
  obtain ⟨low, high⟩ := legal
  unfold State.rxTake State.payloadTake
  by_cases late : s.radioState = .rxPayload
  · rw [State.headerLack_payload late] at take
    obtain ⟨-, header, missing, -⟩ := inv.rxHave_payload late
    omega
  · rw [State.headerLack_early late] at take
    have short := inv.rxHave_lt len rx late
    omega

/-! ### The four ways a service ends -/

/-- The latch is no part of the invariant. -/
theorem State.Inv.enterService (inv : s.Inv) : (s.enterService .irq).Inv := inv.of_same rfl rfl

theorem exec_evIrq_rx (on : s.irqEnabled = true) (rx : s.radioState.isRx = true) :
    exec .evIrq s = complete (serviceRx (s.enterService .irq)) :=
  congrArg complete (serviceIrq_rx (s := s.enterService .irq) on rx)

/-- A receive service that completes as one clause of `serviceRx_did` says. -/
theorem CompletesAs.of_reception {regs : Regs} {x : List BusTxn} (w : s.WaitsEnd) (on : s.irqEnabled = true)
    (rx : s.radioState.isRx = true)
    (does : ∀ u, serviceRx (s.enterService .irq) = .ok u → Did (s.enterService .irq) u regs x [] [] []) :
    CompletesAs .evIrq s regs x [] [] :=
  .of_complete (exec_evIrq_rx on rx) (serviceRx_ok ((Did.enterService s).waits_kept w)) fun u h =>
    (Did.enterService s).trans (does u h) id

/-- Settles O33: the first clause of `serviceRx_did`. -/
theorem headerAccumulates : Obligations.HeaderAccumulates := fun _ inv len w on rx incomplete =>
  .of_reception w on rx fun _ h => (serviceRx_did h rx inv.enterService len).1 incomplete

/-- Settles O34: the second clause of `serviceRx_did`. -/
theorem badLengthIsAbandoned : Obligations.BadLengthIsAbandoned := fun _ inv len w on rx complete illegal =>
  .of_reception w on rx fun _ h => (serviceRx_did h rx inv.enterService len).2.1 complete illegal

/-- Settles O35: the third clause of `serviceRx_did`. -/
theorem payloadAccumulates : Obligations.PayloadAccumulates := fun _ inv len w on rx complete legal missing =>
  .of_reception w on rx fun _ h => (serviceRx_did h rx inv.enterService len).2.2.1 complete legal missing

/-- The filter's part of a completion does not see the latch. -/
theorem finishTxns_enterService (s : State) (track : Bool) (k : Nat) :
    finishTxns (s.enterService .irq) track k = finishTxns s track k := by
  have filter : updateTxns s.cfg (s.enterService .irq).regs (s.answerAt (k + 2)) =
      updateTxns s.cfg s.regs (s.answerAt (k + 2)) := updateTxns_congr _ rfl rfl rfl
  exact congrArg (fun x => qualityTxns s.cfg (s.answerAt k) (s.answerAt (k + 1)) ++ (if track then x else []) ++
    endRxTxns s.cfg) filter

/-- Settles O36: the fourth clause of `serviceRx_did`. The latch is cleared and the outcome recorded outside the bus trace,
so the timestamp stays where that clause puts it. -/
theorem frameCompletes : Obligations.FrameCompletes := by
  intro s inv len w on rx complete legal all
  obtain ⟨u, hu⟩ := serviceRx_ok ((Did.enterService s).waits_kept w)
  obtain ⟨-, -, -, completes⟩ := serviceRx_did hu rx inv.enterService len
  obtain ⟨ts, d, stamp⟩ := completes complete legal all
  rw [finishTxns_enterService] at d
  obtain ⟨t, ht, k⟩ := complete_next hu ((Did.enterService s).trans d id)
  have marked : t = u.markOk := by
    rw [hu] at ht
    exact (Host.Outcome.next.inj ht).symm
  exact ⟨t, ts, (exec_evIrq_rx on rx).trans ht, k, marked ▸ stamp⟩

end Sys2Proof.Machine
end

section
/-! Every step keeps the invariants of 42_rx_tx_sequencer.md R185: what each operation leaves fits and agrees with the
state it ends in (Laws/Exec.lean, Laws/Reception.lean), and arbitration starts well-formed operations only. -/

namespace Sys2Proof.Machine

open Sys2Proof.Config

/-! ### Registers that fit and agree -/

/-- Registers that differ from fitting ones elsewhere, or in a smaller `rxCount`, fit. -/
theorem Regs.Fits.of_same {c : Cfg} {r q : Regs} (fits : r.Fits c) (buf : q.rxBuf = r.rxBuf)
    (count : q.rxCount ≤ r.rxCount) (slots : q.slots = r.slots) (netid : q.trackedNetId = r.trackedNetId) : q.Fits c :=
  ⟨buf ▸ fits.rxBuf_length, count.trans fits.rxCount_le, slots ▸ fits.frames_fit, netid ▸ fits.netid_length⟩

/-- The slot table may change as long as its frames fit. -/
theorem Regs.Fits.withSlots {c : Cfg} {r : Regs} (fits : r.Fits c) {slots : SlotTable}
    (frames : ∀ i : Fin 16, slots[i].frame.length ≤ c.maxFrameLen) : Regs.Fits c { r with slots := slots } :=
  ⟨fits.rxBuf_length, fits.rxCount_le, frames, fits.netid_length⟩

/-- The active slot of a transmission stays as it is while slots in use do. -/
theorem Regs.Agrees.withSlots {c : Cfg} {r : Regs} (agrees : r.Agrees c) {slots : SlotTable}
    (kept : ∀ i : Fin 16, r.slots[i].inUse = true → slots[i] = r.slots[i]) :
    Regs.Agrees c { r with slots := slots } := by
  unfold Regs.Agrees at agrees ⊢
  cases hs : r.radioState <;> simp only [hs] at agrees ⊢
  case rxWaitSync | rxHeader | rxPayload => exact agrees
  case txTransmit | txLastTransmit =>
    rw [kept r.cursor agrees.1]
    exact agrees

/-- A started transmission: its slot is in use, its pre-load no longer than its frame (42_rx_tx_sequencer.md R176). -/
theorem Regs.Agrees.started {c : Cfg} {r : Regs} {j : Fin 16} {deadline : Clock} (used : r.slots[j].inUse = true)
    (total : r.rxTotal = none) : (r.started c j deadline).Agrees c :=
  ⟨used, Nat.min_le_left _ _, total⟩

/-- Bytes written where they fit keep the receive buffer's length (10_state.md R22). -/
theorem State.Inv.bufAfter_length {s : State} (inv : s.Inv) {n : Nat} (room : s.rxHave + n ≤ s.cfg.maxFrameLen) :
    (s.bufAfter n).length = s.cfg.maxFrameLen := by
  rw [← inv.rxBuf_length]
  refine overwrite_length ?_
  rwa [State.answersFrom_length, inv.rxBuf_length]

/-! ### The interrupt service -/

theorem State.Inv.unarmed {s : State} (inv : s.Inv) (rx : s.radioState.isRx = true) : s.timerArmed = false :=
  Bool.eq_false_iff.2 fun armed => by simp [RadioState.isRx, inv.timer armed] at rx

/-- The receive buffer may change as long as its length and the counter fit. -/
theorem Regs.Fits.withRx {c : Cfg} {r : Regs} (fits : r.Fits c) {buf : Bytes} {n : Nat} {total : Option Nat}
    {state : RadioState} (length : buf.length = c.maxFrameLen) (count : n ≤ c.maxFrameLen) :
    Regs.Fits c { r with rxBuf := buf, rxCount := n, rxTotal := total, radioState := state } :=
  ⟨length, count, fits.frames_fit, fits.netid_length⟩

/-- The filter writes no register the invariant speaks of. -/
theorem Regs.Fits.updated {c : Cfg} {r : Regs} (fits : r.Fits c) (e : Byte) : (r.updated e).Fits c := by
  rw [Regs.updated_eq]
  split <;> exact fits.of_same rfl le_rfl rfl rfl

theorem Regs.Agrees.updated {c : Cfg} {r : Regs} (agrees : r.Agrees c) (e : Byte) : (r.updated e).Agrees c := by
  rw [Regs.updated_eq]
  split <;> exact agrees

/-- A receive service keeps the invariant, whichever of its four ways it ends (`serviceRx_did`). -/
theorem serviceRx_inv {s u : State} (h : serviceRx s = .ok u) (rx : s.radioState.isRx = true) (inv : s.Inv)
    (len : LengthsLawful s.cfg) : u.Inv := by
  obtain ⟨incomplete, illegal, missing, all⟩ := serviceRx_did h rx inv len
  have unarmed := inv.unarmed rx
  by_cases complete : s.headerComplete
  · by_cases legal : s.totalLegal
    · obtain ⟨header, bound⟩ := inv.payload_bounds len rx complete legal
      have fit := legal.2
      have length := inv.bufAfter_length (n := s.rxTake) (by omega)
      rcases bound.lt_or_eq with less | equal
      · exact (missing complete legal less).inv (inv.fits.withRx length (by omega))
          ⟨unarmed, _, rfl, header, less, fit⟩
      · obtain ⟨ts, d, -⟩ := all complete legal equal
        have fits : Regs.Fits s.cfg { s.regs with rxBuf := s.bufAfter s.rxTake }.idle :=
          inv.fits.withRx length (Nat.zero_le _)
        have agrees : Regs.Agrees s.cfg { s.regs with rxBuf := s.bufAfter s.rxTake }.idle := ⟨unarmed, rfl, rfl⟩
        split at d
        · exact d.inv (fits.updated _) (agrees.updated _)
        · exact d.inv fits agrees
    · exact (illegal complete legal).inv
        (inv.fits.withRx (inv.bufAfter_length (inv.header_room len rx)) (Nat.zero_le _)) ⟨unarmed, rfl, rfl⟩
  · have room := inv.header_room len rx
    exact (incomplete complete).inv (inv.fits.withRx (inv.bufAfter_length room) room)
      ⟨unarmed, inv.header_short len rx complete, rfl⟩

/-- A refill never sends more than the frame holds (42_rx_tx_sequencer.md R178). -/
theorem State.Inv.feed_agrees {s : State} (inv : s.Inv) (tx : s.radioState = .txTransmit) (lvl : Nat) :
    Regs.Agrees s.cfg { feedRegs s lvl with irqPending := false } := by
  obtain ⟨used, -, total⟩ := inv.tx (by rw [tx]; rfl)
  unfold feedRegs
  dsimp only
  split
  · exact ⟨used, rfl, total⟩
  · next more =>
    have sent : s.txOffset + (s.cfg.fifoCapacity - lvl) ≤ s.activeSlot.frame.length := by omega
    unfold Regs.Agrees
    simp only [State.regs_radioState, tx]
    exact ⟨used, sent, total⟩

theorem State.Inv.feed_fits {s : State} (inv : s.Inv) (lvl : Nat) :
    Regs.Fits s.cfg { feedRegs s lvl with irqPending := false } := by
  unfold feedRegs
  dsimp only
  split <;> exact inv.fits.of_same rfl le_rfl rfl rfl

/-- Releasing the active slot keeps every frame. -/
theorem State.Inv.released_fit {s : State} (inv : s.Inv) (i : Fin 16) :
    (s.slots.set s.cursor { s.slots[s.cursor] with inUse := false })[i].frame.length ≤ s.cfg.maxFrameLen := by
  rcases released_slot (slots := s.slots) (cursor := s.cursor) i with same | ⟨-, same⟩
  · rw [same]; exact inv.frames_fit i
  · rw [same]; exact inv.frames_fit i

theorem evIrq_inv {s t : State} (h : exec .evIrq s = .next t) (inv : s.Inv) (len : LengthsLawful s.cfg) : t.Inv := by
  rcases exec_evIrq h with ⟨-, d⟩ | ⟨on, rx, -⟩ | ⟨-, tx, d⟩ | ⟨-, last, ended⟩
  · exact d.inv inv.enterService.fits inv.agrees
  · rw [exec_evIrq_rx on rx] at h
    obtain ⟨u, hu, rfl⟩ := complete_eq_next h
    exact (serviceRx_inv hu rx inv.enterService len).of_same rfl rfl
  · exact d.inv (inv.feed_fits _) (inv.feed_agrees tx _)
  · obtain ⟨-, -, total⟩ := inv.tx (by rw [last]; rfl)
    have fits := inv.enterService.fits.withSlots inv.released_fit
    rcases ended with ⟨j, _, next, d⟩ | ⟨-, d⟩
    · exact d.inv (fits.of_same rfl le_rfl rfl rfl) (.started (nextSlot_inUse next) total)
    · exact d.inv (fits.of_same rfl (Nat.zero_le _) rfl rfl) ⟨rfl, rfl, rfl⟩

/-! ### The other operations -/

theorem Declined.inv {s t : State} (h : Declined s t) (inv : s.Inv) : t.Inv := by
  obtain ⟨o, rfl⟩ := h
  exact inv.of_same rfl rfl

/-- Register Driver operations write no register the invariant speaks of. -/
theorem DriverDoes.inv {i : Instr} {s t : State} (h : DriverDoes i s t) (inv : s.Inv) : t.Inv := by
  obtain ⟨regs, _, _, d, only⟩ := h
  rw [only.rest] at d
  exact d.inv (inv.fits.of_same rfl le_rfl rfl rfl) inv.agrees

/-- An enqueued frame fits, or is dropped (43_host_commands.md R209). -/
theorem accept_frames_fit {c : Cfg} {slots : SlotTable} (frame : Bytes)
    (fit : ∀ i : Fin 16, slots[i].frame.length ≤ c.maxFrameLen) (i : Fin 16) :
    (accept c slots frame)[i].frame.length ≤ c.maxFrameLen := by
  unfold accept
  split
  · exact fit i
  · next short =>
    split
    · exact fit i
    · next j _ =>
      by_cases e : j = i
      · subst e
        simpa using Nat.le_of_not_lt short
      · have other : (slots.set j { inUse := true, frame := frame })[i] = slots[i] :=
          Vector.getElem_set_ne _ _ (Fin.val_ne_of_ne e)
        rw [other]
        exact fit i

theorem acceptAll_frames_fit {c : Cfg} (frames : List Bytes) (slots : SlotTable)
    (fit : ∀ i : Fin 16, slots[i].frame.length ≤ c.maxFrameLen) (i : Fin 16) :
    (frames.foldl (accept c) slots)[i].frame.length ≤ c.maxFrameLen := by
  induction frames generalizing slots with
  | nil => exact fit i
  | cons frame rest ih => exact ih _ (accept_frames_fit frame fit)

/-- A submission that left the slot table as `slots`: a transmission was started from idle, or nothing else was done. -/
def Submitted (s t : State) (slots : SlotTable) : Prop :=
  (∃ j d, s.radioState = .rxWaitSync ∧ nextSlot s.cfg slots = some j ∧
    Did s t (Regs.started { s.regs with slots := slots } s.cfg j d) (startTxTxns s.cfg slots[j].frame) [] [] [.ok]) ∨
  Did s t { s.regs with slots := slots } [] [] [] [.ok]

/-- A submission keeps the invariant, whether or not a transmission starts. -/
theorem submission_inv {s t : State} {P : Prop} {slots : SlotTable}
    (h : Declined s t ∨ (P ∧ Submitted s t slots)) (inv : s.Inv)
    (fit : ∀ i : Fin 16, slots[i].frame.length ≤ s.cfg.maxFrameLen)
    (kept : ∀ i : Fin 16, s.slots[i].inUse = true → slots[i] = s.slots[i]) : t.Inv := by
  have fits := inv.fits.withSlots fit
  rcases h with g | ⟨-, ⟨j, _, idle, next, d⟩ | d⟩
  · exact g.inv inv
  · exact d.inv (fits.of_same rfl le_rfl rfl rfl) (.started (nextSlot_inUse next) (inv.idle idle).2)
  · exact d.inv fits (inv.agrees.withSlots kept)

/-- The timer service disarms the timer, which no clause forbids. -/
theorem Regs.Agrees.disarmed {c : Cfg} {r : Regs} (agrees : r.Agrees c) :
    Regs.Agrees c { r with timerArmed := false } := by
  unfold Regs.Agrees at agrees ⊢
  cases hs : r.radioState <;> simp only [hs, true_and] at agrees ⊢
  case rxWaitSync | rxHeader | rxPayload => exact agrees.2
  case txTransmit | txLastTransmit => exact agrees

theorem evTimer_inv {s t : State} (h : exec .evTimer s = .next t) (inv : s.Inv) : t.Inv := by
  have fits : Regs.Fits s.cfg { s.regs with timerArmed := false } :=
    inv.fits.of_same rfl le_rfl rfl rfl
  rcases exec_evTimer h with ⟨-, -, d⟩ | d
  · exact d.inv fits inv.agrees.disarmed
  · exact d.inv fits inv.agrees.disarmed

/-- Every operation the command port can carry keeps the invariant; the form matters for the identifier's width only
(30_encoding.md R96). -/
theorem exec_inv {i : Instr} {s t : State} (h : exec i s = .next t) (form : i.wellFormed s.cfg.netidBytes = true)
    (inv : s.Inv) (len : LengthsLawful s.cfg) : t.Inv := by
  have driver : ∀ {j : Instr}, Declined s t ∨ (s.radioState = .rxWaitSync ∧ DriverDoes j s t) → t.Inv :=
    fun g => g.elim (·.inv inv) (·.2.inv inv)
  by_cases hd : i.isDriver = true
  · exact driver (exec_driver hd h)
  · cases i with
    | init off =>
      rcases exec_init h with g | ⟨-, d⟩ | ⟨-, n, d⟩
      · exact g.inv inv
      · exact d.inv (inv.fits.of_same rfl (Nat.zero_le _) rfl rfl) ⟨rfl, rfl, rfl⟩
      · exact d.inv (inv.fits.of_same rfl (Nat.zero_le _) rfl rfl) ⟨rfl, rfl, rfl⟩
    | transmit frame =>
      exact submission_inv (exec_transmit h) inv (accept_frames_fit frame inv.frames_fit) fun _ u =>
        accept_keeps_inUse frame u
    | transmitList frames =>
      exact submission_inv (exec_transmitList h) inv (acceptAll_frames_fit frames _ inv.frames_fit) fun _ u =>
        acceptAll_keeps_inUse frames _ u
    | restartRx =>
      exact (exec_restartRx h).elim (·.inv inv) fun d =>
        d.inv (inv.fits.of_same rfl (Nat.zero_le _) rfl rfl) ⟨rfl, rfl, rfl⟩
    | setFreqOffset v => exact driver (exec_reconfigure (.inl rfl) h)
    | smSetFreq v => exact driver (exec_reconfigure (.inr (.inl rfl)) h)
    | smSetBw v => exact driver (exec_reconfigure (.inr (.inr rfl)) h)
    | trackEnable id =>
      rcases exec_trackEnable h with g | rfl
      · exact g.inv inv
      · exact State.inv_iff.2 ⟨⟨inv.rxBuf_length, inv.rxCount_le, inv.frames_fit, of_decide_eq_true form⟩, inv.agrees⟩
    | trackDisable =>
      rcases exec_trackDisable h with g | rfl
      · exact g.inv inv
      · exact State.inv_iff.2 ⟨(inv.fits.of_same rfl le_rfl rfl rfl), inv.agrees⟩
    | evIrq => exact evIrq_inv h inv len
    | evTimer => exact evTimer_inv h inv
    | _ => exact absurd rfl hd

/-! ### One step -/

theorem State.Inv.absorb {s : State} (inv : s.Inv) : s.absorb.Inv := inv.of_same rfl rfl

theorem State.Inv.takeWord {s : State} (inv : s.Inv) : s.takeWord.2.Inv := by
  unfold State.takeWord
  split
  · exact inv
  · dsimp only
    split <;> exact inv.of_same rfl rfl

theorem State.Inv.dropFirst {s : State} (inv : s.Inv) : s.dropFirst.Inv := by
  unfold State.dropFirst
  split <;> exact inv.of_same rfl rfl

/-- Arbitration takes a word or draws a choice. -/
theorem State.Inv.nextWork {s : State} (inv : s.Inv) : s.nextWork.2.Inv := by
  unfold State.nextWork
  split
  · exact inv.dropFirst
  · exact inv
  · exact inv
  · exact inv.takeWord

/-- The command port carries every word that decodes but the event codes. -/
theorem decode_of_decodeCommand {n : Nat} {w : Bytes} {i : Instr} (h : decodeCommand n w = .ok i) :
    decode n w = .ok i := by
  unfold decodeCommand at h
  split at h
  · next j decoded =>
    split at h
    · cases h
    · rw [decoded, ← h]
  · cases h

/-- A word taken from the port was decoded with the state's identifier width. -/
theorem takeWord_wellFormed {s t : State} {i : Instr} (h : s.takeWord = (.run i, t)) :
    i.wellFormed t.cfg.netidBytes = true := by
  unfold State.takeWord at h
  split at h
  · cases h
  · dsimp only at h
    split at h
    · next decoded =>
      cases h
      exact (encode_of_decode (decode_of_decodeCommand decoded)).2
    · cases h

/-- What arbitration starts is well formed: an event carries no operand, a word was decoded. -/
theorem nextWork_wellFormed {s t : State} {i : Instr} (h : s.nextWork = (.run i, t)) :
    i.wellFormed t.cfg.netidBytes = true := by
  unfold State.nextWork at h
  split at h
  · cases h
    cases s.firstSource <;> rfl
  · cases h; rfl
  · cases h; rfl
  · exact takeWord_wellFormed h

/-- Settles O51: what arrives and what arbitration does leave the registers alone (`State.Inv.nextWork`), every operation
keeps the invariant (`exec_inv`). -/
theorem stepKeepsInvariants : Obligations.StepKeepsInvariants := by
  intro s t len inv h
  have start := inv.absorb.nextWork
  have cfg := ((Grows.absorb s).trans (.nextWork s.absorb)).cfg_eq
  unfold step at h
  split at h
  · next i u e =>
    rw [e] at start cfg
    exact exec_inv h (nextWork_wellFormed e) start (cfg ▸ len)
  · next u e =>
    rw [e] at start
    obtain rfl : u.markRefused _ = t := by simpa [refuse] using h
    exact start.of_same rfl rfl
  · next u e =>
    rw [e] at start
    obtain rfl : u = t := by simpa using h
    exact start

end Sys2Proof.Machine
end

section
/-! The table of `radioState` (42_rx_tx_sequencer.md R182), read off what each operation does (Laws/Exec.lean), and the
codes of 30_encoding.md R94. -/

namespace Sys2Proof.Machine

open Sys2Proof.Config

theorem Transition.of_eq {r q : RadioState} {i : Instr} (h : q = r) : Transition r i q := h ▸ .keep r i

/-- An operation moves `radioState` as its register record says. -/
theorem Did.transition {i : Instr} {s t : State} {regs : Regs} {x : List BusTxn} {a : List Bytes}
    {p : List FrameRecord} {o : List OpOutcome} (d : Did s t regs x a p o)
    (row : Transition s.radioState i regs.radioState) : Transition s.radioState i t.radioState := by
  rw [show t.radioState = regs.radioState from d.field Regs.radioState]
  exact row

theorem Declined.transition {i : Instr} {s t : State} (h : Declined s t) :
    Transition s.radioState i t.radioState := by
  obtain ⟨o, rfl⟩ := h
  exact .keep _ i

theorem DriverDoes.transition {i : Instr} {s t : State} (h : DriverDoes i s t) :
    Transition s.radioState i t.radioState := by
  obtain ⟨_, _, _, d, only⟩ := h
  exact d.transition (.of_eq (by rw [only.rest]; rfl))

/-- A submission starts a transmission from idle, or leaves `radioState` alone. -/
theorem submission_transition {i : Instr} {s t : State} {P : Prop} {slots : SlotTable}
    (h : Declined s t ∨ (P ∧ Submitted s t slots))
    (starts : Transition .rxWaitSync i .txTransmit) : Transition s.radioState i t.radioState := by
  rcases h with g | ⟨-, ⟨_, _, idle, -, d⟩ | d⟩
  · exact g.transition
  · exact d.transition (idle ▸ starts)
  · exact d.transition (.keep _ i)

/-- The interrupt service moves along the row of the state it finds. -/
theorem evIrq_transition {s t : State} (h : exec .evIrq s = .next t) :
    Transition s.radioState .evIrq t.radioState := by
  rcases exec_evIrq h with ⟨-, d⟩ | ⟨-, -, _, _, _, d, -, -, -, row⟩ | ⟨-, tx, d⟩ | ⟨-, last, ⟨_, _, -, d⟩ | ⟨-, d⟩⟩
  · exact d.transition (.keep _ _)
  · exact d.transition row
  · refine d.transition ?_
    unfold feedRegs
    dsimp only
    split
    · exact tx ▸ .lastFill
    · exact .keep _ _
  · exact d.transition (last ▸ .nextTx)
  · exact d.transition (last ▸ .txEnds)

theorem evTimer_transition {s t : State} (h : exec .evTimer s = .next t) :
    Transition s.radioState .evTimer t.radioState := by
  rcases exec_evTimer h with ⟨-, -, d⟩ | d
  · exact d.transition (.keep _ _)
  · exact d.transition (.keep _ _)

/-- Every operation moves along the table. -/
theorem exec_transition {i : Instr} {s t : State} (h : exec i s = .next t) :
    Transition s.radioState i t.radioState := by
  have driver : Declined s t ∨ (s.radioState = .rxWaitSync ∧ DriverDoes i s t) →
      Transition s.radioState i t.radioState := fun g => g.elim (·.transition) (·.2.transition)
  by_cases hd : i.isDriver = true
  · exact driver (exec_driver hd h)
  · cases i with
    | init off =>
      rcases exec_init h with g | ⟨-, d⟩ | ⟨-, n, d⟩
      · exact g.transition
      · exact d.transition (.init _ off)
      · exact d.transition (.init _ off)
    | transmit frame => exact submission_transition (exec_transmit h) (.startTx frame)
    | transmitList frames => exact submission_transition (exec_transmitList h) (.startTxList frames)
    | restartRx => exact (exec_restartRx h).elim (·.transition) (·.transition (.restart _))
    | setFreqOffset v => exact driver (exec_reconfigure (.inl rfl) h)
    | smSetFreq v => exact driver (exec_reconfigure (.inr (.inl rfl)) h)
    | smSetBw v => exact driver (exec_reconfigure (.inr (.inr rfl)) h)
    | trackEnable id =>
      rcases exec_trackEnable h with g | rfl
      · exact g.transition
      · exact .keep _ _
    | trackDisable =>
      rcases exec_trackDisable h with g | rfl
      · exact g.transition
      · exact .keep _ _
    | evIrq => exact evIrq_transition h
    | evTimer => exact evTimer_transition h
    | _ => exact absurd rfl hd

/-- 30_encoding.md R94: the codes 5, 6 and 7 are never produced. -/
theorem RadioState.code_le (r : RadioState) : r.code.toNat ≤ 4 := by cases r <;> decide

/-- Settles O54, from `exec_transition` and the codes of the five states. -/
theorem radioStateFollowsTheTable : Obligations.RadioStateFollowsTheTable := fun _ _ t h =>
  ⟨exec_transition h, t.radioState.code_le, t.radioState.ofCode_code⟩

end Sys2Proof.Machine
end

section
/-! A frame received over several interrupts (42_rx_tx_sequencer.md R186): `Receiving` is what holds before each service,
`Receiving.collects` the services that leave bytes missing, `Receiving.finishes` the one that brings the last byte. -/

namespace Sys2Proof.Machine

open Sys2Proof.Config

/-! ### What the chip answers -/

/-- From the `n`th answer on the chip answers `bs`. -/
def State.Offers (s : State) (n : Nat) (bs : Bytes) : Prop := s.answersFrom n bs.length = bs

theorem State.offers_append {s : State} {n : Nat} {a b : Bytes} :
    s.Offers n (a ++ b) ↔ s.Offers n a ∧ s.Offers (n + a.length) b := by
  unfold State.Offers
  rw [List.length_append, State.answersFrom_add]
  exact ⟨fun h => List.append_inj h (State.answersFrom_length ..), fun ⟨ha, hb⟩ => by rw [ha, hb]⟩

theorem State.offers_cons {s : State} {n : Nat} {b : Byte} {bs : Bytes} :
    s.Offers n (b :: bs) ↔ s.answerAt n = b ∧ s.Offers (n + 1) bs := by
  have single : s.Offers n [b] ↔ s.answerAt n = b := List.cons_eq_cons.trans (and_iff_left rfl)
  rw [← single]
  exact State.offers_append (a := [b])

/-- While the script lasts, it is what the chip answers. -/
theorem State.offers_of_items {s : State} {a b : Bytes} (h : s.inp.answers.items = a ++ b) : s.Offers 0 a := by
  have enough : a.length ≤ s.inp.answers.items.length := by simp [h]
  exact (Script.take_items freeByte a.length s.inp.answers enough).trans (by simp [h])

theorem State.Offers.take {s : State} {n m : Nat} {bs : Bytes} (h : s.Offers n bs) (short : m ≤ bs.length) :
    s.answersFrom n m = bs.take m := by
  rw [← List.take_append_drop m bs, State.offers_append] at h
  simpa [State.Offers, short] using h.1

theorem rxScript_append (a b : List Byte) (frame : Bytes) :
    rxScript (a ++ b) frame = rxScript a frame ++ rxScript b (frame.drop (a.map BitVec.toNat).sum) := by
  induction a generalizing frame with
  | nil => rfl
  | cons l rest ih => simp [rxScript, ih]

/-! ### A service that pushes nothing reads no clock -/

theorem completeRx_pushes {n : Nat} {s t : State} (h : completeRx n s = .ok t) : t.pushTrace ≠ s.pushTrace := by
  obtain ⟨ts, d, -⟩ := completeRx_did h
  simp [d.pushes_eq]

theorem abortRx_ticks {s t : State} (h : abortRx s = .ok t) : t.inp.ticks = s.inp.ticks := by
  simp only [abortRx, bind_eq_ok] at h
  obtain ⟨t₁, flushed, t₂, strobed, ended⟩ := h
  obtain rfl := Except.ok.inj ended
  exact (transact_ticks strobed).trans (transact_ticks flushed)

theorem rxPayload_ticks {avail : Nat} {s t : State} (h : rxPayload avail s = .ok t)
    (quiet : t.pushTrace = s.pushTrace) : t.inp.ticks = s.inp.ticks := by
  unfold rxPayload at h
  split at h
  · rw [Except.ok.inj h]
  · simp only [bind_eq_ok] at h
    obtain ⟨v, drained, rest⟩ := h
    have same : v.pushTrace = s.pushTrace := by simpa using (drain_did drained).pushes_eq
    split at rest
    · exact absurd (quiet.trans same.symm) (completeRx_pushes rest)
    · rw [← Except.ok.inj rest, drain_ticks drained]

theorem rxHeader_ticks {avail : Nat} {s t : State} (h : rxHeader avail s = .ok t)
    (quiet : t.pushTrace = s.pushTrace) : t.inp.ticks = s.inp.ticks := by
  simp only [rxHeader, bind_eq_ok] at h
  obtain ⟨v, drained, rest⟩ := h
  have same : v.pushTrace = s.pushTrace := by simpa using (drain_did drained).pushes_eq
  rw [← drain_ticks drained]
  split at rest
  · unfold rxHeaderDone at rest
    dsimp only at rest
    split at rest
    · exact abortRx_ticks rest
    · exact rxPayload_ticks (s := v.enterPayload _) rest (quiet.trans same.symm)
  · rw [Except.ok.inj rest]

theorem serviceRx_ticks {s t : State} (h : serviceRx s = .ok t) (quiet : t.pushTrace = s.pushTrace) :
    t.inp.ticks = s.inp.ticks := by
  simp only [serviceRx, bind_eq_ok] at h
  obtain ⟨⟨level, v⟩, read, rest⟩ := h
  have begun : (if s.isIdle then s.clearRx .rxHeader else s).inp.ticks = s.inp.ticks ∧
      (if s.isIdle then s.clearRx .rxHeader else s).pushTrace = s.pushTrace := by split <;> exact ⟨rfl, rfl⟩
  have same : v.pushTrace = s.pushTrace := by simpa [begun.2] using (busReadStatus_did read).2.pushes_eq
  rw [← begun.1, ← busReadStatus_ticks read]
  dsimp only at rest
  split at rest
  · exact rxHeader_ticks rest (quiet.trans same.symm)
  · split at rest
    · exact rxPayload_ticks rest (quiet.trans same.symm)
    · rw [Except.ok.inj rest]

theorem exec_evIrq_ticks {s t : State} (on : s.irqEnabled = true) (rx : s.radioState.isRx = true)
    (h : exec .evIrq s = .next t) (quiet : t.pushTrace = s.pushTrace) : t.inp.ticks = s.inp.ticks := by
  rw [exec_evIrq_rx on rx] at h
  obtain ⟨u, served, rfl⟩ := complete_eq_next h
  exact serviceRx_ticks (s := s.enterService .irq) (t := u) served quiet

/-! ### Between two services -/

/-- A frame the block can receive: its header announces its own length (R172). -/
structure Announced (c : Cfg) (frame : Bytes) : Prop where
  len : LengthsLawful c
  header_le : c.headerLen ≤ frame.length
  fits : frame.length ≤ c.maxFrameLen
  total : totalLenOf c (frame.take c.headerLen) = frame.length

/-- The first `k` bytes of the frame are received, and bytes are missing. -/
structure Receiving (s : State) (frame : Bytes) (k : Nat) : Prop where
  lawful : Announced s.cfg frame
  inv : s.Inv
  waits : s.WaitsEnd
  enabled : s.irqEnabled = true
  rx : s.radioState.isRx = true
  have_eq : s.rxHave = k
  bytes : s.rxBuf.take k = frame.take k
  missing : k < frame.length
  total : s.radioState = .rxPayload → s.rxTotal = some frame.length

/-- Only the receive registers and the latch may differ. -/
def RxWrites (r q : Regs) : Prop :=
  q = { r with
    irqPending := q.irqPending, radioState := q.radioState, rxBuf := q.rxBuf, rxCount := q.rxCount
    rxTotal := q.rxTotal }

theorem RxWrites.trans {r q w : Regs} (h : RxWrites r q) (k : RxWrites q w) : RxWrites r w :=
  Eq.trans k (by rw [h])

/-- Services ran from `s` to `t` that drew `n` answers, wrote the receive registers only, pushed nothing and read no
clock. -/
def Collected (s t : State) (n : Nat) : Prop :=
  ∃ x o, Did s t t.regs x [] [] o ∧ RxWrites s.regs t.regs ∧ (bytesRead x).length = n ∧ t.inp.ticks = s.inp.ticks

theorem Collected.refl (s : State) : Collected s s 0 := ⟨[], [], Did.refl s, rfl, rfl, rfl⟩

theorem Collected.trans {s t u : State} {n m : Nat} (h : Collected s t n) (k : Collected t u m) :
    Collected s u (n + m) := by
  obtain ⟨x, o, d, only, drawn, ticks⟩ := h
  obtain ⟨y, p, e, only', drawn', ticks'⟩ := k
  have armed : t.timerArmed = s.timerArmed := congrArg Regs.timerArmed only
  exact ⟨x ++ y, o ++ p, d.trans e armed.symm.trans, only.trans only', by simp [← drawn, ← drawn', bytesRead],
    ticks'.trans ticks⟩

theorem Collected.offers {s t : State} {n k : Nat} {bs : Bytes} (h : Collected s t n) :
    t.Offers k bs ↔ s.Offers (n + k) bs := by
  obtain ⟨x, o, d, -, rfl, -⟩ := h
  unfold State.Offers
  rw [d.answersFrom]

theorem Collected.answerAt {s t : State} {n : Nat} (h : Collected s t n) (k : Nat) :
    t.answerAt k = s.answerAt (n + k) := by
  obtain ⟨x, o, d, -, rfl, -⟩ := h
  exact d.answerAt k

theorem Collected.pushTrace {s t : State} {n : Nat} (h : Collected s t n) : t.pushTrace = s.pushTrace := by
  obtain ⟨x, o, d, -⟩ := h
  simpa using d.pushes_eq

/-! ### One service -/

/-- Header bytes a service reads never pass the end of the frame. -/
theorem Receiving.headerLack_le {s : State} {frame : Bytes} {k : Nat} (r : Receiving s frame k) :
    s.headerLack ≤ frame.length - k := by
  by_cases late : s.radioState = .rxPayload
  · simp [State.headerLack_payload late]
  · rw [State.headerLack_early late, r.have_eq]
    exact Nat.sub_le_sub_right r.lawful.header_le k

/-- The bytes offered go behind those received. -/
theorem Receiving.bufAfter_take {s : State} {frame : Bytes} {k n : Nat} (r : Receiving s frame k)
    (room : k + n ≤ frame.length) (offered : s.answersFrom 1 n = (frame.drop k).take n) :
    (s.bufAfter n).take (k + n) = frame.take (k + n) := by
  have inside : k ≤ s.rxBuf.length := by
    have fits := r.lawful.fits
    rw [r.inv.rxBuf_length]
    omega
  have front : (s.rxBuf.take k ++ (frame.drop k).take n).length = k + n := by simp; omega
  unfold State.bufAfter overwrite
  rw [r.have_eq, offered, List.take_append_of_le_length (by omega), List.take_of_length_le (by omega), r.bytes,
    List.take_add]

/-- Once the header is complete, the total is the frame's length (R172). -/
theorem Receiving.frameTotal_eq {s : State} {frame : Bytes} {k : Nat} (r : Receiving s frame k)
    (complete : s.headerComplete)
    (offered : s.answersFrom 1 s.headerTake = (frame.drop k).take s.headerTake) : s.frameTotal = frame.length := by
  unfold State.frameTotal
  split
  · next late => rw [r.total late]; rfl
  · next early =>
    have short := r.inv.rxHave_lt r.lawful.len r.rx early
    have take : k + s.headerTake = s.cfg.headerLen := by
      rw [State.headerTake_of_complete complete, State.headerLack_early early, ← r.have_eq]
      omega
    have header : s.headerAfter = frame.take s.cfg.headerLen := by
      unfold State.headerAfter
      rw [← take]
      exact r.bufAfter_take (take ▸ r.lawful.header_le) offered
    rw [header, r.lawful.total]

/-- All a service reads of the frame: what the FIFO holds, or all that is missing. -/
theorem Receiving.rxTake_eq {s : State} {frame : Bytes} {k : Nat} (r : Receiving s frame k)
    (complete : s.headerComplete) (total : s.frameTotal = frame.length) :
    s.rxTake = min s.rxAvail (frame.length - k) := by
  have lack := r.headerLack_le
  have take := State.headerTake_of_complete complete
  unfold State.headerComplete at complete
  unfold State.rxTake State.payloadTake
  rw [total, take, r.have_eq]
  omega

theorem headerTxns_bytesRead (s : State) : (bytesRead (headerTxns s)).length = 1 + s.headerTake := by
  have level : bytesRead (headerTxns s) = s.answer :: bytesRead (burstRead s.cfg.chip.aFifo
    (s.answersFrom 1 s.headerTake) (guardOf s.cfg .rdRxFifo)) := rfl
  rw [level, burstRead_bytes, List.length_cons, State.answersFrom_length, Nat.add_comm]

theorem payloadTxns_bytesRead (s : State) : (bytesRead (payloadTxns s)).length = 1 + s.rxTake := by
  have parts : bytesRead (payloadTxns s) = bytesRead (headerTxns s) ++ bytesRead (burstRead s.cfg.chip.aFifo
    (s.answersFrom (1 + s.headerTake) s.payloadTake) (guardOf s.cfg .rdRxFifo)) := List.flatMap_append
  rw [parts, List.length_append, headerTxns_bytesRead, burstRead_bytes, State.answersFrom_length, Nat.add_assoc]
  rfl

/-- What a service reads of the bytes offered. -/
theorem Receiving.reads {s : State} {frame : Bytes} {k n : Nat} (offered : s.Offers 1 ((frame.drop k).take s.rxAvail))
    (held : n ≤ s.rxAvail) (room : n ≤ frame.length - k) : s.answersFrom 1 n = (frame.drop k).take n := by
  rw [offered.take (by simp; omega), List.take_take, Nat.min_eq_left held]

/-- What a service does that leaves bytes missing, with the header complete or not (O33, O35). -/
theorem Receiving.serves {s : State} {frame : Bytes} {k : Nat} (r : Receiving s frame k)
    (short : k + s.rxAvail < frame.length) (offered : s.Offers 1 ((frame.drop k).take s.rxAvail)) :
    ∃ t state total x, exec .evIrq s = .next t ∧
      Did s t { s.regs with
        irqPending := false, radioState := state, rxTotal := total
        rxBuf := s.bufAfter s.rxAvail, rxCount := k + s.rxAvail } x [] [] [.ok] ∧
      (bytesRead x).length = 1 + s.rxAvail ∧
      (state = .rxHeader ∨ (state = .rxPayload ∧ total = some frame.length)) := by
  by_cases complete : s.headerComplete
  · have total := r.frameTotal_eq complete
      (Receiving.reads offered (Nat.min_le_left _ _) ((Nat.min_le_right _ _).trans r.headerLack_le))
    have take : s.rxTake = s.rxAvail := by
      rw [r.rxTake_eq complete total]
      omega
    have legal : s.totalLegal := by
      unfold State.totalLegal
      rw [total]
      exact ⟨r.lawful.header_le, r.lawful.fits⟩
    obtain ⟨t, h, d⟩ := payloadAccumulates s r.inv r.lawful.len r.waits r.enabled r.rx complete legal
      (by rw [r.have_eq, take, total]; exact short)
    rw [r.have_eq, take, total] at d
    exact ⟨t, _, _, _, h, d, take ▸ payloadTxns_bytesRead s, .inr ⟨rfl, rfl⟩⟩
  · have take := State.headerTake_of_incomplete complete
    obtain ⟨t, h, d⟩ := headerAccumulates s r.inv r.lawful.len r.waits r.enabled r.rx complete
    rw [r.have_eq, take] at d
    exact ⟨t, _, _, _, h, d, take ▸ headerTxns_bytesRead s, .inl rfl⟩

/-- A service that leaves bytes missing goes on receiving (R172, R173). -/
theorem Receiving.collects {s : State} {frame : Bytes} {k : Nat} (r : Receiving s frame k)
    (short : k + s.rxAvail < frame.length) (offered : s.Offers 1 ((frame.drop k).take s.rxAvail)) :
    ∃ t, exec .evIrq s = .next t ∧ Receiving t frame (k + s.rxAvail) ∧ Collected s t (1 + s.rxAvail) := by
  obtain ⟨t, state, total, x, h, d, drawn, goes⟩ := r.serves short offered
  have state_eq : t.radioState = state := d.field Regs.radioState
  have busy : t.radioState.isRx = true ∧ t.isIdle = false := by
    unfold State.isIdle
    rw [state_eq]
    rcases goes with rfl | ⟨rfl, -⟩ <;> exact ⟨rfl, rfl⟩
  have collected : Collected s t (1 + s.rxAvail) :=
    ⟨x, _, d.regs_eq.symm ▸ d, d.regs_eq.symm ▸ rfl, drawn,
      exec_evIrq_ticks r.enabled r.rx h (by simpa using d.pushes_eq)⟩
  refine ⟨t, h, ?_, collected⟩
  exact
    { lawful := d.cfg_eq ▸ r.lawful
      inv := evIrq_inv h r.inv r.lawful.len
      waits := d.waits_kept r.waits
      enabled := (d.field Regs.irqEnabled).trans r.enabled
      rx := busy.1
      have_eq := by
        rw [State.rxHave, busy.2]
        exact d.field Regs.rxCount
      bytes := by
        rw [show t.rxBuf = s.bufAfter s.rxAvail from d.field Regs.rxBuf]
        exact r.bufAfter_take (by omega) (Receiving.reads offered le_rfl (by omega))
      missing := short
      total := fun late => by
        rcases goes with rfl | ⟨-, rfl⟩
        · simp [state_eq] at late
        · exact d.field Regs.rxTotal }

/-- Several services that leave bytes missing. -/
theorem Receiving.collectsAll {frame : Bytes} (levels : List Byte) : ∀ {s : State} {k : Nat}, Receiving s frame k →
    k + (levels.map BitVec.toNat).sum < frame.length → s.Offers 0 (rxScript levels (frame.drop k)) →
    ∃ t, execAll (List.replicate levels.length .evIrq) s = .next t ∧
      Receiving t frame (k + (levels.map BitVec.toNat).sum) ∧
      Collected s t (rxScript levels (frame.drop k)).length := by
  induction levels with
  | nil => exact fun {s _} r _ _ => ⟨s, rfl, r, .refl s⟩
  | cons level rest ih =>
    intro s k r short offered
    simp only [List.map_cons, List.sum_cons] at short ⊢
    rw [rxScript, State.offers_cons, State.offers_append] at offered
    obtain ⟨first, bytes, more⟩ := offered
    have avail : s.rxAvail = level.toNat := congrArg BitVec.toNat first
    have read : ((frame.drop k).take level.toNat).length = level.toNat := by simp; omega
    rw [← avail] at bytes read short
    obtain ⟨t, h, r', c⟩ := r.collects (by omega) bytes
    rw [← avail, List.drop_drop, read] at more
    obtain ⟨u, hu, r'', c'⟩ := ih r' (by omega) (c.offers.2 more)
    refine ⟨u, (execAll_cons_of_next h).trans hu, ?_, ?_⟩
    · rwa [Nat.add_assoc, avail] at r''
    · have size : (rxScript (level :: rest) (frame.drop k)).length =
          1 + s.rxAvail + (rxScript rest (frame.drop (k + s.rxAvail))).length := by
        rw [rxScript, ← avail, List.drop_drop, List.length_cons, List.length_append, read]
        omega
      exact size ▸ c.trans c'

/-! ### The service that brings the last byte -/

/-- A reception of `frame` that ended between `s` and `t`: one frame record, stamped after the release of the LQI read
`e`; the filter's sample, where its gate is open, is answer `sample` counted from `s`. -/
structure ReceptionEnds (s t : State) (frame : Bytes) (rssi lqi : Byte) (sample : Nat) : Prop where
  state : t.radioState = .rxWaitSync
  count : t.rxCount = 0
  total : t.rxTotal = none
  trace : ∃ pre e post,
    t.pushTrace = s.pushTrace ++ [frameRecord s.cfg frame (frame.take s.cfg.headerLen) rssi lqi
      (e.releaseAt + s.inp.ticks.head freeTick)] ∧
    t.busTrace = s.busTrace ++ pre ++ e :: post ∧
    e.txn = .readStatus s.cfg.chip.aLqi lqi (guardOf s.cfg .getLqi) ∧
    post.map (·.txn) =
      (if s.tracks (netIdIn s.cfg (frame.take s.cfg.headerLen)) then
        updateTxns s.cfg s.regs (s.answerAt sample) else []) ++ endRxTxns s.cfg

/-- Seen from before the services that collected the other bytes. -/
theorem ReceptionEnds.prepend {s v t : State} {frame : Bytes} {rssi lqi : Byte} {n m : Nat} (c : Collected s v n)
    (h : ReceptionEnds v t frame rssi lqi m) : ReceptionEnds s t frame rssi lqi (n + m) where
  state := h.state
  count := h.count
  total := h.total
  trace := by
    have sample := c.answerAt m
    have pushed := c.pushTrace
    obtain ⟨x, o, d, only, -, ticks⟩ := c
    obtain ⟨es, bus, -⟩ := d.trace_eq
    obtain ⟨pre, e, post, push, trace, lqi_eq, rest⟩ := h.trace
    have gate : ∀ nid, v.tracks nid = s.tracks nid := fun nid => by
      have on : v.trackingEnabled = s.trackingEnabled := congrArg Regs.trackingEnabled only
      have id : v.trackedNetId = s.trackedNetId := congrArg Regs.trackedNetId only
      simp only [State.tracks, on, id]
    have filter : ∀ b, updateTxns s.cfg v.regs b = updateTxns s.cfg s.regs b := fun b => by
      have window : v.window = s.window := congrArg Regs.window only
      have index : v.winIdx = s.winIdx := congrArg Regs.winIdx only
      have offset : v.appliedOffset = s.appliedOffset := congrArg Regs.appliedOffset only
      exact updateTxns_congr b window index offset
    rw [d.cfg_eq] at push lqi_eq rest
    rw [pushed, ticks] at push
    rw [gate, filter, sample] at rest
    exact ⟨es ++ pre, e, post, push, by rw [trace, bus]; simp, lqi_eq, rest⟩

/-- Where the LQI read stands among the transactions of a completion. -/
theorem finishTxns_eq (s : State) (track : Bool) (k : Nat) : finishTxns s track k =
    .readStatus s.cfg.chip.aRssi (s.answerAt k) (guardOf s.cfg .getRssi) ::
      .readStatus s.cfg.chip.aLqi (s.answerAt (k + 1)) (guardOf s.cfg .getLqi) ::
        ((if track then updateTxns s.cfg s.regs (s.answerAt (k + 2)) else []) ++ endRxTxns s.cfg) := rfl

/-- A stretch that ends with a completion, cut at its LQI read. -/
theorem Did.finish_trace {s t : State} {regs : Regs} {x : List BusTxn} {a : List Bytes} {p : List FrameRecord}
    {o : List OpOutcome} {track : Bool} {k : Nat} {ts : Clock} (d : Did s t regs (x ++ finishTxns s track k) a p o)
    (stamp : StampedAfter s t (x.length + 1) ts) :
    ∃ pre e post, ts = e.releaseAt + s.inp.ticks.head freeTick ∧ t.busTrace = s.busTrace ++ pre ++ e :: post ∧
      e.txn = .readStatus s.cfg.chip.aLqi (s.answerAt (k + 1)) (guardOf s.cfg .getLqi) ∧
      post.map (·.txn) =
        (if track then updateTxns s.cfg s.regs (s.answerAt (k + 2)) else []) ++ endRxTxns s.cfg := by
  obtain ⟨es, bus, txns, -⟩ := d.trace_eq
  rw [finishTxns_eq] at txns
  obtain ⟨before, finish, rfl, rfl, finished⟩ := List.map_eq_append_iff.1 txns
  obtain ⟨first, more, rfl, -, finished⟩ := List.map_eq_cons_iff.1 finished
  obtain ⟨e, post, rfl, lqi, rest⟩ := List.map_eq_cons_iff.1 finished
  obtain ⟨e', here, rfl⟩ := stamp
  obtain rfl : e = e' := by simpa [bus, List.getElem?_append_right] using here
  exact ⟨before ++ [first], e, post, rfl, by simp [bus], lqi, rest⟩

/-- The service that brings the last byte ends the reception (O36). -/
theorem Receiving.finishes {s : State} {frame : Bytes} {k : Nat} {rssi lqi : Byte} (r : Receiving s frame k)
    (enough : frame.length ≤ k + s.rxAvail) (offered : s.Offers 1 (frame.drop k ++ [rssi, lqi])) :
    ∃ t, exec .evIrq s = .next t ∧ ReceptionEnds s t frame rssi lqi (frame.length - k + 3) := by
  obtain ⟨bytes, quality⟩ := State.offers_append.1 offered
  rw [List.length_drop, State.offers_cons, State.offers_cons] at quality
  obtain ⟨rssi_eq, lqi_eq, -⟩ := quality
  have lack := r.headerLack_le
  have complete : s.headerComplete := by
    unfold State.headerComplete
    omega
  have whole : (frame.drop k).take s.rxAvail = frame.drop k := List.take_of_length_le (by simp; omega)
  have held : s.Offers 1 ((frame.drop k).take s.rxAvail) := whole.symm ▸ bytes
  have total := r.frameTotal_eq complete
    (Receiving.reads held (Nat.min_le_left _ _) ((Nat.min_le_right _ _).trans lack))
  have take : s.rxTake = frame.length - k := by
    rw [r.rxTake_eq complete total]
    omega
  have missing := r.missing
  have buf : (s.bufAfter s.rxTake).take frame.length = frame := by
    have all := r.bufAfter_take (n := frame.length - k) (by omega) (Receiving.reads held (by omega) le_rfl)
    rwa [Nat.add_sub_cancel' missing.le, List.take_length, ← take] at all
  have header : (s.bufAfter s.rxTake).take s.cfg.headerLen = frame.take s.cfg.headerLen := by
    rw [← congrArg (List.take s.cfg.headerLen) buf, List.take_take, Nat.min_eq_left r.lawful.header_le]
  have legal : s.totalLegal := by
    unfold State.totalLegal
    rw [total]
    exact ⟨r.lawful.header_le, r.lawful.fits⟩
  have first : s.answerAt (s.rxTake + 1) = rssi := by rw [take, Nat.add_comm, rssi_eq]
  have second : s.answerAt (s.rxTake + 2) = lqi := by rw [take, ← lqi_eq]; congr 1; omega
  obtain ⟨t, ts, h, d, stamp⟩ := frameCompletes s r.inv r.lawful.len r.waits r.enabled r.rx complete legal
    (by rw [r.have_eq, take, total]; omega)
  obtain ⟨pre, e, post, rfl, trace, lqi_read, rest⟩ := d.finish_trace stamp
  have pushed := d.pushes_eq
  have idle := d.regs_eq
  rw [← Regs.updated_idle, ← apply_ite Regs.idle] at idle
  rw [total, buf, header, first, second] at pushed
  rw [second] at lqi_read
  rw [header, take] at rest
  exact ⟨t, h, congrArg Regs.radioState idle, congrArg Regs.rxCount idle, congrArg Regs.rxTotal idle,
    pre, e, post, pushed, trace, lqi_read, rest⟩

/-! ### The whole reception -/

theorem execAll_append {is js : List Instr} {s t : State} (h : execAll is s = .next t) :
    execAll (is ++ js) s = execAll js t := by
  induction is generalizing s with
  | nil =>
    rw [Host.Outcome.next.inj h]
    rfl
  | cons i rest ih =>
    rw [execAll] at h
    split at h
    · next v run => rw [List.cons_append, execAll_cons_of_next run, ih h]
    · cases h
    · cases h

/-- An initialised, idle block that a legal frame reaches. -/
theorem Receiving.start {s : State} {frame : Bytes} (lawful : Announced s.cfg frame) (inv : s.Inv) (w : s.WaitsEnd)
    (on : s.irqEnabled = true) (idle : s.radioState = .rxWaitSync) : Receiving s frame 0 where
  lawful := lawful
  inv := inv
  waits := w
  enabled := on
  rx := by rw [idle]; rfl
  have_eq := if_pos (State.isIdle_iff.2 idle)
  bytes := rfl
  missing := lawful.len.header_pos.trans lawful.header_le
  total := fun late => absurd (idle.symm.trans late) (by decide)

/-- The services before the last one: any first part of them leaves bytes missing. -/
theorem Receiving.collects_take {s : State} {frame : Bytes} {levels : List Byte} (r : Receiving s frame 0)
    (short : (levels.map BitVec.toNat).sum < frame.length) (offered : s.Offers 0 (rxScript levels frame)) (k : Nat) :
    ∃ t, execAll (List.replicate (levels.take k).length .evIrq) s = .next t ∧ t.pushTrace = s.pushTrace := by
  have parts := List.take_append_drop k levels
  rw [← parts, rxScript_append, State.offers_append] at offered
  rw [← parts, List.map_append, List.sum_append] at short
  obtain ⟨t, h, -, c⟩ := r.collectsAll (levels.take k) (by omega) offered.1
  exact ⟨t, h, c.pushTrace⟩

/-- What the chip answers when the last level covers all that is missing. -/
theorem rxScript_concat {before : List Byte} {last : Byte} {frame : Bytes}
    (enough : frame.length ≤ (before.map BitVec.toNat).sum + last.toNat) :
    rxScript (before ++ [last]) frame =
      rxScript before frame ++ last :: frame.drop (before.map BitVec.toNat).sum := by
  have whole : (frame.drop (before.map BitVec.toNat).sum).take last.toNat = frame.drop (before.map BitVec.toNat).sum :=
    List.take_of_length_le (by simp; omega)
  rw [rxScript_append, rxScript, whole, rxScript, List.append_nil]

/-- All services of a reception, the last of which finishes it. -/
theorem Receiving.ends {s : State} {frame : Bytes} {before : List Byte} {last rssi lqi : Byte}
    (r : Receiving s frame 0) (short : (before.map BitVec.toNat).sum < frame.length)
    (enough : frame.length ≤ (before.map BitVec.toNat).sum + last.toNat)
    (offered : s.Offers 0 (rxScript (before ++ [last]) frame ++ [rssi, lqi])) :
    ∃ t, execAll (List.replicate (before ++ [last]).length .evIrq) s = .next t ∧
      ReceptionEnds s t frame rssi lqi ((rxScript (before ++ [last]) frame).length + 2) := by
  rw [rxScript_concat enough] at offered ⊢
  rw [List.append_assoc, State.offers_append] at offered
  obtain ⟨collected, final⟩ := offered
  obtain ⟨v, hv, r', c⟩ := r.collectsAll before (by omega) collected
  rw [List.drop_zero] at c
  rw [Nat.zero_add] at r' final
  obtain ⟨level, bytes⟩ := State.offers_cons.1 ((c.offers (k := 0)).2 final)
  have avail : v.rxAvail = last.toNat := congrArg BitVec.toNat level
  obtain ⟨t, ht, ended⟩ := r'.finishes (by omega) bytes
  refine ⟨t, ?_, ?_⟩
  · rw [List.length_append, List.replicate_add, execAll_append hv]
    exact execAll_cons_of_next ht
  · have drawn : (rxScript before frame ++ last :: frame.drop (before.map BitVec.toNat).sum).length + 2 =
        (rxScript before frame).length + (frame.length - (before.map BitVec.toNat).sum + 3) := by
      simp only [List.length_append, List.length_cons, List.length_drop]
      omega
    rw [drawn]
    exact ended.prepend c

/-- Settles O37: every service before the last one leaves bytes missing (`Receiving.collects_take`), the last one ends the
reception (`Receiving.ends`). -/
theorem receptionRoundTrip : Obligations.ReceptionRoundTrip := by
  intro s levels frame rssi lqi rest inv len w on idle header fits announced script short enough
  have r := Receiving.start ⟨len, header, fits, announced⟩ inv w on idle
  obtain rfl | ⟨before, last, rfl⟩ := List.eq_nil_or_concat' levels
  · exact absurd enough (Nat.not_le_of_lt r.missing)
  rw [List.dropLast_concat] at short
  rw [List.map_append, List.sum_append, List.map_singleton, List.sum_singleton] at enough
  have offered : s.Offers 0 (rxScript (before ++ [last]) frame ++ [rssi, lqi]) :=
    State.offers_of_items (b := rest) (by simpa using script)
  refine ⟨fun k hk => ?_, ?_⟩
  · have collected := (State.offers_append.1 (rxScript_append before [last] frame ▸
      (State.offers_append.1 offered).1)).1
    have early : (before.take k).length = k := by simp at hk ⊢; omega
    exact early ▸ r.collects_take short collected k
  · obtain ⟨t, h, ended⟩ := r.ends short enough offered
    obtain ⟨pre, e, post, pushed, trace, lqi_read, after⟩ := ended.trace
    exact ⟨t, pre, e, post, h, ended.state, ended.count, ended.total, pushed, trace, lqi_read, after⟩

end Sys2Proof.Machine
end

section
/-! The host commands of 43_host_commands.md but the transmission requests: who is admitted (R210, R211, R213), the
recovery (R203), the retuning (R204, R205), the tracking gate (R207, R208) and `INIT` (R200). What a body does is said by
its `..._did` lemma, that it ends by its `..._ok` lemma (Laws/HostCommands.lean); `CompletesAs.of_complete` joins the
two. -/

namespace Sys2Proof.Machine

open Sys2Proof.Config

/-! ### Admission -/

/-- Settles O8: every driver operation has the test of R211 in front. -/
theorem driverOperationsRefusedWhileBusy : Obligations.DriverOperationsRefusedWhileBusy := by
  intro i s driver busy
  cases i with
  | drvReset | wrReg | wrBurst | strobe | rdReg | rdBurst | rdStatus | setFreq | calibrate | setBw | setBitrate | setDev
  | getRssi | getLqi | lowPower | activePower | isConnected | rdRxFifo | wrTxFifo | wrTxFifoBurst | flushRx | flushTx
  | getRxLvl | getTxLvl | setFifoThr | irqRxThr | irqTxThr | irqTxUnf | updFreqOffset =>
    simp only [exec]
    exact whenBusFree_busy busy
  | init | transmit | transmitList | restartRx | setFreqOffset | smSetFreq | smSetBw | trackEnable | trackDisable
  | evIrq | evTimer => exact absurd driver Bool.false_ne_true

/-- Settles O9: every host command but `INIT` has the test of R213 in front of all others. -/
theorem commandsRefusedBeforeInit : Obligations.CommandsRefusedBeforeInit := by
  intro i s command off
  cases i with
  | transmit | transmitList | restartRx | setFreqOffset | smSetFreq | smSetBw | trackEnable | trackDisable =>
    simp only [exec]
    exact whenInitialised_disabled off
  | _ => exact absurd command Bool.false_ne_true

/-- Settles O10: the test of R213 admits, the test of R210 behind it does not. -/
theorem reconfigurationUndefinedWhileBusy : Obligations.ReconfigurationUndefinedWhileBusy := by
  rintro i v s (rfl | rfl | rfl) enabled busy
  · exact (whenInitialised_enabled enabled).trans (whenIdle_busy busy)
  · exact (whenInitialised_enabled enabled).trans (whenIdle_busy busy)
  · exact (whenInitialised_enabled enabled).trans (whenIdle_busy busy)

/-! ### Recovery, retuning, tracking gate -/

/-- Settles O46, from `restart_did`; no test of `radioState` stands in front. -/
theorem restartRxCompletes : Obligations.RestartRxCompletes := fun _ enabled w =>
  .of_complete (whenInitialised_enabled (body := fun s => complete (restart s)) enabled) (restart_ok w)
    fun _ => restart_did

/-- Settles O47: the three tests are passed, and the body is that of `SET_FREQ`. -/
theorem retuningCompletes : Obligations.RetuningCompletes := fun s v _ enabled idle w p =>
  ⟨fun inside => .of_complete
      ((whenInitialised_enabled enabled).trans ((whenIdle_idle idle).trans (whenInBand_inside inside)))
      (drvSetFreq_ok w (s.cfg.fCarrier + mhzOfI32 v) p) fun _ h => did_of_pollEnds p (drvSetFreq_did h),
    fun inside => .of_complete
      ((whenInitialised_enabled enabled).trans ((whenIdle_idle idle).trans (whenInBand_inside inside)))
      (drvSetFreq_ok w (mhzOfU32 v) p) fun _ h => did_of_pollEnds p (drvSetFreq_did h)⟩

/-- Settles O48: the gate's registers are written and nothing else is done. -/
theorem trackingGateCompletes : Obligations.TrackingGateCompletes := fun s id enabled =>
  ⟨.of_complete (whenInitialised_enabled (body := fun s => complete (.ok (s.enableTracking id))) enabled) ⟨_, rfl⟩
      fun _ h => Except.ok.inj h ▸ Did.enableTracking s id,
    .of_complete (whenInitialised_enabled (body := fun s => complete (.ok s.disableTracking)) enabled) ⟨_, rfl⟩
      fun _ h => Except.ok.inj h ▸ Did.disableTracking s⟩

/-! ### `INIT` -/

theorem exec_init_inside {s : State} {off : Word32} (inside : inBands s.cfg (s.cfg.fCarrier + mhzOfI32 off) = true) :
    exec (.init off) s = complete (initChip (s.cfg.fCarrier + mhzOfI32 off) s) :=
  whenInBand_inside (body := fun s => complete (initChip (s.cfg.fCarrier + mhzOfI32 off) s)) inside

/-- Settles O49, from `initChip_present`: the poll that ended is the one given. -/
theorem initOfPresentChipCompletes : Obligations.InitOfPresentChipCompletes := by
  intro s off n inside w present p
  refine .of_complete (exec_init_inside inside)
    (initChip_ok w (s.cfg.fCarrier + mhzOfI32 off) fun _ => ⟨n, p⟩) fun t h => ?_
  obtain ⟨m, q, d⟩ := initChip_present h present
  obtain rfl : m = n := q.unique p
  exact d

/-- Settles O50, from `initChip_absent`: no calibration is reached, so none has to end. -/
theorem initOfAbsentChipCompletes : Obligations.InitOfAbsentChipCompletes := fun s off inside w absent =>
  .of_complete (exec_init_inside inside)
    (initChip_ok w (s.cfg.fCarrier + mhzOfI32 off) fun present => absurd absent present)
    fun _ h => initChip_absent h absent

end Sys2Proof.Machine
end

section
/-! The transmission requests of 43_host_commands.md (R201, R202, R209): one enqueued frame and the slot table, the
frames of the slots in use after several of them, and a submission, which starts a transmission or only fills slots. -/

namespace Sys2Proof.Machine

open Sys2Proof.Config

/-! ### One frame -/

/-- A frame that fits goes into a free slot, when there is one (43_host_commands.md R209). -/
theorem accept_eq_set {c : Cfg} {slots : SlotTable} {frame : Bytes} (fits : frame.length ≤ c.maxFrameLen)
    (free : ∃ k : Fin 16, slots[k].inUse = false) :
    ∃ i : Fin 16, slots[i].inUse = false ∧ accept c slots frame = slots.set i { inUse := true, frame := frame } := by
  cases chosen : freeSlot c slots with
  | none =>
    obtain ⟨k, hk⟩ := free
    exact absurd (hk.symm.trans (freeSlot_eq_none.1 chosen k)) Bool.false_ne_true
  | some i => exact ⟨i, freeSlot_free chosen, by simp [accept, Nat.not_lt.2 fits, chosen]⟩

/-- A frame that is too long, or finds no free slot, is dropped (60_exceptions.md R223). -/
theorem accept_dropped {c : Cfg} {slots : SlotTable} {frame : Bytes}
    (h : c.maxFrameLen < frame.length ∨ ∀ k : Fin 16, slots[k].inUse = true) : accept c slots frame = slots := by
  rcases h with long | full
  · simp [accept, long]
  · simp [accept, freeSlot_eq_none.2 full]

/-- Settles O44, from `accept_eq_set` and `accept_dropped`. -/
theorem enqueueTakesAFreeSlot : Obligations.EnqueueTakesAFreeSlot := by
  refine fun c slots frame => ⟨fun fits free => ?_, accept_dropped⟩
  obtain ⟨i, unused, filled⟩ := accept_eq_set fits free
  refine ⟨i, unused, ?_, fun k other => ?_⟩ <;> rw [filled]
  · exact Vector.getElem_set_self _
  · exact Vector.getElem_set_ne _ _ (Fin.val_ne_of_ne other.symm)

/-! ### The frames in the slots in use -/

/-- The frames of the slots in use. -/
def framesInUse (slots : SlotTable) : List Bytes := (slots.toList.filter (·.inUse)).map (·.frame)

theorem forall_slot_iff {slots : SlotTable} {P : Slot → Prop} :
    (∀ x ∈ slots.toList, P x) ↔ ∀ k : Fin 16, P slots[k] := by
  refine ⟨fun h k => h _ (by simp), fun h x hx => ?_⟩
  obtain ⟨k, hk, rfl⟩ := List.mem_iff_getElem.1 hx
  simpa using h ⟨k, by simpa using hk⟩

theorem framesInUse_eq_nil {slots : SlotTable} (free : ∀ k : Fin 16, slots[k].inUse = false) :
    framesInUse slots = [] := by
  have unused : ∀ x ∈ slots.toList, ¬x.inUse = true := forall_slot_iff.2 fun k => Bool.eq_false_iff.1 (free k)
  rw [framesInUse, List.filter_eq_nil_iff.2 unused, List.map_nil]

/-- All slots are in use when there are 16 frames in them. -/
theorem inUse_of_length_framesInUse {slots : SlotTable} (h : (framesInUse slots).length = 16) :
    ∀ k : Fin 16, slots[k].inUse = true := by
  rw [framesInUse, List.length_map] at h
  exact forall_slot_iff.1 (List.length_filter_eq_length_iff.1 (h.trans slots.length_toList.symm))

theorem framesInUse_of_full {slots : SlotTable} (full : ∀ k : Fin 16, slots[k].inUse = true) :
    framesInUse slots = slots.toList.map (·.frame) := by
  rw [framesInUse, List.filter_eq_self.2 (forall_slot_iff.2 full)]

/-- Putting in place of an element that a filter drops one that it keeps. -/
theorem filter_set_perm {α : Type} {p : α → Bool} {x : α} (keep : p x = true) :
    ∀ (l : List α) (i : Nat) (h : i < l.length), p l[i] = false → ((l.set i x).filter p).Perm (x :: l.filter p)
  | a :: rest, 0, _, drop => by
    have drop : p a = false := drop
    simp [keep, drop]
  | a :: rest, i + 1, h, drop => by
    have ih := filter_set_perm keep rest i (Nat.lt_of_succ_lt_succ h) drop
    rw [List.set_cons_succ, List.filter_cons, List.filter_cons]
    split
    · exact (ih.cons a).trans (.swap x a _)
    · exact ih

/-- An accepted frame joins those in use. -/
theorem framesInUse_accept {c : Cfg} {slots : SlotTable} {frame : Bytes} (fits : frame.length ≤ c.maxFrameLen)
    (room : (framesInUse slots).length < 16) :
    (framesInUse (accept c slots frame)).Perm (frame :: framesInUse slots) := by
  have free : ∃ k : Fin 16, slots[k].inUse = false := by
    by_contra unfree
    have full : ∀ k : Fin 16, slots[k].inUse = true := by simpa using unfree
    simp [framesInUse_of_full full] at room
  obtain ⟨i, unused, filled⟩ := accept_eq_set fits free
  rw [filled, framesInUse, Vector.toList_set]
  have joins := filter_set_perm (p := (·.inUse)) (x := { inUse := true, frame := frame }) rfl slots.toList i (by simp)
    (by simpa using unused)
  exact joins.map (·.frame)

/-- As long as there is room, every frame that fits is accepted. -/
theorem framesInUse_acceptAll {c : Cfg} :
    ∀ (frames : List Bytes) (slots : SlotTable), (∀ f ∈ frames, f.length ≤ c.maxFrameLen) →
      (framesInUse slots).length + frames.length ≤ 16 →
      (framesInUse (frames.foldl (accept c) slots)).Perm (frames ++ framesInUse slots)
  | [], _, _, _ => .refl _
  | f :: rest, slots, fit, room => by
    simp only [List.length_cons] at room
    have accepted := framesInUse_accept (c := c) (fit f List.mem_cons_self) (slots := slots) (by omega)
    have count := accepted.length_eq
    have ih := framesInUse_acceptAll rest (accept c slots f) (fun g hg => fit g (List.mem_cons_of_mem f hg))
      (by simp only [List.length_cons] at count; omega)
    exact ih.trans ((accepted.append_left rest).trans List.perm_middle)

/-- Of 17 frames that fit, put into an empty table, the first 16 fill it and the last is dropped. -/
theorem acceptAll_seventeen {c : Cfg} {frames : List Bytes} {slots : SlotTable} (count : frames.length = 17)
    (fit : ∀ f ∈ frames, f.length ≤ c.maxFrameLen) (free : ∀ k : Fin 16, slots[k].inUse = false) :
    (∀ k : Fin 16, (frames.foldl (accept c) slots)[k].inUse = true) ∧
      ((frames.foldl (accept c) slots).toList.map (·.frame)).Perm (frames.take 16) := by
  have taken : (frames.take 16).length = 16 := by simp [count]
  have accepted : (framesInUse ((frames.take 16).foldl (accept c) slots)).Perm (frames.take 16) := by
    have h := framesInUse_acceptAll (c := c) (frames.take 16) slots (fun f hf => fit f (List.mem_of_mem_take hf))
      (by simp [framesInUse_eq_nil free])
    rwa [framesInUse_eq_nil free, List.append_nil] at h
  have full := inUse_of_length_framesInUse (accepted.length_eq.trans taken)
  obtain ⟨last, dropped⟩ : ∃ f, frames.drop 16 = [f] := List.length_eq_one_iff.1 (by simp [count])
  have same : frames.foldl (accept c) slots = (frames.take 16).foldl (accept c) slots :=
    calc frames.foldl (accept c) slots
      _ = (frames.take 16 ++ [last]).foldl (accept c) slots := by rw [← dropped, List.take_append_drop]
      _ = accept c ((frames.take 16).foldl (accept c) slots) last := by simp
      _ = (frames.take 16).foldl (accept c) slots := accept_dropped (.inr full)
  rw [same]
  exact ⟨full, framesInUse_of_full full ▸ accepted⟩

/-! ### One submission -/

theorem schedule_of_next {s : State} {j : Fin 16} (idle : s.radioState = .rxWaitSync)
    (next : nextSlot s.cfg s.slots = some j) : schedule s = startTx j s := by
  simp [schedule, State.isIdle, idle, next]

theorem schedule_of_nothing {s : State} (h : s.radioState ≠ .rxWaitSync ∨ nextSlot s.cfg s.slots = none) :
    schedule s = .ok s := by
  rcases h with busy | nothing
  · simp [schedule, State.isIdle, busy]
  · simp [schedule, nothing]

theorem exec_transmit_enabled {s : State} (frame : Bytes) (enabled : s.irqEnabled = true) :
    exec (.transmit frame) s = complete (schedule (s.enqueue frame)) :=
  whenInitialised_enabled (body := fun s => complete (schedule (s.enqueue frame))) enabled

theorem exec_transmitList_enabled {s : State} (frames : List Bytes) (enabled : s.irqEnabled = true) :
    exec (.transmitList frames) s = complete (schedule (frames.foldl State.enqueue s)) :=
  whenInitialised_enabled (body := fun s => complete (schedule (frames.foldl State.enqueue s))) enabled

theorem Did.fillSlots (s : State) (slots : SlotTable) :
    Did s { s with slots := slots } { s.regs with slots := slots } [] [] [] [] :=
  .of_pure rfl rfl rfl rfl rfl rfl rfl rfl rfl

/-- An idle block starts the slot `NextSlot` chooses; the deadline counts from the final clock. -/
theorem submission_starts {i : Instr} {s u : State} {slots : SlotTable} {j : Fin 16}
    (runs : exec i s = complete (schedule u)) (filled : u = { s with slots := slots }) (w : s.WaitsEnd)
    (idle : s.radioState = .rxWaitSync) (next : nextSlot s.cfg slots = some j) :
    ∃ t, exec i s = .next t ∧
      Did s t (Regs.started { s.regs with slots := slots } s.cfg j (t.now + BitVec.ofNat 32 s.cfg.turnaroundUs))
        (startTxTxns s.cfg slots[j].frame) [] [] [.ok] := by
  subst filled
  have fill := Did.fillSlots s slots
  obtain ⟨u, started⟩ := startTx_ok (fill.waits_kept w) j
  have body : schedule { s with slots := slots } = .ok u :=
    (schedule_of_next (s := { s with slots := slots }) idle next).trans started
  have h : exec i s = .next u.markOk := runs.trans (congrArg complete body)
  exact ⟨u.markOk, h, complete_did (runs.symm.trans h) fun v hv =>
    Except.ok.inj (body.symm.trans hv) ▸ fill.trans (startTx_did started) id⟩

/-- While not idle, or with no slot in use, only the slots change. -/
theorem submission_only_fills {i : Instr} {s u : State} {slots : SlotTable}
    (runs : exec i s = complete (schedule u)) (filled : u = { s with slots := slots })
    (nothing : s.radioState ≠ .rxWaitSync ∨ nextSlot s.cfg slots = none) :
    exec i s = .next { s with slots := slots, outcomes := s.outcomes ++ [.ok] } := by
  subst filled
  rw [runs, schedule_of_nothing (s := { s with slots := slots }) nothing]
  rfl

/-- Settles O42: both commands run `Schedule()` behind their frames. -/
theorem submissionStartsWhenIdle : Obligations.SubmissionStartsWhenIdle := fun s frame frames _ enabled w idle =>
  ⟨submission_starts (exec_transmit_enabled frame enabled) (State.enqueue_eq s frame) w idle,
    submission_starts (exec_transmitList_enabled frames enabled) (State.enqueueAll_eq frames s) w idle⟩

/-- Settles O43: both commands run `Schedule()` behind their frames. -/
theorem submissionOnlyEnqueuesOtherwise : Obligations.SubmissionOnlyEnqueuesOtherwise := fun s frame frames enabled =>
  ⟨submission_only_fills (exec_transmit_enabled frame enabled) (State.enqueue_eq s frame),
    submission_only_fills (exec_transmitList_enabled frames enabled) (State.enqueueAll_eq frames s)⟩

/-! ### Several submissions -/

/-- Frames submitted one after another to a busy block only fill slots. -/
theorem execAll_transmit_busy :
    ∀ (frames : List Bytes) (s : State), s.irqEnabled = true → s.radioState ≠ .rxWaitSync →
      ∃ t outs, execAll (frames.map .transmit) s = .next t ∧
        Did s t { s.regs with slots := frames.foldl (accept s.cfg) s.slots } [] [] [] outs
  | [], s, _, _ => ⟨s, [], rfl, .refl s⟩
  | f :: rest, s, enabled, busy => by
    have runs := (submissionOnlyEnqueuesOtherwise s f [] enabled).1 (.inl busy)
    have filled := (Did.fillSlots s (accept s.cfg s.slots f)).trans (Did.markOk _) id
    obtain ⟨t, outs, runsRest, d⟩ := execAll_transmit_busy rest
      { s with slots := accept s.cfg s.slots f, outcomes := s.outcomes ++ [.ok] } enabled busy
    exact ⟨t, .ok :: outs, (execAll_cons_of_next runs).trans runsRest, filled.trans d id⟩

/-- The first frame put into an empty table is the one `NextSlot` chooses. -/
theorem nextSlot_accept_of_free {c : Cfg} {slots : SlotTable} {frame : Bytes} (fits : frame.length ≤ c.maxFrameLen)
    (free : ∀ k : Fin 16, slots[k].inUse = false) :
    ∃ j, nextSlot c (accept c slots frame) = some j ∧
      (accept c slots frame)[j] = { inUse := true, frame := frame } := by
  obtain ⟨i, -, filled, others⟩ := (enqueueTakesAFreeSlot c slots frame).1 fits ⟨0, free 0⟩
  cases chosen : nextSlot c (accept c slots frame) with
  | none =>
    have unused := nextSlot_eq_none.1 chosen i
    rw [filled] at unused
    exact absurd unused Bool.noConfusion
  | some j =>
    refine ⟨j, rfl, ?_⟩
    by_cases same : j = i
    · exact same ▸ filled
    · have used := nextSlot_inUse chosen
      rw [others j same, free j] at used
      exact absurd used Bool.noConfusion

/-- Settles O45: the first frame starts its transmission, the others find the block busy; `acceptAll_seventeen` says
what the slots then hold. -/
theorem seventeenthFrameIsDropped : Obligations.SeventeenthFrameIsDropped := by
  intro s frames count fit enabled idle w free
  obtain ⟨full, accepted⟩ := acceptAll_seventeen count fit free
  obtain ⟨f, rest, rfl⟩ := List.exists_cons_of_length_eq_add_one count
  obtain ⟨j, next, filled⟩ := nextSlot_accept_of_free (fit f List.mem_cons_self) free
  obtain ⟨u, runs, d⟩ := (submissionStartsWhenIdle s f [] j enabled w idle).1 next
  have busy : u.radioState ≠ .rxWaitSync := by
    have started : u.radioState = .txTransmit := d.field Regs.radioState
    simp [started]
  obtain ⟨t, outs, runsRest, k⟩ := execAll_transmit_busy rest u ((d.field Regs.irqEnabled).trans enabled) busy
  have firstFilled : u.slots = accept s.cfg s.slots f := d.field Regs.slots
  have slots : t.slots = (f :: rest).foldl (accept s.cfg) s.slots := by
    have := k.field Regs.slots
    rwa [d.cfg_eq, firstFilled] at this
  have active : t.slots[j] = { inUse := true, frame := f } := by
    rw [slots]
    exact (acceptAll_keeps_inUse rest _ (by rw [filled])).trans filled
  rw [← slots] at full accepted
  refine ⟨t, j, u.now + BitVec.ofNat 32 s.cfg.turnaroundUs, (execAll_cons_of_next runs).trans runsRest, full,
    accepted, ?frame, ?regs, ?txns, ?pushes, ?answers, k.refused_eq.trans d.refused_eq⟩
  case frame => rw [active]; rfl
  case regs =>
    rw [k.regs_eq, d.regs_eq, d.cfg_eq, firstFilled, ← List.foldl_cons, ← slots]
    simp only [Regs.started, active, filled]
  case txns => rw [k.txns_eq, d.txns_eq, filled, active, List.append_nil]
  case pushes => rw [k.pushes_eq, d.pushes_eq, List.append_nil, List.append_nil]
  case answers => rw [k.responses_eq, d.responses_eq, List.append_nil, List.append_nil]

end Sys2Proof.Machine
end

section
/-! What a step takes in and what it runs (60_exceptions.md R229 to R231, R237, R238): the timer's latch, the command word
behind the arrivals, and the arbitration between the two events. -/

namespace Sys2Proof.Machine

open Sys2Proof.Config

/-! ### The timer -/

/-- Seen from before it, a deadline less than half the clock's range ahead is reached at once only if it is now
(60_exceptions.md R237). -/
theorem clockReached_ahead {now d : Clock} (near : d.toNat < 2 ^ 31) :
    clockReached now (now + d) = true ↔ d.toNat = 0 := by
  simp only [clockReached, decide_eq_true_eq]
  constructor
  · intro reached; bv_omega
  · intro zero; bv_omega

/-- Such a deadline is reached within `e` exactly when it is at most `e` ahead, whether or not the clock wraps in between
(60_exceptions.md R238). -/
theorem deadlineWithin_ahead {now d e : Clock} (near : d.toNat < 2 ^ 31) :
    deadlineWithin now (now + d) e = true ↔ d.toNat ≤ e.toNat := by
  have way : now + d - now = d := by bv_omega
  simp only [deadlineWithin, Bool.or_eq_true, clockReached_ahead near, way, decide_eq_true_eq]
  omega

/-- Settles O7: the armed timer's latch is `deadlineWithin` of the time that passes. -/
theorem timerLatchesAtItsDeadline : Obligations.TimerLatchesAtItsDeadline := by
  intro s d e near armed deadline clear
  rw [State.elapse_timerPending, armed, clear, deadline, Bool.false_or, Bool.true_and]
  exact deadlineWithin_ahead near

/-! ### The command word -/

theorem takeWord_absorb_of_ok {s : State} {w : Bytes} {rest : List Bytes} {i : Instr}
    (words : s.inp.words = w :: rest) (h : decodeCommand s.cfg.netidBytes w = .ok i) :
    s.absorb.takeWord = (.run i, s.afterWord rest) := by
  have offered : s.absorb.inp.words = w :: rest := words
  simp only [State.takeWord, offered, State.absorb_cfg, h, State.afterWord]

theorem takeWord_of_no_word {s : State} (words : s.inp.words = []) : s.takeWord = (.idle, s) := by
  simp only [State.takeWord, words]

/-- Settles O5: no event is in front, and the port's word decodes. -/
theorem stepRunsTheDecodedWord : Obligations.StepRunsTheDecodedWord := by
  intro s w rest i irq timer words h
  simp only [step, nextWork_of_no_event irq timer, takeWord_absorb_of_ok words h]

/-! ### Arbitration -/

theorem step_of_run {s t : State} {i : Instr} (h : s.absorb.nextWork = (.run i, t)) : step s = exec i t := by
  simp only [step, h]

theorem nextWork_of_irq {s : State} (irq : s.irqPending = true) (timer : s.timerPending = false) :
    s.nextWork = (.run .evIrq, s) := by
  simp only [State.nextWork, irq, timer]

theorem nextWork_of_timer {s : State} (irq : s.irqPending = false) (timer : s.timerPending = true) :
    s.nextWork = (.run .evTimer, s) := by
  simp only [State.nextWork, irq, timer]

theorem nextWork_of_both {s : State} (irq : s.irqPending = true) (timer : s.timerPending = true) :
    s.nextWork = (.run (eventOf s.firstSource), s.dropFirst) := by
  simp only [State.nextWork, irq, timer]

theorem nextWork_irqFirst {s : State} (irq : s.irqPending = true) (timer : s.timerPending = true)
    (priority : s.cfg.eventPriority = .irqFirst) : s.nextWork = (.run .evIrq, s) := by
  simp only [nextWork_of_both irq timer, State.firstSource, State.dropFirst, priority, eventOf]

theorem nextWork_timerFirst {s : State} (irq : s.irqPending = true) (timer : s.timerPending = true)
    (priority : s.cfg.eventPriority = .timerFirst) : s.nextWork = (.run .evTimer, s) := by
  simp only [nextWork_of_both irq timer, State.firstSource, State.dropFirst, priority, eventOf]

/-- Only `Any` draws (60_exceptions.md R231; log entry 19). -/
theorem nextWork_any {s : State} (irq : s.irqPending = true) (timer : s.timerPending = true)
    (priority : s.cfg.eventPriority = .any) :
    s.nextWork = (.run (if s.inp.picks.head freePick then .evIrq else .evTimer),
      { s with inp := { s.inp with picks := s.inp.picks.tail } }) := by
  simp only [nextWork_of_both irq timer, State.firstSource, State.dropFirst, priority]
  cases s.inp.picks.head freePick <;> rfl

/-- Settles O6: the arrivals field by field, then one arbitration lemma for each combination of the two latches. -/
theorem stepServesEventsFirst : Obligations.StepServesEventsFirst := by
  intro s
  refine ⟨⟨s.absorb_now, s.absorb_irqPending, s.absorb_timerPending, s.absorb_inp, rfl⟩, fun irq timer => ?line,
    fun irq timer => ?timer, fun irq timer => ⟨fun priority => ?irqFirst, fun priority => ?timerFirst,
      fun priority => ?any⟩, fun irq timer words => ?nothing⟩
  case line => exact step_of_run (nextWork_of_irq irq timer)
  case timer => exact step_of_run (nextWork_of_timer irq timer)
  case irqFirst => exact step_of_run (nextWork_irqFirst irq timer priority)
  case timerFirst => exact step_of_run (nextWork_timerFirst irq timer priority)
  case any => exact step_of_run (nextWork_any irq timer priority)
  case nothing =>
    have idle : s.absorb.takeWord = (.idle, s.absorb) := takeWord_of_no_word words
    simp only [step, nextWork_of_no_event irq timer, idle]

end Sys2Proof.Machine
end

section
/-! What hangs (60_exceptions.md R226). The calibration poll: one that ended found a clear bit within its bound. The chip
that never becomes ready: every body that makes a transaction or resets the chip runs into that wait first, whatever
registers it writes before; `FirstWait` carries this through the tests in front of an operation. -/

namespace Sys2Proof.Machine

open Sys2Proof.Config

/-! ### The calibration poll -/

/-- A poll that ends has read a clear answer within the model's bound (log entry 5). -/
theorem PollEnds.exists_clear {s : State} {n : Nat} (p : PollEnds s 0 n) :
    ∃ b ∈ s.answersFrom 0 (max 1 s.inp.answers.items.length + s.cfg.pollFuel), isCalBusy s.cfg b = false := by
  have nonempty : s.answersFrom 0 n ≠ [] :=
    List.ne_nil_of_length_pos ((s.answersFrom_length 0 n).symm ▸ p.pos)
  obtain ⟨more, total⟩ := Nat.exists_eq_add_of_le p.bound
  rw [Nat.zero_add] at total
  refine ⟨_, ?_, p.clear _ (List.getLast?_eq_some_getLast nonempty)⟩
  rw [total, Nat.zero_add, State.answersFrom_add]
  exact List.mem_append_left _ (List.getLast_mem nonempty)

/-- Settles O21: had the calibration ended, one of the answers would have been clear; and `Hang` is the only fault. -/
theorem calibrateHangsWhileBusy : Obligations.CalibrateHangsWhileBusy := by
  intro s idle _ busy
  have runs : exec .calibrate s = complete (drvCalibrate s) :=
    whenBusFree_idle (body := fun s => complete (drvCalibrate s)) idle
  cases ended : drvCalibrate s with
  | error f => cases f; rw [runs, ended]; rfl
  | ok t =>
    obtain ⟨n, p, -⟩ := drvCalibrate_did ended
    obtain ⟨b, read, clear⟩ := p.exists_clear
    exact absurd (busy b read) (by rw [clear]; decide)

/-! ### Composition -/

/-- A sequence hangs where its first part does, or where the rest does behind it. -/
theorem bind_eq_hang {α β : Type} {x : Except Fault α} {f : α → Except Fault β} :
    (x >>= f) = .error .hang ↔ x = .error .hang ∨ ∃ a, x = .ok a ∧ f a = .error .hang := by
  rcases x with e | a
  · simp [bind, Except.bind]
  · simp [bind, Except.bind]

theorem bind_hangs {α β : Type} {x : Except Fault α} {f : α → Except Fault β} (h : x = .error .hang) :
    (x >>= f) = .error .hang :=
  bind_eq_hang.2 (.inl h)

theorem map_hangs {α β : Type} {x : Except Fault α} {f : α → β} (h : x = .error .hang) :
    x.map f = .error .hang := by
  rw [h]; rfl

theorem answering_hangs {α : Type} {r : Except Fault (α × State)} {f : α → Bytes} (h : r = .error .hang) :
    answering f r = .error .hang :=
  map_hangs h

/-! ### The six forms and the reset -/

section Unready

variable {s : State} (unready : s.timing.ready = none)

include unready

theorem waitReady_hangs : waitReady s = .error .hang := by
  simp only [waitReady, unready]

theorem busWrite_hangs (a v : Byte) (g : Nat) : busWrite a v g s = .error .hang := transact_hangs unready

theorem busStrobe_hangs (c : Byte) (g : Nat) : busStrobe c g s = .error .hang := transact_hangs unready

theorem busRead_hangs (a : Byte) (g : Nat) : busRead a g s = .error .hang :=
  map_hangs (transact_hangs (s := s.dropAnswers 1) unready)

theorem busReadStatus_hangs (a : Byte) (g : Nat) : busReadStatus a g s = .error .hang :=
  map_hangs (transact_hangs (s := s.dropAnswers 1) unready)

theorem busWriteBurst_hangs (a : Byte) {bs : Bytes} (given : bs ≠ []) (g : Nat) :
    busWriteBurst a bs g s = .error .hang :=
  (if_neg given).trans (transact_hangs unready)

theorem busReadBurst_hangs (a : Byte) {n : Nat} (given : n ≠ 0) (g : Nat) : busReadBurst a n g s = .error .hang :=
  (if_neg given).trans (map_hangs (transact_hangs (s := s.dropAnswers n) unready))

/-! ### The bodies of the operations -/

theorem drvReset_hangs : drvReset s = .error .hang := bind_hangs (waitReady_hangs unready)

theorem drvCalibrate_hangs : drvCalibrate s = .error .hang :=
  bind_hangs (busWrite_hangs (s := s.clearOffset) unready _ _ _)

theorem drvSetFreq_hangs (f : Rat) : drvSetFreq f s = .error .hang := bind_hangs (busWrite_hangs unready _ _ _)

theorem drvSetBw_hangs (x : Rat) : drvSetBw x s = .error .hang := bind_hangs (busWrite_hangs unready _ _ _)

theorem drvSetBitrate_hangs (x : Rat) : drvSetBitrate x s = .error .hang := bind_hangs (busWrite_hangs unready _ _ _)

theorem drvSetDev_hangs (x : Rat) : drvSetDev x s = .error .hang := bind_hangs (busWrite_hangs unready _ _ _)

theorem drvSetFifoThr_hangs (l : Byte) : drvSetFifoThr l s = .error .hang := bind_hangs (busWrite_hangs unready _ _ _)

theorem drvActivePower_hangs : drvActivePower s = .error .hang := bind_hangs (busStrobe_hangs unready _ _)

theorem drvUpdFreqOffset_hangs : drvUpdFreqOffset s = .error .hang := bind_hangs (busReadStatus_hangs unready _ _)

theorem armRx_hangs : armRx s = .error .hang := bind_hangs (busWrite_hangs (s := s.disarmTimer) unready _ _ _)

theorem restart_hangs : restart s = .error .hang := bind_hangs (busStrobe_hangs unready _ _)

theorem initChip_hangs (f : Rat) : initChip f s = .error .hang :=
  bind_hangs (drvReset_hangs (s := s.beginInit) unready)

/-- A frame with nothing to pre-load makes its first transaction when it selects the interrupt
(42_rx_tx_sequencer.md R176). -/
theorem startTx_hangs (j : Fin 16) : startTx j s = .error .hang := by
  unfold startTx
  refine bind_eq_hang.2 ?_
  by_cases empty : (s.beginTx j).activeSlot.frame.take
      (min (s.beginTx j).activeSlot.frame.length (s.beginTx j).cfg.fifoCapacity) = []
  · exact .inr ⟨s.beginTx j, if_pos empty, bind_hangs (busWrite_hangs (s := (s.beginTx j).setTxOffset _) unready _ _ _)⟩
  · exact .inl (busWriteBurst_hangs (s := s.beginTx j) unready _ empty _)

theorem serviceRx_hangs : serviceRx s = .error .hang := by
  have same : (if s.isIdle then s.clearRx .rxHeader else s).timing.ready = none := by
    split
    · exact unready
    · exact unready
  exact bind_hangs (busReadStatus_hangs same _ _)

theorem serviceTxFeed_hangs : serviceTxFeed s = .error .hang := bind_hangs (busReadStatus_hangs unready _ _)

theorem serviceTxDone_hangs : serviceTxDone s = .error .hang := by
  unfold serviceTxDone
  dsimp only
  split
  · exact startTx_hangs (s := s.releaseActive) unready _
  · exact armRx_hangs (s := s.releaseActive) unready

theorem serviceIrq_hangs (on : s.irqEnabled = true) : serviceIrq s = .error .hang := by
  unfold serviceIrq
  rw [if_pos on]
  split
  · exact serviceRx_hangs unready
  · exact serviceRx_hangs unready
  · exact serviceRx_hangs unready
  · exact serviceTxFeed_hangs unready
  · exact serviceTxDone_hangs unready

end Unready

/-! ### The tests in front -/

/-- `reaches` says whether an operation that ends as `o` gets as far as its first wait for `chip_ready`, timed by `tm`:
if it does and the wait never ends, it hangs; if it does not, it answers a next state (60_exceptions.md R226). -/
structure FirstWait (reaches : Bool) (tm : TxnTiming) (o : Host.Outcome State Fault Refusal) : Prop where
  hangs : reaches = true → tm.ready = none → o = .fault .hang
  completes : reaches = false → ∃ t, o = .next t

theorem FirstWait.of_complete {reaches : Bool} {tm : TxnTiming} {r : Except Fault State}
    (hangs : reaches = true → tm.ready = none → r = .error .hang) (ends : reaches = false → ∃ t, r = .ok t) :
    FirstWait reaches tm (complete r) where
  hangs := fun gets unready => congrArg complete (hangs gets unready)
  completes := fun stops => by
    obtain ⟨t, h⟩ := ends stops
    exact ⟨t.markOk, congrArg complete h⟩

/-- A body that always makes a transaction. -/
theorem FirstWait.of_body {tm : TxnTiming} {r : Except Fault State} (hangs : tm.ready = none → r = .error .hang) :
    FirstWait true tm (complete r) :=
  .of_complete (fun _ => hangs) fun stops => nomatch stops

/-- An operation that makes no transaction. -/
theorem FirstWait.of_next {tm : TxnTiming} (t : State) : FirstWait false tm (.next t) where
  hangs := fun gets => nomatch gets
  completes := fun _ => ⟨t, rfl⟩

/-- Behind a test that declines with a next state, the operation gets to its wait only if it is admitted. -/
theorem FirstWait.admitted {test reaches : Bool} {tm : TxnTiming} {o : Host.Outcome State Fault Refusal} {t : State}
    (body : FirstWait reaches tm o) : FirstWait (test && reaches) tm (if test then o else .next t) := by
  cases test with
  | false => exact .of_next t
  | true => exact body

section Admitted

variable {s : State} {reaches : Bool} {tm : TxnTiming} {body : State → Host.Outcome State Fault Refusal}

theorem FirstWait.busFree (h : FirstWait reaches tm (body s)) :
    FirstWait (s.isIdle && reaches) tm (whenBusFree body s) := .admitted h

theorem FirstWait.initialised (h : FirstWait reaches tm (body s)) :
    FirstWait (s.irqEnabled && reaches) tm (whenInitialised body s) := .admitted h

theorem FirstWait.idle (h : FirstWait reaches tm (body s)) :
    FirstWait (s.isIdle && reaches) tm (whenIdle body s) := .admitted h

theorem FirstWait.inBand {f : Rat} (h : FirstWait reaches tm (body s)) :
    FirstWait (inBands s.cfg f && reaches) tm (whenInBand f body s) := .admitted h

/-- A Register Driver operation or the filter update, its body always making a transaction. -/
theorem FirstWait.driver {i : Instr} {drv : State → Except Fault State}
    (runs : exec i s = whenBusFree (fun s => complete (drv s)) s)
    (hangs : s.timing.ready = none → drv s = .error .hang) : FirstWait s.isIdle s.timing (exec i s) := by
  rw [runs, ← Bool.and_true s.isIdle]
  exact .busFree (.of_body hangs)

/-- A Register Driver operation that answers what it read. -/
theorem FirstWait.reading {α : Type} {i : Instr} {drv : State → Except Fault (α × State)} (word : State → α → Bytes)
    (runs : exec i s = whenBusFree (fun s => complete (answering (word s) (drv s))) s)
    (hangs : s.timing.ready = none → drv s = .error .hang) : FirstWait s.isIdle s.timing (exec i s) :=
  .driver runs fun unready => answering_hangs (hangs unready)

/-- A Register Driver operation whose body makes a transaction for an operand that is not empty. -/
theorem FirstWait.driverUnless {i : Instr} {drv : State → Except Fault State} {empty : Prop} [Decidable empty]
    (runs : exec i s = whenBusFree (fun s => complete (drv s)) s)
    (hangs : ¬ empty → s.timing.ready = none → drv s = .error .hang) (ends : empty → ∃ t, drv s = .ok t) :
    FirstWait (s.isIdle && decide (¬ empty)) s.timing (exec i s) := by
  rw [runs]
  exact .busFree (.of_complete (fun gets => hangs (of_decide_eq_true gets))
    fun stops => ends (Decidable.not_not.1 (of_decide_eq_false stops)))

/-- A burst read, of as many bytes as its operand says. -/
theorem FirstWait.burstRead {i : Instr} {n : Byte} (addr : State → Byte) (guard : State → Nat)
    (runs : exec i s =
      whenBusFree (fun s => complete (answering id (busReadBurst (addr s) n.toNat (guard s) s))) s) :
    FirstWait (s.isIdle && decide (n ≠ 0)) s.timing (exec i s) := by
  refine .driverUnless runs (fun given unready => ?_) fun empty => ⟨s.respond [], ?_⟩
  · have given : n.toNat ≠ 0 := fun zero => given (BitVec.eq_of_toNat_eq zero)
    exact answering_hangs (busReadBurst_hangs unready _ given _)
  · exact answering_eq_ok.2 ⟨[], s, if_pos (congrArg BitVec.toNat empty), rfl⟩

/-- A retuning, admitted inside the band (40_register_driver.md R124). -/
theorem FirstWait.setFreq (f : State → Rat) :
    FirstWait (inBands s.cfg (f s)) s.timing (whenInBand (f s) (fun s => complete (drvSetFreq (f s) s)) s) := by
  rw [← Bool.and_true (inBands s.cfg (f s))]
  exact .inBand (.of_body fun unready => drvSetFreq_hangs unready (f s))

/-- `Schedule()` makes a transaction when it starts a transmission (43_host_commands.md R209). -/
theorem FirstWait.scheduling (s : State) :
    FirstWait (s.isIdle && (nextSlot s.cfg s.slots).isSome) s.timing (complete (schedule s)) := by
  refine .of_complete (fun gets unready => ?_) fun stops => ?_
  · obtain ⟨idle, next⟩ := Bool.and_eq_true_iff.1 gets
    obtain ⟨j, next⟩ := Option.isSome_iff_exists.1 next
    rw [schedule_of_next (State.isIdle_iff.1 idle) next]
    exact startTx_hangs unready j
  · refine ⟨s, schedule_of_nothing ?_⟩
    rcases Bool.and_eq_false_iff.1 stops with busy | nothing
    · exact .inl fun idle => by rw [State.isIdle_iff.2 idle] at busy; cases busy
    · exact .inr (Option.not_isSome_iff_eq_none.1 (Bool.eq_false_iff.1 nothing))

/-- A submission that leaves the slot table as `slots`. -/
theorem FirstWait.submission {u : State} {slots : SlotTable} (filled : u = { s with slots := slots }) :
    FirstWait (s.isIdle && (nextSlot s.cfg slots).isSome) s.timing (complete (schedule u)) := by
  subst filled
  exact .scheduling { s with slots := slots }

end Admitted

/-! ### The events -/

theorem evIrq_firstWait (s : State) : FirstWait s.irqEnabled s.timing (exec .evIrq s) :=
  .of_complete (fun on unready => serviceIrq_hangs (s := s.enterService .irq) unready on) fun off =>
    ⟨s.enterService .irq, if_neg (Bool.eq_false_iff.1 off)⟩

theorem evTimer_firstWait (s : State) :
    FirstWait (s.timerArmed && s.radioState.isTx) s.timing (exec .evTimer s) := by
  refine .of_complete (fun gets unready => ?_) fun stops => ?_
  · obtain ⟨armed, tx⟩ := Bool.and_eq_true_iff.1 gets
    rw [serviceTimer_tx (s := s.enterService .timer) armed tx]
    exact busStrobe_hangs (s := (s.enterService .timer).disarmTimer) unready _ _
  · by_cases armed : s.timerArmed = true
    · rw [armed, Bool.true_and] at stops
      exact ⟨_, serviceTimer_rx (s := s.enterService .timer) armed stops⟩
    · exact ⟨s.enterService .timer, if_neg armed⟩

/-! ### Operation by operation -/

/-- Every operation and both services, `Instr.reachesWait` telling how far they get. -/
theorem exec_firstWait (i : Instr) (s : State) : FirstWait (i.reachesWait s) s.timing (exec i s) := by
  cases i with
  | init off =>
    have h := FirstWait.inBand (s := s) (f := s.cfg.fCarrier + mhzOfI32 off) (tm := s.timing)
      (body := fun s => complete (initChip (s.cfg.fCarrier + mhzOfI32 off) s))
      (.of_body fun unready => initChip_hangs unready _)
    rwa [Bool.and_true] at h
  | transmit frame =>
    have h := FirstWait.initialised (body := fun s => complete (schedule (s.enqueue frame)))
      (FirstWait.submission (State.enqueue_eq s frame))
    rwa [← Bool.and_assoc] at h
  | transmitList frames =>
    have h := FirstWait.initialised (body := fun s => complete (schedule (frames.foldl State.enqueue s)))
      (FirstWait.submission (State.enqueueAll_eq frames s))
    rwa [← Bool.and_assoc] at h
  | restartRx =>
    have h := FirstWait.initialised (s := s) (tm := s.timing) (body := fun s => complete (restart s))
      (.of_body restart_hangs)
    rwa [Bool.and_true] at h
  | setFreqOffset off =>
    have h := FirstWait.initialised (FirstWait.idle (FirstWait.setFreq (s := s) fun s => s.cfg.fCarrier + mhzOfI32 off))
    rwa [← Bool.and_assoc] at h
  | smSetFreq f =>
    have h := FirstWait.initialised (FirstWait.idle (FirstWait.setFreq (s := s) fun _ => mhzOfU32 f))
    rwa [← Bool.and_assoc] at h
  | smSetBw x =>
    have h := FirstWait.initialised (FirstWait.idle (s := s) (tm := s.timing)
      (body := fun s => complete (drvSetBw (khzOfU32 x) s)) (.of_body fun unready => drvSetBw_hangs unready _))
    rwa [Bool.and_true] at h
  | trackEnable id =>
    have h := FirstWait.initialised (tm := s.timing) (body := fun s => .next (s.enableTracking id).markOk)
      (.of_next (s.enableTracking id).markOk)
    rwa [Bool.and_false] at h
  | trackDisable =>
    have h := FirstWait.initialised (tm := s.timing) (body := fun s => .next s.disableTracking.markOk)
      (.of_next s.disableTracking.markOk)
    rwa [Bool.and_false] at h
  | setFreq f => exact .busFree (.setFreq fun _ => mhzOfU32 f)
  | wrBurst | wrTxFifoBurst =>
    exact .driverUnless rfl (fun given unready => busWriteBurst_hangs unready _ given _) fun empty => ⟨s, if_pos empty⟩
  | rdBurst addr => exact .burstRead (fun _ => addr) (fun s => guardOf s.cfg .rdBurst) rfl
  | rdRxFifo => exact .burstRead (fun s => s.chip.aFifo) (fun s => guardOf s.cfg .rdRxFifo) rfl
  | drvReset => exact .driver rfl drvReset_hangs
  | calibrate => exact .driver rfl drvCalibrate_hangs
  | setBw => exact .driver rfl fun unready => drvSetBw_hangs unready _
  | setBitrate => exact .driver rfl fun unready => drvSetBitrate_hangs unready _
  | setDev => exact .driver rfl fun unready => drvSetDev_hangs unready _
  | setFifoThr => exact .driver rfl fun unready => drvSetFifoThr_hangs unready _
  | activePower => exact .driver rfl drvActivePower_hangs
  | updFreqOffset => exact .driver rfl drvUpdFreqOffset_hangs
  | wrReg | wrTxFifo | irqRxThr | irqTxThr | irqTxUnf => exact .driver rfl fun unready => busWrite_hangs unready _ _ _
  | strobe | lowPower | flushRx | flushTx => exact .driver rfl fun unready => busStrobe_hangs unready _ _
  | rdReg => exact .reading (fun _ b => [b]) rfl fun unready => busRead_hangs unready _ _
  | rdStatus | getRxLvl | getTxLvl =>
    exact .reading (fun _ b => [b]) rfl fun unready => busReadStatus_hangs unready _ _
  | getRssi => exact .reading (fun _ v => i16Bytes (rssiMap v)) rfl fun unready => busReadStatus_hangs unready _ _
  | getLqi => exact .reading (fun s v => i16Bytes (lqiOf s.cfg v)) rfl fun unready => busReadStatus_hangs unready _ _
  | isConnected =>
    exact .reading (fun _ v => boolBytes (decide (v ≠ 0))) rfl fun unready => busReadStatus_hangs unready _ _
  | evIrq => exact evIrq_firstWait s
  | evTimer => exact evTimer_firstWait s

/-- Settles O22, from `exec_firstWait`. -/
theorem unreadyChipHangs : Obligations.UnreadyChipHangs := fun i s =>
  ⟨(exec_firstWait i s).hangs, (exec_firstWait i s).completes⟩

end Sys2Proof.Machine
end

section
/-! What an event service does to the outside (60_exceptions.md R236, 70_reset_and_hazards.md R261): service transactions
only, and no answer. -/

namespace Sys2Proof.Machine

open Sys2Proof.Config

/-- From `s` to `t` nothing was answered, and only service transactions were made. -/
def OnlyServes (s t : State) : Prop :=
  t.responses = s.responses ∧ ∃ es, t.busTrace = s.busTrace ++ es ∧ ∀ e ∈ es, ServiceTxn s.cfg e.txn

theorem Did.onlyServes {s t : State} {regs : Regs} {x : List BusTxn} {p : List FrameRecord} {o : List OpOutcome}
    (d : Did s t regs x [] p o) (serves : ∀ y ∈ x, ServiceTxn s.cfg y) : OnlyServes s t := by
  obtain ⟨es, trace, rfl, -, -⟩ := d.trace_eq
  exact ⟨d.responses_eq.trans (List.append_nil _), es, trace, fun e made => serves _ (List.mem_map_of_mem made)⟩

theorem evIrq_onlyServes {s t : State} (h : exec .evIrq s = .next t) : OnlyServes s t := by
  rcases exec_evIrq h with ⟨-, ignored⟩ | ⟨-, -, _, _, _, received, -, -, serves, -⟩ | ⟨-, -, fed⟩ |
    ⟨-, -, ⟨_, _, -, started⟩ | ⟨-, armed⟩⟩
  · exact ignored.onlyServes fun y made => nomatch made
  · exact received.onlyServes serves
  · exact fed.onlyServes (.feed s _)
  · exact started.onlyServes (.startTx _)
  · exact armed.onlyServes .armRx

theorem ServiceTxn.strobeTx {c : Cfg} : ServiceTxn c (.strobe c.chip.sTx (guardOf c .strobe)) :=
  ⟨by simp, ⟨.strobe, by decide, rfl⟩, fun k g e => by simp at e; simp [e.1]⟩

theorem evTimer_onlyServes {s t : State} (h : exec .evTimer s = .next t) : OnlyServes s t := by
  have cleared : OnlyServes { s with timerPending := false } t := by
    rcases exec_evTimer h with ⟨-, -, strobed⟩ | silent
    · exact strobed.onlyServes fun y made => List.mem_singleton.1 made ▸ ServiceTxn.strobeTx
    · exact silent.onlyServes fun y made => nomatch made
  exact cleared

/-- With distinct strobe codes (00_scope.md R8), the strobes of a service are none of these three. -/
theorem ServiceTxn.ne_strobe {c : Cfg} {x : BusTxn} {k : Byte} (hx : ServiceTxn c x) (lawful : ChipLawful c.chip)
    (hk : k = c.chip.sCal ∨ k = c.chip.sWake ∨ k = c.chip.sPowerDown) (g : Nat) : x ≠ .strobe k g := by
  intro same
  obtain ⟨-, -, strobes⟩ := hx
  have distinct := lawful.strobes
  simp only [List.nodup_cons, List.mem_cons, not_or] at distinct
  rcases strobes k g same with rfl | rfl | rfl <;> grind

/-- Settles O60, from `evIrq_onlyServes` and `evTimer_onlyServes`. -/
theorem servicesNeverResetCalibrateWakeOrAnswer : Obligations.ServicesNeverResetCalibrateWakeOrAnswer := by
  intro i s t es event lawful h trace
  have serves : OnlyServes s t := by
    rcases event with rfl | rfl
    · exact evIrq_onlyServes h
    · exact evTimer_onlyServes h
  obtain ⟨silent, fs, added, service⟩ := serves
  obtain rfl : fs = es := List.append_cancel_left (added.symm.trans trace)
  refine ⟨silent, fun e made => ⟨(service e made).1, fun g => ⟨?_, ?_, ?_⟩⟩⟩
  · exact (service e made).ne_strobe lawful (.inl rfl) g
  · exact (service e made).ne_strobe lawful (.inr (.inl rfl)) g
  · exact (service e made).ne_strobe lawful (.inr (.inr rfl)) g

end Sys2Proof.Machine
end

section
/-! The guards of an event service's transactions (70_reset_and_hazards.md R262): `OnlyServes` says that each is `GuardUs`
of a service operation, and the premise `GuardsBounded` bounds those. -/

namespace Sys2Proof.Machine

open Sys2Proof.Config

theorem exec_event_onlyServes {i : Instr} {s t : State} (event : i = .evIrq ∨ i = .evTimer)
    (h : exec i s = .next t) : OnlyServes s t := by
  rcases event with rfl | rfl
  · exact evIrq_onlyServes h
  · exact evTimer_onlyServes h

/-- `OnlyServes` for a given split of the trace: the entries added are determined by it. -/
theorem OnlyServes.serviceTxn {s t : State} {es : List BusEntry} (serves : OnlyServes s t)
    (trace : t.busTrace = s.busTrace ++ es) : ∀ e ∈ es, ServiceTxn s.cfg e.txn := by
  obtain ⟨-, fs, added, service⟩ := serves
  obtain rfl : fs = es := List.append_cancel_left (added.symm.trans trace)
  exact service

theorem ServiceTxn.guard_le {c : Cfg} {x : BusTxn} (service : ServiceTxn c x) (bounded : GuardsBounded c) :
    x.guard ≤ guardMaxIsrUs := by
  obtain ⟨-, ⟨op, member, guard⟩, -⟩ := service
  exact guard ▸ bounded op member

/-- Settles O59, from `exec_event_onlyServes` and `ServiceTxn.guard_le`. -/
theorem serviceGuardsAreBounded : Obligations.ServiceGuardsAreBounded := fun _ _ _ _ event bounded h trace e made =>
  ((exec_event_onlyServes event h).serviceTxn trace e made).guard_le bounded

end Sys2Proof.Machine
end
